-- ==== Sys2Proof/Word.lean ====
section
/-! DEFINITION. The word types of the TSN-48 and their plainest arithmetic (R1, R65). -/

namespace Sys2Proof

/-- A byte, the unit of memory (R2). -/
abbrev Byte := BitVec 8
/-- A lane, an S-word, a micro-operation (R12, R121, R131). -/
abbrev Word := BitVec 32
/-- An S register, an address, a predicate or lane mask (R28, R88, R192). -/
abbrev DWord := BitVec 64

/-- Signed value clamped to a range (R65, R195). -/
def clampInt (x lo hi : Int) : Int := if x < lo then lo else if x > hi then hi else x

/-- Number of one bits. -/
def popCount {w : Nat} (x : BitVec w) : Nat := (List.range w).foldl (fun n i => if x.getLsbD i then n + 1 else n) 0

/-- Number of leading zero bits: `w` when `x` is zero. -/
def leadZeros {w : Nat} (x : BitVec w) : Nat := if x.toNat = 0 then w else w - 1 - Nat.log2 x.toNat

/-- Lane `l` of a 64-bit lane mask (R27, R38). -/
def bitOf (m : DWord) (l : Nat) : Bool := m.getLsbD l

/-- The 64-bit mask whose bit `l` is `p l`. -/
def maskOf (p : Nat → Bool) : DWord :=
  BitVec.ofNat 64 ((List.range 64).foldl (fun n l => if p l then n + 2 ^ l else n) 0)

/-- Lanes of a mask in increasing order. -/
def lanesOf (m : DWord) : List Nat := (List.range 64).filter (bitOf m)

/-- Lowest lane of a mask. -/
def lowLane (m : DWord) : Option Nat := (lanesOf m).head?

/-- Little-endian bytes of a number, least significant first (R2). -/
def leBytes : Nat → Nat → List Byte
  | 0, _ => []
  | n + 1, x => BitVec.ofNat 8 x :: leBytes n (x / 256)

/-- The number whose little-endian bytes are given (R2). -/
def ofLeBytes : List Byte → Nat
  | [] => 0
  | b :: bs => b.toNat + 256 * ofLeBytes bs

/-- Division rounded up. -/
def ceilDiv (a b : Nat) : Nat := (a + b - 1) / b

end Sys2Proof
end

