-- ==== Sys2Proof/Syntax.lean ====
section
/-! DEFINITION. The instructions and device events of spec/opcode_table.json, one constructor of `Instr` per row, and the
sub-function names their words decode to (R121 to R131). -/

namespace Sys2Proof

/-- An S register number S0 to S63 (R28). -/
abbrev SReg := BitVec 6

/-- The scalar functions of R163, in code order. -/
inductive SaluOp where
  | add | sub | and | or | xor | shl | shr | sra | mul | mulh | mulhw | min | max | minw | maxw | slt | sltw | seq | clz | popc
deriving DecidableEq, Repr

/-- The scopes of R14. -/
inductive Scope where
  | warp | block | course | pier | span | system
deriving DecidableEq, Repr

/-- The fence kinds of R114. -/
inductive FenceKind where
  | acq | rel | full
deriving DecidableEq, Repr

/-- The copy kinds of R180. -/
inductive CopyKind where
  | g2s | s2g | g2g | s2x | gather | p2p
deriving DecidableEq, Repr

/-- The atomic operations of R130. -/
inductive AtomOp where
  | add | min | max | minw | maxw | and | or | xor | xchg | cas | fadd
deriving DecidableEq, Repr

/-- What an L-word's 9-bit name field holds (R125): a name V0 to V383, a queue Q0 to Q7, or a special operand. A predicate
number in a name field (plog, vvote) is held as `v`. -/
inductive Name where
  | v (n : Nat) | q (n : Nat) | imm | lid | zero | wid
deriving DecidableEq, Repr

/-- The guard of an L-word: predicate PG, negated when PN is set (R126). -/
structure Guard where
  p : BitVec 5
  neg : Bool
deriving DecidableEq, Repr

/-- The operand fields of an L-word (R124): the names, the guard, PD, XA and IMM. -/
structure LF where
  vd : Name
  va : Name
  vb : Name
  vc : Name
  g : Guard
  pd : BitVec 5
  xa : Bool
  imm : Word
deriving DecidableEq, Repr

/-- vialu operations (R128). -/
inductive IaluOp where
  | add | sub | mul | mulh | and | or | xor | andn | shl | shr | sra | min | max | abs | popc | clz
deriving DecidableEq, Repr

/-- Integer element types (R128). -/
inductive IType where
  | i32 | w32 | i16x2 | w16x2 | i8x4 | w8x4
deriving DecidableEq, Repr

/-- vcmp conditions (R128). -/
inductive ICond where
  | eq | ne | lt | le | gt | ge
deriving DecidableEq, Repr

/-- Floating-point types of the SUB byte (R129). -/
inductive FType where
  | f32 | f16x2 | b16x2 | f64
deriving DecidableEq, Repr

/-- Rounding modes (R71, R129). -/
inductive RM where
  | rn | rz | ru | rd
deriving DecidableEq, Repr

/-- fcmp conditions (R129). -/
inductive FCond where
  | eq | ne | lt | le | gt | ge | un | ord
deriving DecidableEq, Repr

/-- vsfu functions (R209). -/
inductive SfuOp where
  | rcp | rsq | sqrt | exp2 | log2 | tanh
deriving DecidableEq, Repr

/-- plog operations (R201). -/
inductive PlogOp where
  | and | or | xor | andn | not | mov | setall
deriving DecidableEq, Repr

/-- vshuf modes (R231). -/
inductive ShufMode where
  | idx | up | down | xor
deriving DecidableEq, Repr

/-- vvote modes (R232). -/
inductive VoteMode where
  | all | any | ballot
deriving DecidableEq, Repr

/-- Reduction operations (R128). -/
inductive RedOp where
  | add | min | max | and | or | xor
deriving DecidableEq, Repr

/-- Reduction types (R128). -/
inductive RedType where
  | i32 | w32 | f32
deriving DecidableEq, Repr

/-- Memory widths of 1, 2, 4, 8 and 16 bytes (R130). -/
inductive MemW where
  | b8 | b16 | b32 | b64 | b128
deriving DecidableEq, Repr

/-- Load hints (R98, R130). -/
inductive Hint where
  | none | ro | st
deriving DecidableEq, Repr

/-- What the host answers to a Translation Request (R89, R413): a granted page, or none. Bytes, not page numbers. -/
structure Page where
  pasid : Nat
  vbase : Nat
  size : Nat
  host : Bool
  pbase : Nat
  r : Bool
  w : Bool
  x : Bool
deriving DecidableEq, Repr

/-- A page request response (R413). -/
inductive PriAnswer where
  | success (p : Page) | invalid (insufficient : Bool) | failure
deriving DecidableEq, Repr

/-- Who asked for a translation: a logical core, or a partition's dispatcher (R246, R428). -/
inductive Asker where
  | core (c : Nat) | dispatcher (k : Nat)
deriving DecidableEq, Repr

/-- A function through which the host reaches the BARs (R407), or infill and keystone (R380, R402). -/
inductive BarView where
  | mgmt | notify | debug | vf (k : Nat) | vfNotify (k : Nat) | config (k : Nat) | infill (p : Nat)
deriving DecidableEq, Repr

/-- What comes with a substitution: the coupling figures that infill writes for it, and whether infill asked for it (R399 to R401). -/
structure Retire where
  figures : List Nat
  asked : Bool
deriving DecidableEq, Repr

/-- What names a kernel to infill: its partition, PASID and descriptor address (R157; that the PASID belongs to the name is assumption 109). -/
structure KernelName where
  part : Nat
  pasid : Nat
  kdesc : Nat
deriving DecidableEq, Repr

/-- A firmware image that verified: keystone's or infill's (R421, R424). -/
inductive FwImage where
  | keystone (n : Nat) | infill (n : Nat)
deriving DecidableEq, Repr

/-- A storage unit in which the codes of R385 find an error. -/
inductive EccUnit where
  | row (core q n lane : Nat)
  | scratch (block granule : Nat)
  | l1 (core line granule : Nat)
  | rdc (pier line granule : Nat)
  | l2 (granule : Nat)
  | dram (granule : Nat)
  | tile (block t row : Nat)
  | acc (block c i j : Nat)
  | sreg (block warp n : Nat)
  | queue (block warp q entry : Nat)
  | kreg (block warp n : Nat)
  | pred (block warp n : Nat)
deriving DecidableEq, Repr

/-- A master that can be frozen (R403). -/
inductive Master where
  | core (c : Nat) | copyEngine (c : Nat) | hostFn (k : Nat) | infill (p : Nat)
deriving DecidableEq, Repr

/-- A host PCIe AtomicOp (R101, R406). -/
inductive PcieAtomic where
  | fetchAdd | swap | cas
deriving DecidableEq, Repr

/-- What a peer's request asks (R416). -/
inductive PeerKind where
  | read (n : Nat) | write (bytes : List Byte) | atomic (op : AtomOp) (wide : Bool) (b c : DWord)
deriving DecidableEq, Repr

/-- One instruction of a warp, or one event of the device: one constructor per row of spec/opcode_table.json. The
S- and L-instructions act on the warp that State selects; an event names what it acts on. -/
inductive Instr where
  | sysNop | sysExit | sysYield | sysTrig | sysEret | sysBkpt | sysPause (a : SReg) | sysIdem | sysCtclose
  | sysMfence (d : SReg) | sysKclr (m : BitVec 4)
  | salu (f : SaluOp) (d a b : SReg)
  | saddi (d a : SReg) (i : BitVec 14) | sandi (d a : SReg) (i : BitVec 14) | sori (d a : SReg) (i : BitVec 14)
  | sxori (d a : SReg) (i : BitVec 14) | sshli (d a n : SReg) | sshri (d a n : SReg) | ssrai (d a n : SReg)
  | slui (d : SReg) (i : BitVec 14) | slit (d : SReg) (k : Word) | slith (d : SReg) (k : Word)
  | sbeq (a b : SReg) (o : BitVec 14) | sbne (a b : SReg) (o : BitVec 14) | sblt (a b : SReg) (o : BitVec 14)
  | sbge (a b : SReg) (o : BitVec 14) | sbltw (a b : SReg) (o : BitVec 14) | sbgew (a b : SReg) (o : BitVec 14)
  | sbr (d : SReg) (o : BitVec 20) | sjr (d a : SReg)
  | sld (d a : SReg) (w : BitVec 2) (i : BitVec 12) | sst (d a : SReg) (w : BitVec 2) (i : BitVec 12)
  | slds (d a : SReg) (w : BitVec 2) (i : BitVec 12) | ssts (d a : SReg) (w : BitVec 2) (i : BitVec 12)
  | pushq (q : BitVec 2) (a : SReg) | popq (d : SReg) (q : BitVec 2)
  | lgo (o : BitVec 20) | lgor (a : SReg)
  | cpy (k : CopyKind) (a : SReg) | waitc (l s c m : BitVec 6) | fence (k : FenceKind) (s : Scope)
  | bar (course arrive : Bool) (n : BitVec 4) (a : SReg)
  | tcfg (t : BitVec 4) (a : SReg) | tld (s : Bool) (t : BitVec 4) (a b : SReg) | tst (s : Bool) (t : BitVec 4) (a b : SReg)
  | mma (c : BitVec 6) (ta tb : BitVec 4) (fs : SReg) | aclr (c : BitVec 6)
  | drain (c : BitVec 6) (p : BitVec 5) (ds : SReg) (k : Option (BitVec 2)) | drld (slot : BitVec 5) (a : SReg)
  | mwait (a : SReg) | csrr (d : SReg) (n : BitVec 12) | csrw (n : BitVec 12) (a : SReg)
  | ctopen (d : SReg) (o : BitVec 20) | chkEq (a b : BitVec 2) | chkRel (a b : BitVec 2) (t : SReg)
  | kmovR (d : SReg) (k : BitVec 2) | kmovW (k : BitVec 2) (a : SReg) | trap (code : BitVec 16)
  | satom (op : AtomOp) (wide : Bool) (sc : Scope) (d a b : SReg)
  | lnop (f : LF) | lnext (f : LF) | lbr (f : LF) | ljoin (f : LF) | rep (f : LF) | lpart (f : LF)
  | vialu (op : IaluOp) (ty : IType) (f : LF) | vmad (w : Bool) (f : LF) | vbfe (sx : Bool) (f : LF) | vbfi (f : LF)
  | vsel (f : LF) | vcmp (c : ICond) (ty : IType) (f : LF)
  | fadd (ty : FType) (rm : RM) (na nb : Bool) (f : LF) | fmul (ty : FType) (rm : RM) (na nb : Bool) (f : LF)
  | ffma (ty : FType) (rm : RM) (na nb nc : Bool) (f : LF)
  | fmin (ty : FType) (f : LF) | fmax (ty : FType) (f : LF) | fcmp (c : FCond) (ty : FType) (f : LF)
  | fcvt (dst src : BitVec 4) (f : LF) | frnd (ty : FType) (rm : RM) (f : LF) | fclass (ty : FType) (f : LF)
  | vsfu (op : SfuOp) (f : LF) | plog (op : PlogOp) (f : LF)
  | vshuf (m : ShufMode) (f : LF) | vvote (m : VoteMode) (f : LF) | vredux (op : RedOp) (ty : RedType) (f : LF)
  | vscan (op : RedOp) (ty : RedType) (excl : Bool) (f : LF) | vbcast (f : LF)
  | acqWait (f : LF) | acqTry (f : LF) | rel (f : LF) | aliasOp (f : LF) | rmov (f : LF) | unmap (f : LF)
  | give (f : LF) | take (f : LF) | takeTry (f : LF) | copy (f : LF) | mapq (f : LF)
  | ld (qb : Bool) (h : Hint) (sx : Bool) (w : MemW) (f : LF) | st (qb : Bool) (w : MemW) (f : LF)
  | lds (sx : Bool) (w : MemW) (f : LF) | sts (w : MemW) (f : LF) | ldx (sx : Bool) (w : MemW) (f : LF) | stx (w : MemW) (f : LF)
  | atom (op : AtomOp) (wide : Bool) (sc : Scope) (f : LF) | atoms (op : AtomOp) (wide : Bool) (sc : Scope) (f : LF)
  | atomx (op : AtomOp) (wide : Bool) (sc : Scope) (f : LF) | red (op : AtomOp) (wide : Bool) (sc : Scope) (f : LF)
  | csum (k : BitVec 2) (f : LF) | csumf (k : BitVec 2) (f : LF)
  | retired (op : BitVec 4) (sub : Byte) (f : LF)
  -- the matrix and drain engines of core `c` (R262); `n` is how much the unit does in this event, `e` the drain engine
  | tcfgRun (c : Nat) | tldRun (c n : Nat) | tstRun (c n : Nat) | aclrRun (c : Nat) | drldRun (c : Nat) | mmaRun (c : Nat)
  | drainRun (c e n : Nat) | drainComplete (c e : Nat) | drainPark (c e : Nat) (perm : Bool) | drainResume (c e : Nat)
  | engineFault (c : Nat) (perm : Bool)
  | copyComplete (c k : Nat) | copyFault (c k : Nat) (perm : Bool)
  -- memory; `b` is a block, `w` a warp index, `id` an operation
  | storeBufferLeave (b w : Nat) | storeAck (id : Nat) | loadResponse (id : Nat) | vsfuResult (b w : Nat)
  | priResponse (who : Asker) (pasid va : Nat) (a : PriAnswer)
  | atsInvalidation (pasid base size : Nat)
  | barrierPhaseComplete (course : Bool) (b n : Nat) | bankerSlotReadable (b slot : Nat) | acqServed (c q : Nat)
  | splitStackPop (b w : Nat) | splitStackExchange (b w : Nat) | qdead (b w : Nat) | splitDeadlock (b w : Nat)
  | wtimer (b w : Nat) | infillResume (b w : Nat) (ok : Bool) (flags : Byte) (rowA rowB : List Word)
  | consumptionReport (b w : Nat) | eccError (u : EccUnit) (correctable : Bool) | scrub (granule : Nat) (found : Option Bool)
  -- the dispatcher of partition `k`; `n` is a queue, `i` a packet
  | notifyWrite (k n off size : Nat) (v : DWord) | queueEnable (k n : Nat) | queueAbort (k n : Nat) | queueReset (k n : Nat)
  | grant (k n : Nat) (v : DWord) | registerWrite (v : BarView) (off size : Nat) (x : DWord)
  | packetRead (k n : Nat) | placementDecision (k : Nat) | gridYield (k n i : Nat) | budgetExhausted (k n i : Nat)
  | blockEvent (b : Nat) | gridComplete (k n i : Nat) | preempt (b : Nat) | blockRestore (k : Nat)
  -- courses, sensors, power; `co` is a COURSEID, `p` a pier
  | powerGateEscalate (co : Nat) | gateRelease (co : Nat) | sensorSample (p : Nat) (vault core : List Int) | hardTripRestart
  | capMessage (seq : DWord) (watts leaseMs : Nat) | capLeaseExpiry | frequencyChange (c mhz vscale : Nat)
  | switchMatrixWrite (co : Nat) (x : DWord) | switchMatrixApply (co : Nat)
  | coreRetire (c : Nat) (r : Retire) | vaultRetire (p v : Nat) (r : Retire) | masterFreeze (m : Master) (pa : Nat)
  -- the debug BAR
  | watchpointArm (c n : Nat) (x : DWord) (a : Option Page) | instructionBreakpoint (c n b w : Nat) (split : Nat)
  | dcmdStop (c : Nat) | dcmdResume (c : Nat) | dcmdStep (c slot : Nat) (lane : Bool) (split : Nat) | dcmdCancelStep (c : Nat)
  | dcmdPreempt (c slot : Nat) (avoid : Option Nat) | stepDone (co : Nat)
  | dwdataRead (c : Nat) | dwdataWrite (c : Nat) (x : DWord) | dinjWrite (c : Nat) (x : DWord)
  -- bring-up, functions, partitions, trusted interfaces
  | powerOn (failStep : Nat) (maps vaults vra coup thp vscale : List Nat) (regs : BitVec 4) | pfFlr | vfFlr (k : Nat)
  | partitionEntryWrite (k off size : Nat) (x : DWord)
  | lockInterface (k : Nat) | startInterface (k : Nat) | stopInterface (k : Nat) | frozenItemWrite (v : BarView) (off size : Nat)
  | getInterfaceReport (k : Nat) | getMeasurements
  -- the host and peers
  | hostAtomicop (op : PcieAtomic) (wide : Bool) (pa : Nat) (b c : DWord)
  | peerRequest (d : Nat) (kind : PeerKind) (va : Nat) (a : Option Page) | peerNotify (d va : Nat) (write : Bool) (size : Nat) (x : DWord)
  | peerRefusal (id : Nat) (perm : Bool) | portDown (p : Nat) | portUp (p : Nat)
  | translationCompletion (who : Asker) (pasid va : Nat) (a : Option Page)
  | powerAllowanceRefill | farRowResult (c id : Nat)
  | infillRegistration (withdraw : Bool) (k : KernelName) (lbase size : Nat) (opcodes : BitVec 16) (held : BitVec 16)
  | firmwareImageUpdate (img : FwImage) | masterRelease (m : Master)
deriving DecidableEq, Repr

end Sys2Proof
end

