-- ==== Sys2Proof/Machine/Float.lean ====
section
/-! DEFINITION. Floating-point formats and exact arithmetic over them (R62 to R79): a value is unpacked to an exact number,
computed exactly, and rounded once. Special functions are computed to more bits than any F32 input can need and rounded
with a sticky bit (R79). -/

namespace Sys2Proof.Machine

/-! ### Exception flags (R75) -/

abbrev FFlags := BitVec 5
def flNV : FFlags := 16
def flDZ : FFlags := 8
def flOF : FFlags := 4
def flUF : FFlags := 2
def flNX : FFlags := 1

/-! ### Formats (R62, R63) -/

/-- What a format's all-ones exponent holds. -/
inductive FSpecial where
  | ieee | e4 | none
deriving DecidableEq, Repr

/-- A floating-point format: exponent and fraction widths, bias, and its special encodings. -/
structure FFmt where
  ew : Nat
  fw : Nat
  bias : Nat
  sp : FSpecial
deriving DecidableEq, Repr

def fmF32 : FFmt := ⟨8, 23, 127, .ieee⟩
def fmF16 : FFmt := ⟨5, 10, 15, .ieee⟩
def fmB16 : FFmt := ⟨8, 7, 127, .ieee⟩
def fmF64 : FFmt := ⟨11, 52, 1023, .ieee⟩
/-- The floating-point formats among the codes of R62. -/
def fmtOfCode (c : Nat) : Option FFmt :=
  match c with
  | 0x0 => some fmF32 | 0x1 => some fmF16 | 0x2 => some fmB16 | 0x3 => some ⟨4, 3, 7, .e4⟩ | 0x4 => some ⟨5, 2, 15, .ieee⟩
  | 0x5 => some ⟨2, 3, 1, .none⟩ | 0x6 => some ⟨3, 2, 3, .none⟩ | 0x7 => some ⟨2, 1, 1, .none⟩ | 0xE => some fmF64
  | _ => none
/-- The integer formats: width and signedness (R65). -/
def intOfCode (c : Nat) : Option (Nat × Bool) :=
  match c with
  | 0x8 => some (8, true) | 0x9 => some (8, false) | 0xA => some (4, true) | 0xB => some (16, true) | 0xC => some (32, true)
  | 0xD => some (32, false) | _ => none
/-- The element width of a format code in bits (R62); BPI planes are one bit. -/
def codeBits (c : Nat) : Nat :=
  match c with
  | 0x0 => 32 | 0x1 => 16 | 0x2 => 16 | 0x3 => 8 | 0x4 => 8 | 0x5 => 6 | 0x6 => 6 | 0x7 => 4 | 0x8 => 8 | 0x9 => 8 | 0xA => 4
  | 0xB => 16 | 0xC => 32 | 0xD => 32 | 0xE => 64 | _ => 1
def ftyFmt : FType → FFmt
  | .f32 => fmF32 | .f16x2 => fmF16 | .b16x2 => fmB16 | .f64 => fmF64

def FFmt.width (f : FFmt) : Nat := 1 + f.ew + f.fw
def FFmt.emax1 (f : FFmt) : Nat := 2 ^ f.ew - 1
/-- The pattern of a sign, an exponent field and a fraction. -/
def fPat (f : FFmt) (neg : Bool) (e m : Nat) : Nat := neg.toNat * 2 ^ (f.ew + f.fw) + e * 2 ^ f.fw + m
/-- The largest finite magnitude as exponent field and fraction (R63). -/
def maxFin (f : FFmt) : Nat × Nat :=
  match f.sp with
  | .ieee => (f.emax1 - 1, 2 ^ f.fw - 1)
  | .e4 => (f.emax1, 2 ^ f.fw - 2)
  | .none => (f.emax1, 2 ^ f.fw - 1)
/-- The infinity of a format that has one. -/
def infPat (f : FFmt) (neg : Bool) : Nat := fPat f neg f.emax1 0
/-- The canonical NaN (R73). -/
def canonNaN (f : FFmt) : Nat :=
  match f.sp with
  | .e4 => 0x7F
  | _ => fPat f false f.emax1 (2 ^ (f.fw - 1))

/-! ### Values -/

/-- An unpacked value: a NaN (signalling or not), an infinity, or the exact (-1)^neg · m · 2^e. -/
inductive FV where
  | nan (sig : Bool) | inf (neg : Bool) | fin (neg : Bool) (m : Nat) (e : Int)
deriving DecidableEq, Repr

def fNeg (f : FFmt) (x : Nat) : Bool := x / 2 ^ (f.ew + f.fw) % 2 == 1
/-- Reads a pattern; with `daz`, a subnormal reads as zero (R63, R72). -/
def unpack (f : FFmt) (daz : Bool) (x : Nat) : FV :=
  let neg := fNeg f x
  let e := x / 2 ^ f.fw % 2 ^ f.ew
  let m := x % 2 ^ f.fw
  if f.sp = .ieee ∧ e = f.emax1 then
    if m = 0 then .inf neg else .nan (m < 2 ^ (f.fw - 1))
  else if f.sp = .e4 ∧ e = f.emax1 ∧ m = 2 ^ f.fw - 1 then .nan false
  else if e = 0 then if daz then .fin neg 0 0 else .fin neg m (1 - (f.bias : Int) - f.fw)
  else .fin neg (2 ^ f.fw + m) ((e : Int) - f.bias - f.fw)

def isNaN : FV → Bool
  | .nan _ => true | _ => false
def isSig : FV → Bool
  | .nan s => s | _ => false
def isZero : FV → Bool
  | .fin _ 0 _ => true | _ => false

/-- Bits needed to write a number. -/
def bitLen (m : Nat) : Nat := if m = 0 then 0 else Nat.log2 m + 1
/-- Whether a discarded part rounds the kept magnitude up (R71): `rest` of `2^sh`, with `sticky` for a part below it. -/
def roundsUp (rm : RM) (neg : Bool) (q rest sh : Nat) (sticky : Bool) : Bool :=
  let half := 2 ^ (sh - 1)
  match rm with
  | .rn => if sh = 0 then false else rest > half || (rest == half && (sticky || q % 2 == 1))
  | .rz => false
  | .ru => !neg && (rest != 0 || sticky)
  | .rd => neg && (rest != 0 || sticky)
/-- Rounds m · 2^e (plus a part below the last bit where `sticky`) to a multiple of 2^q: the multiple, and inexactness. -/
def roundAt (rm : RM) (neg : Bool) (m : Nat) (e q : Int) (sticky : Bool) : Nat × Bool :=
  if q ≤ e then (m * 2 ^ (e - q).toNat, sticky)
  else
    let sh := (q - e).toNat
    let k := m / 2 ^ sh
    let r := m % 2 ^ sh
    (if roundsUp rm neg k r sh sticky then k + 1 else k, r != 0 || sticky)

/-- Rounds the exact (-1)^neg · m · 2^e into a format, with the flags of R71, R72 and R77: overflow is judged on the value
rounded with an unbounded exponent, tininess after rounding. `m` must carry at least two bits more than the format where
`sticky` is set. -/
def roundTo (f : FFmt) (rm : RM) (ftz sat : Bool) (neg : Bool) (m : Nat) (e : Int) (sticky : Bool) : Nat × FFlags :=
  if m = 0 then (fPat f neg 0 0, 0)
  else
    let emin : Int := 1 - f.bias
    let q : Int := e + bitLen m - 1 - f.fw
    let u := roundAt rm neg m e q sticky
    let top : Int := q + bitLen u.1 - 1
    let mx := maxFin f
    let mxQ : Int := (mx.1 : Int) - f.bias - f.fw
    let past := if q ≥ mxQ then decide (u.1 * 2 ^ (q - mxQ).toNat > 2 ^ f.fw + mx.2)
                else decide (u.1 > (2 ^ f.fw + mx.2) * 2 ^ (mxQ - q).toNat)
    if past then
      let away : Bool := match rm with | .rn => true | .rz => false | .ru => !neg | .rd => neg
      let r := if sat || f.sp == .none || !away then fPat f neg mx.1 mx.2
               else match f.sp with
                 | .e4 => neg.toNat * 128 + 0x7F
                 | _ => infPat f neg
      (r, flOF ||| flNX)
    else if top < emin then
      if ftz then (fPat f neg 0 0, flUF ||| flNX)
      else
        let v := roundAt rm neg m e (emin - f.fw) sticky
        (neg.toNat * 2 ^ (f.ew + f.fw) + v.1, if v.2 then flUF ||| flNX else 0)
    else
      let frac := u.1 * 2 ^ f.fw / 2 ^ (bitLen u.1 - 1) % 2 ^ f.fw
      (fPat f neg (top + f.bias).toNat frac, if u.2 then flNX else 0)

/-! ### NaN results (R73) -/

/-- A NaN pattern quieted. -/
def quiet (f : FFmt) (x : Nat) : Nat := x ||| 2 ^ (f.fw - 1)
/-- The NaN an operation returns: the first NaN operand quieted under LNAN, else the canonical NaN. -/
def nanResult (f : FFmt) (lnan : Bool) (ops : List Nat) : Nat :=
  if lnan then
    match ops.find? fun x => isNaN (unpack f false x) with
    | some x => quiet f x
    | none => canonNaN f
  else canonNaN f
def nvIf (b : Bool) : FFlags := if b then flNV else 0

/-- The mode bits that lane arithmetic obeys (R45, R72, R73). -/
structure FMode where
  ftz : Bool := false
  daz : Bool := false
  lnan : Bool := false
  lrnd : Bool := false
deriving DecidableEq, Repr

def flipIf (f : FFmt) (b : Bool) (x : Nat) : Nat := if b then x ^^^ 2 ^ (f.ew + f.fw) else x

/-! ### Arithmetic (R203) -/

/-- The sum of two exact finite values, rounded; the sign of an exact zero follows IEEE 754. -/
def addFin (f : FFmt) (rm : RM) (ftz : Bool) (an : Bool) (am : Nat) (ae : Int) (bn : Bool) (bm : Nat) (be : Int) : Nat × FFlags :=
  let e := min ae be
  let x : Int := (if an then -1 else 1) * (am * 2 ^ (ae - e).toNat : Nat)
  let y : Int := (if bn then -1 else 1) * (bm * 2 ^ (be - e).toNat : Nat)
  let z := x + y
  if z = 0 then
    let neg := if am = 0 ∧ bm = 0 ∧ an = bn then an else decide (rm = .rd)
    (fPat f neg 0 0, 0)
  else roundTo f rm ftz false (decide (z < 0)) z.natAbs e false

def addV (f : FFmt) (rm : RM) (md : FMode) (ops : List Nat) (a b : FV) : Nat × FFlags :=
  let nv := nvIf (isSig a || isSig b)
  match a, b with
  | .nan _, _ | _, .nan _ => (nanResult f md.lnan ops, nv)
  | .inf an, .inf bn => if an = bn then (infPat f an, 0) else (canonNaN f, flNV)
  | .inf an, _ => (infPat f an, 0)
  | _, .inf bn => (infPat f bn, 0)
  | .fin an am ae, .fin bn bm be => addFin f rm md.ftz an am ae bn bm be

/-- a + b (R203). -/
def fAdd (f : FFmt) (rm : RM) (md : FMode) (a b : Nat) : Nat × FFlags :=
  addV f rm md [a, b] (unpack f md.daz a) (unpack f md.daz b)

/-- a × b (R203). -/
def fMul (f : FFmt) (rm : RM) (md : FMode) (a b : Nat) : Nat × FFlags :=
  let x := unpack f md.daz a
  let y := unpack f md.daz b
  let nv := nvIf (isSig x || isSig y)
  match x, y with
  | .nan _, _ | _, .nan _ => (nanResult f md.lnan [a, b], nv)
  | .inf an, .inf bn => (infPat f (an != bn), 0)
  | .inf an, .fin bn m _ | .fin an m _, .inf bn => if m = 0 then (canonNaN f, flNV) else (infPat f (an != bn), 0)
  | .fin an am ae, .fin bn bm be => roundTo f rm md.ftz false (an != bn) (am * bm) (ae + be) false

/-- a × b + c with one rounding; 0 × ∞ raises NV even beside a quiet NaN c (R203). -/
def fFma (f : FFmt) (rm : RM) (md : FMode) (a b c : Nat) : Nat × FFlags :=
  let x := unpack f md.daz a
  let y := unpack f md.daz b
  let z := unpack f md.daz c
  let bad := match x, y with
    | .inf _, .fin _ 0 _ | .fin _ 0 _, .inf _ => true
    | _, _ => false
  let nv := nvIf (isSig x || isSig y || isSig z || bad)
  if isNaN x || isNaN y || isNaN z then (nanResult f md.lnan [a, b, c], nv)
  else if bad then (canonNaN f, nv)
  else match x, y with
    | .fin an am ae, .fin bn bm be => match z with
      | .fin cn cm ce => addFin f rm md.ftz (an != bn) (am * bm) (ae + be) cn cm ce
      | .inf cn => (infPat f cn, 0)
      | .nan _ => (canonNaN f, 0)
    | .inf an, .inf bn | .inf an, .fin bn _ _ | .fin an _ _, .inf bn => match z with
      | .inf cn => if cn = (an != bn) then (infPat f cn, 0) else (canonNaN f, flNV)
      | _ => (infPat f (an != bn), 0)
    | _, _ => (canonNaN f, 0)

/-! ### Comparison (R74, R204, R205) -/

/-- Compares two ordered values: negative, zero or positive. -/
def cmpV (a b : FV) : Int :=
  match a, b with
  | .inf an, .inf bn => if an = bn then 0 else if an then -1 else 1
  | .inf an, _ => if an then -1 else 1
  | _, .inf bn => if bn then 1 else -1
  | .fin an am ae, .fin bn bm be =>
    let e := min ae be
    (if an then -1 else 1) * (am * 2 ^ (ae - e).toNat : Nat) - (if bn then -1 else 1) * (bm * 2 ^ (be - e).toNat : Nat)
  | _, _ => 0
/-- The pattern an operand reads as under DAZ. -/
def dazPat (f : FFmt) (daz : Bool) (x : Nat) : Nat := if isZero (unpack f daz x) then fPat f (fNeg f x) 0 0 else x
/-- minimumNumber (`mx` false) or maximumNumber, with −0 below +0 (R74). -/
def fMinMax (f : FFmt) (md : FMode) (mx : Bool) (a b : Nat) : Nat × FFlags :=
  let x := unpack f md.daz a
  let y := unpack f md.daz b
  let nv := nvIf (isSig x || isSig y)
  if isNaN x && isNaN y then (nanResult f md.lnan [a, b], nv)
  else if isNaN x then (dazPat f md.daz b, nv)
  else if isNaN y then (dazPat f md.daz a, nv)
  else
    let c := cmpV x y
    let aLess := c < 0 || (c == 0 && fNeg f a && !fNeg f b)
    let pickA := if mx then !aLess else aLess || c == 0 && fNeg f a == fNeg f b
    (if pickA then dazPat f md.daz a else dazPat f md.daz b, nv)
/-- The condition of fcmp and the NV it raises (R205). -/
def fCmp (f : FFmt) (md : FMode) (c : FCond) (a b : Nat) : Bool × FFlags :=
  let x := unpack f md.daz a
  let y := unpack f md.daz b
  let n := isNaN x || isNaN y
  let k := cmpV x y
  let nv := nvIf (match c with | .lt | .le | .gt | .ge => n | _ => isSig x || isSig y)
  (match c with
   | .eq => !n && k == 0 | .ne => n || k != 0 | .lt => !n && k < 0 | .le => !n && k ≤ 0 | .gt => !n && k > 0 | .ge => !n && k ≥ 0
   | .un => n | .ord => !n, nv)
/-- The class mask of fclass, a single bit (R208). -/
def fClass (f : FFmt) (x : Nat) : Nat :=
  match unpack f false x with
  | .nan true => 2 ^ 8 | .nan false => 2 ^ 9
  | .inf true => 2 ^ 0 | .inf false => 2 ^ 7
  | .fin neg m _ =>
    if m = 0 then if neg then 2 ^ 3 else 2 ^ 4
    else if x / 2 ^ f.fw % 2 ^ f.ew = 0 then if neg then 2 ^ 2 else 2 ^ 5
    else if neg then 2 ^ 1 else 2 ^ 6

/-! ### Conversions (R77, R78) -/

/-- An integer of a width from its low bits. -/
def intVal (w : Nat) (sg : Bool) (x : Nat) : Int :=
  let v := x % 2 ^ w
  if sg ∧ v ≥ 2 ^ (w - 1) then (v : Int) - 2 ^ w else v
def intLo (w : Nat) (sg : Bool) : Int := if sg then -(2 ^ (w - 1)) else 0
def intHi (w : Nat) (sg : Bool) : Int := if sg then 2 ^ (w - 1) - 1 else 2 ^ w - 1
/-- The low bits of an integer. -/
def intPat (w : Nat) (v : Int) : Nat := (v % (2 ^ w : Int)).toNat
/-- An exact value rounded to an integer. -/
def roundInt (rm : RM) (neg : Bool) (m : Nat) (e : Int) : Int × Bool :=
  let r := roundAt rm neg m e 0 false
  ((if neg then -1 else 1) * (r.1 : Int), r.2)
/-- A NaN carried to another format under LNAN keeps its sign and the high bits of its payload (R73). -/
def nanConv (d s : FFmt) (lnan : Bool) (x : Nat) : Nat :=
  if lnan then
    match d.sp with
    | .e4 => (fNeg s x).toNat * 128 + 0x7F
    | _ =>
      let m := x % 2 ^ s.fw
      fPat d (fNeg s x) d.emax1 (((if d.fw ≤ s.fw then m / 2 ^ (s.fw - d.fw) else m * 2 ^ (d.fw - s.fw)) ||| 2 ^ (d.fw - 1)) % 2 ^ d.fw)
  else canonNaN d

/-- fcvt of one element between format codes (R77, R78, R206). A float that rounds inexactly to an integer outside the destination's range
raises NV alone, as IEEE 754 has it: R78 names NV for the bound and NX for an inexact rounding and not the two together (assumption 88). -/
def fConv (dst src : Nat) (rm : RM) (md : FMode) (sat : Bool) (x : Nat) : Nat × FFlags :=
  match fmtOfCode dst, fmtOfCode src, intOfCode dst, intOfCode src with
  | some d, some s, _, _ =>
    let rm := if md.lrnd ∧ src = 0 ∧ (dst = 1 ∨ dst = 2 ∨ dst = 3 ∨ dst = 4) then .rz else rm
    match unpack s md.daz x with
    | .nan sig => if d.sp = .none then (0, flNV) else (nanConv d s md.lnan x, nvIf sig)
    | .inf neg =>
      if sat ∨ d.sp = .none then (fPat d neg (maxFin d).1 (maxFin d).2, 0)
      else if d.sp = .e4 then (neg.toNat * 128 + 0x7F, flNV) else (infPat d neg, 0)
    | .fin neg m e => roundTo d rm md.ftz sat neg m e false
  | none, some s, some (w, sg), _ =>
    match unpack s md.daz x with
    | .nan _ => (0, flNV)
    | .inf neg => (intPat w (if neg then intLo w sg else intHi w sg), flNV)
    | .fin neg m e =>
      let r := roundInt rm neg m e
      let v := clampInt r.1 (intLo w sg) (intHi w sg)
      (intPat w v, if v ≠ r.1 then flNV else if r.2 then flNX else 0)
  | some d, none, _, some (w, sg) =>
    let v := intVal w sg x
    roundTo d rm md.ftz sat (decide (v < 0)) v.natAbs 0 false
  | none, none, some (w, sg), some (w', sg') =>
    let v := intVal w' sg' x
    (intPat w (if sat then clampInt v (intLo w sg) (intHi w sg) else v), 0)
  | _, _, _, _ => (0, 0)

/-- frnd of one element: rounds to an integral value in its own format (R78, R207). -/
def fRnd (f : FFmt) (rm : RM) (md : FMode) (x : Nat) : Nat × FFlags :=
  match unpack f md.daz x with
  | .nan sig => (nanResult f md.lnan [x], nvIf sig)
  | .inf neg => (infPat f neg, 0)
  | .fin neg m e =>
    if m = 0 then (fPat f neg 0 0, 0)
    else
      let r := roundAt rm neg m e 0 false
      if r.1 = 0 then (fPat f neg 0 0, if r.2 then flNX else 0)
      else ((roundTo f .rn false false neg r.1 0 false).1, if r.2 then flNX else 0)

/-! ### Special functions (R79) -/

/-- Floor of the square root, one bit at a time from bit `k` down. -/
def isqrtAux (n : Nat) : Nat → Nat → Nat
  | 0, r => if (r + 1) * (r + 1) ≤ n then r + 1 else r
  | k + 1, r => isqrtAux n k (if (r + 2 ^ (k + 1)) * (r + 2 ^ (k + 1)) ≤ n then r + 2 ^ (k + 1) else r)
def isqrt (n : Nat) : Nat := isqrtAux n (bitLen n / 2 + 1) 0

/-- Fixed-point precision of the irrational functions. -/
def fxP : Nat := 192
/-- 2^(2^-i) in fixed point, by repeated square roots. -/
def fxRoots : Nat → Nat → List Nat
  | 0, _ => []
  | n + 1, x => let r := isqrt (x * 2 ^ fxP); r :: fxRoots n r
/-- 2^f for a fraction of `bits` bits (`x` of 2^bits), as a product of roots of two. -/
def exp2Frac (x bits : Nat) : Nat :=
  ((fxRoots bits (2 * 2 ^ fxP)).zipIdx.foldl
    (fun acc e => if x / 2 ^ (bits - 1 - e.2) % 2 = 1 then acc * e.1 / 2 ^ fxP else acc) (2 ^ fxP))
/-- `n` bits of log2 of y in [1, 2), by repeated squaring. -/
def log2Bits : Nat → Nat → Nat → Nat
  | 0, _, acc => acc
  | n + 1, y, acc =>
    let z := y * y / 2 ^ fxP
    if z ≥ 2 ^ (fxP + 1) then log2Bits n (z / 2) (2 * acc + 1) else log2Bits n z (2 * acc)
/-- The Taylor terms of exp. -/
def expTerms (y : Nat) : Nat → Nat → Nat → Nat → Nat
  | 0, _, _, acc => acc
  | n + 1, k, t, acc => let t := t * y / 2 ^ fxP / k; expTerms y n (k + 1) t (acc + t)
def squareN : Nat → Nat → Nat
  | 0, x => x
  | n + 1, x => squareN n (x * x / 2 ^ fxP)
/-- exp of a fixed-point y below 64: argument halved eight times, summed, squared back. -/
def fxExp (y : Nat) : Nat := squareN 8 (expTerms (y / 256) 48 1 (2 ^ fxP) (2 ^ fxP))

/-- A positive approximation x of 2^-p rounded to F32 with a sticky part. -/
def roundFx (md : FMode) (neg : Bool) (x : Nat) (p : Int) : Nat × FFlags := roundTo fmF32 .rn md.ftz false neg x (-p) true

/-- The value of |x| = m · 2^e in fixed point. -/
def toFx (m : Nat) (e : Int) : Nat :=
  let k := e + fxP
  if k ≥ 0 then m * 2 ^ k.toNat else m / 2 ^ (-k).toNat

/-- 2^x of a finite x (R79): exact for an integer x, else correctly rounded. -/
def exp2Fin (md : FMode) (neg : Bool) (m : Nat) (e : Int) : Nat × FFlags :=
  if m = 0 then (0x3F800000, 0)
  else if e + bitLen m > 9 then
    if neg then roundTo fmF32 .rn md.ftz false false 1 (-1000) false else roundTo fmF32 .rn md.ftz false false 1 1000 false
  else if e + bitLen m < -30 then (0x3F800000, flNX)
  else
    let bits := (-e).toNat
    let v : Int := (if neg then -1 else 1) * (if e ≥ 0 then (m * 2 ^ e.toNat : Nat) else (m : Nat))
    let i := v / (2 ^ bits : Int)
    let fr := (v % (2 ^ bits : Int)).toNat
    if fr = 0 then roundTo fmF32 .rn md.ftz false false 1 i false
    else roundFx md false (exp2Frac fr bits) (fxP - i)

/-- log2 of a positive finite x (R79): exact for a power of two. -/
def log2Fin (md : FMode) (m : Nat) (e : Int) : Nat × FFlags :=
  let k : Int := e + bitLen m - 1
  if m = 2 ^ (bitLen m - 1) then
    if k = 0 then (0, 0) else roundTo fmF32 .rn md.ftz false (decide (k < 0)) k.natAbs 0 false
  else
    let y := m * 2 ^ (fxP - (bitLen m - 1))
    let n := 120
    let v : Int := k * 2 ^ n + log2Bits n y 0
    if v ≥ 0 then roundFx md false v.natAbs n else roundTo fmF32 .rn md.ftz false true (2 * v.natAbs - 1) (-(n : Int) - 1) true

/-- tanh of a finite nonzero x (R79). -/
def tanhFin (md : FMode) (neg : Bool) (m : Nat) (e : Int) : Nat × FFlags :=
  let top := e + bitLen m
  if top < -16 then roundTo fmF32 .rn md.ftz false neg (m * 2 ^ 64 - 1) (e - 64) true
  else if top > 5 then roundTo fmF32 .rn md.ftz false neg (2 ^ 70 - 1) (-70) true
  else
    let t := fxExp (toFx m (e + 1))
    roundFx md neg ((t - 2 ^ fxP) * 2 ^ fxP / (t + 2 ^ fxP)) fxP

/-- The F32 special functions with their special values (R79). -/
def fSfu (op : SfuOp) (md : FMode) (x : Nat) : Nat × FFlags :=
  match unpack fmF32 md.daz x with
  | .nan sig => (nanResult fmF32 md.lnan [x], nvIf sig)
  | .inf neg => match op with
    | .rcp => (fPat fmF32 neg 0 0, 0)
    | .rsq => if neg then (canonNaN fmF32, flNV) else (0, 0)
    | .sqrt => if neg then (canonNaN fmF32, flNV) else (infPat fmF32 false, 0)
    | .exp2 => if neg then (0, 0) else (infPat fmF32 false, 0)
    | .log2 => if neg then (canonNaN fmF32, flNV) else (infPat fmF32 false, 0)
    | .tanh => (fPat fmF32 neg 127 0, 0)
  | .fin neg m e =>
    match op with
    | .rcp =>
      if m = 0 then (infPat fmF32 neg, flDZ)
      else roundTo fmF32 .rn md.ftz false neg (2 ^ 120 / m) (-e - 120) (2 ^ 120 % m != 0)
    | .rsq =>
      if m = 0 then (infPat fmF32 neg, flDZ)
      else if neg then (canonNaN fmF32, flNV)
      else
        let (m, e) := if e % 2 = 0 then (m, e) else (2 * m, e - 1)
        let r := isqrt (2 ^ 160 / m)
        roundTo fmF32 .rn md.ftz false false r (-(e / 2) - 80) (r * r * m != 2 ^ 160)
    | .sqrt =>
      if m = 0 then (fPat fmF32 neg 0 0, 0)
      else if neg then (canonNaN fmF32, flNV)
      else
        let (m, e) := if e % 2 = 0 then (m, e) else (2 * m, e - 1)
        let r := isqrt (m * 2 ^ 100)
        roundTo fmF32 .rn md.ftz false false r (e / 2 - 50) (r * r != m * 2 ^ 100)
    | .exp2 => exp2Fin md neg m e
    | .log2 => if m = 0 then (infPat fmF32 true, flDZ) else if neg then (canonNaN fmF32, flNV) else log2Fin md m e
    | .tanh => if m = 0 then (fPat fmF32 neg 0 0, 0) else tanhFin md neg m e

/-! ### Arithmetic that keeps subnormals and raises nothing (R86, R172, R238, R291) -/

def plain : FMode := {}
def add32 (a b : Nat) : Nat := (fAdd fmF32 .rn plain a b).1
def mul32 (a b : Nat) : Nat := (fMul fmF32 .rn plain a b).1
def add64 (a b : Nat) : Nat := (fAdd fmF64 .rn plain a b).1
/-- F32 widened exactly to F64. -/
def widen (a : Nat) : Nat := (fConv 0xE 0 .rn plain false a).1

end Sys2Proof.Machine
end

