-- ==== Sys2Proof/WellFormed.lean ====
section
/-! DEFINITION. Which fields each L-instruction uses and how (R125 to R127, R221, R241), the decode checks of R132 step 1
over them, and the well-formed instructions: those whose every field the encoding can hold and the checks accept. -/

namespace Sys2Proof

/-- How an L-instruction uses one of its four name fields. `g` is the number of names in the operand's group. -/
inductive VUse where
  /-- must be zero -/
  | unused
  /-- a source: V group, Q0 to Q3, LID, ZERO, WID, and IMM where the instruction leaves IMM free -/
  | src (g : Nat) (imm : Bool)
  /-- a destination V group -/
  | dst (g : Nat)
  /-- a destination V group or Q4 to Q7 (R35) -/
  | dstq (g : Nat)
  /-- a V name that a map edit moves (R220) -/
  | name
  /-- the base of acq or rel: a multiple of 8 (R50, R221) -/
  | base8
  /-- a predicate number in bits [4:0] -/
  | pnum
  /-- Q0 to Q3 only: the base of a `.qb` access (R243) -/
  | qname
deriving DecidableEq, Repr

/-- How an L-instruction uses IMM. -/
inductive ImmUse where
  /-- zero unless an operand names IMM (R125, R193) -/
  | free
  /-- the instruction's own field: only the bits of the mask may be set -/
  | own (mask : Word)
deriving DecidableEq, Repr

/-- The row of R127 for one instruction: its fields, whether it is guarded (`anyGuard` covers lbr), and PD, XA. -/
structure LFmt where
  vd : VUse := .unused
  va : VUse := .unused
  vb : VUse := .unused
  vc : VUse := .unused
  guarded : Bool := true
  pd : Bool := false
  xa : Bool := false
  imm : ImmUse := .free
deriving DecidableEq, Repr

/-- Names in a group of a floating-point operand: two for `.f64` (R202). -/
def FType.group : FType → Nat
  | .f64 => 2
  | _ => 1

/-- Names in a group of a memory operand (R243, R244). -/
def MemW.group : MemW → Nat
  | .b64 => 2
  | .b128 => 4
  | _ => 1

/-- Bytes of a memory width (R244). -/
def MemW.bytes : MemW → Nat
  | .b8 => 1 | .b16 => 2 | .b32 => 4 | .b64 => 8 | .b128 => 16

/-- Names in a group of an atomic operand. -/
def wideGroup (w : Bool) : Nat := if w then 2 else 1

/-- Whether vialu reads VB (R195). -/
def IaluOp.unary : IaluOp → Bool
  | .abs => true | .popc => true | .clz => true | _ => false

/-- Whether vialu accepts `.sat` (R195). -/
def IaluOp.canSat : IaluOp → Bool
  | .add => true | .sub => true | .mul => true | .abs => true | _ => false

/-- A 32-bit source that may be IMM. -/
def s32 : VUse := .src 1 true
/-- A source that may not be IMM. -/
def srcN (g : Nat) : VUse := .src g false

/-- The format of an atomic (R241): VC only for cas. -/
def atomFmt (ag : Nat) (op : AtomOp) (wide : Bool) : LFmt :=
  { vd := .dst (wideGroup wide), va := srcN ag, vb := srcN (wideGroup wide),
    vc := if op = .cas then srcN (wideGroup wide) else .unused, imm := .own 0xFFFFFFFF }

/-- The format of each L-instruction (R127, R195 to R209, R221, R231 to R241); `none` for S-instructions and events. -/
def lfmt : Instr → Option LFmt
  | .lnop _ | .lnext _ => some { guarded := false }
  | .lbr _ => some { imm := .own 0xFFFFFFFF }
  | .ljoin _ => some { guarded := false, imm := .own 0x1FFFF }
  | .rep _ => some { guarded := false, imm := .own 0x3FFF }
  | .lpart _ => some { guarded := false, imm := .own 7 }
  | .vialu op _ _ => some { vd := .dst 1, va := s32, vb := if op.unary then .unused else s32, xa := op.canSat }
  | .vmad _ _ | .vbfi _ => some { vd := .dst 1, va := s32, vb := s32, vc := s32 }
  | .vbfe _ _ | .vshuf _ _ => some { vd := .dst 1, va := s32, vb := s32 }
  | .vbcast _ => some { vd := .dstq 1, va := s32, vb := s32 }
  | .vsel _ => some { vd := .dst 1, va := s32, vb := s32, pd := true }
  | .vcmp _ _ _ => some { va := s32, vb := s32, pd := true }
  | .fadd ty _ _ _ _ | .fmul ty _ _ _ _ | .fmin ty _ | .fmax ty _ =>
    some { vd := .dst ty.group, va := .src ty.group true, vb := .src ty.group true }
  | .ffma ty _ _ _ _ _ =>
    some { vd := .dst ty.group, va := .src ty.group true, vb := .src ty.group true, vc := .src ty.group true }
  | .fcmp _ ty _ => some { va := .src ty.group true, vb := .src ty.group true, pd := true }
  | .fcvt d s _ => some { vd := .dst (if d = 0xE then 2 else 1), va := srcN (if s = 0xE then 2 else 1), xa := true, imm := .own 3 }
  | .frnd ty _ _ => some { vd := .dst ty.group, va := .src ty.group true }
  | .fclass ty _ => some { vd := .dst 1, va := .src ty.group true }
  | .vsfu _ _ => some { vd := .dst 1, va := s32 }
  | .plog op _ => some { va := if op = .setall then .unused else .pnum,
                         vb := if op = .not ∨ op = .mov ∨ op = .setall then .unused else .pnum, pd := true }
  | .vvote m _ => some { vd := .dstq (if m = .ballot then 2 else 1), va := .pnum }
  | .vredux _ _ _ => some { vd := .dstq 1, va := s32 }
  | .vscan _ _ _ _ => some { vd := .dst 1, va := s32 }
  | .acqWait _ => some { vd := .base8, guarded := false, imm := .own 0x1FF }
  | .acqTry _ => some { vd := .base8, guarded := false, pd := true, imm := .own 0x1FF }
  | .rel _ => some { vd := .base8, guarded := false, imm := .own 0x1FF }
  | .aliasOp _ | .rmov _ => some { vd := .name, va := .name, guarded := false }
  | .unmap _ => some { vd := .name, guarded := false }
  | .give _ => some { va := .name, guarded := false, imm := .own 0x3F }
  | .take _ => some { vd := .name, guarded := false, imm := .own 0x3F }
  | .takeTry _ => some { vd := .name, guarded := false, pd := true, imm := .own 0x3F }
  | .copy _ | .mapq _ => some { vd := .dst 1, va := s32 }
  | .ld qb _ _ w _ => some { vd := .dst w.group, va := srcN (if qb then 1 else 2), vb := if qb then .qname else .unused,
                             imm := .own 0xFFFFFFFF }
  | .st qb w _ => some { va := srcN (if qb then 1 else 2), vb := if qb then .qname else .unused, vc := srcN w.group,
                         imm := .own 0xFFFFFFFF }
  | .lds _ w _ | .ldx _ w _ => some { vd := .dst w.group, va := srcN 1, imm := .own 0xFFFFFFFF }
  | .sts w _ | .stx w _ => some { va := srcN 1, vc := srcN w.group, imm := .own 0xFFFFFFFF }
  | .atom op wide _ _ => some (atomFmt 2 op wide)
  | .atoms op wide _ _ | .atomx op wide _ _ => some (atomFmt 1 op wide)
  | .red _ wide _ _ => some { va := srcN 2, vb := srcN (wideGroup wide), imm := .own 0xFFFFFFFF }
  | .csum _ _ | .csumf _ _ => some { va := s32 }
  | .retired _ _ _ => some { vd := .dst 1, va := s32, vb := s32, vc := s32, pd := true, xa := true, imm := .own 0xFFFFFFFF }
  | _ => none

/-- The operand fields of an L-instruction. -/
def Instr.lf : Instr → Option LF
  | .lnop f | .lnext f | .lbr f | .ljoin f | .rep f | .lpart f | .vialu _ _ f | .vmad _ f | .vbfe _ f | .vbfi f | .vsel f
  | .vcmp _ _ f | .fadd _ _ _ _ f | .fmul _ _ _ _ f | .ffma _ _ _ _ _ f | .fmin _ f | .fmax _ f | .fcmp _ _ f | .fcvt _ _ f
  | .frnd _ _ f | .fclass _ f | .vsfu _ f | .plog _ f | .vshuf _ f | .vvote _ f | .vredux _ _ f | .vscan _ _ _ f | .vbcast f
  | .acqWait f | .acqTry f | .rel f | .aliasOp f | .rmov f | .unmap f | .give f | .take f | .takeTry f | .copy f | .mapq f
  | .ld _ _ _ _ f | .st _ _ f | .lds _ _ f | .sts _ f | .ldx _ _ f | .stx _ f | .atom _ _ _ f | .atoms _ _ _ f | .atomx _ _ _ f
  | .red _ _ _ f | .csum _ f | .csumf _ f | .retired _ _ f => some f
  | _ => none

/-- The 9-bit code of a name (R125). -/
def Name.code : Name → Nat
  | .v n => n
  | .q n => 384 + n
  | .imm => 392
  | .lid => 393
  | .zero => 394
  | .wid => 395

/-- The name a 9-bit field holds; 396 to 511 hold none (R125). -/
def Name.ofCode (n : Nat) : Option Name :=
  if n < 384 then some (.v n) else if n < 392 then some (.q (n - 384)) else if n = 392 then some .imm
  else if n = 393 then some .lid else if n = 394 then some .zero else if n = 395 then some .wid else none

/-- Whether the field holds a code its encoding can hold. -/
def Name.ok : Name → Bool
  | .v n => n < 384
  | .q n => n < 8
  | _ => true

/-- The SUBC values of R133 that a name field's code breaks under a use. -/
def nameViol (u : VUse) (n : Nat) : List Nat :=
  match u with
  | .unused => if n = 0 then [] else [5]
  | .pnum => if n < 32 then [] else [5]
  | _ =>
    match Name.ofCode n with
    | none => [3]
    | some a =>
      match u, a with
      | .src g _, .v k | .dst g, .v k | .dstq g, .v k => if k % g = 0 then [] else [6]
      | .src _ _, .q k => if k < 4 then [] else [4]
      | .src _ im, .imm => if im then [] else [4]
      | .src _ _, _ => []
      | .dstq _, .q k => if 4 ≤ k then [] else [4]
      | .name, .v _ => []
      | .base8, .v k => if k % 8 = 0 then [] else [6]
      | .qname, .q k => if k < 4 then [] else [4]
      | _, _ => [4]

/-- An L-word's fields below OP and SUB, as numbers (R124). -/
structure RawF where
  vd : Nat
  va : Nat
  vb : Nat
  vc : Nat
  g : Guard
  pd : BitVec 5
  xa : Bool
  imm : Word
deriving DecidableEq, Repr

/-- The fields of a word from operand names. -/
def LF.raw (f : LF) : RawF := ⟨f.vd.code, f.va.code, f.vb.code, f.vc.code, f.g, f.pd, f.xa, f.imm⟩

/-- The name of a code, or V0 where the code holds none (such a word is refused before the name is used). -/
def nameOr0 (n : Nat) : Name := (Name.ofCode n).getD (.v 0)

/-- The operand names from a word's fields. -/
def RawF.lf (r : RawF) : LF := ⟨nameOr0 r.vd, nameOr0 r.va, nameOr0 r.vb, nameOr0 r.vc, r.g, r.pd, r.xa, r.imm⟩

/-- Whether some operand field names IMM. -/
def namesImm (m : LFmt) (r : RawF) : Bool :=
  let u : VUse → Nat → Bool := fun v n => match v with | .src _ true => n == 392 | _ => false
  u m.va r.va || u m.vb r.vb || u m.vc r.vc

/-- The conditions beyond the format that one instruction's own fields must meet, as SUBC values: the NONE form of ljoin
(R214), the tile size of lpart (R215), the count of acq and rel (R50, R221). -/
def ownViol (i : Instr) (r : RawF) : List Nat :=
  match i with
  | .ljoin _ => if r.imm.getLsbD 16 && (r.imm &&& 0xFFFF) != 0 then [5] else []
  | .lpart _ => if (r.imm &&& 7) = 0 ∨ (r.imm &&& 7) = 7 then [2] else []
  | .acqWait _ | .acqTry _ | .rel _ =>
    let n := (r.imm &&& 0x1FF).toNat
    if n = 0 ∨ n % 8 ≠ 0 ∨ n > 384 ∨ (r.vd < 384 ∧ r.vd + n > 384) then [6] else []
  | _ => []

/-- Every SUBC value of R133 that the fields of an L-word break, for the instruction its OP and SUB name (R132). -/
def lViol (i : Instr) (r : RawF) : List Nat :=
  match lfmt i with
  | none => []
  | some m =>
    nameViol m.vd r.vd ++ nameViol m.va r.va ++ nameViol m.vb r.vb ++ nameViol m.vc r.vc
    ++ (if m.guarded ∨ r.g = ⟨31, false⟩ then [] else [7])
    ++ (if m.pd ∨ r.pd = 0 then [] else [5]) ++ (if m.xa ∨ r.xa = false then [] else [5])
    ++ (match m.imm with
        | .own k => if r.imm &&& ~~~k = 0 then [] else [5]
        | .free => if namesImm m r ∨ r.imm = 0 then [] else [5])
    ++ ownViol i r

/-- The combinations of a sub-function that R128, R129, R130, R206 and R242 refuse. -/
def subOk : Instr → Bool
  | .vialu .abs ty _ => ty == .i32 || ty == .i16x2 || ty == .i8x4
  | .vredux op .f32 _ | .vscan op .f32 _ _ => op == .add || op == .min || op == .max
  | .fcvt d s _ => d != s && d != 0xF && s != 0xF
  | .ld _ _ sx w _ | .lds sx w _ | .ldx sx w _ => !sx || w == .b8 || w == .b16
  | .atom op wide _ _ => !(op == .fadd && wide)
  | .atoms op wide sc _ => !(op == .fadd && wide) && (sc == .warp || sc == .block || sc == .course)
  | .atomx op wide sc _ => !(op == .fadd && wide) && sc == .course
  | .red op wide _ _ => !(op == .fadd && wide) && op != .xchg && op != .cas
  | .satom op wide _ _ _ _ => !(op == .fadd && wide)
  | _ => true

/-- The CSR numbers of R135. -/
def csrExists (n : BitVec 12) : Bool :=
  let k := n.toNat
  k ≤ 3 || (0x10 ≤ k && k ≤ 0x14) || (0x20 ≤ k && k ≤ 0x23) || (0x30 ≤ k && k ≤ 0x32) || (0x34 ≤ k && k ≤ 0x37)
  || (0x40 ≤ k && k ≤ 0x45) || k == 0x50 || k == 0x51 || k == 0x60 || k == 0x61 || k == 0x70 || k == 0x71
  || (0x100 ≤ k && k ≤ 0x11F) || (0x140 ≤ k && k ≤ 0x15F) || (0x180 ≤ k && k ≤ 0x19F)

/-- The conditions on an S-instruction's fields that decode checks (R122, R133). -/
def sOk : Instr → Bool
  | .mma c _ _ _ | .drain c _ _ _ | .aclr c => c.toNat < 48
  | .csrr _ n | .csrw n _ => csrExists n
  | .salu .clz _ _ b | .salu .popc _ _ b => b == 0
  | _ => true

/-- The well-formed instructions: every word the encoding admits and decode accepts stands for exactly one of them. -/
def WellFormed (i : Instr) : Bool :=
  sOk i && subOk i &&
  match i.lf with
  | none => true
  | some f => f.vd.ok && f.va.ok && f.vb.ok && f.vc.ok && (lViol i f.raw).isEmpty

end Sys2Proof
end

