-- ==== Sys2Proof/Decode.lean ====
section
/-! DEFINITION. Decoding of S-words and L-words (R121 to R134), total on any bits and refusing by name, and the encoder
written from the same tables. -/

namespace Sys2Proof

/-- Why decode refuses a word: the reasons 0x0001 to 0x0008 of R133. -/
inductive Reject where
  | undefinedOp | undefinedSub | undefinedName | nameNotAllowed | reservedField | misalignedGroup | guardNotAllowed | absentCsr
deriving DecidableEq, Repr

/-- What decode answers: the instruction, or why the word is none. -/
inductive Decoded where
  | ok (i : Instr) | refused (r : Reject)
deriving DecidableEq, Repr

/-- The SUBC of a refusal (R133). -/
def rejectSubc : Reject → Nat
  | .undefinedOp => 1 | .undefinedSub => 2 | .undefinedName => 3 | .nameNotAllowed => 4 | .reservedField => 5
  | .misalignedGroup => 6 | .guardNotAllowed => 7 | .absentCsr => 8

/-- The refusal of a SUBC. -/
def rejectOf (n : Nat) : Reject :=
  match n with
  | 1 => .undefinedOp | 2 => .undefinedSub | 3 => .undefinedName | 4 => .nameNotAllowed | 5 => .reservedField
  | 6 => .misalignedGroup | 7 => .guardNotAllowed | _ => .absentCsr

/-- Bits [lo+n-1:lo] of a number. -/
def fld (x lo n : Nat) : Nat := x / 2 ^ lo % 2 ^ n

/-- The instruction where nothing is broken, else the lowest reason that applies (R132 step 1). -/
def verdict (i : Instr) (viol : List Nat) : Decoded :=
  match viol with
  | [] => .ok i
  | v :: vs => .refused (rejectOf (vs.foldl Nat.min v))

/-- The reason 0x0005 where a reserved field is nonzero. -/
def rsv (x : Nat) : List Nat := if x = 0 then [] else [5]

/-! ### Sub-function codes (R123, R128 to R130) -/

def saluOps : List SaluOp := [.add, .sub, .and, .or, .xor, .shl, .shr, .sra, .mul, .mulh, .mulhw, .min, .max, .minw, .maxw,
  .slt, .sltw, .seq, .clz, .popc]
def scopes : List Scope := [.warp, .block, .course, .pier, .span, .system]
def copyKinds : List CopyKind := [.g2s, .s2g, .g2g, .s2x, .gather, .p2p]
def atomOps : List AtomOp := [.add, .min, .max, .minw, .maxw, .and, .or, .xor, .xchg, .cas, .fadd]
def ialuOps : List IaluOp := [.add, .sub, .mul, .mulh, .and, .or, .xor, .andn, .shl, .shr, .sra, .min, .max, .abs, .popc, .clz]
def iTypes : List IType := [.i32, .w32, .i16x2, .w16x2, .i8x4, .w8x4]
def iConds : List ICond := [.eq, .ne, .lt, .le, .gt, .ge]
def fTypes : List FType := [.f32, .f16x2, .b16x2, .f64]
def rMs : List RM := [.rn, .rz, .ru, .rd]
def fConds : List FCond := [.eq, .ne, .lt, .le, .gt, .ge, .un, .ord]
def sfuOps : List SfuOp := [.rcp, .rsq, .sqrt, .exp2, .log2, .tanh]
def plogOps : List PlogOp := [.and, .or, .xor, .andn, .not, .mov, .setall]
def shufModes : List ShufMode := [.idx, .up, .down, .xor]
def voteModes : List VoteMode := [.all, .any, .ballot]
def redOps : List RedOp := [.add, .min, .max, .and, .or, .xor]
def redTypes : List RedType := [.i32, .w32, .f32]
def memWs : List MemW := [.b8, .b16, .b32, .b64, .b128]
def hints : List Hint := [.none, .ro, .st]

/-- The position of a code's name in its table. -/
def codeOf {α : Type} [DecidableEq α] (t : List α) (x : α) : Nat := t.idxOf x

/-- A table entry, or the first with reason 0x0002 where the code is undefined. -/
def pick {α : Type} (t : List α) (d : α) (n : Nat) : α × List Nat :=
  match t[n]? with
  | some x => (x, [])
  | none => (d, [2])

/-! ### S-words -/

/-- Whether an S-word is word 0 of the two-word SK form (R165). -/
def isPair (w : Word) : Bool := fld w.toNat 26 6 == 0x0A

/-- The sys group (R123, R308): the function F with its used fields. -/
def decodeSys (x : Nat) : Decoded :=
  let d := fld x 20 6; let a := fld x 14 6; let b := fld x 8 6
  match fld x 0 8 with
  | 0x00 => verdict .sysNop (rsv (d + a + b))
  | 0x01 => verdict .sysExit (rsv (d + a + b))
  | 0x02 => verdict .sysYield (rsv (d + a + b))
  | 0x03 => verdict .sysTrig (rsv (d + a + b))
  | 0x04 => verdict .sysEret (rsv (d + a + b))
  | 0x05 => verdict .sysBkpt (rsv (d + a + b))
  | 0x06 => verdict (.sysPause (BitVec.ofNat 6 a)) (rsv (d + b))
  | 0x07 => verdict .sysIdem (rsv (d + a + b))
  | 0x08 => verdict .sysCtclose (rsv (d + a + b))
  | 0x09 => verdict (.sysMfence (BitVec.ofNat 6 d)) (rsv (a + b))
  | 0x0A => verdict (.sysKclr (BitVec.ofNat 4 b)) (rsv (d + a + b / 16))
  | _ => .refused .undefinedSub

/-- A kmov, chk or drain word, whose ctor depends on a bit (R122). -/
def decodeChk (x : Nat) : Decoded :=
  let ka := BitVec.ofNat 2 (fld x 0 2); let kb := BitVec.ofNat 2 (fld x 2 2); let t := fld x 8 6
  if fld x 4 1 = 0 then verdict (.chkEq ka kb) (rsv (fld x 20 6 + fld x 14 6 + t + fld x 5 3))
  else verdict (.chkRel ka kb (BitVec.ofNat 6 t)) (rsv (fld x 20 6 + fld x 14 6 + fld x 5 3))

/-- kmov: F[2] selects the direction (R316). -/
def decodeKmov (x : Nat) : Decoded :=
  let k := BitVec.ofNat 2 (fld x 0 2)
  if fld x 2 1 = 0 then verdict (.kmovR (BitVec.ofNat 6 (fld x 20 6)) k) (rsv (fld x 14 6 + fld x 8 6 + fld x 3 5))
  else verdict (.kmovW k (BitVec.ofNat 6 (fld x 14 6))) (rsv (fld x 20 6 + fld x 8 6 + fld x 3 5))

/-- A C field of 48 to 63 is an undefined value (R122). -/
def cViol (c : Nat) : List Nat := if c < 48 then [] else [2]

/-- A CSR number that R135 does not list. -/
def csrViol (n : Nat) : List Nat := if csrExists (BitVec.ofNat 12 n) then [] else [8]

/-- An S-word: `w` is the word at SPC and `k` the word after it, which only the SK form uses (R121, R122). -/
def decodeS (w k : Word) : Decoded :=
  let x := w.toNat
  let d := fld x 20 6; let a := fld x 14 6; let b := fld x 8 6; let f := fld x 0 8
  let D := BitVec.ofNat 6 d; let A := BitVec.ofNat 6 a; let B := BitVec.ofNat 6 b
  let I := BitVec.ofNat 14 (fld x 0 14); let N := BitVec.ofNat 6 (fld x 0 6); let nz := rsv (fld x 6 8)
  let O := BitVec.ofNat 20 (fld x 0 20)
  let W := BitVec.ofNat 2 (fld x 12 2); let J := BitVec.ofNat 12 (fld x 0 12)
  match fld x 26 6 with
  | 0x00 => decodeSys x
  | 0x01 => let p := pick saluOps .add f
            verdict (.salu p.1 D A B) (p.2 ++ if p.1 = .clz ∨ p.1 = .popc then rsv b else [])
  | 0x02 => .ok (.saddi D A I) | 0x03 => .ok (.sandi D A I) | 0x04 => .ok (.sori D A I) | 0x05 => .ok (.sxori D A I)
  | 0x06 => verdict (.sshli D A N) nz | 0x07 => verdict (.sshri D A N) nz | 0x08 => verdict (.ssrai D A N) nz
  | 0x09 => verdict (.slui D I) (rsv a)
  | 0x0A => match fld x 0 14 with
            | 0 => verdict (.slit D k) (rsv a)
            | 1 => verdict (.slith D k) (rsv a)
            | _ => .refused .undefinedSub
  | 0x0C => .ok (.sbeq D A I) | 0x0D => .ok (.sbne D A I) | 0x0E => .ok (.sblt D A I)
  | 0x0F => .ok (.sbge D A I) | 0x10 => .ok (.sbltw D A I) | 0x11 => .ok (.sbgew D A I)
  | 0x12 => .ok (.sbr D O)
  | 0x13 => verdict (.sjr D A) (rsv (b + f))
  | 0x14 => .ok (.sld D A W J) | 0x15 => .ok (.sst D A W J) | 0x16 => .ok (.slds D A W J) | 0x17 => .ok (.ssts D A W J)
  | 0x18 => verdict (.pushq (BitVec.ofNat 2 f) A) (rsv (d + b + f / 4))
  | 0x19 => verdict (.popq D (BitVec.ofNat 2 f)) (rsv (a + b + f / 4))
  | 0x1A => verdict (.lgo O) (rsv d)
  | 0x1B => verdict (.lgor A) (rsv (d + b + f))
  | 0x1C => let p := pick copyKinds .g2s (fld x 0 3)
            verdict (.cpy p.1 A) (p.2 ++ rsv (d + b + fld x 3 5))
  | 0x1D => verdict (.waitc D A B (BitVec.ofNat 6 (fld x 2 6))) (rsv (fld x 0 2))
  | 0x1E => let s := pick scopes .warp (fld x 0 3)
            let kd := if fld x 4 2 = 0 then (.acq, [2]) else pick [FenceKind.acq, .rel, .full] .acq (fld x 4 2 - 1)
            verdict (.fence kd.1 s.1) (s.2 ++ kd.2 ++ rsv (d + a + b + fld x 3 1 + fld x 6 2))
  | 0x1F => verdict (.bar (fld x 5 1 == 1) (fld x 4 1 == 1) (BitVec.ofNat 4 (fld x 0 4)) A) (rsv (d + b + fld x 6 2))
  | 0x20 => verdict (.tcfg (BitVec.ofNat 4 (fld x 0 4)) A) (rsv (d + b + fld x 4 4))
  | 0x21 => verdict (.tld (fld x 4 1 == 1) (BitVec.ofNat 4 (fld x 0 4)) A B) (rsv (d + fld x 5 3))
  | 0x22 => verdict (.tst (fld x 4 1 == 1) (BitVec.ofNat 4 (fld x 0 4)) A B) (rsv (d + fld x 5 3))
  | 0x23 => verdict (.mma D (BitVec.ofNat 4 (fld x 16 4)) (BitVec.ofNat 4 (fld x 12 4)) (BitVec.ofNat 6 (fld x 6 6)))
              (cViol d ++ rsv (fld x 0 6))
  | 0x24 => verdict (.aclr N) (cViol (fld x 0 6) ++ rsv (d + a + b + fld x 6 2))
  | 0x25 => verdict (.drain D (BitVec.ofNat 5 (fld x 15 5)) (BitVec.ofNat 6 (fld x 9 6))
                (if fld x 6 1 = 1 then some (BitVec.ofNat 2 (fld x 7 2)) else none))
              (cViol d ++ rsv (fld x 0 6 + if fld x 6 1 = 1 then 0 else fld x 7 2))
  | 0x26 => verdict (.drld (BitVec.ofNat 5 (fld x 0 5)) A) (rsv (d + b + fld x 5 3))
  | 0x27 => verdict (.mwait A) (rsv (d + b + f))
  | 0x28 => verdict (.csrr D J) (rsv (a + fld x 12 2) ++ csrViol (fld x 0 12))
  | 0x29 => verdict (.csrw J A) (rsv (d + fld x 12 2) ++ csrViol (fld x 0 12))
  | 0x2A => .ok (.ctopen D O)
  | 0x2B => decodeChk x
  | 0x2C => decodeKmov x
  | 0x2D => verdict (.trap (BitVec.ofNat 16 (fld x 0 16))) (rsv (d + fld x 16 4))
  | 0x2E => let o := pick atomOps .add (fld x 0 4); let s := pick scopes .warp (fld x 5 3)
            let wide := fld x 4 1 == 1
            verdict (.satom o.1 wide s.1 D A B) (o.2 ++ s.2 ++ if o.1 = .fadd ∧ wide then [2] else [])
  | _ => .refused .undefinedOp

/-! ### L-words -/

/-- The raw fields of an L-word below OP and SUB (R124). -/
def rawOf (w : BitVec 96) : RawF :=
  let x := w.toNat
  { vd := fld x 71 9, va := fld x 62 9, vb := fld x 53 9, vc := fld x 44 9, g := ⟨BitVec.ofNat 5 (fld x 39 5), fld x 38 1 == 1⟩,
    pd := BitVec.ofNat 5 (fld x 33 5), xa := fld x 32 1 == 1, imm := BitVec.ofNat 32 x }

/-- The OP and SUB bytes of an L-word. -/
def opSubOf (w : BitVec 96) : Nat × Nat := (fld w.toNat 88 8, fld w.toNat 80 8)

/-- A sub-function reading: the constructor, and the reasons the SUB byte itself breaks. -/
abbrev SubRead := (LF → Instr) × List Nat

/-- The floating-point SUB byte of fadd, fmul, ffma (R129). -/
def readFp (s : Nat) : FType × RM × Bool × Bool × Bool :=
  ((pick fTypes .f32 (fld s 6 2)).1, (pick rMs .rn (fld s 4 2)).1, fld s 3 1 == 1, fld s 2 1 == 1, fld s 1 1 == 1)

/-- The floating-point type of a SUB byte. -/
def readFty (s : Nat) : FType := (pick fTypes .f32 (fld s 6 2)).1

/-- The memory SUB byte of ld, st, lds, sts, ldx, stx (R130, R242): the ctor gets qb, hint, sx, width. -/
def readMem (qbOk hintOk sxOk : Bool) (k : Bool → Hint → Bool → MemW → LF → Instr) (s : Nat) : SubRead :=
  let w := pick memWs .b8 (fld s 0 3); let h := pick hints .none (fld s 4 2)
  let sx := fld s 3 1 == 1; let qb := fld s 6 1 == 1
  (k qb h.1 sx w.1, w.2 ++ h.2 ++ (if h.1 ≠ .none ∧ ¬ hintOk then [2] else []) ++ (if sx ∧ ¬ sxOk then [2] else [])
    ++ (if qb ∧ ¬ qbOk then [2] else []) ++ rsv (fld s 7 1))

/-- The atomic SUB byte (R130). -/
def readAtom (k : AtomOp → Bool → Scope → LF → Instr) (s : Nat) : SubRead :=
  let o := pick atomOps .add (fld s 0 4); let sc := pick scopes .warp (fld s 5 3)
  (k o.1 (fld s 4 1 == 1) sc.1, o.2 ++ sc.2)

/-- What OP and SUB name (R127, R128 to R130); `none` for an undefined OP. -/
def readSub (op s : Nat) : Option SubRead :=
  match op with
  | 0x00 => some (.lnop, rsv s)
  | 0x01 => some (.lnext, rsv s)
  | 0x02 => some (.lbr, rsv s)
  | 0x03 => some (.ljoin, rsv s)
  | 0x05 => some (.rep, rsv s)
  | 0x06 => some (.lpart, rsv s)
  | 0x08 => let o := pick ialuOps .add (fld s 4 4); let t := pick iTypes .i32 (fld s 0 4)
            some (.vialu o.1 t.1, o.2 ++ t.2)
  | 0x09 => some (.vmad (fld s 0 4 == 1), (if fld s 0 4 < 2 then [] else [2]) ++ rsv (fld s 4 4))
  | 0x0A => some (.vbfe (fld s 0 1 == 1), rsv (fld s 1 7))
  | 0x0B => some (.vbfi, rsv s)
  | 0x0C => some (.vsel, rsv s)
  | 0x0D => let o := pick iConds .eq (fld s 4 4); let t := pick iTypes .i32 (fld s 0 4)
            some (.vcmp o.1 t.1, o.2 ++ t.2)
  | 0x10 => let p := readFp s; some (.fadd p.1 p.2.1 p.2.2.1 p.2.2.2.1, rsv (fld s 0 2))
  | 0x11 => let p := readFp s; some (.fmul p.1 p.2.1 p.2.2.1 p.2.2.2.1, rsv (fld s 0 2))
  | 0x12 => let p := readFp s; some (.ffma p.1 p.2.1 p.2.2.1 p.2.2.2.1 p.2.2.2.2, rsv (fld s 0 1))
  | 0x13 => some (.fmin (readFty s), rsv (fld s 0 6))
  | 0x14 => some (.fmax (readFty s), rsv (fld s 0 6))
  | 0x15 => some (.fcmp (pick fConds .eq (fld s 0 3)).1 (readFty s), rsv (fld s 3 3))
  | 0x16 => some (.fcvt (BitVec.ofNat 4 (fld s 4 4)) (BitVec.ofNat 4 (fld s 0 4)), [])
  | 0x17 => some (.frnd (readFty s) (readFp s).2.1, rsv (fld s 0 4))
  | 0x18 => some (.fclass (readFty s), rsv (fld s 0 6))
  | 0x19 => let o := pick sfuOps .rcp (fld s 0 3); some (.vsfu o.1, o.2 ++ rsv (fld s 3 5))
  | 0x20 => let o := pick plogOps .and (fld s 0 3); some (.plog o.1, o.2 ++ rsv (fld s 3 5))
  | 0x28 => some (.vshuf (pick shufModes .idx (fld s 0 2)).1, rsv (fld s 2 6))
  | 0x29 => let o := pick voteModes .all (fld s 0 2); some (.vvote o.1, o.2 ++ rsv (fld s 2 6))
  | 0x2A => let o := pick redOps .add (fld s 5 3); let t := pick redTypes .i32 (fld s 0 4)
            some (.vredux o.1 t.1, o.2 ++ t.2 ++ if fld s 4 1 = 0 then [] else [2])
  | 0x2B => let o := pick redOps .add (fld s 5 3); let t := pick redTypes .i32 (fld s 0 4)
            some (.vscan o.1 t.1 (fld s 4 1 == 1), o.2 ++ t.2)
  | 0x2C => some (.vbcast, rsv s)
  | 0x30 => some (if fld s 0 1 = 0 then .acqWait else .acqTry, rsv (fld s 1 7))
  | 0x31 => some (.rel, rsv s)
  | 0x32 => some (.aliasOp, rsv s)
  | 0x33 => some (.rmov, rsv s)
  | 0x34 => some (.unmap, rsv s)
  | 0x35 => some (.give, rsv s)
  | 0x36 => some (if fld s 0 1 = 0 then .take else .takeTry, rsv (fld s 1 7))
  | 0x37 => some (.copy, rsv s)
  | 0x38 => some (.mapq, rsv s)
  | 0x40 => some (readMem true true true .ld s)
  | 0x41 => some (readMem true false false (fun qb _ _ w => .st qb w) s)
  | 0x42 => some (readMem false false true (fun _ _ sx w => .lds sx w) s)
  | 0x43 => some (readMem false false false (fun _ _ _ w => .sts w) s)
  | 0x44 => some (readMem false false true (fun _ _ sx w => .ldx sx w) s)
  | 0x45 => some (readMem false false false (fun _ _ _ w => .stx w) s)
  | 0x46 => some (readAtom .atom s)
  | 0x47 => some (readAtom .atoms s)
  | 0x48 => some (readAtom .atomx s)
  | 0x49 => some (readAtom .red s)
  | 0x50 => some (.csum (BitVec.ofNat 2 s), rsv (fld s 2 6))
  | 0x51 => some (.csumf (BitVec.ofNat 2 s), rsv (fld s 2 6))
  | _ => if 0xE0 ≤ op ∧ op < 0xF0 then some (.retired (BitVec.ofNat 4 op) (BitVec.ofNat 8 s), []) else none

/-- An L-word from its OP, SUB and raw fields: names above 511 (a step of rep, R217) are refused as undefined names. -/
def decodeRaw (op s : Nat) (r : RawF) : Decoded :=
  match readSub op s with
  | none => .refused .undefinedOp
  | some (k, v) =>
    let i := k r.lf
    verdict i (v ++ (if subOk i then [] else [2]) ++ lViol i r
      ++ (if r.vd < 512 ∧ r.va < 512 ∧ r.vb < 512 ∧ r.vc < 512 then [] else [3]))

/-- An L-word (R124 to R134). -/
def decodeL (w : BitVec 96) : Decoded := decodeRaw (opSubOf w).1 (opSubOf w).2 (rawOf w)

/-! ### The encoder -/

/-- An SR, SI or SJ word from its parts. -/
def sWord (op d a low : Nat) : Word := BitVec.ofNat 32 (op * 2 ^ 26 + d * 2 ^ 20 + a * 2 ^ 14 + low)

/-- The word, or pair of words, of an S-instruction (R121 to R123); nothing for other constructors. -/
def encodeS : Instr → Option (Word × Option Word)
  | .sysNop => some (sWord 0 0 0 0, none) | .sysExit => some (sWord 0 0 0 1, none) | .sysYield => some (sWord 0 0 0 2, none)
  | .sysTrig => some (sWord 0 0 0 3, none) | .sysEret => some (sWord 0 0 0 4, none) | .sysBkpt => some (sWord 0 0 0 5, none)
  | .sysPause a => some (sWord 0 0 a.toNat 6, none) | .sysIdem => some (sWord 0 0 0 7, none)
  | .sysCtclose => some (sWord 0 0 0 8, none) | .sysMfence d => some (sWord 0 d.toNat 0 9, none)
  | .sysKclr m => some (sWord 0 0 0 (m.toNat * 256 + 10), none)
  | .salu f d a b => some (sWord 1 d.toNat a.toNat (b.toNat * 256 + codeOf saluOps f), none)
  | .saddi d a i => some (sWord 2 d.toNat a.toNat i.toNat, none)
  | .sandi d a i => some (sWord 3 d.toNat a.toNat i.toNat, none)
  | .sori d a i => some (sWord 4 d.toNat a.toNat i.toNat, none)
  | .sxori d a i => some (sWord 5 d.toNat a.toNat i.toNat, none)
  | .sshli d a n => some (sWord 6 d.toNat a.toNat n.toNat, none)
  | .sshri d a n => some (sWord 7 d.toNat a.toNat n.toNat, none)
  | .ssrai d a n => some (sWord 8 d.toNat a.toNat n.toNat, none)
  | .slui d i => some (sWord 9 d.toNat 0 i.toNat, none)
  | .slit d k => some (sWord 10 d.toNat 0 0, some k)
  | .slith d k => some (sWord 10 d.toNat 0 1, some k)
  | .sbeq a b o => some (sWord 12 a.toNat b.toNat o.toNat, none) | .sbne a b o => some (sWord 13 a.toNat b.toNat o.toNat, none)
  | .sblt a b o => some (sWord 14 a.toNat b.toNat o.toNat, none) | .sbge a b o => some (sWord 15 a.toNat b.toNat o.toNat, none)
  | .sbltw a b o => some (sWord 16 a.toNat b.toNat o.toNat, none) | .sbgew a b o => some (sWord 17 a.toNat b.toNat o.toNat, none)
  | .sbr d o => some (sWord 18 d.toNat 0 o.toNat, none)
  | .sjr d a => some (sWord 19 d.toNat a.toNat 0, none)
  | .sld d a w i => some (sWord 20 d.toNat a.toNat (w.toNat * 4096 + i.toNat), none)
  | .sst d a w i => some (sWord 21 d.toNat a.toNat (w.toNat * 4096 + i.toNat), none)
  | .slds d a w i => some (sWord 22 d.toNat a.toNat (w.toNat * 4096 + i.toNat), none)
  | .ssts d a w i => some (sWord 23 d.toNat a.toNat (w.toNat * 4096 + i.toNat), none)
  | .pushq q a => some (sWord 24 0 a.toNat q.toNat, none)
  | .popq d q => some (sWord 25 d.toNat 0 q.toNat, none)
  | .lgo o => some (sWord 26 0 0 o.toNat, none)
  | .lgor a => some (sWord 27 0 a.toNat 0, none)
  | .cpy k a => some (sWord 28 0 a.toNat (codeOf copyKinds k), none)
  | .waitc l s c m => some (sWord 29 l.toNat s.toNat (c.toNat * 256 + m.toNat * 4), none)
  | .fence k s => some (sWord 30 0 0 ((codeOf [FenceKind.acq, .rel, .full] k + 1) * 16 + codeOf scopes s), none)
  | .bar c v n a => some (sWord 31 0 a.toNat (c.toNat * 32 + v.toNat * 16 + n.toNat), none)
  | .tcfg t a => some (sWord 32 0 a.toNat t.toNat, none)
  | .tld s t a b => some (sWord 33 0 a.toNat (b.toNat * 256 + s.toNat * 16 + t.toNat), none)
  | .tst s t a b => some (sWord 34 0 a.toNat (b.toNat * 256 + s.toNat * 16 + t.toNat), none)
  | .mma c ta tb fs => some (sWord 35 c.toNat 0 (ta.toNat * 65536 + tb.toNat * 4096 + fs.toNat * 64), none)
  | .aclr c => some (sWord 36 0 0 c.toNat, none)
  | .drain c p ds k => some (sWord 37 c.toNat 0 (p.toNat * 32768 + ds.toNat * 512 +
      match k with | some k => k.toNat * 128 + 64 | none => 0), none)
  | .drld s a => some (sWord 38 0 a.toNat s.toNat, none)
  | .mwait a => some (sWord 39 0 a.toNat 0, none)
  | .csrr d n => some (sWord 40 d.toNat 0 n.toNat, none)
  | .csrw n a => some (sWord 41 0 a.toNat n.toNat, none)
  | .ctopen d o => some (sWord 42 d.toNat 0 o.toNat, none)
  | .chkEq a b => some (sWord 43 0 0 (b.toNat * 4 + a.toNat), none)
  | .chkRel a b t => some (sWord 43 0 0 (t.toNat * 256 + 16 + b.toNat * 4 + a.toNat), none)
  | .kmovR d k => some (sWord 44 d.toNat 0 k.toNat, none)
  | .kmovW k a => some (sWord 44 0 a.toNat (4 + k.toNat), none)
  | .trap c => some (sWord 45 0 0 c.toNat, none)
  | .satom o w s d a b => some (sWord 46 d.toNat a.toNat (b.toNat * 256 + codeOf scopes s * 32 + w.toNat * 16 + codeOf atomOps o), none)
  | _ => none

/-- The floating-point SUB byte (R129). -/
def fpSub (ty : FType) (rm : RM) (na nb nc : Bool) : Nat :=
  codeOf fTypes ty * 64 + codeOf rMs rm * 16 + na.toNat * 8 + nb.toNat * 4 + nc.toNat * 2

/-- The memory SUB byte (R130). -/
def memSub (qb : Bool) (h : Hint) (sx : Bool) (w : MemW) : Nat :=
  qb.toNat * 64 + codeOf hints h * 16 + sx.toNat * 8 + codeOf memWs w

/-- The atomic SUB byte (R130). -/
def atomSub (o : AtomOp) (w : Bool) (s : Scope) : Nat := codeOf scopes s * 32 + w.toNat * 16 + codeOf atomOps o

/-- The OP and SUB bytes of an L-instruction (R127). -/
def opSub : Instr → Nat × Nat
  | .lnop _ => (0x00, 0) | .lnext _ => (0x01, 0) | .lbr _ => (0x02, 0) | .ljoin _ => (0x03, 0) | .rep _ => (0x05, 0) | .lpart _ => (0x06, 0)
  | .vialu o t _ => (0x08, codeOf ialuOps o * 16 + codeOf iTypes t)
  | .vmad w _ => (0x09, w.toNat) | .vbfe s _ => (0x0A, s.toNat) | .vbfi _ => (0x0B, 0) | .vsel _ => (0x0C, 0)
  | .vcmp c t _ => (0x0D, codeOf iConds c * 16 + codeOf iTypes t)
  | .fadd t r a b _ => (0x10, fpSub t r a b false) | .fmul t r a b _ => (0x11, fpSub t r a b false) | .ffma t r a b c _ => (0x12, fpSub t r a b c)
  | .fmin t _ => (0x13, codeOf fTypes t * 64) | .fmax t _ => (0x14, codeOf fTypes t * 64)
  | .fcmp c t _ => (0x15, codeOf fTypes t * 64 + codeOf fConds c)
  | .fcvt d s _ => (0x16, d.toNat * 16 + s.toNat) | .frnd t r _ => (0x17, codeOf fTypes t * 64 + codeOf rMs r * 16)
  | .fclass t _ => (0x18, codeOf fTypes t * 64) | .vsfu o _ => (0x19, codeOf sfuOps o) | .plog o _ => (0x20, codeOf plogOps o)
  | .vshuf m _ => (0x28, codeOf shufModes m) | .vvote m _ => (0x29, codeOf voteModes m)
  | .vredux o t _ => (0x2A, codeOf redOps o * 32 + codeOf redTypes t)
  | .vscan o t e _ => (0x2B, codeOf redOps o * 32 + e.toNat * 16 + codeOf redTypes t)
  | .vbcast _ => (0x2C, 0) | .acqWait _ => (0x30, 0) | .acqTry _ => (0x30, 1) | .rel _ => (0x31, 0) | .aliasOp _ => (0x32, 0) | .rmov _ => (0x33, 0)
  | .unmap _ => (0x34, 0) | .give _ => (0x35, 0) | .take _ => (0x36, 0) | .takeTry _ => (0x36, 1) | .copy _ => (0x37, 0) | .mapq _ => (0x38, 0)
  | .ld q h s w _ => (0x40, memSub q h s w) | .st q w _ => (0x41, memSub q .none false w)
  | .lds s w _ => (0x42, memSub false .none s w) | .sts w _ => (0x43, memSub false .none false w)
  | .ldx s w _ => (0x44, memSub false .none s w) | .stx w _ => (0x45, memSub false .none false w)
  | .atom o w s _ => (0x46, atomSub o w s) | .atoms o w s _ => (0x47, atomSub o w s) | .atomx o w s _ => (0x48, atomSub o w s)
  | .red o w s _ => (0x49, atomSub o w s) | .csum k _ => (0x50, k.toNat) | .csumf k _ => (0x51, k.toNat)
  | .retired o s _ => (0xE0 + o.toNat, s.toNat)
  | _ => (0, 0)

/-- The 96-bit word of an OP, a SUB and raw fields (R124). -/
def lWord (op s : Nat) (r : RawF) : BitVec 96 :=
  BitVec.ofNat 96 (op * 2 ^ 88 + s * 2 ^ 80 + r.vd * 2 ^ 71 + r.va * 2 ^ 62 + r.vb * 2 ^ 53 + r.vc * 2 ^ 44 + r.g.p.toNat * 2 ^ 39
    + r.g.neg.toNat * 2 ^ 38 + r.pd.toNat * 2 ^ 33 + r.xa.toNat * 2 ^ 32 + r.imm.toNat)

/-- The word of an L-instruction; nothing for other constructors. -/
def encodeL (i : Instr) : Option (BitVec 96) := i.lf.map fun f => lWord (opSub i).1 (opSub i).2 f.raw

/-- The bytes of an instruction, lowest address first (R121, R124, R2); a device event has none. -/
def encode (i : Instr) : List Byte :=
  match encodeS i, encodeL i with
  | some (w, none), _ => leBytes 4 w.toNat
  | some (w, some k), _ => leBytes 4 w.toNat ++ leBytes 4 k.toNat
  | none, some w => leBytes 12 w.toNat
  | none, none => []

/-- The instruction decode reads from bytes of an S-stream or an L-stream. -/
def decodeBytes (lane : Bool) (bs : List Byte) : Decoded :=
  if lane then decodeL (BitVec.ofNat 96 (ofLeBytes (bs.take 12)))
  else decodeS (BitVec.ofNat 32 (ofLeBytes (bs.take 4))) (BitVec.ofNat 32 (ofLeBytes ((bs.drop 4).take 4)))

/-- The instruction read from a word numbered as the opcode table numbers it. A row of 96 bits is an L-word; every other
row is an S-word, the bits above the row's being zero. -/
def decodeTableWord (nbits w : Nat) : Option Instr :=
  match decodeBytes (nbits == 96) (leBytes 12 w) with
  | .ok i => some i
  | .refused _ => none

end Sys2Proof
end

