-- ==== Sys2Proof/Config.lean ====
section
/-! DEFINITION. What the spec leaves open: constants with no value that a proof could see. -/

namespace Sys2Proof

/-- The free value number `n`: a lane or word that the spec calls unspecified (R258, R295, R386, R387), or a free choice of
the device such as which free row an acq takes (R222). State holds the counter `fresh` that numbers them. -/
opaque Config.freeWord : Nat → BitVec 64

/-- How far the `n`-th reading of GTIME lies from the span's count: the machine takes it modulo 5 (R23). -/
opaque Config.gtimeSkew : Nat → Nat

/-- Keystone's floor cap FLOOR and lower bound MINCAP, in watts, and RESV, its estimate of the power drawn outside the
courses, in milliwatts (R378, R382). -/
opaque Config.floorCap : Nat
opaque Config.minCap : Nat
opaque Config.reserve : Nat

/-- A SHA3-384 digest of measured content, and a signature under keystone's key (R423, R424): their algorithms are
outside this manual, their inputs are not. -/
opaque Config.digest : List Nat → BitVec 384
opaque Config.sign : List Nat → BitVec 64

/-- The digest of ROM, and the image digests after reset (R424). -/
opaque Config.romDigest : BitVec 384

/-- The device's own HXL identity (DEVID register, R409). -/
opaque Config.devId : BitVec 16

/-- The largest current of a regulator, RMAX in watts (R409). -/
opaque Config.rmax : Nat → Nat

/-- A code syndrome reported for a detected error (R391). -/
opaque Config.syndrome : Nat → DWord

/-- The master code and the unit of a record about a frozen master (R392, R403). -/
opaque Config.masterCode : Nat → DWord
opaque Config.masterUnit : Nat → BitVec 16

end Sys2Proof
end

