-- ==== Sys2Proof/Machine/SMap.lean ====
section
/-! DEFINITION. Sparse tables in one canonical form: keys strictly rising, no entry equal to the default value that an
unlisted key reads as. Register banks, rows, memories and the device's tables are all held in this form. -/

namespace Sys2Proof.Machine

/-- A table from numbers to values, holding only the keys whose value differs from the table's default. -/
structure SMap (α : Type) where
  cells : List (Nat × α)
deriving DecidableEq, Repr

/-- The table that holds the default everywhere. -/
def SMap.empty {α : Type} : SMap α := ⟨[]⟩

/-- The value listed for a key, or the default. -/
def lookupCells {α : Type} (d : α) (k : Nat) : List (Nat × α) → α
  | [] => d
  | (k', v) :: t => if k = k' then v else lookupCells d k t

/-- Puts a value at a key, keeping the keys rising. -/
def insertCells {α : Type} (k : Nat) (v : α) : List (Nat × α) → List (Nat × α)
  | [] => [(k, v)]
  | (k', v') :: t =>
    if k < k' then (k, v) :: (k', v') :: t else if k = k' then (k, v) :: t else (k', v') :: insertCells k v t

/-- Takes a key out. -/
def eraseCells {α : Type} (k : Nat) : List (Nat × α) → List (Nat × α)
  | [] => []
  | (k', v') :: t => if k = k' then eraseCells k t else (k', v') :: eraseCells k t

/-- Reads a key: the default `d` where nothing is listed. -/
def SMap.get {α : Type} (m : SMap α) (d : α) (k : Nat) : α := lookupCells d k m.cells

/-- Writes a key: writing the default takes the entry out, so that equal tables are equal data. -/
def SMap.set {α : Type} [DecidableEq α] (m : SMap α) (d : α) (k : Nat) (v : α) : SMap α :=
  ⟨if v = d then eraseCells k m.cells else insertCells k v m.cells⟩

/-- Changes one key by a function. -/
def SMap.modify {α : Type} [DecidableEq α] (m : SMap α) (d : α) (k : Nat) (f : α → α) : SMap α := m.set d k (f (m.get d k))

/-- The keys listed. -/
def SMap.keys {α : Type} (m : SMap α) : List Nat := m.cells.map Prod.fst

/-- The canonical form: keys strictly rising from `lo`, no entry equal to `d`. -/
def cellsWf {α : Type} [DecidableEq α] (d : α) : Nat → List (Nat × α) → Bool
  | _, [] => true
  | lo, (k, v) :: t => decide (lo ≤ k) && !decide (v = d) && cellsWf d (k + 1) t

/-- The canonical form of a table. -/
def SMap.wf {α : Type} [DecidableEq α] (m : SMap α) (d : α) : Bool := cellsWf d 0 m.cells

/-- A memory: bytes by address; an unlisted address reads zero (R95). -/
abbrev Memory := SMap Byte

/-- The one definition of what an unlisted address reads as: zero, for every storage of R95 and for device memory. -/
def memDefault : Byte := 0

/-- One byte of a memory. -/
def Memory.read (m : Memory) (a : Nat) : Byte := SMap.get m memDefault a

/-- Writes one byte of a memory. -/
def Memory.write (m : Memory) (a : Nat) (b : Byte) : Memory := SMap.set m memDefault a b

/-- The canonical form of a memory. -/
def Memory.wf (m : Memory) : Bool := SMap.wf m memDefault

/-- `n` bytes from an address, lowest first (R2). -/
def Memory.readBytes (m : Memory) (a : Nat) : Nat → List Byte
  | 0 => []
  | n + 1 => Memory.read m a :: Memory.readBytes m (a + 1) n

/-- Writes bytes from an address on. -/
def Memory.writeBytes (m : Memory) (a : Nat) : List Byte → Memory
  | [] => m
  | b :: bs => Memory.writeBytes (Memory.write m a b) (a + 1) bs

end Sys2Proof.Machine
end

