-- ==== Sys2Proof/Machine/State.lean ====
section
/-! DEFINITION. The state of the TSN-48: warps, blocks, cores, courses, piers, partitions and the device, as plain data,
and its value after reset. The agenda, the counters `fresh` and `serial` and the selection are the model's own. -/

namespace Sys2Proof.Machine

/-- Why a step stops with a fault. -/
inductive Fault where
  /-- Raised by `exec` of an S- or L-instruction when the selection names no resident warp or split; `step` never
  calls it so (safe: the machine has no instruction to run there). -/
  | noWarp
deriving DecidableEq, Repr

/-- Why a step refuses an instruction. -/
inductive Refusal where
  /-- Raised by an arm of `exec` that has no meaning yet (safe: nothing is claimed about it). -/
  | notModelled (mnemonic : String)
deriving DecidableEq, Repr

/-! ### Locations and pages -/

/-- A translated global location: device memory by physical address, host memory, or a peer's address space (R88, R89). -/
inductive GLoc where
  | dev (pa : Nat) | host (a : Nat) | peer (d va : Nat)
deriving DecidableEq, Repr

/-- Where a lane access goes: a global location, or an offset of a block's scratchpad (R92, R93). -/
inductive ALoc where
  | g (l : GLoc) | spad (block off : Nat)
deriving DecidableEq, Repr

/-! ### Rows, queues, splits -/

/-- A physical row (R12, R49, R56, R385). -/
structure Row where
  count : Nat := 0
  pend : Nat := 0
  lanes : List Word := List.replicate 64 0
  poison : DWord := 0
deriving DecidableEq, Repr

/-- An entry of Q0 to Q7; `ready` is false until a reserved entry's result is complete (R236), `bad` marks an error that no pop has
consumed (R388). -/
structure QEnt where
  seq : Nat
  val : DWord
  ready : Bool := true
  bad : Bool := false
deriving DecidableEq, Repr

/-- The repeat state of a split (R218); `steps` are the step codes of its rep word (R217). -/
structure RepSt where
  count : Nat
  next : Nat
  steps : Nat := 0
deriving DecidableEq, Repr

/-- Why a split waits: at LNEXT or LJOIN (R40, R42), on a queue for `n` entries or for room (R32), in the acq or banker order (R50, R51), parked (R248),
on the fetch of the word at `va`, whose byte at `page` has no translation (R341), or for a condition read again at the next issue. -/
inductive LWait where
  | run | lnext | ljoin | retry | acq | bank | park
  | pop (q n : Nat) | push (q : Nat) | fetch (va page : Nat) (pri : Bool)
deriving DecidableEq, Repr

/-- A live split (R38); `since` is the order number at which it began to wait (R41), `prodLpc` the producer of a hazard
stop (R59, R371), `passBp` lets one matched breakpoint pass (R363), `repStart` the index an ERET left for a rep to start at
(R306), `word` the word it waits at, as fetched. -/
structure Split where
  lpc : DWord := 0
  mask : DWord := 0
  rpc : Option DWord := none
  rep : Option RepSt := none
  wait : LWait := .run
  since : Nat := 0
  prodLpc : DWord := 0
  passBp : Bool := false
  nextCyc : Nat := 0
  repStart : Nat := 0
  word : Nat := 0
deriving DecidableEq, Repr

/-- An overflow stack entry, with the wait it was displaced in (R39, R41). -/
structure StackEnt where
  lpc : DWord
  mask : DWord
  rpc : Option DWord
  wait : LWait := .run
deriving DecidableEq, Repr

/-! ### Traps -/

/-- The causes of R305. -/
inductive Cause where
  | illegal | emul | unmapped | page | perm | align | scope | qdead | sdc | poison | budget | watch | step | soft
  | drainFault | peerFail | wtimer | mapLimit | split | hazard
deriving DecidableEq, Repr

/-- A trap about to be entered: the frame fields that the cause gives (R302). `stream` is true for the L-stream;
`drr` is a drain
restart record for ROWA, `tag` the parked drain it describes; `first` an asynchronous trap that the warp takes before it issues anything
else (R303, R351), `ids` the stores that count as complete when it is taken (R351). -/
structure TrapRec where
  cause : Cause
  subc : Nat := 0
  stream : Bool := false
  split : Nat := 0
  asyn : Bool := false
  faddr : DWord := 0
  mask : DWord := 0
  insn : Nat := 0
  prodLpc : DWord := 0
  rowA : List Word := []
  rowB : List Word := []
  rowC : List Word := []
  drr : List Byte := []
  toInfill : Bool := false
  tag : Nat := 0
  first : Bool := false
  ids : List Nat := []
deriving DecidableEq, Repr

/-- What the device keeps from trap entry to the ERET (R306). -/
structure Entry where
  cause : Cause
  stream : Bool
  insn : Nat
  split : Nat
  lpc : DWord
  repc : Nat
  mask : DWord
  splitMask : DWord
  tag : Nat := 0
deriving DecidableEq, Repr

/-- An open containment region (R310): its handler, the warp's count of ctopen at its own ctopen (R391), and the operation
number from which it covers what the warp issues (R311). -/
structure Region where
  handler : DWord
  count : Nat
  since : Nat
deriving DecidableEq, Repr

/-- A consumption of poison whose check has not reported (R393, R394). -/
structure Consumption where
  depth : Nat
  regionCount : Nat
  unit : Nat
  pa : DWord
  va : DWord
  skid : Nat := 0
  subc : Nat := 0
deriving DecidableEq, Repr

/-! ### Memory operations -/

/-- What a lane of a memory instruction waits for: nothing, a Translation Completion, a page response, the answer of a peer
that translates it (R246, R248, R417); `bad` lanes failed with a cause and SUBC. -/
inductive LaneSt where
  | new | ats | pri | sent | bad (c : Cause) (subc : Nat)
deriving DecidableEq, Repr

/-- One lane of a memory instruction: its effective address, where that was translated to, its operands (`b` the store
data or atomic operand, `c` the cas value), the bytes forwarded from the store buffer as it was sent (R105), and the order
number at which it was sent (R99, R415). -/
structure LaneAcc where
  lane : Nat
  ea : Nat
  loc : Option ALoc := none
  b : Nat := 0
  c : DWord := 0
  bPois : Bool := false
  fwd : List (Option Byte) := []
  sent : Nat := 0
  st : LaneSt := .new
deriving DecidableEq, Repr

/-- The kinds of lane access. -/
inductive AccKind where
  | load (sx ro st : Bool) | store | atomic (op : AtomOp) (sc : Scope) (result : Bool)
deriving DecidableEq, Repr

/-- The four counted classes (R107). -/
inductive Cls where
  | ld | st | cp | tl
deriving DecidableEq, Repr

/-- Where a lane memory instruction goes: global memory, the own scratchpad, a course peer's (R241). -/
inductive Space where
  | glob | own | peer
deriving DecidableEq, Repr

/-- A lane memory instruction that has popped its operands and is being checked, translated or parked, or that trapped
and keeps its replay record (R34, R246, R248). `todo` are its lanes not performed; `begun` once its translation is decided
(R246); `counted` once it counts in its class; `depth`, `regionCount` and `clk` are the regions and the warp's WTIM at its own issue
(R312, R339), `issuedAt` the warp's issues up to it (R393). `ord` is the order number of its issue, or of its re-issue by an ERET (R249,
R259, R305); `parked` says that a lane of it waited for a page response (R248), `consumed` that it has recorded its consumption of poison
(R258), `again` that an ERET has let it issue again and it has not yet. Split 4 is none: the record of an instruction whose split an unwind or a restart discarded (R312, R315). -/
structure MemReq where
  id : Nat
  word : Nat
  split : Nat
  space : Space
  cls : Cls
  kind : AccKind
  bytes : Nat
  todo : List LaneAcc
  begun : Bool := false
  dest : List Nat := []
  trapped : Bool := false
  counted : Bool := false
  depth : Nat := 0
  regionCount : Nat := 0
  issuedAt : Nat := 0
  clk : Nat := 0
  ord : Nat := 0
  parked : Bool := false
  consumed : Bool := false
  again : Bool := false
deriving DecidableEq, Repr

/-- An outstanding operation: lane accesses sent and not yet performed (`todo`), or performed with results still to write
(`result`, the lane and its old value, poisoned in `resPois`); destination rows are those resolved at issue (R29); `lines` are device
lines that an atomic wrote and whose RDC copies are still to drop before its acknowledgement (R100). `ord` is the order number of the
issue (R259), `pasid` the context of its translations (R91), `sdest` the S register of an sld (R170). -/
structure Op where
  id : Nat
  cls : Cls
  block : Nat
  warp : Nat
  core : Nat
  kind : AccKind
  bytes : Nat
  todo : List LaneAcc
  result : List (Nat × Nat) := []
  resPois : DWord := 0
  dest : List Nat := []
  counted : Bool := true
  depth : Nat := 0
  regionCount : Nat := 0
  issuedAt : Nat := 0
  consumed : Bool := false
  lines : List Nat := []
  ord : Nat := 0
  pasid : Nat := 0
  sdest : Option Nat := none
deriving DecidableEq, Repr

/-- A vsfu instruction outstanding (R210). -/
structure SfuOpSt where
  id : Nat
  op : SfuOp
  dest : Nat
  mask : DWord
  src : List Word
  pois : DWord := 0
  lmode : BitVec 5 := 0
  due : Nat := 0
deriving DecidableEq, Repr

/-- A store buffer entry (R104): the line, the virtual line it was translated from, the bytes it holds, and the store
operations it holds bytes of; `ord` is the order number of the youngest (R259). -/
structure SbEnt where
  line : GLoc
  vline : Nat
  pasid : Nat
  bytes : SMap (Option Byte) := SMap.empty
  pois : BitVec 128 := 0
  ids : List Nat := []
  ord : Nat := 0
deriving DecidableEq, Repr

/-- A store that has left for its point of coherence and is not yet acknowledged (R105); `engine` for a drain or tst
write, whose lines the block's own loads wait for (R111, R273); `copyEng` for a copy write (R183). -/
structure Transit where
  id : Nat
  core : Nat
  block : Nat
  warp : Nat
  ent : SbEnt
  performed : Bool := false
  engine : Bool := false
  copyEng : Bool := false
  batch : BitVec 16 := 0
deriving DecidableEq, Repr

/-! ### Waiting S-instructions -/

/-- Why the S-stream waits (R161): `retry` for a condition read again at the next issue; the operations a fence waits for;
a counted bar arrival; a yield; the end clock of a pause; a queue (8 for
BQ, R37); a restart decided by a chk (R315); an access whose translation is awaited or refused; a request sent
to a peer, and its answer. -/
inductive SWait where
  | run | retry
  | fence (ids : List Nat) | barRel (ids : List Nat) | barIn (course : Bool) (n : Nat)
  | trigRel (ids : List Nat)
  | yield | exit | pause (stop : Nat)
  | ats (va : Nat) | pri (va : Nat) | refused (va : Nat) (perm : Bool)
  | restart (ka kb : DWord) | queue (q : Nat) | peer (id : Nat) | got (v : Nat) (pois : Bool)
deriving DecidableEq, Repr

/-- The order-keeping count of one class (R108): issued operations outside the longest completed prefix, oldest first,
each with whether it is complete. -/
abbrev Counter := List (Nat × Bool)

/-- The reason field of DWREC and the skids (R365, R367); `passBp` is the address of an S-word that a breakpoint has matched and that has
not issued since (R363). -/
structure DbgWarp where
  stopped : Bool := false
  reason : Nat := 0
  skidS : Nat := 0
  skidL : Nat := 0
  passBp : Option DWord := none
deriving DecidableEq, Repr

/-- A warp (R25, R60, R349); `sWord` is the word, or pair, at which its S-stream waits, as fetched, and `sAt` its WTIM when
that instruction issued (R339); `sload` are the sld instructions that have not completed, each with its operation and its register (R28,
R160); `bqBad` are the places in BQ of entries with an error (R388); `recent` counts, for the latest nanosecond
in which a clock with an issue of the warp began, the S- and the L-instructions issued in such clocks (R365). -/
structure Warp where
  idx : Nat := 0
  slot : Nat := 0
  width : Nat := 64
  -- S-stream
  sregs : SMap DWord := SMap.empty
  spc : DWord := 0
  handler : Bool := false
  swait : SWait := .run
  sAvail : SMap Nat := SMap.empty
  sNext : Nat := 0
  sWord : Nat := 0
  sAt : Nat := 0
  sload : List (Nat × Nat) := []
  -- L-stream
  splits : SMap (Option Split) := SMap.empty
  stack : List StackEnt := []
  qs : SMap (List QEnt) := SMap.empty
  bq : List DWord := []
  preds : SMap DWord := SMap.empty
  kregs : SMap DWord := SMap.empty
  map : SMap (Option Nat) := SMap.empty
  sfu : List SfuOpSt := []
  reqs : List MemReq := []
  lastPage : SMap (Option Page) := SMap.empty
  -- control registers
  lmode : BitVec 5 := 0
  partn : BitVec 3 := 6
  fflags : BitVec 5 := 0
  tvec : DWord := 0
  tframe : DWord := 0
  poolSlot : Option Nat := none
  wtim : Nat := 0
  wtimCmp : DWord := BitVec.allOnes 64
  wtimArmed : Bool := true
  batch : BitVec 16 := 0
  -- containment and restart
  regions : List Region := []
  ctopens : Nat := 0
  restarts : BitVec 8 := 0
  rlimit : BitVec 8 := 2
  restartPt : Option (DWord × List DWord) := none
  cons : List Consumption := []
  unwindHeld : Option (Nat × Nat) := none
  badS : DWord := 0
  badK : BitVec 4 := 0
  badP : BitVec 32 := 0
  bqBad : List Nat := []
  -- counters and the store buffer
  ldq : Counter := []
  stq : Counter := []
  cpq : Counter := []
  tlq : Counter := []
  closed : List (Nat × BitVec 16) := []
  sst : List Nat := []
  issues : Nat := 0
  recent : Nat × Nat × Nat := (0, 0, 0)
  sb : List SbEnt := []
  -- traps
  held : List TrapRec := []
  pending : Option TrapRec := none
  entry : Option Entry := none
  sstep : Option (Bool × Nat) := none
  infill : Bool := false
  acqFence : Bool := false
  -- scheduling and debugging
  gated : Bool := false
  dbg : DbgWarp := {}
deriving DecidableEq, Repr

/-! ### Blocks -/

/-- A drain program slot: 32 micro-operation words and 16 constants (R142). -/
structure DSlot where
  words : List Word
  consts : List Word
deriving DecidableEq, Repr

/-- A kernel descriptor's fields (R143, R144). -/
structure KDesc where
  addr : Nat := 0
  sentry : DWord := 0
  lbase : DWord := 0
  drtab : Nat := 0
  rows : Nat := 0
  tiles : Nat := 0
  scratch : Nat := 0
  accs : Nat := 0
  drainSet : BitVec 32 := 0
  feat : BitVec 32 := 0
deriving DecidableEq, Repr

/-- A full banker slot (R51, R225): the row, and the giver's writes to it that had not landed at the give; the slot is
readable when none is left. -/
structure BankSlot where
  row : Nat
  ids : List Nat
deriving DecidableEq, Repr

/-- A barrier's phase (R188): arrivals, the recorded n, the warps (block, warp) that wait, the row writes in flight at an arrival that
its completion follows (R53). -/
structure Barrier where
  arr : Nat := 0
  n : Option Nat := none
  waiting : List (Nat × Nat) := []
  writes : List Nat := []
deriving DecidableEq, Repr

/-- A matrix engine command as accepted (R261 to R263). -/
inductive CmdKind where
  | tcfg (t : Nat) (w : Word)
  | tld (s : Bool) (t : Nat) (base pitch pstride : Nat) (cfg : Word)
  | tst (s : Bool) (t : Nat) (base pitch pstride : Nat) (cfg : Word)
  | aclr (c : Nat)
  | mma (c ta tb : Nat) (fs : DWord) (cfgA cfgB : Word)
  | drld (slot : Nat) (d : DSlot)
  | drain (c slot : Nat) (d : DSlot) (desc : List Byte) (cfg : List Word) (k : Option Nat)
deriving DecidableEq, Repr

/-- A drain's running point (R287, R296): its engine; the next element (row, col), col 128 for the end of the row; whether the
row's RRES word was read; the row's reduction (none: EMPTY), the fold, the inputs of the dmx block, the bits of a byte not yet
whole (value, count and whether an element in it is poisoned). `asked` is the write of the access order that stands at a peer, unanswered
(R417). `wc` counts the writes of the access order since the restart point, `skip` those already performed;
`rred`, `rfold` and `rcarry` are the values at the restart point. A parked drain keeps where it stopped. -/
structure DrainSt where
  eng : Nat := 0
  row : Nat := 0
  col : Nat := 0
  began : Bool := false
  red : Option Word := none
  fold : DWord := 0
  gather : List Word := []
  carry : Nat × Nat × Bool := (0, 0, false)
  redPois : Bool := false
  gatherPois : Bool := false
  wc : Nat := 0
  skip : Nat := 0
  rred : Option Word := none
  rfold : DWord := 0
  rcarry : Nat × Nat × Bool := (0, 0, false)
  parked : Bool := false
  armed : Bool := false
  parkUop : Nat := 0
  parkStix : Nat := 0
  faddr : DWord := 0
  reported : Bool := false
  asked : Option Nat := none
deriving DecidableEq, Repr

/-- A command in the engine, in arrival order; `pos` counts the bytes a tld or tst has
moved (R272, R273) or the chunks an mma has added (R84, R279), `tabs` the bytes of an mma's two scale tables, read as it starts (R277),
`after` names the stores of its warp that must be performed first, `issuedAt` the warp's issues up to it (R393). -/
structure Cmd where
  id : Nat
  block : Nat
  warp : Nat
  batch : BitVec 16
  kind : CmdKind
  started : Bool := false
  pos : Nat := 0
  moved : Bool := false
  drain : DrainSt := {}
  after : List Nat := []
  inject : Bool := false
  tabs : List Byte × List Byte := ([], [])
  issuedAt : Nat := 0
  depth : Nat := 0
  regionCount : Nat := 0
deriving DecidableEq, Repr

/-- An accepted copy (R177 to R183): its descriptor bytes, the descriptor's scratchpad offset, the elements moved. -/
structure Copy where
  id : Nat
  block : Nat
  warp : Nat
  kind : CopyKind
  desc : List Byte
  at_ : Nat
  depth : Nat := 0
  regionCount : Nat := 0
  moved : SMap Bool := SMap.empty
deriving DecidableEq, Repr

/-- A block (R15, R349), resident on `core` or saved. -/
structure Block where
  uid : Nat := 0
  part : Nat := 0
  queue : Nat := 0
  packet : Nat := 0
  idx : Nat := 0
  x : Nat := 0
  y : Nat := 0
  z : Nat := 0
  peer : Nat := 0
  gang : Option Nat := none
  core : Option Nat := none
  pasid : Nat := 0
  blkw : Nat := 1
  prio : Nat := 0
  dclass : Nat := 0
  debug : Bool := false
  hazMode : Bool := false
  kd : KDesc := {}
  chg : List (Nat × Nat) := []
  warps : SMap (Option Warp) := SMap.empty
  started : Bool := true
  pfail : Bool := false
  triggered : Bool := false
  frozen : Bool := false
  exited : Bool := false
  evented : Bool := false
  avoid : Option Nat := none
  saving : Bool := false
  resend : Bool := false
  /-- the block was saved in a debug stop and has not begun to issue since (R360) -/
  stopSaved : Bool := false
  -- storage
  banker : SMap (Option BankSlot) := SMap.empty
  bankWait : List (Nat × Nat × Nat × Bool) := []
  takes : List (Nat × BankSlot) := []
  bars : SMap Barrier := SMap.empty
  spad : Memory := SMap.empty
  spadPois : SMap Bool := SMap.empty
  tcf : SMap Word := SMap.empty
  tiles : Memory := SMap.empty
  tilePois : SMap Bool := SMap.empty
  tileValid : SMap Bool := SMap.empty
  accs : SMap Word := SMap.empty
  accPois : SMap Bool := SMap.empty
  accSat : BitVec 48 := 0
  /-- one more than the clock of the latest saturation, and the bits that the array set in that clock (R84) -/
  satAt : Nat := 0
  satNew : BitVec 48 := 0
  slots : SMap (Option DSlot) := SMap.empty
  -- what a save holds of the core (R349)
  savedRows : SMap Row := SMap.empty
  savedCmds : List Cmd := []
  savedCopies : List Copy := []
  lost : Bool := false
deriving DecidableEq, Repr

/-- A course gang: its set of 16 course barriers (R187). -/
structure Gang where
  size : Nat := 1
  members : List Nat := []
  bars : SMap Barrier := SMap.empty
deriving DecidableEq, Repr

/-! ### Cores, courses, piers -/

/-- Where a fixed-latency write lands (R57, R192, R236, R239). -/
inductive Target where
  | row (r : Nat) | pred (p : Nat) | kint (k : Nat) | kfloat (k : Nat) | queue (q seq : Nat)
deriving DecidableEq, Repr

/-- A result not yet landed: its landing clock, issue order, writer, destination, lanes and values; `far` results land at
FAR_ROW_RESULT instead of a clock (R54); `pend` results hold a pending bit of their row (R56). -/
structure Flight where
  id : Nat
  due : Nat
  block : Nat
  warp : Nat
  lpc : DWord
  tgt : Target
  mask : DWord
  vals : List Word := []
  val : DWord := 0
  pois : DWord := 0
  far : Bool := false
  pend : Bool := false
  flags : BitVec 5 := 0
deriving DecidableEq, Repr

/-- A line of an L1 or RDC: its 128 bytes, the poison of its granules, and the read-only mark (R96, R98). -/
structure CLine where
  data : List Byte
  pois : BitVec 2 := 0
  ro : Bool := false
deriving DecidableEq, Repr

/-- A split waiting in acq.wait, with its quadrant, base and count (R50). -/
structure AcqWait where
  quad : Nat
  block : Nat
  warp : Nat
  split : Nat
  base : Nat
  count : Nat
deriving DecidableEq, Repr

/-- The debug registers of a core (R357 to R363, R371, R404). -/
structure DbgCore where
  wpA : SMap DWord := SMap.empty
  wpC : SMap DWord := SMap.empty
  wpLoc : SMap (Option ALoc) := SMap.empty
  wpPage : SMap (Option Page) := SMap.empty
  wpHit : SMap DWord := SMap.empty
  wpHt : SMap DWord := SMap.empty
  ibpA : SMap DWord := SMap.empty
  ibpC : SMap DWord := SMap.empty
  dwsel : DWord := 0
  dinj : DWord := 0
deriving DecidableEq, Repr

/-- A logical core (R7, R10, R12); `sfuFree` and `engFree` are the clocks from which its special function units and the units of its
engine are free (R210, R299); `bankAt` and `engAt` are the clock and the place in that clock's order of the latest arrival at the banker
and at the engine (R227, R261); `clkAt` is the GTIME at which the clock began (R365); `ages` holds, for each stream that can issue, one more
than the clock since which it can, `ageAt` the instruction that it is an age of, and `lastS` and `lastL` the latest winners of a quadrant's slots
(R331); `priWait` holds the pages, by PASID, that have no translation and that the core has asked the host for (R248). -/
structure Core where
  rows : SMap Row := SMap.empty
  flight : List Flight := []
  acqWait : List AcqWait := []
  l1 : SMap (Option CLine) := SMap.empty
  tlb : List Page := []
  noPage : List (Nat × Nat) := []
  priWait : List (Nat × Nat) := []
  cmds : List Cmd := []
  copies : List Copy := []
  cyc : Nat := 0
  clkAt : Nat := 0
  ages : SMap Nat := SMap.empty
  ageAt : SMap Nat := SMap.empty
  lastS : SMap (Option (Nat × Nat)) := SMap.empty
  lastL : SMap (Option (Nat × Nat)) := SMap.empty
  wantFreq : Option (Nat × Nat) := none
  sUsed : SMap Nat := SMap.empty
  lUsed : SMap Nat := SMap.empty
  lHold : SMap Nat := SMap.empty
  lastFreed : SMap (Option (Nat × Nat)) := SMap.empty
  freed : SMap Nat := SMap.empty
  sfuFree : SMap Nat := SMap.empty
  bankAt : Nat × Nat := (0, 0)
  engAt : Nat × Nat := (0, 0)
  engFree : SMap Nat := SMap.empty
  disabled : Bool := false
  retiring : List Nat := []
  stopDue : Option Nat := none
  dbg : DbgCore := {}
deriving DecidableEq, Repr

/-- A course (R9, R332, R333, R364, R368, R411); `stopAt` is the instant of its stop (R365). -/
structure Course where
  pwra : Int := 0
  gate : Nat := 0
  deficit : Nat := 0
  switch : DWord := 0
  pendSwitch : Option DWord := none
  stopped : Bool := false
  stopAt : Nat := 0
  stepping : Bool := false
  stepWait : Bool := false
  src : Nat := 0
  srcCore : Nat := 0
  srcWarp : Nat := 0
  srcWp : Nat := 0
  srcIbp : Nat := 0
  step : Option (Nat × Nat × Bool × Nat) := none
  stepIssued : Bool := false
deriving DecidableEq, Repr

/-- A pier: its vaults' registers, its physical cores' thermal registers, its RDC, and keystone's maps (R7, R18, R100,
R372 to R383, R409). `samples` counts the samples its sensors have taken (R372); `vaultMove` holds, of a logical vault being moved, the
spare and the 512-byte pieces copied (R401). -/
structure Pier where
  vra : SMap Nat := SMap.empty
  vtemp : SMap Int := SMap.empty
  samples : Nat := 0
  mult : SMap Nat := SMap.empty
  fall : SMap Nat := SMap.empty
  coup : SMap Nat := SMap.empty
  chg : SMap Nat := SMap.empty
  ctemp : SMap Int := SMap.empty
  thp : SMap Int := SMap.empty
  vscale : SMap Nat := SMap.empty
  freq : SMap Nat := SMap.empty
  emerg : Bool := false
  rdc : SMap (Option CLine) := SMap.empty
  coreMap : SMap Nat := SMap.empty
  vaultMap : SMap Nat := SMap.empty
  vaultMove : SMap (Option (Nat × Nat)) := SMap.empty
  coreSpareUsed : Bool := false
  vaultSpareUsed : SMap Bool := SMap.empty
deriving DecidableEq, Repr

/-! ### Partitions, queues, grids -/

/-- The states of a TDI (R420). -/
inductive Tdi where
  | unlocked | locked | run | error
deriving DecidableEq, Repr

/-- A launch queue: its register block and trap block (R317, R319, R412), and its pool slots in use; `epoch` counts the resets, so that
packets of different times keep different numbers. -/
structure Queue where
  rbase : DWord := 0
  rlog : Nat := 0
  state : Nat := 0
  err : Nat := 0
  wridx : Nat := 0
  rdidx : Nat := 0
  supaddr : DWord := 0
  qpasid : DWord := 0
  qtvec : DWord := 0
  qtfbase : DWord := 0
  qtflog : Nat := 0
  qerrqb : DWord := 0
  used : List Nat := []
  epoch : Nat := 0
deriving DecidableEq, Repr

/-- A partition entry and its function's state (R356, R408, R410, R413, R420); `bars` are the BAR registers of the function, by BAR number
(R407, R421). -/
structure Part where
  courses : Byte := 0
  en : Bool := false
  pbase : Nat := 0
  pcnt : Nat := 0
  outmask : DWord := 0
  memBase : SMap Nat := SMap.empty
  memSize : SMap Nat := SMap.empty
  tdi : Tdi := .unlocked
  priOff : Bool := false
  dqen : DWord := 0
  dhzm : DWord := 0
  queues : SMap Queue := SMap.empty
  dtlb : List Page := []
  noPage : List (Nat × Nat) := []
  msixTable : Memory := SMap.empty
  msixPba : DWord := 0
  bars : SMap Nat := SMap.empty
deriving DecidableEq, Repr

/-- A launch parameter block's fields (R321). -/
structure Lpb where
  karg : DWord := 0
  gx : Nat := 1
  gy : Nat := 1
  gz : Nat := 1
  blkw : Nat := 1
  courseN : Nat := 1
  order : Nat := 0
  swz : Nat := 0
  dclass : Nat := 0
  prio : Nat := 0
  cmode : Nat := 0
  width : Nat := 64
  lmode : BitVec 5 := 0
  depN : Nat := 0
  depK : Nat := 0
  deadline : DWord := 0
  budget : DWord := 0
  deps : List DWord := []
  cplAddr : DWord := 0
  cplVal : DWord := 0
  blkEvt : DWord := 0
deriving DecidableEq, Repr

/-- An admitted grid (R322 to R336). `budg` counts down; the traversal cursor is the number of blocks placed. `needs` are its
dependences, as queue and packet number; `saved` the blocks saved, in order. -/
structure Grid where
  part : Nat := 0
  queue : Nat := 0
  packet : Nat := 0
  noop : Bool := false
  lpb : Lpb := {}
  kd : KDesc := {}
  pasid : Nat := 0
  debug : Bool := false
  hazMode : Bool := false
  budg : DWord := BitVec.allOnes 64
  placed : Nat := 0
  exited : Nat := 0
  triggered : Nat := 0
  needs : List (Nat × Nat) := []
  saved : List Nat := []
  held : Bool := false
  /-- GTIME as BUDG reached zero, and whether the supervisor event record is still to be written (R325). -/
  exhAt : Nat := 0
  owes : Bool := false
  failed : Bool := false
  aborted : Bool := false
  lost : Bool := false
  /-- A block event or the completion write was refused: the grid makes no completion write (R335, R336). -/
  noCpl : Bool := false
  complete : Bool := false
deriving DecidableEq, Repr

/-- A context's error queue registers (R389), and the records of keystone that wait for a translation (R428). -/
structure Ctx where
  part : Nat
  pasid : Nat
  errqb : DWord := 0
  errqh : DWord := 0
  due : List (List Byte) := []
deriving DecidableEq, Repr

/-- A peer route (R416). -/
structure Route where
  valid : Bool := false
  ports : BitVec 16 := 0
  remid : BitVec 16 := 0
  inpart : Byte := 0
  inperm : Byte := 0
  inpasid : BitVec 32 := 0
deriving DecidableEq, Repr

/-- The scope record of an L2 line (R117): the last scope and its origin. -/
structure ScopeRec where
  scope : Scope
  pier : Nat
  course : Nat
  core : Nat
deriving DecidableEq, Repr

/-- A registration of retired opcodes with infill (R157): the kernel is known by its partition, PASID and descriptor address. -/
structure InfillReg where
  part : Nat
  pasid : Nat
  kdesc : Nat
  lbase : Nat
  size : Nat
  opcodes : BitVec 16
deriving DecidableEq, Repr

/-! ### What acts next -/

/-- One entry of the agenda: which agent acts next. The order of agents and every input is free in time (R427); a step
takes the head of the list. -/
inductive Move where
  /-- the S-stream of warp `w` of block `b` issues in its quadrant's S slot -/
  | sIssue (b w : Nat)
  /-- split `k` of warp `w` of block `b` issues in one of its quadrant's L slots -/
  | lIssue (b w k : Nat)
  /-- a device event of the opcode table -/
  | event (i : Instr)
  /-- one clock of core `c` -/
  | clock (c : Nat)
  /-- one nanosecond of GTIME -/
  | nano
  /-- a debug stop of core `c`'s course takes effect on the core (R364) -/
  | stopReach (c : Nat)
  /-- an L1 or an RDC drops a line (caches keep lines as they choose, R96, R100) -/
  | dropL1 (c line : Nat)
  | dropRdc (p line : Nat)
  /-- an L2 slice drops a line, losing its scope record (R117) -/
  | dropL2 (line : Nat)
  /-- a copy engine moves an element, or the `n` from it on whose writes merge (R181) -/
  | copyElem (c k e n : Nat)
  /-- the requests of the host that follow come in the IDE stream of the function they reach, or outside it (R420) -/
  | ideStream (outside : Bool)
  /-- the requests of the host that follow come through PF0's BARs, or through the VF's (R407) -/
  | hostVia (pf : Bool)
  /-- an agent outside the device writes host or peer memory -/
  | outside (l : GLoc) (b : Byte)
deriving DecidableEq, Repr

/-- The issuing stream: the warp, the split of an L-instruction, the word fetched (for the frame's INSN), and whether the
stream issued (false where it waited). -/
structure Sel where
  block : Nat := 0
  warp : Nat := 0
  split : Nat := 0
  lane : Bool := false
  word : Nat := 0
  issued : Bool := true
deriving DecidableEq, Repr

/-- A management-log record (R391, R409). -/
abbrev LogRec := List Byte

/-- The registers of the device that no tier below owns (R382, R402, R409, R414). `image` and `infillImage` are the two firmware images
(R424); `warm` says that a bring-up follows a reset of the PF (R406); `outside` that the host's requests to a function come outside its IDE
stream (R420), `viaPf` that they come through PF0's BARs (R407); `errs` holds, of each core and vault, the times of its latest uncorrectable errors, at most 17 (R399). -/
structure Dev where
  ready : Bool := false
  keystoneOk : Bool := false
  failStep : Nat := 0
  tripped : Bool := false
  logCnt : Nat := 0
  corrected : Nat := 0
  log : SMap LogRec := SMap.empty
  vfEnable : Bool := false
  numVfs : Nat := 0
  pfMsix : Memory := SMap.empty
  pfBars : SMap Nat := SMap.empty
  pfPba : SMap Bool := SMap.empty
  share : SMap Nat := SMap.empty
  regOn : SMap Bool := SMap.empty
  cap : Nat := 4400
  lastSeq : DWord := 0
  expiry : Nat := 0
  refilled : Nat := 0
  leased : Bool := false
  onFloor : Bool := false
  ports : BitVec 16 := 0
  image : Nat := 0
  infillImage : Nat := 0
  pendImage : Option Nat := none
  pendInfill : Option Nat := none
  warm : Bool := false
  outside : Bool := false
  viaPf : Bool := false
  errs : SMap (List Nat) := SMap.empty
  frozen : List Master := []
  registered : List InfillReg := []
  sentMsix : List (Option Nat × Nat) := []
  reply : List Byte := []
  refusal : Option Bool := none
deriving DecidableEq, Repr

/-- The machine. `memPois` marks the poisoned granules of device memory, `l2Bad` those of them whose error arose in an L2 slice
(R385, R391). -/
structure State where
  agenda : List Move
  fresh : Nat
  serial : Nat
  sel : Sel
  gtime : Nat
  gmark : Nat
  dev : Dev
  cores : SMap Core
  courses : SMap Course
  piers : SMap Pier
  parts : SMap Part
  ctxs : List Ctx
  routes : SMap Route
  grids : List Grid
  blocks : SMap (Option Block)
  gangs : SMap Gang
  nextUid : Nat
  ops : List Op
  transit : List Transit
  mem : Memory
  hostMem : Memory
  peerMem : Memory
  memPois : SMap Bool
  l2Bad : SMap Bool
  scopes : SMap (Option ScopeRec)
deriving DecidableEq, Repr

/-- Vault map after reset (assumption 10): physical vaults 16 and 33 are the spares. -/
def resetVault (v : Nat) : Nat := if v < 16 then v + 1 else if v = 16 then 0 else if v < 33 then v else 0

/-- A pier at reset: keystone's maps the identity with the ninth core and one vault of each group spare (assumption 10),
THP 95.0 degrees (R377), every frequency nominal (assumption 11); VRA, VBASE and VSCALE read through their defaults. -/
def resetPier : Pier :=
  { coreMap := ⟨(List.range 8).map fun c => (c, c + 1)⟩
    vaultMap := ⟨((List.range 34).map fun v => (v, resetVault v)).filter fun e => e.2 ≠ 0⟩ }

/-- The machine after device reset (R22, R23, R317, R402, R409): nothing placed, nothing enabled, nothing written. -/
def State.reset : State :=
  { agenda := [], fresh := 0, serial := 0, sel := {}, gtime := 0, gmark := 0,
    dev := {}, cores := SMap.empty, courses := SMap.empty,
    piers := ⟨(List.range 4).map fun p => (p, resetPier)⟩, parts := SMap.empty, ctxs := [], routes := SMap.empty, grids := [],
    blocks := SMap.empty, gangs := SMap.empty, nextUid := 0, ops := [], transit := [], mem := SMap.empty, hostMem := SMap.empty,
    peerMem := SMap.empty, memPois := SMap.empty, l2Bad := SMap.empty, scopes := SMap.empty }

end Sys2Proof.Machine
end

