-- ==== Sys2Proof/Machine/Ops.lean ====
section
/-! DEFINITION. The named operations over the state that every meaning is written with: reading and writing each tier,
memory at its point of coherence and through the caches, and the one operation that takes an exception (R302 to R304) with
the return from it beside it (R306). -/

namespace Sys2Proof.Machine

/-! ### Reaching the tiers -/

def getCore (s : State) (c : Nat) : Core := s.cores.get {} c
def setCore (s : State) (c : Nat) (x : Core) : State := { s with cores := s.cores.set {} c x }
def modCore (s : State) (c : Nat) (f : Core → Core) : State := setCore s c (f (getCore s c))
def getCourse (s : State) (k : Nat) : Course := s.courses.get {} k
def setCourse (s : State) (k : Nat) (x : Course) : State := { s with courses := s.courses.set {} k x }
def modCourse (s : State) (k : Nat) (f : Course → Course) : State := setCourse s k (f (getCourse s k))
def getPier (s : State) (p : Nat) : Pier := s.piers.get {} p
def setPier (s : State) (p : Nat) (x : Pier) : State := { s with piers := s.piers.set {} p x }
def modPier (s : State) (p : Nat) (f : Pier → Pier) : State := setPier s p (f (getPier s p))
def getPart (s : State) (k : Nat) : Part := s.parts.get {} k
def setPart (s : State) (k : Nat) (x : Part) : State := { s with parts := s.parts.set {} k x }
def modPart (s : State) (k : Nat) (f : Part → Part) : State := setPart s k (f (getPart s k))
def getQueue (s : State) (k n : Nat) : Queue := (getPart s k).queues.get {} n
def setQueue (s : State) (k n : Nat) (q : Queue) : State := modPart s k fun p => { p with queues := p.queues.set {} n q }
def modQueue (s : State) (k n : Nat) (f : Queue → Queue) : State := setQueue s k n (f (getQueue s k n))
/-- The block of a number: its number is the key it is held under. -/
def getBlock (s : State) (b : Nat) : Option Block := (s.blocks.get none b).map fun x => { x with uid := b }
def setBlock (s : State) (b : Block) : State := { s with blocks := s.blocks.set none b.uid (some b) }
def modBlock (s : State) (b : Nat) (f : Block → Block) : State :=
  match getBlock s b with
  | some x => { s with blocks := s.blocks.set none b (some (f x)) }
  | none => s
/-- The warp of an index: its index is the key it is held under. -/
def warpOf (b : Block) (w : Nat) : Option Warp := (b.warps.get none w).map fun x => { x with idx := w }
def getWarp (s : State) (b w : Nat) : Option Warp := (getBlock s b).bind fun x => warpOf x w
def setWarp (s : State) (b : Nat) (w : Warp) : State :=
  modBlock s b fun x => { x with warps := x.warps.set none w.idx (some w) }
def modWarp (s : State) (b w : Nat) (f : Warp → Warp) : State :=
  match getWarp s b w with
  | some x => modBlock s b fun y => { y with warps := y.warps.set none w (some (f x)) }
  | none => s
def modDev (s : State) (f : Dev → Dev) : State := { s with dev := f s.dev }

/-- The blocks, in uid order. -/
def allBlocks (s : State) : List Block := s.blocks.cells.filterMap fun e => e.2.map fun x => { x with uid := e.1 }
/-- The warps of a block that have not exited, in index order. -/
def liveWarps (b : Block) : List Warp := b.warps.cells.filterMap fun e => e.2.map fun x => { x with idx := e.1 }
/-- The blocks resident on a core. -/
def blocksOn (s : State) (c : Nat) : List Block := (allBlocks s).filter fun b => b.core == some c
/-- The logical core of a block; a saved block has none, and its core number is not used. -/
def coreNo (b : Block) : Nat := b.core.getD 0
def courseOf (c : Nat) : Nat := c / 4
def pierOf (c : Nat) : Nat := c / 8
/-- The quadrant of a warp (R10, R328). -/
def quadOf (w : Warp) : Nat := w.idx % 4

/-- The grid of a block. -/
def gridIs (k n i : Nat) (g : Grid) : Bool := g.part == k && g.queue == n && g.packet == i
def getGrid (s : State) (k n i : Nat) : Option Grid := s.grids.find? (gridIs k n i)
def modGrid (s : State) (k n i : Nat) (f : Grid → Grid) : State :=
  { s with grids := s.grids.map fun g => if gridIs k n i g then f g else g }
def gridOf (s : State) (b : Block) : Option Grid := getGrid s b.part b.queue b.packet
def modGridOf (s : State) (b : Block) (f : Grid → Grid) : State := modGrid s b.part b.queue b.packet f

/-- The next operation number: issue order (R108). -/
def bump (s : State) : State := { s with serial := s.serial + 1 }
/-- The next free value and the state that has used it. -/
def freeVal (s : State) : BitVec 64 × State := (Config.freeWord s.fresh, { s with fresh := s.fresh + 1 })

/-! ### The issuing warp -/

/-- The selected warp with its block. -/
def me (s : State) : Option (Block × Warp) :=
  (getBlock s s.sel.block).bind fun b => (warpOf b s.sel.warp).map fun w => (b, w)

/-- Runs a meaning on the selected warp; without one there is nothing to run. -/
def onWarp (s : State) (f : Block → Warp → State) : Host.Outcome State Fault Refusal :=
  match me s with
  | some (b, w) => .next (f b w)
  | none => .fault .noWarp

/-- S register `n`: S0 reads zero (R28, R159). -/
def sreg (w : Warp) (n : SReg) : DWord := if n = 0 then 0 else w.sregs.get 0 n.toNat
/-- Writes S register `n`: a write to S0 is discarded (R28). An error in the old value is gone with it (R388). -/
def setS (w : Warp) (n : SReg) (v : DWord) : Warp :=
  if n = 0 then w else { w with sregs := w.sregs.set 0 n.toNat v, badS := w.badS &&& ~~~(1#64 <<< n.toNat) }

/-- The S-stream goes on to an address. -/
def goto_ (w : Warp) (a : DWord) : Warp := { w with spc := a, swait := .run }
/-- The S-stream goes on to the next word. -/
def advance (w : Warp) : Warp := goto_ w (w.spc + 4)

/-- The selected S-instruction waits, with no effect, and issues again from its start (R161). -/
def waitS (s : State) (b : Block) (w : Warp) (why : SWait) : State :=
  { setWarp s b.uid { w with swait := why } with sel := { s.sel with issued := false } }
/-- The selected L-instruction waits. -/
def waitL (s : State) : State := { s with sel := { s.sel with issued := false } }

/-! ### Splits (R38, R429) -/

def getSplit (w : Warp) (k : Nat) : Option Split := w.splits.get none k
def setSplit (w : Warp) (k : Nat) (p : Split) : Warp := { w with splits := w.splits.set none k (some p) }
def dropSplit (w : Warp) (k : Nat) : Warp := { w with splits := w.splits.set none k none }
/-- The live splits with their numbers, lowest first. -/
def liveSplits (w : Warp) : List (Nat × Split) := w.splits.cells.filterMap fun e => e.2.map fun p => (e.1, p)
/-- The lowest free split number (R429). -/
def freeSplit (w : Warp) : Option Nat := (List.range 4).find? fun k => (getSplit w k).isNone
/-- The lanes a warp of this width has (R27). -/
def widthMask (w : Warp) : DWord := maskOf fun l => l < w.width
/-- The L-stream as at warp start and after an unwind: one split, number 0, waiting at LNEXT (R38, R312). -/
def oneSplit (w : Warp) : Warp :=
  { w with splits := SMap.empty.set none 0 (some { mask := widthMask w, wait := .lnext, lpc := 0 }), stack := [] }
/-- Whether every live split waits at LNEXT and nothing is stacked (R31, R46). -/
def allAtLnext (w : Warp) : Bool := (liveSplits w).all (fun e => e.2.wait == .lnext) && w.stack.all fun e => e.wait == .lnext
/-- The repetition a split stands at (R218): of a rep that an ERET left to go on, the index it goes on at. -/
def repcOf (p : Split) : Nat := match p.rep with | some r => r.next | none => p.repStart
/-- The split goes on past its instruction: to the next repetition, or past the rep's target, or to the next word (R217). -/
def stepSplit (p : Split) : Split :=
  match p.rep with
  | some r => if r.next + 1 < r.count then { p with rep := some { r with next := r.next + 1 }, wait := .run }
              else { p with rep := none, lpc := p.lpc + 24, wait := .run }
  | none => { p with lpc := p.lpc + 12, wait := .run, repStart := 0 }
/-- The selected split goes on. -/
def advanceL (w : Warp) (k : Nat) : Warp :=
  match getSplit w k with
  | some p => setSplit w k (stepSplit p)
  | none => w

/-! ### Counters (R107, R108) -/

/-- Drops the longest prefix of completed operations. -/
def trim : Counter → Counter
  | (_, true) :: t => trim t
  | c => c
def counter (w : Warp) : Cls → Counter
  | .ld => w.ldq | .st => w.stq | .cp => w.cpq | .tl => w.tlq
def setCounter (w : Warp) (k : Cls) (c : Counter) : Warp :=
  match k with
  | .ld => { w with ldq := c } | .st => { w with stq := c } | .cp => { w with cpq := c } | .tl => { w with tlq := c }
/-- The value of a counter: operations outside the longest completed prefix. -/
def countN (w : Warp) (k : Cls) : Nat := (counter w k).length
/-- Counts a new operation. -/
def countIn (w : Warp) (k : Cls) (id : Nat) : Warp := setCounter w k (counter w k ++ [(id, false)])
/-- An operation completes. -/
def countDone (w : Warp) (k : Cls) (id : Nat) : Warp :=
  setCounter w k (trim ((counter w k).map fun e => if e.1 = id then (e.1, true) else e))

/-! ### Rows (R47, R49, R56) -/

def rowKey (q n : Nat) : Nat := q * 2048 + n
def getRow (x : Core) (r : Nat) : Row := x.rows.get {} r
def setRow (x : Core) (r : Nat) (v : Row) : Core := { x with rows := x.rows.set {} r v }
def modRow (x : Core) (r : Nat) (f : Row → Row) : Core := setRow x r (f (getRow x r))
def laneOf (v : List Word) (l : Nat) : Word := v.getD l 0
/-- The 64 lanes of a function. -/
def laneList (f : Nat → Word) : List Word := (List.range 64).map f
/-- Writes the lanes of a mask; a poisoned lane's poison moves with it (R386). -/
def writeLanes (v : Row) (m : DWord) (vals : List Word) (pois : DWord) : Row :=
  { v with lanes := laneList fun l => if bitOf m l then laneOf vals l else laneOf v.lanes l
           poison := (v.poison &&& ~~~m) ||| (pois &&& m) }
/-- The row a name maps to. -/
def mapOf (w : Warp) (n : Nat) : Option Nat := w.map.get none n
def setMap (w : Warp) (n : Nat) (r : Option Nat) : Warp := { w with map := w.map.set none n r }
def isFar (w : Warp) (r : Nat) : Bool := r / 2048 != quadOf w
/-- Whether a fixed-latency or far write to a row has not landed. -/
def rowInFlight (x : Core) (r : Nat) : Bool := x.flight.any fun f => f.tgt == .row r
/-- Whether a row is in its quadrant's free pool (R49). -/
def rowFree (x : Core) (r : Nat) : Bool := (getRow x r).count == 0 && (getRow x r).pend == 0 && !rowInFlight x r
/-- The rows of a quadrant that hold a reference or a pending write. -/
def busyRows (x : Core) (q : Nat) : List Nat :=
  ((x.rows.keys ++ x.flight.filterMap fun f => match f.tgt with | .row r => some r | _ => none).eraseDups).filter
    fun r => r / 2048 == q && !rowFree x r
/-- Rows in a quadrant's free pool. -/
def freeRows (x : Core) (q : Nat) : Nat := 2048 - (busyRows x q).length
/-- Adds to a row's reference count. -/
def incRow (x : Core) (r : Nat) : Core := modRow x r fun v => { v with count := v.count + 1 }
/-- Drops a reference. -/
def decRow (x : Core) (r : Nat) : Core := modRow x r fun v => { v with count := v.count - 1 }
/-- Sets a row's pending bit for one more operation (R56). -/
def pendRow (x : Core) (r : Nat) : Core := modRow x r fun v => { v with pend := v.pend + 1 }
/-- Clears it for one operation. -/
def unpendRow (x : Core) (r : Nat) : Core := modRow x r fun v => { v with pend := v.pend - 1 }
/-- The first free rows of a quadrant from a starting index on; which free row is taken is the device's choice (R222). -/
def pickRows (x : Core) (q start : Nat) : Nat → Nat → List Nat
  | 0, _ => []
  | _, 0 => []
  | fuel + 1, n + 1 =>
    let r := rowKey q (start % 2048)
    if rowFree x r then r :: pickRows x q (start + 1) fuel n else pickRows x q (start + 1) fuel (n + 1)
/-- Makes a row fresh: count one, every lane zero, unpoisoned (R50). -/
def freshRow (x : Core) (r : Nat) : Core := setRow x r { count := 1 }

/-! ### Translation (R88 to R90, R246, R413) -/

def pageHolds (p : Page) (pasid va : Nat) : Bool := p.pasid == pasid && p.vbase ≤ va && va < p.vbase + p.size
def findPage (t : List Page) (pasid va : Nat) : Option Page := t.find? fun p => pageHolds p pasid va
def pageLoc (p : Page) (va : Nat) : GLoc := if p.host then .host (p.pbase + (va - p.vbase)) else .dev (p.pbase + (va - p.vbase))
/-- DEVID of a global address (R88). -/
def devidOf (a : DWord) : Nat := (a.toNat / 2 ^ 57) % 64
/-- The VA field of a global address. -/
def vaOf (a : DWord) : Nat := a.toNat % 2 ^ 57
/-- The routes a warp of a partition may address (R415). -/
def routeOk (s : State) (k d : Nat) : Bool :=
  (s.routes.get {} d).valid && (getPart s k).outmask.getLsbD d
/-- The address layout check of R88 and the route check of R415. -/
def addrOk (s : State) (k : Nat) (a : DWord) : Bool :=
  !a.getLsbD 63 && (devidOf a == 0 || (devidOf a != 63 && routeOk s k (devidOf a)))
/-- What translation says of a global address: a location, a lookup still to make, or a page the host must supply
(present but insufficient, R89). A VF whose PRI is off gets no page (R413). -/
inductive Xlat where
  | at_ (l : GLoc) | miss | weak
deriving DecidableEq, Repr
def xlat (t : List Page) (pasid : Nat) (a : DWord) (write exec : Bool) : Xlat :=
  if devidOf a ≠ 0 then .at_ (.peer (devidOf a) (vaOf a))
  else match findPage t pasid (vaOf a) with
    | none => .miss
    | some p => if (if exec then p.x else if write then p.w else p.r) then .at_ (pageLoc p (vaOf a)) else .weak

/-- Whether a request to a peer is held: its route has no live port (R417). -/
def routeUp (s : State) (d : Nat) : Bool := (s.routes.get {} d).ports &&& s.dev.ports != 0
def held (s : State) (l : GLoc) : Bool := match l with | .peer d _ => !routeUp s d | _ => false

/-- An access that the device makes for itself, translated by core `c` for a partition and PASID (R428): where it goes or what it waits
for; none where it is refused at once: an address that R88 or R415 forbids, or an insufficient page where PRI is off (R413). -/
def devXlat (s : State) (c k pasid : Nat) (a : DWord) (write : Bool) : Option Xlat :=
  if !addrOk s k a then none
  else match xlat (getCore s c).tlb pasid a write false with
    | .weak => if (getPart s k).priOff then none else some .weak
    | .at_ l => some (if held s l then .miss else .at_ l)
    | .miss => some .miss

/-! ### Memory at its point of coherence (R19, R99, R101, R386) -/

/-- Home pier, slice and logical vault of a device physical address (R19). -/
def homePier (pa : Nat) : Nat := pa / (96 * 2 ^ 30)
def homeVault (pa : Nat) : Nat := (pa % (96 * 2 ^ 30)) / 512 % 32
def homeSlice (pa : Nat) : Nat := (pa % (96 * 2 ^ 30)) / 8192 % 2
/-- The byte within its vault at which a device physical address lies (R19). -/
def homeInner (pa : Nat) : Nat := (pa % (96 * 2 ^ 30)) / 2 ^ 14 * 512 + pa % 512
/-- A number that tells the addresses of different peers apart: a peer number has 6 bits. -/
def peerKey (d va : Nat) : Nat := va * 64 + d
def gRead (s : State) : GLoc → Byte
  | .dev pa => Memory.read s.mem pa
  | .host a => Memory.read s.hostMem a
  | .peer d va => Memory.read s.peerMem (peerKey d va)
def gWrite (s : State) (l : GLoc) (b : Byte) : State :=
  match l with
  | .dev pa => { s with mem := Memory.write s.mem pa b }
  | .host a => { s with hostMem := Memory.write s.hostMem a b }
  | .peer d va => { s with peerMem := Memory.write s.peerMem (peerKey d va) b }
def gAdd : GLoc → Nat → GLoc
  | .dev pa, n => .dev (pa + n)
  | .host a, n => .host (a + n)
  | .peer d va, n => .peer d (va + n)
def gAddr : GLoc → Nat
  | .dev pa => pa | .host a => a | .peer _ va => va
/-- The 128-byte line of a location. -/
def lineOf : GLoc → GLoc
  | .dev pa => .dev (pa / 128 * 128) | .host a => .host (a / 128 * 128) | .peer d va => .peer d (va / 128 * 128)
def gReadN (s : State) (l : GLoc) : Nat → List Byte
  | 0 => []
  | n + 1 => gRead s l :: gReadN s (gAdd l 1) n
def gWriteN (s : State) (l : GLoc) : List Byte → State
  | [] => s
  | b :: t => gWriteN (gWrite s l b) (gAdd l 1) t
/-- Whether a byte lies in a poisoned granule of device memory (R385). -/
def gPois (s : State) : GLoc → Bool
  | .dev pa => s.memPois.get false (pa / 64)
  | _ => false
def setPois (s : State) (g : Nat) (p : Bool) : State :=
  { s with memPois := s.memPois.set false g p, l2Bad := if p then s.l2Bad else s.l2Bad.set false g false }

/-- Drops a line from an L1. -/
def dropL1Line (s : State) (c line : Nat) : State := modCore s c fun x => { x with l1 := x.l1.set none line none }
/-- Drops every RDC copy of a line (R100). -/
def dropRdcAll (s : State) (line : Nat) : State :=
  (List.range 4).foldl (fun s p => modPier s p fun x => { x with rdc := x.rdc.set none line none }) s
/-- Whether some RDC holds a copy: the sharer bits of the line (R100). -/
def hasSharer (s : State) (line : Nat) : Bool := (List.range 4).any fun p => ((getPier s p).rdc.get none line).isSome

/-- The granules of a line that an entry covers whole with unpoisoned data, and those it poisons (R386). -/
def granMask (e : SbEnt) (h : Nat) : Bool × Bool :=
  ((List.range 64).all (fun i => (e.bytes.get none (h * 64 + i)).isSome && !e.pois.getLsbD (h * 64 + i)),
   (List.range 64).any (fun i => (e.bytes.get none (h * 64 + i)).isSome && e.pois.getLsbD (h * 64 + i)))
/-- Performs an entry's bytes at the point of coherence. -/
def performEnt (s : State) (e : SbEnt) : State :=
  let s := e.bytes.cells.foldl (fun s c => match c.2 with | some b => gWrite s (gAdd e.line c.1) b | none => s) s
  match e.line with
  | .dev pa => [0, 1].foldl (fun s h =>
      let m := granMask e h
      if m.2 then setPois s (pa / 64 + h) true else if m.1 then setPois s (pa / 64 + h) false else s) s
  | _ => s

/-- A write the device makes for itself (R428): performed at the home, RDC copies dropped, the line dropped from the
writing core's L1. Whole granules written clear their poison. -/
def devWrite (s : State) (c : Option Nat) (l : GLoc) (bs : List Byte) : State :=
  let s := gWriteN s l bs
  match l with
  | .dev pa =>
    let lines := (List.range ((pa % 128 + bs.length + 127) / 128)).map fun i => pa / 128 + i
    let s := lines.foldl (fun s ln =>
      let s := dropRdcAll s ln
      match c with | some c => dropL1Line s c ln | none => s) s
    let grans := (List.range ((pa % 64 + bs.length + 63) / 64)).map fun i => pa / 64 + i
    grans.foldl (fun s g => if pa ≤ g * 64 ∧ g * 64 + 64 ≤ pa + bs.length then setPois s g false else s) s
  | _ => s

/-! ### Power (R332, R333, R378, R379) -/

/-- Logical core to physical core of its pier, through keystone's map (R7). -/
def physOf (s : State) (c : Nat) : Nat :=
  ((List.range 9).find? fun ph => (getPier s (pierOf c)).coreMap.get 0 ph == c % 8 + 1).getD 0
def vscaleOf (s : State) (c : Nat) : Nat := (getPier s (pierOf c)).vscale.get 256 (physOf s c)
def freqOf (s : State) (c : Nat) : Nat := (getPier s (pierOf c)).freq.get 3600 (physOf s c)
/-- Gates the resident warps of a course whose PRIO is at most `g` (R333). -/
def gateUpTo (s : State) (co g : Nat) : State :=
  (allBlocks s).foldl (fun s b =>
    if b.core.any (fun c => courseOf c == co) && b.prio ≤ g
    then modBlock s b.uid fun b => { b with warps := ⟨b.warps.cells.map fun e => (e.1, e.2.map fun w => { w with gated := true })⟩ }
    else s) s
/-- Lowers a course's allowance; passing below zero starts a deficit (R333). -/
def chargePwr (s : State) (c cost : Nat) : State :=
  let co := courseOf c
  let x := getCourse s co
  let v := x.pwra - (ceilDiv (cost * vscaleOf s c) 256 : Nat)
  let v := if v < -(2 ^ 40) then -(2 ^ 40) else v
  if x.pwra ≥ 0 ∧ v < 0 then gateUpTo (setCourse s co { x with pwra := v, deficit := 0, gate := 0 }) co 0
  else setCourse s co { x with pwra := v }

/-! ### Fatal faults (R346) -/

/-- The queue of a block stops with an error code, and signals its vector (R321, R408). -/
def vfExists (s : State) (k : Nat) : Bool := s.dev.vfEnable && k < s.dev.numVfs
def pfVector (k n : Nat) : Nat := 64 * k + n
/-- A byte of an MSI-X table of 16-byte entries; the mask bit of an entry's vector control is 1 after reset, so that byte is kept
inverted in its lowest bit (PCI Express). -/
def msixFlip (o : Nat) (b : Byte) : Byte := if o % 16 = 12 then b ^^^ 1 else b
def msixRead (m : Memory) (o : Nat) : Byte := msixFlip o (Memory.read m o)
def msixWrite (m : Memory) (o : Nat) : List Byte → Memory
  | [] => m
  | b :: t => msixWrite (Memory.write m o (msixFlip o b)) (o + 1) t
def vecMasked (m : Memory) (n : Nat) : Bool := (msixRead m (16 * n + 12)).getLsbD 0 || Memory.read m 0x1001 != 0
/-- Signals queue `n`'s MSI-X vector: VF k's vector n while VF k exists, else PF0's (R408). A masked vector sets its
pending bit; a disabled capability sends nothing. The capability's enable and function mask are kept past the table, at 0x1000 and
0x1001. -/
def signalQueue (s : State) (k n : Nat) : State :=
  if vfExists s k then
    let p := getPart s k
    if Memory.read p.msixTable 0x1000 = 0 then s
    else if vecMasked p.msixTable n then setPart s k { p with msixPba := p.msixPba ||| (1#64 <<< n) }
    else modDev s fun d => { d with sentMsix := d.sentMsix ++ [(some k, n)] }
  else
    let v := pfVector k n
    if Memory.read s.dev.pfMsix 0x1000 = 0 then s
    else if vecMasked s.dev.pfMsix v then modDev s fun d => { d with pfPba := d.pfPba.set false v true }
    else modDev s fun d => { d with sentMsix := d.sentMsix ++ [(none, v)] }
/-- Pending vectors that are no longer masked are sent. -/
def sendPending (s : State) : State :=
  let s := (List.range 4).foldl (fun s k => (List.range 64).foldl (fun s n =>
    let p := getPart s k
    if vfExists s k && p.msixPba.getLsbD n && Memory.read p.msixTable 0x1000 != 0 && !vecMasked p.msixTable n
    then modDev (setPart s k { p with msixPba := p.msixPba &&& ~~~(1#64 <<< n) }) fun d => { d with sentMsix := d.sentMsix ++ [(some k, n)] } else s) s) s
  s.dev.pfPba.keys.foldl (fun s v =>
    if Memory.read s.dev.pfMsix 0x1000 != 0 && !vecMasked s.dev.pfMsix v
    then modDev s fun d => { d with pfPba := d.pfPba.set false v false, sentMsix := d.sentMsix ++ [(none, v)] } else s) s

/-- A queue goes to STATE 2 with a reason code (R321); it signals where its STATE becomes 2, not where it was 2 already (R408). -/
def stopQueue (s : State) (k n err : Nat) : State :=
  let t := modQueue s k n fun q => { q with state := 2, err := err }
  if (getQueue s k n).state = 2 then t else signalQueue t k n

/-- The grid of a block fails, and its queue stops with ERR 0x0A (R335). -/
def failGrid (s : State) (x : Block) : State :=
  stopQueue (modGridOf s x fun g => { g with failed := true }) x.part x.queue 0x0A

/-- A fatal fault of a block: its warps stop, its unstarted commands, copies and parked drains are discarded, its grid
fails and its queue stops with ERR 0x0A. Instructions already issued go on; the block keeps its resources (R346). -/
def fatalFault (s : State) (b : Nat) : State :=
  match getBlock s b with
  | none => s
  | some x =>
    if x.frozen then s else
    let s := setBlock s { x with frozen := true }
    let s := match x.core with
      | some c => modCore s c fun y =>
          { y with cmds := y.cmds.filter fun m => m.block != b || (m.started && !m.drain.parked)
                   copies := y.copies.filter fun m => m.block != b || m.moved.cells != [] }
      | none => s
    failGrid s x

/-! ### Taking an exception (R300 to R304, R337 to R345) -/

def causeCode : Cause → Nat
  | .illegal => 0x01 | .emul => 0x02 | .unmapped => 0x03 | .page => 0x04 | .perm => 0x05 | .align => 0x06 | .scope => 0x07
  | .qdead => 0x08 | .sdc => 0x09 | .poison => 0x0A | .budget => 0x0B | .watch => 0x0C | .step => 0x0D | .soft => 0x0E
  | .drainFault => 0x0F | .peerFail => 0x10 | .wtimer => 0x11 | .mapLimit => 0x12 | .split => 0x13 | .hazard => 0x14

/-- The split whose SPLIT, LPC and REPC a frame holds: the trapping one, else the live split with the lowest number
(R302, R340). -/
def frameSplit (w : Warp) (t : TrapRec) : Nat × Split :=
  if t.stream then (t.split, (getSplit w t.split).getD {})
  else match liveSplits w with
    | e :: _ => e
    | [] => (0, {})

/-- The 256 bytes of the frame before ROWA (R302). -/
def frameBytes (w : Warp) (t : TrapRec) : List Byte :=
  let p := frameSplit w t
  leBytes 2 (causeCode t.cause) ++ leBytes 2 t.subc ++ leBytes 1 t.stream.toNat ++ leBytes 1 p.1 ++ leBytes 1 (repcOf p.2)
  ++ leBytes 1 (if t.asyn then 8 else 0) ++ leBytes 8 t.faddr.toNat ++ leBytes 8 t.mask.toNat ++ leBytes 12 (if t.asyn then 0 else t.insn)
  ++ leBytes 4 w.sfu.length ++ leBytes 8 w.spc.toNat ++ leBytes 8 p.2.lpc.toNat ++ leBytes 8 t.prodLpc.toNat
  ++ ((List.range 16).map fun i => leBytes 8 (sreg w (BitVec.ofNat 6 (48 + i))).toNat).flatten
  ++ leBytes 8 (sreg w 1).toNat ++ leBytes 56 0

def rowBytes (v : List Word) : List Byte := ((List.range 64).map fun l => leBytes 4 (laneOf v l).toNat).flatten

/-- What a trap writes in its slot: the frame; ROWA to ROWC only for EMUL, the drain restart record for DRAINFAULT. -/
def slotBytes (w : Warp) (t : TrapRec) : List Byte :=
  frameBytes w t ++ (if t.cause = .emul then rowBytes t.rowA ++ rowBytes t.rowB ++ rowBytes t.rowC else t.drr)
/-- How far one location lies past another, in one space. -/
def gOff (l x : GLoc) : Option Nat :=
  match l, x with
  | .dev a, .dev b | .host a, .host b => if a ≤ b then some (b - a) else none
  | .peer d a, .peer e b => if d = e ∧ a ≤ b then some (b - a) else none
  | _, _ => none
/-- A store entry without its bytes among the `n` from `l` on. -/
def cutEnt (l : GLoc) (n : Nat) (e : SbEnt) : SbEnt :=
  { e with bytes := ⟨e.bytes.cells.filter fun c => !(gOff l (gAdd e.line c.1)).any (· < n)⟩ }
/-- A frame follows the warp's earlier stores to its slot (R112) and waits for none (R428): the bytes of theirs that it overwrites are
sent no more. -/
def supersede (s : State) (c : Nat) (l : GLoc) (n : Nat) : State :=
  { s with transit := s.transit.map fun t => if t.core = c ∧ ¬t.performed ∧ ¬t.engine ∧ ¬t.copyEng then { t with ent := cutEnt l n t.ent } else t }
/-- Writes the frame at its translated slot. -/
def writeFrame (s : State) (c : Nat) (l : GLoc) (w : Warp) (t : TrapRec) : State :=
  devWrite (supersede s c l (slotBytes w t).length) (some c) l (slotBytes w t)

/-- The warp after entry: S1 := TFRAME, handler mode, SPC := TVEC; on the infill route it only stops (R304, R343). What
ERET needs is kept (R306). -/
def entered (w : Warp) (t : TrapRec) : Warp :=
  let p := frameSplit w t
  let e : Entry := { cause := t.cause, stream := t.stream, insn := t.insn, split := p.1, lpc := p.2.lpc, repc := repcOf p.2, mask := t.mask,
                     splitMask := p.2.mask, tag := t.tag }
  if t.toInfill then { w with pending := none, entry := some e, infill := true, swait := .run, sstep := none }
  else { setS w 1 w.tframe with pending := none, entry := some e, handler := true, spc := w.tvec, swait := .run, sstep := none }

/-- A waiting S-instruction is abandoned with no effect (R161): a counted bar arrival is withdrawn from its phase. -/
def withdraw (bar : Barrier) (b w : Nat) : Barrier :=
  { bar with arr := bar.arr - 1, n := if bar.arr ≤ 1 then none else bar.n, waiting := bar.waiting.filter fun e => e ≠ (b, w) }
def abandonWait (s : State) (b : Block) (w : Warp) : State :=
  match w.swait with
  | .barIn false n => modBlock s b.uid fun x => { x with bars := x.bars.set {} n (withdraw (x.bars.get {} n) b.uid w.idx) }
  | .barIn true n => match b.gang with
    | some g => let x := s.gangs.get {} g
                { s with gangs := s.gangs.set {} g { x with bars := x.bars.set {} n (withdraw (x.bars.get {} n) b.uid w.idx) } }
    | none => s
  | _ => s

/-- Enters a trap once the save slot is translated: the frame is written and the warp enters its handler. A miss waits,
with the trap pending; a slot that is refused is a fatal fault (R346, R428). -/
def enterTrap (s : State) (b : Block) (w : Warp) (t : TrapRec) : State :=
  match devXlat s (coreNo b) b.part b.pasid w.tframe true with
  | some (.at_ l) =>
    let v := { w with sb := w.sb.map (cutEnt l (slotBytes w t).length) }
    setWarp (writeFrame (abandonWait s b w) (coreNo b) l w t) b.uid (entered v t)
  | some _ => setWarp s b.uid { w with pending := some t }
  | none => fatalFault (setWarp s b.uid w) b.uid

/-- Whether an S-instruction of the warp has issued and must complete before the warp takes a trap (R161): one with a request at a peer,
or an sld whose value has not arrived (R160). -/
def asking (w : Warp) : Bool := !w.sload.isEmpty || match w.swait with | .peer _ | .got _ _ => true | _ => false

/-- Whether a waiting S-stream has fetched the word it waits at. -/
def hasWordS (w : Warp) : Bool :=
  let own := fun (v : Nat) => v == w.spc.toNat || v == (w.spc + 4).toNat
  match w.swait with
  | .run => false
  | .ats v | .pri v | .refused v _ => !own v
  | _ => true
/-- Whether an S-instruction of the warp has issued and waits for the translation of its access, or was refused it (R338, R341). -/
def accessing (w : Warp) : Bool :=
  hasWordS w && match w.swait with | .ats _ | .pri _ | .refused _ _ => true | _ => false
/-- Whether the S-instruction that the warp stands at has issued: it waits for its translation or for a peer (R338, R379). -/
def sIssued (w : Warp) : Bool := accessing w || match w.swait with | .peer _ | .got _ _ => true | _ => false

/-- TAKING AN EXCEPTION: the one operation every trap goes through. An asynchronous cause is held until the warp's next S-issue (R301,
R337, R340). A synchronous trap in handler mode, and any trap with TVEC zero, a registered EMUL too, is a fatal fault of the block (R301,
R304, R319, R346). A block that has failed takes none (R346). -/
def takeTrap (s : State) (b : Block) (w : Warp) (t : TrapRec) : State :=
  if b.frozen then setWarp s b.uid w
  else if t.asyn then setWarp s b.uid { w with held := w.held ++ [t] }
  else if w.handler then fatalFault (setWarp s b.uid w) b.uid
  else if w.tvec = 0 then fatalFault (setWarp s b.uid w) b.uid
  else enterTrap s b w t

/-- Whether a trapping instruction has issued: an issue trap comes before (R337); SOFT, SDC and EMUL are an instruction's own
effect, and a translation trap comes after issue. -/
def trapIssued (c : Cause) (subc : Nat) : Bool :=
  match c with
  | .soft | .sdc | .emul | .page | .scope => true
  | .perm => subc == 0 || subc == 4
  | _ => false

/-- A synchronous trap of the selected S-instruction. -/
def trapS (s : State) (b : Block) (w : Warp) (c : Cause) (subc : Nat) (faddr : DWord) : State :=
  takeTrap { s with sel := { s.sel with issued := trapIssued c subc } } b { w with swait := .run }
    { cause := c, subc := subc, faddr := faddr, insn := s.sel.word }

/-- The trap of a check of R169 or R172 on a scalar access, which has issued (R337). -/
def trapAccess (s : State) (b : Block) (w : Warp) (c : Cause) (subc : Nat) (faddr : DWord) : State :=
  takeTrap { s with sel := { s.sel with issued := true } } b { w with swait := .run }
    { cause := c, subc := subc, faddr := faddr, insn := s.sel.word }

/-- A synchronous trap of the selected L-instruction. -/
def trapL (s : State) (b : Block) (w : Warp) (c : Cause) (subc : Nat) (faddr mask : DWord) : State :=
  takeTrap { s with sel := { s.sel with issued := trapIssued c subc } } b w { cause := c, subc := subc, faddr := faddr, mask := mask, stream := true, split := s.sel.split, insn := s.sel.word }

/-- An asynchronous trap of a warp; the lowest live warp of the block takes it when the warp has exited, and with no live
warp the grid fails, and nothing else of the block that has exited changes (R340, R354). -/
def asyncTrap (s : State) (b w : Nat) (t : TrapRec) : State :=
  match getBlock s b with
  | none => s
  | some x =>
    let y := match warpOf x w with
      | some y => some y
      | none => (liveWarps x).head?
    match y with
    | some y => takeTrap s x y { t with asyn := true }
    | none => failGrid s x

/-! ### Returning from an exception (R306, R307) -/

/-- The byte that the youngest store buffer entry holding it gives (R105). -/
def sbByte (sb : List SbEnt) (l : GLoc) : Option Byte :=
  (sb.reverse.findSome? fun e => if e.line = lineOf l then e.bytes.get none (gAddr l % 128) else none)
/-- An unsigned field of slot bytes. -/
def fieldOf (bs : List Byte) (off n : Nat) : Nat := ofLeBytes ((bs.drop off).take n)
def laneFields (bs : List Byte) : List Word := (List.range 64).map fun l => BitVec.ofNat 32 (fieldOf bs (4 * l) 4)
/-- What ERET reads back from the slot (R306). -/
structure SlotVals where
  spc : DWord
  lpc : DWord
  repc : Nat
  flags : Nat
  mask : DWord
  s1 : DWord
  saved : List DWord
  rowA : List Word
  rowB : List Word
deriving DecidableEq, Repr

def slotVals (bs : List Byte) : SlotVals :=
  { spc := BitVec.ofNat 64 (fieldOf bs 0x28 8), lpc := BitVec.ofNat 64 (fieldOf bs 0x30 8), repc := fieldOf bs 6 1,
    flags := fieldOf bs 7 1, mask := BitVec.ofNat 64 (fieldOf bs 0x10 8), s1 := BitVec.ofNat 64 (fieldOf bs 0xC0 8),
    saved := (List.range 16).map fun i => BitVec.ofNat 64 (fieldOf bs (0x40 + 8 * i) 8),
    rowA := laneFields (bs.drop 0x100), rowB := laneFields (bs.drop 0x200) }

/-- R307: the lanes of MASK and of the split's mask at entry, written from ROWA and ROWB by the FLAGS bits. -/
def emulResults (x : Core) (w : Warp) (e : Entry) (v : SlotVals) : Option (Core × Warp) :=
  let m := v.mask &&& e.splitMask &&& widthMask w
  let vd := fld e.insn 71 9
  let pd := fld e.insn 33 5
  let x1 := if v.flags % 2 = 1 ∧ m ≠ 0 then
      match mapOf w vd with | some r => modRow x r fun row => writeLanes row m v.rowA 0 | none => x
    else x
  let w1 := if v.flags / 4 % 2 = 1 ∧ pd ≠ 31 then
      { w with preds := w.preds.set 0 pd ((w.preds.get 0 pd &&& ~~~m) ||| (maskOf fun l => bitOf m l && (laneOf v.rowA l).getLsbD 0)) }
    else w
  if v.flags / 2 % 2 = 1 then
    match vd % 2, mapOf w (vd + 1) with
    | 0, some r => some (if m ≠ 0 then modRow x1 r fun row => writeLanes row m v.rowB 0 else x1, w1)
    | _, _ => none
  else some (x1, w1)

/-- Whether a memory request belongs to the split whose LPC the return sets. -/
def reqAt (e : Entry) (r : MemReq) : Bool := r.split == e.split

/-- A split, or every split, of a warp leaves the orders in which acq, give and take wait (R50, R240). -/
def leaveOrders (s : State) (c bu wi : Nat) (p : Nat → Bool) : State :=
  modBlock (modCore s c fun x => { x with acqWait := x.acqWait.filter fun e => !(e.block == bu && e.warp == wi && p e.split) }) bu
    fun y => { y with bankWait := y.bankWait.filter fun e => !(e.2.1 == wi && p e.2.2.1) }

/-- A discarded replay record: its destinations lose their pending bits and its operation counts as complete (R249); while
lanes already sent are outstanding, their completion does both. -/
def discardReq (s : State) (b : Block) (w : Warp) (r : MemReq) : State × Warp :=
  let w := { w with reqs := w.reqs.filter fun q => q.id != r.id }
  if s.ops.any (fun o => o.id == r.id) then (s, w)
  else (modCore s (coreNo b) fun x => r.dest.foldl unpendRow x, if r.counted then countDone w r.cls r.id else w)

/-- A wait that an L-instruction enters anew when it issues again. -/
def freshWait (x : LWait) : LWait := match x with | .retry | .pop _ _ | .push _ | .fetch _ _ _ => .run | x => x
/-- The warp after a return: registers, SPC and the split's point restored, handler mode left; a single step is armed by
FLAGS.SSTEP (R303, R306). -/
def restored (w : Warp) (e : Entry) (v : SlotVals) : Warp :=
  let w := (List.range 16).foldl (fun w i => setS w (BitVec.ofNat 6 (48 + i)) (v.saved.getD i 0)) (setS w 1 v.s1)
  let spc := if e.cause = .soft ∨ e.cause = .sdc then v.spc + 4 else v.spc
  let w := { w with handler := false, entry := none, spc := spc, swait := .run, infill := false
                    splits := ⟨w.splits.cells.map fun x => (x.1, x.2.map fun p => { p with wait := freshWait p.wait })⟩ }
  match getSplit w e.split with
  | some p =>
    let p := if e.cause = .emul then { p with lpc := v.lpc + 12, rep := none, repStart := 0 }
             else if v.lpc = e.lpc ∧ p.rep.isSome then { p with rep := p.rep.map fun r => { r with next := v.repc } }
             else { p with lpc := v.lpc, rep := none, repStart := v.repc }
    setSplit w e.split (if v.lpc = e.lpc ∧ v.repc = e.repc then p else { p with wait := .run, passBp := false })
  | none => w

/-- An ERET from DRAINFAULT lets the drain it reported go on (R295). -/
def armDrain (s : State) (c : Nat) (e : Entry) : State :=
  if e.cause = .drainFault then modCore s c fun x =>
    { x with cmds := x.cmds.map fun m => if m.id = e.tag then { m with drain := { m.drain with armed := true } } else m }
  else s

/-- The granules of the slot that the return reads: the frame, and for EMUL ROWA and ROWB (R306, R428). -/
def slotGrans (w : Warp) : Nat := if w.entry.any fun e => e.cause == .emul then 12 else 4

/-- THE RETURN FROM AN EXCEPTION (R306), from the bytes of the slot and whether those it reads are poisoned: checks, EMUL results,
restored registers and points, replay records, which issue again now (R249, R259, R305). FLAGS.SSTEP lets the stream of the frame issue once (R303): where that is a replayed
record, its split is parked, which 4 added to it says. Anything that fails is a fatal fault. -/
def returnTrap (s : State) (b : Block) (w : Warp) (bs : List Byte) (bad : Bool) : State :=
  match w.entry with
  | none => fatalFault s b.uid
  | some e =>
    let v := slotVals bs
    if v.spc.toNat % 4 ≠ 0 ∨ v.lpc.toNat % 12 ≠ 0 ∨ v.flags ≥ 32 ∨ bad then fatalFault s b.uid
    else
      let em := if e.cause = .emul then emulResults (getCore s (coreNo b)) w e v else some (getCore s (coreNo b), w)
      match em with
      | none => fatalFault s b.uid
      | some (x, w) =>
        let s := armDrain (setCore s (coreNo b) x) (coreNo b) e
        let moved := decide (v.lpc ≠ e.lpc ∨ v.repc ≠ e.repc)
        let s := if moved then leaveOrders s (coreNo b) b.uid w.idx (· == e.split) else s
        let (s, w) := (w.reqs.filter (reqAt e)).foldl (fun (p : State × Warp) r =>
            if moved then discardReq p.1 b p.2 r
            else (bump p.1, { p.2 with reqs := p.2.reqs.map fun q =>
              if q.id = r.id then { q with trapped := false, again := true, ord := p.1.serial, issuedAt := p.2.issues } else q })) (s, w)
        let w := restored w e v
        let k := if w.reqs.any (reqAt e) then e.split + 4 else e.split
        let w := if v.flags / 16 % 2 = 1 then { w with sstep := some (e.stream, if e.stream then k else 0) } else w
        setWarp s b.uid w

end Sys2Proof.Machine
end

