-- ==== Sys2Proof/Machine/Flags.lean ====
section
/-! DEFINITION. The warp's mode bits as lane arithmetic reads them (R45, R72, R73) and the accrual of exception flags into
FFLAGS (R75); the integer saturation bit of ACCSAT (R83, R84). -/

namespace Sys2Proof.Machine

/-- LMODE's fields (R45). -/
def lmFtz (w : Warp) : Bool := w.lmode.getLsbD 0
def lmDaz (w : Warp) : Bool := w.lmode.getLsbD 1
def lmLnan (w : Warp) : Bool := w.lmode.getLsbD 2
def lmLrnd (w : Warp) : Bool := w.lmode.getLsbD 3
def lmHzf (w : Warp) : Bool := w.lmode.getLsbD 4
/-- The mode of the warp's lane arithmetic. -/
def modeOf (w : Warp) : FMode := { ftz := lmFtz w, daz := lmDaz w, lnan := lmLnan w, lrnd := lmLrnd w }

/-- ORs flags into FFLAGS (R75). -/
def raiseFlags (w : Warp) (f : FFlags) : Warp := { w with fflags := w.fflags ||| f }
/-- The flags of the active lanes of an instruction: inactive lanes raise none (R75). -/
def laneFlags (m : DWord) (f : Nat → FFlags) : FFlags := (lanesOf m).foldl (fun a l => a ||| f l) 0

/-- One saturating or wrapping accumulation into an I32 element: the new pattern and whether it saturated (R83). -/
def addInt32 (sat : Bool) (a : Nat) (s : Int) : Nat × Bool :=
  let v := intVal 32 true a + s
  if sat then let c := clampInt v (intLo 32 true) (intHi 32 true); (intPat 32 c, decide (c ≠ v)) else (intPat 32 v, false)

end Sys2Proof.Machine
end

