-- ==== Sys2Proof/Machine/Stop.lean ====
section
/-! DEFINITION. Debug stops and watchpoint matches (R359 to R365): what any performed access, breakpoint or hazard check can
set off. -/

namespace Sys2Proof.Machine

/-- The block and warp in the quadrant slots of a core: slot s = 12 × quadrant + slot (R357). -/
def atSlot (s : State) (c slot : Nat) : Option (Block × Warp) :=
  (blocksOn s c).findSome? fun b => (liveWarps b).findSome? fun w =>
    if 12 * quadOf w + w.slot == slot then some (b, w) else none

/-- Changes the debug record of every warp of a debug grid on a core; a block that is being restored from a debug stop keeps the records
saved with it (R360). -/
def modDbgWarps (s : State) (c : Nat) (f : Block → Warp → DbgWarp) : State :=
  (blocksOn s c).foldl (fun s b =>
    if b.debug && !b.stopSaved then modBlock s b.uid fun x =>
      { x with warps := ⟨x.warps.cells.map fun e => (e.1, e.2.map fun w => { w with dbg := f b w })⟩ }
    else s) s

/-- The cores of a course. -/
def coresOf (co : Nat) : List Nat := (List.range 4).map fun i => 4 * co + i

/-- Whether a course holds a warp of a debug grid. -/
def hasDebug (s : State) (co : Nat) : Bool :=
  (coresOf co).any fun c => (blocksOn s c).any fun b => b.debug && !(liveWarps b).isEmpty

/-- What a stop's source says of itself: DSTAT's fields, the source's own block and warp with its REASON, whether that warp stops at once
and whether its skids are 0, and the clocks within which the stop reaches each core (R364, R365, R367, R368). -/
structure StopSrc where
  src : Nat
  core : Nat
  warp : Nat := 0
  wp : Nat := 0
  ibp : Nat := 0
  own : Option (Nat × Nat) := none
  reason : Nat := 0
  atOnce : Bool := false
  noSkid : Bool := false
  bound : Nat := 32

/-- A stop of the course of core `c` (R364). A stop while the course is stopped changes nothing. The source's own warp
stops at once where its rule says so, at a bkpt and a breakpoint with both skids 0 (R363, R365); every other warp of a debug grid stops
when the stop reaches its core. Other skids begin with what the warp issued in clocks that began in this nanosecond (R365). -/
def raiseStop (s : State) (c : Nat) (q : StopSrc) : State :=
  let co := courseOf c
  if (getCourse s co).stopped then s else
  let s := modCourse s co fun x =>
    { x with stopped := true, stopAt := s.gtime, src := q.src, srcCore := q.core, srcWarp := q.warp, srcWp := q.wp, srcIbp := q.ibp,
             stepping := false, stepWait := false, step := none }
  (coresOf co).foldl (fun s c =>
    let s := modDbgWarps s c fun b w =>
      let own := q.own == some (b.uid, w.idx)
      let n := if w.recent.1 = s.gtime ∧ ¬ (own && q.noSkid) then w.recent.2 else (0, 0)
      { w.dbg with skidS := n.1, skidL := n.2, reason := if own then q.reason else 0, stopped := own && q.atOnce }
    modCore s c fun x => { x with stopDue := some (x.cyc + q.bound) }) s

/-- The stop takes effect on a core: its debug warps stop in both streams and all splits (R364). -/
def stopCore (s : State) (c : Nat) : State :=
  match (getCore s c).stopDue with
  | none => s
  | some _ => modDbgWarps (modCore s c fun x => { x with stopDue := none }) c fun _ w => { w.dbg with stopped := true }

/-- KIND, SPACE, ACT and BMASK of WPnC (R358). -/
def wpKind (x : DWord) : Nat := fld x.toNat 10 2
def wpAct (x : DWord) : Bool := x.getLsbD 12
def wpDisarm (x : DWord) : DWord := (x &&& ~~~0xC00#64) ||| 0x2000#64

/-- Who performed an access: its core, block and warp; an access of the host or a peer has none (R361). -/
abbrev By := Option (Nat × Nat × Nat)

/-- WPnHIT after a match of kind `k` (R361). -/
def hitWord (old : DWord) (k : Nat) (by_ : By) : DWord :=
  let cnt := Nat.min (fld old.toNat 48 16 + 1) 0xFFFF
  if old.getLsbD 0 then (old &&& 0xFFFFFFFFFFFF#64) ||| (BitVec.ofNat 64 cnt <<< 48)
  else
    let ext := by_.isNone
    let cw := match by_ with | some (c, _, w) => c * 2 ^ 32 + w * 2 ^ 24 | none => 0
    BitVec.ofNat 64 (cnt * 2 ^ 48 + k * 2 ^ 38 + ext.toNat * 2 ^ 37 + cw + 1)

/-- Whether watchpoint `n` of a core watches a byte of an access of `len` bytes and kind `k` (R359). -/
def wpMatch (d : DbgCore) (n : Nat) (l : ALoc) (len k : Nat) : Bool :=
  let x := d.wpC.get 0 n
  let kd := wpKind x
  let hit := fun (base a : Nat) => (List.range 8).any fun b => x.getLsbD b && a ≤ base + b && base + b < a + len
  kd != 0 && (k == 3 || kd == 3 || kd == k) &&
  match d.wpLoc.get none n, l with
  | some (.g (.dev w)), .g (.dev a) => hit w a
  | some (.spad k w), .spad b a => k == b && hit w a
  | _, _ => false

/-- One match (R361, R362). The WATCH trap of an access whose warp has exited goes where R340 sends the cause of a command or copy, for a
store too (assumption 99). -/
def wpHitAt (s : State) (c n k : Nat) (by_ : By) (l : ALoc) : State :=
  let d := (getCore s c).dbg
  let old := d.wpHit.get 0 n
  let first := !old.getLsbD 0
  let s := modCore s c fun x => { x with dbg := { x.dbg with
    wpHit := x.dbg.wpHit.set 0 n (hitWord old k by_)
    wpHt := if first then x.dbg.wpHt.set 0 n (BitVec.ofNat 64 s.gtime) else x.dbg.wpHt } }
  if wpAct (d.wpC.get 0 n) then
    match by_ with
    | some (_, b, w) => asyncTrap s b w { cause := .watch, subc := n, faddr := d.wpA.get 0 n }
    | none => s
  else if first && hasDebug s (courseOf c) then
    let bound := match l with | .g (.dev pa) => if homePier pa = pierOf c then 32 else 256 | _ => 32
    raiseStop s c { src := 1, core := (by_.map fun e => e.1).getD c, warp := (by_.map fun e => e.2.2).getD 0, wp := n,
                    own := by_.map fun e => e.2, reason := 1, bound := bound }
  else s

/-- Checks a performed access of `len` bytes against every watchpoint, lowest index first (R359, R361): kind 1 write,
2 read, 3 atomic or red. -/
def watch (s : State) (by_ : By) (l : ALoc) (len k : Nat) : State :=
  s.cores.cells.foldl (fun s e =>
    (List.range 4).foldl (fun s n => if wpMatch e.2.dbg n l len k then wpHitAt s e.1 n k by_ l else s) s) s

/-- Disarms every scratchpad watchpoint of a core on a block that leaves it (R360). -/
def disarmSpad (s : State) (c b : Nat) : State :=
  modCore s c fun x => (List.range 4).foldl (fun x n =>
    match x.dbg.wpLoc.get none n with
    | some (.spad k _) =>
      if k = b then
        { x with dbg := { x.dbg with wpC := x.dbg.wpC.set 0 n (wpDisarm (x.dbg.wpC.get 0 n))
                                     wpLoc := x.dbg.wpLoc.set none n none } }
      else x
    | _ => x) x

/-- Whether a line is held back from every L1 and RDC by a watchpoint on reads (R359). -/
def watchedLine (s : State) (line : Nat) : Bool :=
  s.cores.cells.any fun e => (List.range 4).any fun n =>
    wpKind (e.2.dbg.wpC.get 0 n) ≥ 2 &&
    match e.2.dbg.wpLoc.get none n with
    | some (.g (.dev w)) => w / 128 == line
    | _ => false

/-! ### What an issue counts towards -/

/-- An instruction issues: its cost lowers the allowance (R332), it counts in the skid of every earlier consumption of its warp
(R393), and in the warp's debug skid while a stop has not reached its core, if its clock began no earlier than the stop (R365). `old` is
the state before it issued. -/
def countIssue (old s : State) (b : Block) (w : Nat) (lane : Bool) (cost : Nat) : State :=
  let c := getCore old (coreNo b)
  let due := b.debug && c.stopDue.isSome && decide ((getCourse old (courseOf (coreNo b))).stopAt ≤ c.clkAt)
  let had := ((getWarp old b.uid w).map fun x => x.cons.length).getD 0
  modWarp (chargePwr s (coreNo b) cost) b.uid w fun x =>
    let older := x.cons.length - (x.cons.length - had)
    let n := if x.recent.1 = c.clkAt then x.recent.2 else (0, 0)
    { x with issues := x.issues + 1
             recent := (c.clkAt, if lane then (n.1, n.2 + 1) else (n.1 + 1, n.2))
             cons := (x.cons.take older).map (fun k => { k with skid := Nat.min 256 (k.skid + 1) }) ++ x.cons.drop older
             dbg := if due && !x.dbg.stopped then (if lane then { x.dbg with skidL := x.dbg.skidL + 1 } else { x.dbg with skidS := x.dbg.skidS + 1 })
                    else x.dbg }

/-- Whether the step of a warp's course names one of its streams (R369). -/
def stepNames (s : State) (b : Block) (w : Warp) (lane : Bool) (k : Nat) : Bool :=
  match (getCourse s (courseOf (coreNo b))).step with
  | some (c, slot, l, j) => b.core == some c && 12 * quadOf w + w.slot == slot && l == lane && (!lane || j == k)
  | none => false
/-- What a stepped instruction did: it issued, or it waits, with REASON 5 (R370). -/
def stepMark (s : State) (b : Block) (w : Warp) (lane : Bool) (k : Nat) (issued : Bool) : State :=
  if ¬ stepNames s b w lane k then s
  else
    let s := modCourse s (courseOf (coreNo b)) fun x => { x with stepIssued := issued, stepWait := !issued }
    if issued then s else modWarp s b.uid w.idx fun x => { x with dbg := { x.dbg with reason := 5 } }
/-- A stream that does not issue now: the step that names it waits, unless its instruction has issued (R370). -/
def stepHolds (s : State) (b : Block) (w : Warp) (lane : Bool) (k : Nat) : State :=
  if (getCourse s (courseOf (coreNo b))).stepIssued then s else stepMark s b w lane k false
/-- The STEP trap after an instruction that FLAGS.SSTEP let issue (R303): `k` is its split for the L-stream and `m` the lanes that split
had; the frame names that split while it holds a lane of them (R39), and after a fusion the split that holds them. An L-instruction that is parked has not finished; 4 is added to its split until it has. The
warp takes the trap before it issues anything else. -/
def stepTrap (s : State) (bu wi : Nat) (lane : Bool) (k : Nat) (m : DWord) : State :=
  match getWarp s bu wi with
  | none => s
  | some w =>
    if w.sstep ≠ some (lane, k) ∧ w.sstep ≠ some (lane, k + 4) then s
    else if lane && (getSplit w k).any fun p => p.wait == .park then setWarp s bu { w with sstep := some (lane, k + 4) }
    else
      let has := fun (p : Split) => p.mask &&& m != 0
      let j := if (getSplit w k).any has then k else ((liveSplits w).find? fun e => has e.2).elim k Prod.fst
      asyncTrap (setWarp s bu { w with sstep := none }) bu wi { cause := .step, stream := lane, split := if lane then j else 0, first := true }
/-- An S-instruction at address `a` has issued: a word that a breakpoint matched is past once it has issued itself, and what a handler
issues before that changes nothing (R363). -/
def passedBp (w : Warp) (a : DWord) (handler : Bool) : Warp :=
  if handler ∧ w.dbg.passBp ≠ some a then w else { w with dbg := { w.dbg with passBp := none } }
/-- A word that a breakpoint matched in a split has issued (R363). -/
def passedBpL (w : Warp) (k : Nat) : Warp :=
  match getSplit w k with | some p => setSplit w k { p with passBp := false } | none => w
/-- The lanes of a split. -/
def splitLanes (w : Warp) (k : Nat) : DWord := ((getSplit w k).map (·.mask)).getD 0
/-- A waiting instruction completes by an event: it has issued. -/
def completeIssue (old s : State) (b : Block) (w : Warp) (lane : Bool) (k cost : Nat) : State :=
  stepTrap (stepMark (countIssue old s b w.idx lane cost) b w lane k true) b.uid w.idx lane k (splitLanes w k)

end Sys2Proof.Machine
end

