-- ==== Sys2Proof/Machine/Operands.lean ====
section
/-! DEFINITION. Every operand form: the effective address and offsets of S-instructions (R121, R163, R168), and the common
issue of an L-instruction, with its names, queues, guards, interlocks, hazard check, active lanes and results (R33, R48, R54
to R59, R126, R132, R191, R192); the order of arrivals in a clock (R227, R261); what an instruction reads (R160, R388). -/

namespace Sys2Proof.Machine

/-! ### S-instruction operands -/

/-- A sign-extended immediate (R121). -/
def simm {n : Nat} (i : BitVec n) : DWord := i.signExtend 64
/-- A zero-extended immediate. -/
def uimm {n : Nat} (i : BitVec n) : DWord := i.setWidth 64
/-- The target of an SJ or SB offset: SPC + 4 × Sext(O) (R166, R167). -/
def sTarget {n : Nat} (w : Warp) (o : BitVec n) : DWord := w.spc + 4 * simm o

/-! ### L-instruction operands -/

/-- A source operand as issue reads it: its value in each lane, its poisoned lanes, the rows read. -/
structure Opnd where
  val : Nat → Nat := fun _ => 0
  pois : DWord := 0
  rows : List Nat := []

/-- The group size of a source field; `none` for a field that is no source. -/
def srcGroup : VUse → Option Nat
  | .src g _ => some g
  | .qname => some 2
  | _ => none
/-- The group size of a destination field. -/
def dstGroup : VUse → Option Nat
  | .dst g => some g
  | .dstq g => some g
  | _ => none

/-- The source fields of an instruction in the order VA, VB, VC (R33, R48). -/
def srcFields (m : LFmt) (f : LF) : List (VUse × Name) := [(m.va, f.va), (m.vb, f.vb), (m.vc, f.vc)]
/-- V names of a field's group, lowest first. -/
def groupNames (g : Option Nat) (n : Name) : List Nat :=
  match g, n with
  | some g, .v k => (List.range g).map fun i => k + i
  | _, _ => []
/-- The V names whose mapping R48 checks, in its order. -/
def checkedNames (m : LFmt) (f : LF) : List Nat :=
  (srcFields m f).flatMap (fun e => groupNames (srcGroup e.1) e.2) ++ groupNames (dstGroup m.vd) f.vd
/-- The first unmapped name. -/
def firstUnmapped (w : Warp) (ns : List Nat) : Option Nat := ns.find? fun n => (mapOf w n).isNone
/-- The destination rows of an instruction. -/
def dstRows (w : Warp) (m : LFmt) (f : LF) : List Nat := (groupNames (dstGroup m.vd) f.vd).filterMap (mapOf w)
/-- Every row an instruction reads or writes. -/
def usedRows (w : Warp) (m : LFmt) (f : LF) : List Nat := (checkedNames m f).filterMap (mapOf w)

/-- The queues that an instruction pops, one entry per naming field (R33). -/
def popList (m : LFmt) (f : LF) : List Nat :=
  (srcFields m f).filterMap fun e => match srcGroup e.1, e.2 with | some _, .q k => some k | _, _ => none
/-- The queue that VD pushes (R35). -/
def pushQueue (m : LFmt) (f : LF) : Option Nat := match m.vd, f.vd with | .dstq _, .q k => some k | _, _ => none
def qOf (w : Warp) (q : Nat) : List QEnt := w.qs.get [] q
def setQ (w : Warp) (q : Nat) (l : List QEnt) : Warp := { w with qs := w.qs.set [] q l }
/-- The first queue with too few poppable entries. -/
def shortQueue (w : Warp) (ps : List Nat) : Option Nat :=
  ps.find? fun q => ((qOf w q).take (ps.count q)).length < ps.count q || ((qOf w q).take (ps.count q)).any fun e => !e.ready

/-- Predicates an instruction reads (R192). -/
def predReads (i : Instr) (m : LFmt) (f : LF) : List Nat :=
  (if m.guarded then [f.g.p.toNat] else []) ++ (match i with | .vsel _ => [f.pd.toNat] | _ => [])
  ++ (match m.va with | .pnum => [f.va.code] | _ => []) ++ (match m.vb with | .pnum => [f.vb.code] | _ => [])
/-- Predicates an instruction writes: a write to P31 is discarded. -/
def predWrites (i : Instr) (m : LFmt) (f : LF) : List Nat :=
  match i with
  | .vsel _ | .retired _ _ _ => []
  | _ => if m.pd ∧ f.pd ≠ 31 then [f.pd.toNat] else []
/-- A predicate's lanes: P31 is true in every lane (R192). -/
def predOf (w : Warp) (p : Nat) : DWord := if p = 31 then BitVec.allOnes 64 else w.preds.get 0 p
/-- Writes the active lanes of a predicate. -/
def setPred (w : Warp) (p : Nat) (m v : DWord) : Warp :=
  if p = 31 then w else { w with preds := w.preds.set 0 p ((w.preds.get 0 p &&& ~~~m) ||| (v &&& m)), badP := w.badP &&& ~~~(1#32 <<< p) }

/-- Lanes in which a guard holds (R126). -/
def guardLanes (w : Warp) (g : Guard) : DWord := if g.neg then ~~~(predOf w g.p.toNat) else predOf w g.p.toNat

/-- Whether a flight is of this warp's own instruction. -/
def mine (b : Block) (w : Warp) (t : Flight) : Bool := t.block == b.uid && t.warp == w.idx

/-- Whether an instruction must wait for a pending row, or for a predicate that a far-row instruction writes (R54, R56). -/
def interlocked (b : Block) (x : Core) (w : Warp) (rows preds : List Nat) : Bool :=
  rows.any (fun r => (getRow x r).pend != 0)
  || x.flight.any fun t => t.far && mine b w t && match t.tgt with | .pred p => p != 31 && preds.contains p | _ => false

/-- The producer of a hazard (R59): the oldest unlanded fixed-latency write by this warp to a row or predicate used. -/
def hazardProducer (b : Block) (x : Core) (w : Warp) (rows preds : List Nat) : Option DWord :=
  (x.flight.find? fun t => !t.far && mine b w t &&
    match t.tgt with | .row r => rows.contains r | .pred p => p != 31 && preds.contains p | _ => false).map fun t => t.lpc

/-- Lane `l` of a group of rows, lowest name in the low bits (R191). -/
def rowsVal (x : Core) (rs : List Nat) (l : Nat) : Nat := rs.foldr (fun r a => (laneOf (getRow x r).lanes l).toNat + 2 ^ 32 * a) 0
def rowsPois (x : Core) (rs : List Nat) : DWord := rs.foldl (fun m r => m ||| (getRow x r).poison) 0

/-- Operand(f, l) of R191, with the warp after the pop of a queue operand. -/
def readOpnd (x : Core) (w : Warp) (f : LF) (u : VUse) (n : Name) : Opnd × Warp :=
  match srcGroup u with
  | none => ({}, w)
  | some g =>
    match n with
    | .v _ => let rs := (groupNames (some g) n).filterMap (mapOf w)
              ({ val := rowsVal x rs, pois := rowsPois x rs, rows := rs }, w)
    | .q k => match qOf w k with
      | e :: t => ({ val := fun _ => if g = 1 then e.val.toNat % 2 ^ 32 else e.val.toNat }, setQ w k t)
      | [] => ({}, w)
    | .imm => ({ val := fun _ => if g = 1 then f.imm.toNat else (f.imm.signExtend 64).toNat }, w)
    | .lid => ({ val := fun l => l }, w)
    | .zero => ({}, w)
    | .wid => ({ val := fun _ => w.idx }, w)

/-- What the common issue hands to an instruction's own effect: the warp after its pops, the split, the core, the active
lanes, the operands, the destination rows, whether any row is far, and whether it pops a queue. -/
structure LIn where
  b : Block
  w : Warp
  p : Split
  x : Core
  f : LF
  act : DWord
  va : Opnd
  vb : Opnd
  vc : Opnd
  dst : List Nat
  far : Bool
  pops : Bool := false

/-- The selected split waits. -/
def splitWaits (s : State) (b : Block) (w : Warp) (why : LWait) : State :=
  match getSplit w s.sel.split with
  | some p => waitL (setWarp s b.uid (setSplit w s.sel.split { p with wait := why }))
  | none => waitL s

/-- A HAZARD check that fails: a trap, or in a debug grid under hazard mode a stop of the course (R59, R304). -/
def hazardFails (s : State) (b : Block) (w : Warp) (lpc : DWord) : State :=
  if b.debug ∧ b.hazMode then
    let w := match getSplit w s.sel.split with
      | some p => setSplit w s.sel.split { p with prodLpc := lpc, wait := .retry }
      | none => w
    waitL (raiseStop (setWarp s b.uid w) (coreNo b)
      { src := 3, core := coreNo b, warp := w.idx, own := some (b.uid, w.idx), reason := 3, atOnce := true })
  else takeTrap (waitL s) b w { cause := .hazard, stream := true, split := s.sel.split, insn := s.sel.word, prodLpc := lpc }

/-- THE COMMON ISSUE of an L-instruction after decode (R132 steps 2 and 3, R191): UNMAPPED; the waits for pending rows,
queue entries and queue room, and a wait of the instruction's own; HAZARD; then pops, guard and operands. -/
def issueL (s : State) (b : Block) (w : Warp) (i : Instr) (f : LF) (busy : Bool) (k : State → LIn → State) : State :=
  match lfmt i, getSplit w s.sel.split with
  | some m, some p =>
    let x := getCore s (coreNo b)
    match firstUnmapped w (checkedNames m f) with
    | some n => trapL s b w .unmapped n 0 0
    | none =>
      let rows := usedRows w m f
      let preds := predReads i m f ++ predWrites i m f
      if interlocked b x w rows preds then splitWaits s b w .retry else
      match shortQueue w (popList m f) with
      | some q => splitWaits s b w (.pop q ((popList m f).count q))
      | none =>
        match (pushQueue m f).filter fun q => 16 ≤ (qOf w q).length with
        | some q => splitWaits s b w (.push q)
        | none =>
          if busy then splitWaits s b w .retry else
          match if lmHzf w || b.hazMode then hazardProducer b x w rows preds else none with
          | some lpc => hazardFails s b w lpc
          | none =>
            let a := readOpnd x w f m.va f.va
            let vb := readOpnd x a.2 f m.vb f.vb
            let vc := readOpnd x vb.2 f m.vc f.vc
            k s { b := b, w := vc.2, p := p, x := x, f := f,
                  act := p.mask &&& widthMask w &&& (if m.guarded then guardLanes w f.g else BitVec.allOnes 64),
                  va := a.1, vb := vb.1, vc := vc.1, dst := dstRows w m f, far := rows.any (isFar w),
                  pops := !(popList m f).isEmpty }
  | _, _ => waitL s

/-! ### Results -/

/-- Replaces poisoned lanes by free values (R386, R387): one free value per lane. -/
def freeLanes (s : State) (m : DWord) (v : Nat → Nat) : (Nat → Nat) × State :=
  if m = 0 then (v, s)
  else (fun l => if bitOf m l then (Config.freeWord (s.fresh + l)).toNat else v l, { s with fresh := s.fresh + 64 })

/-- A consumption of poison by the selected instruction in the lanes of `m`: one record for one instruction (R258, R387). -/
def consumeAt (w : Warp) (unit : Nat) (pa va : DWord) : Warp :=
  { w with cons := w.cons ++ [{ depth := w.regions.length, regionCount := (w.regions.head?.map fun r => r.count).getD 0,
                                unit := unit, pa := pa, va := va }] }
def consume (w : Warp) (m : DWord) (unit : Nat) : Warp := if m = 0 then w else consumeAt w unit 0 0

/-- Puts a result in flight: a near result lands `lat` clocks after issue (R57), and is interlocked in its row where the instruction pops
a queue (R56); a result of a far-row instruction lands at FAR_ROW_RESULT and is interlocked (R54). -/
def fly (s : State) (q : LIn) (lat : Nat) (t : Target) (vals : List Word) (val pois : DWord) (flags : FFlags) : State :=
  let c := coreNo q.b
  let fl : Flight := { id := s.serial, due := (getCore s c).cyc + lat, block := q.b.uid, warp := q.w.idx, lpc := q.p.lpc, tgt := t,
                       mask := q.act, vals := vals, val := val, pois := pois, far := q.far, pend := q.far || q.pops, flags := flags }
  let s := modCore s c fun x =>
    let x := { x with flight := x.flight ++ [fl] }
    match t with
    | .row r => if q.far || q.pops then pendRow x r else x
    | _ => x
  bump s

/-- Results into the destination rows, low name first; flags accrue with the first (R75, R191). -/
def flyRows (s : State) (q : LIn) (lat : Nat) (v : Nat → Nat) (pois : DWord) (flags : FFlags) : State :=
  let fv := freeLanes s (q.act &&& pois) v
  (q.dst.zipIdx).foldl (fun s e =>
    fly s q lat (.row e.1) (laneList fun l => BitVec.ofNat 32 (fv.1 l / 2 ^ (32 * e.2))) 0 pois (if e.2 = 0 then flags else 0)) fv.2

/-- A result into a predicate; P31 discards it, and its flags accrue all the same. -/
def flyPred (s : State) (q : LIn) (lat : Nat) (v : DWord) (flags : FFlags) : State :=
  fly s q lat (.pred q.f.pd.toNat) [] v 0 flags

/-- The issue is complete: the warp is written and the split goes on. -/
def issued (s : State) (q : LIn) : State := setWarp s q.b.uid (advanceL q.w s.sel.split)

/-- What a landed result writes (R57, R58, R192, R236, R239), with its flags (R75). -/
def landFlight (s : State) (c : Nat) (t : Flight) : State :=
  let s := modCore s c fun x => { x with flight := x.flight.filter fun u => u.id != t.id }
  let s := modWarp s t.block t.warp fun w => { w with fflags := w.fflags ||| t.flags }
  match t.tgt with
  | .row r => modCore s c fun x =>
      let x := modRow x r fun v => writeLanes v t.mask t.vals t.pois
      if t.pend then unpendRow x r else x
  | .pred p => modWarp s t.block t.warp fun w => setPred w p t.mask t.val
  | .kint k => modWarp s t.block t.warp fun w => { w with kregs := w.kregs.set 0 k (w.kregs.get 0 k + t.val) }
  | .kfloat k => modWarp s t.block t.warp fun w =>
      if t.mask = 0 then w
      else { w with kregs := w.kregs.set 0 k (BitVec.ofNat 64 (add64 (w.kregs.get 0 k).toNat t.val.toNat)) }
  | .queue q n => modWarp s t.block t.warp fun w =>
      setQ w q ((qOf w q).map fun e => if e.seq = n then { e with val := t.val, ready := true } else e)

/-- Whether an older fold into the same K register has not landed (R239). -/
def foldBlocked (x : Core) (t : Flight) : Bool :=
  match t.tgt with
  | .kint k | .kfloat k => x.flight.any fun u => u.id < t.id && u.block == t.block && u.warp == t.warp &&
      match u.tgt with | .kint j | .kfloat j => j == k | _ => false
  | _ => false

/-- Whether some result of the warp has not landed, or some vsfu instruction is outstanding (R76). -/
def lFlying (x : Core) (b : Block) (w : Warp) : Bool := x.flight.any (mine b w) || !w.sfu.isEmpty
/-- Whether a fold of the warp is in flight (R239). -/
def foldFlying (x : Core) (b : Block) (w : Warp) : Bool :=
  x.flight.any fun t => mine b w t && match t.tgt with | .kint _ | .kfloat _ => true | _ => false

/-- Every split at LNEXT and BQ empty (R46). -/
def lIdle (w : Warp) : Bool := allAtLnext w && w.bq.isEmpty

/-! ### What arrives in one cycle (R227, R261) -/

/-- The place of a warp in the order of operations that arrive in one cycle: by quadrant, then by warp index. -/
def arrivalKey (w : Warp) : Nat := quadOf w * 64 + w.idx
/-- Whether an operation of a warp may arrive now: none that comes after it in that order has arrived in this clock. -/
def inOrder (a : Nat × Nat) (cyc : Nat) (w : Warp) : Bool := a.1 != cyc || a.2 ≤ arrivalKey w

/-! ### What an instruction reads (R160, R388) -/

/-- The S registers that an S-instruction reads. -/
def sReads : Instr → List SReg
  | .salu _ _ a b | .sbeq a b _ | .sbne a b _ | .sblt a b _ | .sbge a b _ | .sbltw a b _ | .sbgew a b _ | .tld _ _ a b | .tst _ _ a b => [a, b]
  | .sst d a _ _ | .ssts d a _ _ => [d, a]
  | .saddi _ a _ | .sandi _ a _ | .sori _ a _ | .sxori _ a _ | .sshli _ a _ | .sshri _ a _ | .ssrai _ a _ | .sjr _ a | .sld _ a _ _
  | .slds _ a _ _ | .sysPause a | .pushq _ a | .lgor a | .cpy _ a | .bar _ _ _ a | .tcfg _ a | .drld _ a | .mwait a | .csrw _ a
  | .kmovW _ a => [a]
  | .slith d _ => [d]
  | .mma _ _ _ fs => [fs]
  | .drain _ _ ds _ => [ds]
  | .satom op _ _ d a b => if op = .cas then [d, a, b] else [a, b]
  | _ => []
/-- The S register that an S-instruction writes. -/
def sWrites : Instr → List SReg
  | .sysMfence d | .salu _ d _ _ | .saddi d _ _ | .sandi d _ _ | .sori d _ _ | .sxori d _ _ | .sshli d _ _ | .sshri d _ _ | .ssrai d _ _
  | .slui d _ | .slit d _ | .slith d _ | .sbr d _ | .sjr d _ | .sld d _ _ _ | .slds d _ _ _ | .popq d _ | .csrr d _ | .ctopen d _
  | .kmovR d _ | .satom _ _ _ d _ _ => [d]
  | _ => []
/-- Whether an S-instruction issues only once every earlier sld of its warp has completed: an instruction that orders the warp's accesses,
hands them on, or starts the work of an engine (R30, R113 to R115, R188, R308); one after which the region or the warp's registers are
others (R306, R311, R313); one that ends or stops the warp. -/
def afterLoads : Instr → Bool
  | .fence _ _ | .bar _ _ _ _ | .sysTrig | .pushq _ _ | .lgo _ | .lgor _ | .cpy _ _ | .tcfg _ _ | .tld _ _ _ _ | .tst _ _ _ _ | .mma _ _ _ _
  | .aclr _ | .drain _ _ _ _ | .drld _ _ | .sysMfence _ | .mwait _ | .sysEret | .sysCtclose | .chkEq _ _ | .chkRel _ _ _ | .sysIdem
  | .sysExit | .sysYield => true
  | _ => false
/-- Whether an S-instruction must wait for a value that an earlier sld has not brought yet (R28, R160). S0 is never written. -/
def loadPending (w : Warp) (i : Instr) : Bool :=
  !w.sload.isEmpty && (afterLoads i || w.sload.any fun e => e.2 != 0 && (sReads i ++ sWrites i).any fun r => r.toNat == e.2)
/-- The K registers that an instruction reads. -/
def kReads : Instr → List (BitVec 2)
  | .chkEq a b | .chkRel a b _ => [a, b]
  | .kmovR _ k | .csum k _ | .csumf k _ => [k]
  | .sysIdem => [0, 1, 2, 3]
  | _ => []
/-- The queues that an instruction pops. -/
def popsOf (i : Instr) : List Nat :=
  match i, lfmt i, i.lf with
  | .popq _ q, _, _ => [4 + q.toNat]
  | _, some m, some f => popList m f
  | _, _, _ => []
/-- The predicates that an instruction reads. -/
def predsOf (i : Instr) : List Nat :=
  match lfmt i, i.lf with
  | some m, some f => predReads i m f
  | _, _ => []
/-- The entries that an instruction takes from queue `q`. -/
def takenFrom (w : Warp) (i : Instr) (q : Nat) : List QEnt := (qOf w q).take ((popsOf i).count q)
/-- Whether an instruction that issued read an entry in which the codes found an error (R388); an LNEXT that issues takes the first entry
of BQ. -/
def readsBad (w : Warp) (i : Instr) : Bool :=
  (match i with | .lnext _ => w.bqBad.contains 0 | _ => false) || (sReads i).any (fun r => w.badS.getLsbD r.toNat) || (kReads i).any (fun k => w.badK.getLsbD k.toNat)
  || (popsOf i).any (fun q => (takenFrom w i q).any (·.bad)) || (predsOf i).any fun p => w.badP.getLsbD p
/-- The errors that it read are consumed; those of queue entries went with the entries. -/
def clearBad (w : Warp) (i : Instr) : Warp :=
  let w := (sReads i).foldl (fun w r => { w with badS := w.badS &&& ~~~(1#64 <<< r.toNat) }) w
  let w := (kReads i).foldl (fun w k => { w with badK := w.badK &&& ~~~(1#4 <<< k.toNat) }) w
  (predsOf i).foldl (fun w p => { w with badP := w.badP &&& ~~~(1#32 <<< p) }) w
/-- An instruction that reads such an entry consumes the error (R388). -/
def eatBad (s : State) (b : Block) (before : Warp) (i : Instr) : State :=
  if readsBad before i then modWarp s b.uid before.idx fun w => consumeAt (clearBad w i) 10 0 0 else s

end Sys2Proof.Machine
end

