-- ==== Sys2Proof/Machine/Mem.lean ====
section
/-! DEFINITION. Memory operations that S-instructions, lanes, engines and fetch share: fetching words (R162, R212), reads
through L1 and RDC (R96 to R100), the store buffer (R104, R105), atomic steps and the scope checker (R103, R117, R172). -/

namespace Sys2Proof.Machine

/-! ### Requests to peers (R415, R417) -/

/-- The lines that hold the `n` bytes from a location on. -/
def spanLines (l : GLoc) (n : Nat) : List GLoc := (List.range ((gAddr l % 128 + n + 127) / 128)).map fun i => gAdd (lineOf l) (128 * i)
/-- Whether a request to a peer's line that was sent before number `n` is still to be performed: requests to one line of a peer arrive in
the order they were sent, whoever sent them (R415). -/
def peerAhead (s : State) (l : GLoc) (n : Nat) : Bool :=
  s.transit.any (fun t => !t.performed && t.id < n && t.ent.line == lineOf l)
  || s.ops.any fun o => o.todo.any fun a => a.sent < n && a.loc.any fun x => match x with
    | .g (.peer d v) => (spanLines (.peer d v) o.bytes).contains (lineOf l)
    | _ => false
/-- Whether a read that the device makes for itself, sent now, waits: its route has no live port, or an earlier request to the line of the
peer is on its way (R415, R417). -/
def peerBusy (s : State) (l : GLoc) : Bool :=
  match l with
  | .peer _ _ => held s l || peerAhead s l s.serial
  | _ => false
/-! ### Fetch -/

/-- What fetching bytes of code gives: the bytes, an address that R88 forbids, a lookup or a page request to wait for at the first
byte that needs one, a page that cannot come (R413), or a peer's memory that is not reached yet. -/
inductive Fetched where
  | ok (bs : List Byte) | layout | wait (page : Nat) (pri : Bool) | refused | hold
deriving DecidableEq, Repr

/-- The first byte of a range that does not translate, and why. -/
def xlatRange (s : State) (b : Block) (va : Nat) (wr ex : Bool) : Nat → Option (Nat × Xlat)
  | 0 => none
  | n + 1 => match xlat (getCore s (coreNo b)).tlb b.pasid (BitVec.ofNat 64 va) wr ex with
    | .at_ _ => xlatRange s b (va + 1) wr ex n
    | e => some (va, e)
/-- The location of an address that translates. -/
def locOf (s : State) (b : Block) (va : Nat) : GLoc :=
  match xlat (getCore s (coreNo b)).tlb b.pasid (BitVec.ofNat 64 va) false true with
  | .at_ l => l
  | _ => .dev 0

/-- Fetches `n` bytes of code at an address (R162, R212, R341). Of the values that a piece of code may hold after a breach of the code
window (R158) it takes the newest performed (assumption 67). -/
def fetchBytes (s : State) (b : Block) (va : DWord) (n : Nat) : Fetched :=
  if !addrOk s b.part va then .layout
  else match xlatRange s b va.toNat false true n with
    | none => if (List.range n).any (fun i => peerBusy s (locOf s b (va.toNat + i))) then .hold
              else .ok ((List.range n).map fun i => gRead s (locOf s b (va.toNat + i)))
    | some (a, .weak) => if (getPart s b.part).priOff then .refused else .wait a true
    | some (a, _) => .wait a false

/-- The word of `n` bytes that stands at a code address, for a frame's INSN. -/
def wordAt (s : State) (b : Block) (va : DWord) (n : Nat) : Nat :=
  match fetchBytes s b va n with | .ok bs => ofLeBytes bs | _ => 0

/-! ### Reads of device memory through the caches -/

/-- A number for the point of coherence of a location: a home slice, the host, or a peer. -/
def homeOf : GLoc → Nat
  | .dev pa => homePier pa * 2 + homeSlice pa
  | .host _ => 100
  | .peer d _ => 200 + d
/-- The line number of a device address. -/
def lineNo (pa : Nat) : Nat := pa / 128
/-- A line as its home holds it. -/
def homeLine (s : State) (ln : Nat) : CLine :=
  { data := gReadN s (.dev (128 * ln)) 128
    pois := BitVec.ofNat 2 ((gPois s (.dev (128 * ln))).toNat + 2 * (gPois s (.dev (128 * ln + 64))).toNat) }

/-- Lines that an L1 (768 KiB), an RDC (96 MiB) and an L2 slice (192 MiB) hold (R12, R20). -/
def l1Lines : Nat := 768 * 2 ^ 10 / 128
def rdcLines : Nat := 96 * 2 ^ 20 / 128
def sliceLines : Nat := 192 * 2 ^ 20 / 128
/-- The number of a free choice, and the state that has made it. -/
def choice (s : State) : Nat × State := ((Config.freeWord s.fresh).toNat, { s with fresh := s.fresh + 1 })
/-- The line that makes room in a full cache: any of its lines. -/
def victim (keys : List Nat) (n : Nat) : Nat := keys.getD (n % keys.length) 0
/-- The lines of a home slice of which the L2 keeps a scope record or sharer bits (R100, R117). -/
def sliceKeys (s : State) (h : Nat) : List Nat :=
  ((s.scopes.keys ++ (List.range 4).flatMap fun p => (getPier s p).rdc.keys).eraseDups).filter fun ln => homeOf (.dev (128 * ln)) == h
/-- An L2 slice drops a line: its scope record is lost, no RDC keeps a copy, and an error of the array stays with the data
(R100, R117, R386; assumption 95). -/
def dropL2 (s : State) (line : Nat) : State :=
  { dropRdcAll s line with scopes := s.scopes.set none line none
                           l2Bad := (s.l2Bad.set false (2 * line) false).set false (2 * line + 1) false }
/-- A line enters its home slice, which evicts another where it is full (R20, R100, R117). -/
def enterL2 (s : State) (ln : Nat) : State :=
  let ks := sliceKeys s (homeOf (.dev (128 * ln)))
  if ks.length < sliceLines ∨ ks.contains ln then s else let n := choice s; dropL2 n.2 (victim ks n.1)
/-- A line fills a core's L1, evicting another where it is full (R12, R96). -/
def fillL1 (s : State) (c ln : Nat) (x : CLine) : State :=
  let m := (getCore s c).l1
  let r := if m.keys.length < l1Lines ∨ m.keys.contains ln then (m, s) else let n := choice s; (m.set none (victim m.keys n.1) none, n.2)
  modCore r.2 c fun k => { k with l1 := r.1.set none ln (some x) }
/-- A line fills a pier's RDC, evicting another where it is full (R20, R100). -/
def fillRdc (s : State) (p ln : Nat) (x : CLine) : State :=
  let m := (getPier s p).rdc
  let r := if m.keys.length < rdcLines then (m, s) else let n := choice s; (m.set none (victim m.keys n.1) none, n.2)
  let s := enterL2 (modPier r.2 p fun q => { q with rdc := r.1 }) ln
  modPier s p fun q => { q with rdc := q.rdc.set none ln (some x) }

/-- A line as a core reads it, with the fills (R96, R98, R100): the L1 line when present; else an RDC copy of a line homed
elsewhere, or the home, filling the RDC and, without `.st`, the L1. A line that a read watchpoint watches is filled nowhere
(R359). -/
def readLine (s : State) (c ln : Nat) (ro st : Bool) : CLine × State :=
  match (getCore s c).l1.get none ln with
  | some x => (x, if ro ∧ ¬x.ro then modCore s c fun k => { k with l1 := k.l1.set none ln (some { x with ro := true }) } else s)
  | none =>
    let p := pierOf c
    let far := homePier (128 * ln) != p
    let copy := if far then (getPier s p).rdc.get none ln else none
    let x := copy.getD (homeLine s ln)
    if watchedLine s ln then (x, s)
    else
      let s := if far ∧ copy.isNone then fillRdc s p ln x else s
      (x, if st then s else fillL1 s c ln { x with ro := ro })

/-- Bytes and poison of a location as a core reads them. Host and peer memory are cached nowhere (R101). -/
def cachedRead (s : State) (c : Nat) (l : GLoc) (n : Nat) (ro st : Bool) : List Byte × Bool × State :=
  match l with
  | .dev pa =>
    let r := readLine s c (lineNo pa) ro st
    ((List.range n).map fun i => r.1.data.getD (pa % 128 + i) 0, r.1.pois.getLsbD (pa % 128 / 64), r.2)
  | _ => (gReadN s l n, false, s)

/-- The store buffer as an access of order number `n` finds it: the entries of older stores (R259). No access that is still to be sent
stands between two stores of one entry (`sbMerges`), so the youngest of them tells. -/
def olderEnts (w : Warp) (n : Nat) : List SbEnt := w.sb.filter fun e => decide (e.ord < n)
/-- Bytes that the youngest store buffer entry holding each forwards to the access numbered `k` (R105). -/
def forwards (w : Warp) (k : Nat) (l : GLoc) (n : Nat) : List (Option Byte) := (List.range n).map fun i => sbByte (olderEnts w k) (gAdd l i)
/-- Whether a forwarded byte is poisoned. -/
def forwardPois (w : Warp) (k : Nat) (l : GLoc) (n : Nat) : Bool :=
  (List.range n).any fun i => ((olderEnts w k).reverse.find? fun e =>
    e.line = lineOf (gAdd l i) && (e.bytes.get none (gAddr (gAdd l i) % 128)).isSome).any fun e => e.pois.getLsbD (gAddr (gAdd l i) % 128)
/-- Whether the store buffer holds a byte of a line from a store older than order number `n` (R173, R256). -/
def sbHolds (w : Warp) (n : Nat) (l : GLoc) : Bool := w.sb.any fun e => e.line = lineOf l && !e.bytes.cells.isEmpty && decide (e.ord < n)
/-- Forwarded bytes over read bytes. -/
def overlay (f : List (Option Byte)) (bs : List Byte) : List Byte := (f.zip bs).map fun e => e.1.getD e.2

/-! ### Paths to points of coherence (R99) -/

/-- Whether a request that was sent before number `n` has yet to be performed at the home of a location, on the path of a core (R99),
or at its line of a peer (R415). -/
def pathBusy (s : State) (c n : Nat) (l : GLoc) : Bool :=
  match l with
  | .peer _ _ => peerAhead s l n
  | _ => s.transit.any fun t => t.core == c && !t.performed && !t.engine && !t.copyEng && t.id < n && homeOf t.ent.line == homeOf l
/-- Whether a core has written a device line and is not acknowledged: by a store, or by an atomic whose RDC copies are still to drop
(R100). -/
def lineOwed (s : State) (c pa : Nat) : Bool :=
  s.transit.any (fun t => t.core == c && t.ent.line == lineOf (.dev pa)) || s.ops.any fun o => o.core == c && o.lines.contains (lineNo pa)
/-- Whether a read that a core sent at number `n` must wait: an L1 hit never does; a miss follows every older store of the
core to the same home, and a write of the core to the same line that is not acknowledged, so that no stale line is filled
(R99, R119). -/
def readWaits (s : State) (c n : Nat) (l : GLoc) : Bool :=
  match l with
  | .dev pa => ((getCore s c).l1.get none (lineNo pa)).isNone && (pathBusy s c n l || lineOwed s c pa)
  | _ => pathBusy s c n l
/-- Whether a line holds an unacknowledged drain store of a block (R111). -/
def drainHolds (s : State) (b : Nat) (l : GLoc) : Bool :=
  s.transit.any fun t => t.engine && t.block == b && t.ent.line == lineOf l

/-- Whether two byte ranges meet at one location. -/
def locMeets (a : ALoc) (n : Nat) (b : ALoc) (m : Nat) : Bool :=
  match a, b with
  | .g x, .g y => lineOf x == lineOf y && gAddr x < gAddr y + m && gAddr y < gAddr x + n
  | .spad k x, .spad j y => k == j && x < y + m && y < x + n
  | _, _ => false
/-- Whether an operation of the warp issued before order number `before` has yet to access given bytes (R259). -/
def olderOp (s : State) (b w before : Nat) (l : ALoc) (n : Nat) : Bool :=
  s.ops.any fun o => o.block == b && o.warp == w && o.ord < before
    && o.todo.any fun t => t.loc.any fun x => locMeets x o.bytes l n

/-- Whether a lane of the warp's own request issued before order number `before` has yet to be sent to given bytes (R259). -/
def olderReq (w : Warp) (before : Nat) (l : ALoc) (n : Nat) : Bool :=
  w.reqs.any fun r => !r.trapped && r.ord < before && r.todo.any fun a => a.st == .new && a.loc.any fun x => locMeets x r.bytes l n

/-! ### The save slot as ERET reads it (R306) -/

/-- Granule `i` of the save slot. -/
def slotGran (l : GLoc) (i : Nat) : GLoc := gAdd l (64 * i)
/-- Whether a load of the slot would still wait: for a drain store of its block, for a write of its core, or for an earlier access of its
warp that is still to be made (R99, R111, R259). -/
def slotWaits (s : State) (b : Block) (w : Warp) (l : GLoc) : Bool :=
  (List.range 16).any fun i => drainHolds s b.uid (slotGran l i)
    || olderOp s b.uid w.idx s.serial (.g (slotGran l i)) 64 || olderReq w s.serial (.g (slotGran l i)) 64
    || (!(forwards w s.serial (slotGran l i) 64).all Option.isSome && readWaits s (coreNo b) s.serial (slotGran l i))
/-- The 1024 bytes of the slot as a load of the warp reads them, through its store buffer and the L1, with the poison of each
granule (R105, R306, R428). -/
def slotLoad (s : State) (b : Block) (w : Warp) (l : GLoc) : List Byte × List Bool × State :=
  (List.range 16).foldl (fun (p : List Byte × List Bool × State) i =>
    let x := slotGran l i
    let f := forwards w s.serial x 64
    let r := cachedRead p.2.2 (coreNo b) x 64 false false
    (p.1 ++ overlay f r.1, p.2.1 ++ [forwardPois w s.serial x 64 || (r.2.1 && !f.all Option.isSome)], r.2.2)) ([], [], s)
/-- The return from the bytes of the slot that a peer answered with (R306, R417). -/
def returnGot (s : State) (b : Block) (w : Warp) (v : Nat) (bad : Bool) : State := returnTrap s b w (leBytes 1024 v) bad
/-- The return from a trap whose slot stands at a location (R306, R343). -/
def returnFrom (s : State) (b : Block) (w : Warp) (l : GLoc) : State :=
  let r := slotLoad s b w l
  returnTrap r.2.2 b w r.1 ((r.2.1.take (slotGrans w)).any id)

/-! ### Atomic steps (R172, R254) -/

/-- The new value of an `e`-bit location, or none where a cas fails. -/
def atomNew (op : AtomOp) (e old b c : Nat) : Option Nat :=
  match op with
  | .add => some ((old + b) % 2 ^ e)
  | .min => some (if intVal e true old ≤ intVal e true b then old else b)
  | .max => some (if intVal e true old ≤ intVal e true b then b else old)
  | .minw => some (Nat.min old b)
  | .maxw => some (Nat.max old b)
  | .and => some (old &&& b)
  | .or => some (old ||| b)
  | .xor => some (old ^^^ b)
  | .xchg => some b
  | .cas => if old = c then some b else none
  | .fadd => some (add32 old b)

/-- Performs one atomic at a location: the old value and the state. -/
def atomStep (s : State) (l : GLoc) (op : AtomOp) (n b c : Nat) : Nat × State :=
  let old := ofLeBytes (gReadN s l n)
  (old, match atomNew op (8 * n) old b c with
        | some v => gWriteN s l (leBytes n v)
        | none => s)

/-- The code of a scope (R14). -/
def scopeCode (x : Scope) : Nat := codeOf scopes x

/-- Whether a core lies inside scope `x` of a recorded origin (R17, R117): WARP counts as BLOCK. -/
def insideScope (x : Scope) (r : ScopeRec) (c : Nat) : Bool :=
  match x with
  | .warp | .block => r.core == c
  | .course => r.course == courseOf c
  | .pier => r.pier == pierOf c
  | .span | .system => true

/-- The scope check of a synchronising access of core `c` on a device line: the recorded scope where it fails, else the
state with the new record (R117, R118). -/
def scopeCheck (s : State) (c pa : Nat) (x : Scope) : Except Scope State :=
  match s.scopes.get none (lineNo pa) with
  | some r => if insideScope x r c
    then .ok { s with scopes := s.scopes.set none (lineNo pa) (some ⟨x, pierOf c, courseOf c, c⟩) }
    else .error r.scope
  | none =>
    let s := enterL2 s (lineNo pa)
    .ok { s with scopes := s.scopes.set none (lineNo pa) (some ⟨x, pierOf c, courseOf c, c⟩) }

/-- SUBC of a SCOPE trap (R118). -/
def scopeSubc (old new : Scope) : Nat := scopeCode old + 8 * scopeCode new

/-! ### The store buffer (R104, R105) -/

/-- One byte to store: its location, the virtual line, the byte and whether it is poisoned. -/
structure StByte where
  loc : GLoc
  vline : Nat
  byte : Byte
  pois : Bool := false

/-- Adds a byte to an entry. -/
def entAdd (e : SbEnt) (x : StByte) : SbEnt :=
  let o := gAddr x.loc % 128
  { e with bytes := e.bytes.set none o (some x.byte)
           pois := if x.pois then e.pois ||| (1#128 <<< o) else e.pois &&& ~~~(1#128 <<< o) }

/-- Places the bytes of one line: into the youngest entry when that holds the line and `merge` lets it, else into a new entry. R104 says
that a store may merge; that it always does, but past an access still to be made, is the model's choice (assumption 74). `ord` is the
order number of the store. -/
def sbPlace (merge : Bool) (sb : List SbEnt) (id ord pasid : Nat) (xs : List StByte) : List SbEnt :=
  match xs with
  | [] => sb
  | x :: _ =>
    match sb.getLast? with
    | some e =>
      if merge ∧ e.line = lineOf x.loc ∧ e.pasid = pasid
      then sb.dropLast ++ [{ xs.foldl entAdd e with ids := if e.ids.contains id then e.ids else e.ids ++ [id], ord := Nat.max e.ord ord }]
      else sb ++ [{ xs.foldl entAdd { line := lineOf x.loc, vline := x.vline, pasid := pasid } with ids := [id], ord := ord }]
    | none => [{ xs.foldl entAdd { line := lineOf x.loc, vline := x.vline, pasid := pasid } with ids := [id], ord := ord }]

/-- Whether a store to a line needs no new entry or a free one is left. -/
def sbRoom (merge : Bool) (sb : List SbEnt) (pasid : Nat) (l : GLoc) : Bool :=
  sb.length < 32 || match sb.getLast? with | some e => merge && e.line = lineOf l && e.pasid == pasid | none => true
/-- Whether a lane of the warp's own request issued before order number `before` has no location yet, so that it may go to any line (R248). -/
def olderUnknown (w : Warp) (before : Nat) : Bool :=
  w.reqs.any fun r => !r.trapped && r.space == .glob && r.ord < before && r.todo.any fun a => a.st != .sent && a.loc.isNone
/-- Whether a store of order number `n` may merge into an entry of its line: no older access of the warp to the line is still to be sent or
performed, which an entry of stores on both sides of it would hold up or hide a store from (R104, R105, R259). -/
def sbMerges (s : State) (b : Nat) (w : Warp) (n : Nat) (l : GLoc) : Bool :=
  !olderOp s b w.idx n (.g (lineOf l)) 128 && !olderReq w n (.g (lineOf l)) 128 && !olderUnknown w n

/-- A line's bytes updated by an entry, with its granules' poison (R386). -/
def lineUpdate (x : CLine) (e : SbEnt) : CLine :=
  { x with data := (x.data.zipIdx).map fun d => match e.bytes.get none d.2 with | some b => b | none => d.1
           pois := BitVec.ofNat 2 ((List.range 2).foldl (fun n h =>
             let m := granMask e h
             if m.2 || (!m.1 && x.pois.getLsbD h) then n + 2 ^ h else n) 0) }

/-- An entry leaves: it is in transit to its point of coherence, and the core's L1 line, when present, is updated (R96,
R105). -/
def sbLeave (s : State) (b : Block) (w : Nat) (e : SbEnt) : State :=
  let c := coreNo b
  let s := match e.line with
    | .dev pa => modCore s c fun x => match x.l1.get none (lineNo pa) with
      | some ln => { x with l1 := x.l1.set none (lineNo pa) (some (lineUpdate ln e)) }
      | none => x
    | _ => s
  bump { s with transit := s.transit ++ [{ id := s.serial, core := c, block := b.uid, warp := w, ent := e }] }

/-- Whether some store operation still has bytes in the buffer or in transit; the writes of engines and copies are none of it (R184). -/
def storePending (s : State) (w : Warp) (b id : Nat) : Bool :=
  w.sb.any (fun e => e.ids.contains id) || w.held.any (fun t => t.ids.contains id) || s.transit.any (fun t => t.block == b && !t.engine && !t.copyEng && t.ent.ids.contains id)
  || s.ops.any fun o => o.id == id

/-- Counts a store operation complete once nothing of it is outstanding (R105, R107). -/
def settleStore (s : State) (b w id : Nat) : State :=
  match getWarp s b w with
  | some x => if storePending s x b id || x.reqs.any (fun r => r.id == id) then s
    else modWarp s b w fun x => countDone { x with sst := x.sst.filter fun i => i != id } .st id
  | none => s

/-! ### Batches (R110) -/

/-- Whether a batch of a warp has a command in the engine, saved, or a store not acknowledged. -/
def batchBusy (s : State) (b : Block) (w : Nat) (n : BitVec 16) : Bool :=
  (getCore s (coreNo b)).cmds.any (fun m => m.block == b.uid && m.warp == w && m.batch == n)
  || b.savedCmds.any (fun m => m.warp == w && m.batch == n)
  || s.transit.any fun t => t.engine && t.block == b.uid && t.warp == w && t.batch == n
/-- Closed batches of a warp that are complete count as done in class TL (R107, R110). -/
def settleBatches (s : State) (bu wi : Nat) : State :=
  match getBlock s bu, getWarp s bu wi with
  | some b, some w =>
    let done := w.closed.filter fun e => !batchBusy s b wi e.2
    if done.isEmpty then s
    else setWarp s bu (done.foldl (fun w e => countDone w .tl e.1) { w with closed := w.closed.filter fun e => !done.contains e })
  | _, _ => s

/-! ### Scratchpads (R92, R93, R95, R102) -/

/-- The member of a gang with a peer index. -/
def peerBlock (s : State) (b : Block) (p : Nat) : Option Block :=
  match b.gang with
  | some g => ((s.gangs.get {} g).members.filterMap (getBlock s)).find? fun x => x.peer == p
  | none => none
def spadRead (s : State) (b off n : Nat) : List Byte :=
  match getBlock s b with
  | some x => Memory.readBytes x.spad off n
  | none => List.replicate n 0
/-- Writes scratchpad bytes; a poisoned source poisons their granules, a whole clean granule clears its own (R386). -/
def spadWrite (s : State) (b off : Nat) (bs : List Byte) (pois : Bool) : State :=
  modBlock s b fun x =>
    let gs := (List.range ((off % 64 + bs.length + 63) / 64)).map fun i => off / 64 + i
    { x with spad := Memory.writeBytes x.spad off bs
             spadPois := gs.foldl (fun m g =>
               if pois then m.set false g true
               else if off ≤ g * 64 ∧ g * 64 + 64 ≤ off + bs.length then m.set false g false else m) x.spadPois }
def spadPois (s : State) (b off : Nat) : Bool := match getBlock s b with | some x => x.spadPois.get false (off / 64) | none => false

end Sys2Proof.Machine
end

