-- ==== Sys2Proof/Machine/Scalar.lean ====
section
/-! DEFINITION. Integer S-instructions, branches and jumps (R163 to R168). -/

namespace Sys2Proof.Machine

/-- Whether S[d] is ready at a clock (R160). -/
def sReady (w : Warp) (cyc : Nat) (r : SReg) : Bool := w.sAvail.get 0 r.toNat ≤ cyc

/-- S[d] := v, ready for a dependent issue `lat` cycles later, and on to the next word (R28, R160). -/
def sResult (s : State) (b : Block) (w : Warp) (d : SReg) (v : DWord) (lat : Nat) : State :=
  setWarp s b.uid { advance (setS w d v) with
    sAvail := w.sAvail.set 0 d.toNat (if lat ≤ 1 then 0 else (getCore s (coreNo b)).cyc + lat) }

/-- A taken branch or jump: the next instruction issues 2 cycles later (R160). -/
def sJump (s : State) (b : Block) (w : Warp) (t : DWord) : State :=
  setWarp s b.uid { goto_ w t with sNext := (getCore s (coreNo b)).cyc + 2 }

/-- Shift right arithmetic with the shift amount limited by the width. -/
def asr (a : DWord) (n : Nat) : DWord := a.sshiftRight n

/-- The functions of R163. -/
def saluFn (f : SaluOp) (a b : DWord) : DWord :=
  match f with
  | .add => a + b
  | .sub => a - b
  | .and => a &&& b
  | .or => a ||| b
  | .xor => a ^^^ b
  | .shl => if 64 ≤ b.toNat then 0 else a <<< b.toNat
  | .shr => if 64 ≤ b.toNat then 0 else a >>> b.toNat
  | .sra => asr a (Nat.min b.toNat 63)
  | .mul => a * b
  | .mulh => BitVec.ofInt 64 ((a.toInt * b.toInt) / (2 ^ 64 : Int))
  | .mulhw => BitVec.ofNat 64 (a.toNat * b.toNat / 2 ^ 64)
  | .min => if a.toInt ≤ b.toInt then a else b
  | .max => if a.toInt ≤ b.toInt then b else a
  | .minw => if a.toNat ≤ b.toNat then a else b
  | .maxw => if a.toNat ≤ b.toNat then b else a
  | .slt => if a.toInt < b.toInt then 1 else 0
  | .sltw => if a.toNat < b.toNat then 1 else 0
  | .seq => if a = b then 1 else 0
  | .clz => BitVec.ofNat 64 (leadZeros a)
  | .popc => BitVec.ofNat 64 (popCount a)

/-- Cycles to a dependent issue (R160). -/
def saluLat : SaluOp → Nat
  | .mul | .mulh | .mulhw => 3
  | _ => 1

/-- R163. -/
def execSalu (f : SaluOp) (d a c : SReg) (s : State) : Host.Outcome State Fault Refusal :=
  onWarp s fun b w => sResult s b w d (saluFn f (sreg w a) (sreg w c)) (saluLat f)

/-- R164. -/
def execSaddi (d a : SReg) (i : BitVec 14) (s : State) : Host.Outcome State Fault Refusal :=
  onWarp s fun b w => sResult s b w d (sreg w a + simm i) 1
def execSandi (d a : SReg) (i : BitVec 14) (s : State) : Host.Outcome State Fault Refusal :=
  onWarp s fun b w => sResult s b w d (sreg w a &&& simm i) 1
def execSori (d a : SReg) (i : BitVec 14) (s : State) : Host.Outcome State Fault Refusal :=
  onWarp s fun b w => sResult s b w d (sreg w a ||| simm i) 1
def execSxori (d a : SReg) (i : BitVec 14) (s : State) : Host.Outcome State Fault Refusal :=
  onWarp s fun b w => sResult s b w d (sreg w a ^^^ simm i) 1
def execSshli (d a n : SReg) (s : State) : Host.Outcome State Fault Refusal :=
  onWarp s fun b w => sResult s b w d (sreg w a <<< n.toNat) 1
def execSshri (d a n : SReg) (s : State) : Host.Outcome State Fault Refusal :=
  onWarp s fun b w => sResult s b w d (sreg w a >>> n.toNat) 1
def execSsrai (d a n : SReg) (s : State) : Host.Outcome State Fault Refusal :=
  onWarp s fun b w => sResult s b w d (asr (sreg w a) n.toNat) 1
def execSlui (d : SReg) (i : BitVec 14) (s : State) : Host.Outcome State Fault Refusal :=
  onWarp s fun b w => sResult s b w d (simm i <<< 14) 1

/-- R165: the pair is one instruction, and the next SPC is SPC + 8. -/
def execSlit (d : SReg) (k : Word) (s : State) : Host.Outcome State Fault Refusal :=
  onWarp s fun b w => sResult s b { w with spc := w.spc + 4 } d (simm k) 1
def execSlith (d : SReg) (k : Word) (s : State) : Host.Outcome State Fault Refusal :=
  onWarp s fun b w => sResult s b { w with spc := w.spc + 4 } d
    ((uimm k <<< 32) ||| (sreg w d &&& 0xFFFFFFFF)) 1

/-- A compare branch (R166). -/
def branchIf (c : DWord → DWord → Bool) (a d : SReg) (o : BitVec 14) (s : State) : Host.Outcome State Fault Refusal :=
  onWarp s fun b w => if c (sreg w a) (sreg w d) then sJump s b w (sTarget w o) else setWarp s b.uid (advance w)

def execSbeq (a d : SReg) (o : BitVec 14) (s : State) : Host.Outcome State Fault Refusal := branchIf (fun x y => x == y) a d o s
def execSbne (a d : SReg) (o : BitVec 14) (s : State) : Host.Outcome State Fault Refusal := branchIf (fun x y => x != y) a d o s
def execSblt (a d : SReg) (o : BitVec 14) (s : State) : Host.Outcome State Fault Refusal :=
  branchIf (fun x y => x.toInt < y.toInt) a d o s
def execSbge (a d : SReg) (o : BitVec 14) (s : State) : Host.Outcome State Fault Refusal :=
  branchIf (fun x y => y.toInt ≤ x.toInt) a d o s
def execSbltw (a d : SReg) (o : BitVec 14) (s : State) : Host.Outcome State Fault Refusal :=
  branchIf (fun x y => x.toNat < y.toNat) a d o s
def execSbgew (a d : SReg) (o : BitVec 14) (s : State) : Host.Outcome State Fault Refusal :=
  branchIf (fun x y => y.toNat ≤ x.toNat) a d o s

/-- R167. -/
def execSbr (d : SReg) (o : BitVec 20) (s : State) : Host.Outcome State Fault Refusal :=
  onWarp s fun b w => sJump s b (setS w d (w.spc + 4)) (sTarget w o)

/-- R168: an unaligned target traps before any effect. FADDR is 0: the spec does not say that the target is a faulting address
(assumption 89). -/
def execSjr (d a : SReg) (s : State) : Host.Outcome State Fault Refusal :=
  onWarp s fun b w =>
    let t := sreg w a
    if t.toNat % 4 ≠ 0 then trapS s b w .align 1 0 else sJump s b (setS w d (w.spc + 4)) t

end Sys2Proof.Machine
end

