-- ==== Sys2Proof/Machine/ScalarMem.lean ====
section
/-! DEFINITION. Scalar memory access, satom, the queues and waitc (R169 to R176, R185). -/

namespace Sys2Proof.Machine

/-- A meaning that handler mode excludes: there it is a fatal fault of the block (R301). -/
def onUser (s : State) (f : Block → Warp → State) : Host.Outcome State Fault Refusal :=
  onWarp s fun b w => if w.handler then fatalFault s b.uid else f b w

/-- Who performs an access of the selected warp, for watchpoints. -/
def byMe (b : Block) (w : Warp) : By := some (coreNo b, b.uid, w.idx)

/-- Translation with the rights an access needs: an atomic reads and writes. -/
def xlatRw (s : State) (b : Block) (a : DWord) (rd wr : Bool) : Xlat :=
  let t := (getCore s (coreNo b)).tlb
  if rd && wr then match xlat t b.pasid a true false with | .at_ _ => xlat t b.pasid a false false | e => e
  else xlat t b.pasid a wr false

/-- The translation of an S-instruction's access: R88 and R415 trap PAGE, SUBC 1; a missing or insufficient page waits, and
traps PAGE or PERM once the host refuses it (R89, R170, R341); otherwise the access goes on at its location. -/
def sGlobal (s : State) (b : Block) (w : Warp) (ea : DWord) (rd wr : Bool) (k : GLoc → State) : State :=
  if !addrOk s b.part ea then trapS s b w .page 1 ea
  else if w.swait = .refused ea.toNat false then trapS s b w .page 0 ea
  else if w.swait = .refused ea.toNat true then trapS s b w .perm 0 ea
  else match xlatRw s b ea rd wr with
    | .at_ l => k l
    | .weak => if (getPart s b.part).priOff then trapS s b w .perm 0 ea else waitS s b w (.pri ea.toNat)
    | .miss => waitS s b w (if w.swait = .pri ea.toNat then .pri ea.toNat else .ats ea.toNat)

/-- The address of sld, sst, slds and ssts (R169). -/
def sEa (w : Warp) (a : SReg) (i : BitVec 12) : DWord := sreg w a + simm i
def sBytes (wd : BitVec 2) : Nat := 2 ^ wd.toNat

/-- The request of a scalar access, which is performed and answered at LOAD_RESPONSE (R101, R120, R417). -/
def scalarOp (s : State) (b : Block) (w : Warp) (ea : DWord) (l : GLoc) (kind : AccKind) (n x : Nat) (y : DWord) (d : Option Nat) : Op :=
  { id := s.serial, cls := .ld, block := b.uid, warp := w.idx, core := coreNo b, kind := kind, bytes := n,
    todo := [{ lane := 0, ea := ea.toNat, loc := some (.g l), b := x, c := y, fwd := forwards w s.serial l n,
               bPois := forwardPois w s.serial l n, sent := s.serial }],
    counted := false, depth := w.regions.length, regionCount := (w.regions.head?.map fun r => r.count).getD 0, issuedAt := w.issues + 1,
    ord := s.serial, pasid := b.pasid, sdest := d }
/-- Sends a scalar request for whose answer the S-stream waits. -/
def askPeer (s : State) (b : Block) (w : Warp) (ea : DWord) (l : GLoc) (kind : AccKind) (n x : Nat) (y : DWord) : State :=
  waitS (bump { s with ops := s.ops ++ [scalarOp s b w ea l kind n x y none] }) b w (.peer s.serial)
/-- Sends an sld of device or host memory: the S-stream goes on, and the register is pending until the value arrives (R28, R160). -/
def askLoad (s : State) (b : Block) (w : Warp) (d : SReg) (ea : DWord) (l : GLoc) (n : Nat) : State :=
  setWarp (bump { s with ops := s.ops ++ [scalarOp s b w ea l (.load false false false) n 0 0 (some d.toNat)] }) b.uid
    (advance { w with sload := w.sload ++ [(s.serial, d.toNat)] })

/-- A loaded value into S[D]; poison makes it a free value and a consumption (R387). Poison that the store buffer forwards is read from the
register file that stored it: UNIT 1 (assumption 76). -/
def sLoaded (s : State) (b : Block) (w : Warp) (d : SReg) (ea : DWord) (v : Nat) (pois : Bool) (unit pa : Nat) : State :=
  if pois then
    let fv := freeVal s
    sResult fv.2 b (consumeAt w unit (BitVec.ofNat 64 (pa / 64 * 64)) ea) d fv.1 1
  else sResult s b w d (BitVec.ofNat 64 v) 1

/-- The unit of a granule's poison at its home: the L2 where its error arose there, else the vault (R391). -/
def homeUnit (s : State) (pa : Nat) : Nat := if s.l2Bad.get false (pa / 64) then 4 else 6
/-- The unit that holds a granule as a load finds it (R391). -/
def unitOf (s : State) (c pa : Nat) : Nat :=
  if ((getCore s c).l1.get none (lineNo pa)).isSome then 3
  else if ((getPier s (pierOf c)).rdc.get none (lineNo pa)).isSome then 5 else homeUnit s pa

/-- R169, R170: bytes that the store buffer holds whole arrive at once. Else the load is sent. The S-stream goes on past a load of device or
host memory; at a load of a peer, which may still be refused, and under FLAGS.SSTEP it waits for the answer (R303, R338, R417). -/
def execSld (d a : SReg) (wd : BitVec 2) (i : BitVec 12) (s : State) : Host.Outcome State Fault Refusal :=
  onWarp s fun b w =>
    let ea := sEa w a i
    let n := sBytes wd
    if ea.toNat % n ≠ 0 then trapAccess s b w .align 2 ea else
    match w.swait with
    | .got v p => sLoaded s b w d ea v p 6 0
    | .peer _ => waitS s b w w.swait
    | _ => sGlobal s b w ea true false fun l =>
      let f := forwards w s.serial l n
      let dev := match l with | .peer _ _ => false | _ => true
      if olderReq w s.serial (.g l) n then waitS s b w .retry
      else if f.all Option.isSome then
        if drainHolds s b.uid l || olderOp s b.uid w.idx s.serial (.g l) n then waitS s b w .retry
        else watch (sLoaded s b w d ea (ofLeBytes (overlay f (List.replicate n 0))) (forwardPois w s.serial l n) 1 (gAddr l)) (byMe b w) (.g l) n 2
      else if dev && w.sstep.isNone then askLoad s b w d ea l n
      else askPeer s b w ea l (.load false false false) n 0 0

/-- R169, R170: the bytes enter the store buffer, waiting while no entry is free. -/
def execSst (d a : SReg) (wd : BitVec 2) (i : BitVec 12) (s : State) : Host.Outcome State Fault Refusal :=
  onWarp s fun b w =>
    let ea := sEa w a i
    let n := sBytes wd
    if ea.toNat % n ≠ 0 then trapAccess s b w .align 2 ea else
    sGlobal s b w ea false true fun l =>
      let merge := sbMerges s b.uid w s.serial l
      if !sbRoom merge w.sb b.pasid l || 4095 ≤ countN w .st || olderReq w s.serial (.g l) n then waitS s b w .retry else
      let xs := (leBytes n (sreg w d).toNat).zipIdx.map fun e => StByte.mk (gAdd l e.2) (vaOf ea / 128 * 128 + devidOf ea * 2 ^ 57) e.1 false
      let w := countIn { w with sb := sbPlace merge w.sb s.serial s.serial b.pasid xs, sst := w.sst ++ [s.serial] } .st s.serial
      setWarp (bump s) b.uid (advance w)

/-- The scratchpad check of R169: bytes not all below SCRATCH trap PERM, SUBC 2. -/
def spadOut (b : Block) (ea : DWord) (n : Nat) : Bool := b.kd.scratch ≤ ea.toNat || b.kd.scratch < ea.toNat + n

/-- Whether an ssts of the warp is not performed at its bank (R177, R282). -/
def sstsOut (s : State) (b : Block) (w : Warp) : Bool := s.ops.any fun o => o.block == b.uid && o.warp == w.idx && w.sst.contains o.id
/-- R171: waits for the warp's own earlier scratchpad stores to the same bytes. -/
def execSlds (d a : SReg) (wd : BitVec 2) (i : BitVec 12) (s : State) : Host.Outcome State Fault Refusal :=
  onWarp s fun b w =>
    let ea := sEa w a i
    let n := sBytes wd
    if ea.toNat % n ≠ 0 then trapAccess s b w .align 2 ea
    else if spadOut b ea n then trapAccess s b w .perm 2 ea
    else if olderOp s b.uid w.idx s.serial (.spad b.uid ea.toNat) n then waitS s b w .retry
    else watch (sLoaded s b w d ea (ofLeBytes (spadRead s b.uid ea.toNat n)) (spadPois s b.uid ea.toNat) 2 0)
      (byMe b w) (.spad b.uid ea.toNat) n 2

/-- R171: the store goes to its bank and counts in class ST until the bank accepts it (STORE_ACK). -/
def execSsts (d a : SReg) (wd : BitVec 2) (i : BitVec 12) (s : State) : Host.Outcome State Fault Refusal :=
  onWarp s fun b w =>
    let ea := sEa w a i
    let n := sBytes wd
    if ea.toNat % n ≠ 0 then trapAccess s b w .align 2 ea
    else if spadOut b ea n then trapAccess s b w .perm 2 ea
    else if 4095 ≤ countN w .st then waitS s b w .retry
    else
      let o : Op := { id := s.serial, cls := .st, block := b.uid, warp := w.idx, core := coreNo b, kind := .store, bytes := n,
                      todo := [{ lane := 0, ea := ea.toNat, loc := some (.spad b.uid ea.toNat), b := (sreg w d).toNat % 2 ^ (8 * n) }],
                      depth := w.regions.length, regionCount := (w.regions.head?.map fun r => r.count).getD 0, issuedAt := w.issues + 1, ord := s.serial }
      setWarp (bump { s with ops := s.ops ++ [o] }) b.uid (advance (countIn { w with sst := w.sst ++ [s.serial] } .st s.serial))

/-- R172, R173. -/
def execSatom (op : AtomOp) (wide : Bool) (sc : Scope) (d a c : SReg) (s : State) : Host.Outcome State Fault Refusal :=
  onWarp s fun b w =>
    let ea := sreg w a
    let n := if wide then 8 else 4
    let y := (sreg w c).toNat % 2 ^ (8 * n)
    let z := (sreg w d).toNat % 2 ^ (8 * n)
    if ea.toNat % n ≠ 0 then trapAccess s b w .align 2 ea else
    match w.swait with
    | .got v p => sLoaded s b w d ea v p 6 0
    | .peer _ => waitS s b w w.swait
    | _ => sGlobal s b w ea true true fun l =>
      let core := coreNo b
      if sbHolds w s.serial l ∨ pathBusy s core s.serial l ∨ drainHolds s b.uid l ∨ olderOp s b.uid w.idx s.serial (.g l) n ∨ olderReq w s.serial (.g l) n then waitS s b w .retry else
      match l with
      | .dev pa =>
        match scopeCheck s core pa sc with
        | .error old => trapS s b w .scope (scopeSubc old sc) ea
        | .ok s =>
          let s := dropRdcAll (dropL1Line s core (lineNo pa)) (lineNo pa)
          if gPois s l then watch (sLoaded s b w d ea 0 true (homeUnit s pa) pa) (byMe b w) (.g l) n 3
          else
            let r := atomStep s l op n y z
            watch (sLoaded r.2 b w d ea r.1 false 0 0) (byMe b w) (.g l) n 3
      | .host _ =>
        if sc ≠ .system then trapS s b w .perm 4 ea
        else let r := atomStep s l op n y z; sLoaded r.2 b w d ea r.1 false 0 0
      | .peer _ _ =>
        if sc ≠ .system then trapS s b w .perm 4 ea
        else askPeer s b w ea l (.atomic op sc true) n y (BitVec.ofNat 64 z)

/-! ### Queues (R174 to R176) -/

/-- R174. -/
def execPushq (q : BitVec 2) (a : SReg) (s : State) : Host.Outcome State Fault Refusal :=
  onUser s fun b w =>
    if 16 ≤ (qOf w q.toNat).length then waitS s b w (.queue q.toNat)
    else setWarp (bump s) b.uid (advance (setQ w q.toNat (qOf w q.toNat ++ [{ seq := s.serial, val := sreg w a }])))
def execPopq (d : SReg) (q : BitVec 2) (s : State) : Host.Outcome State Fault Refusal :=
  onUser s fun b w =>
    match qOf w (4 + q.toNat) with
    | e :: t => if e.ready then sResult s b (setQ w (4 + q.toNat) t) d e.val 1 else waitS s b w .retry
    | [] => waitS s b w (.queue (4 + q.toNat))

/-- Pushes an L-code address onto BQ, waiting while it is full. -/
def pushBq (s : State) (b : Block) (w : Warp) (t : DWord) : State :=
  if 16 ≤ w.bq.length then waitS s b w (.queue 8) else setWarp s b.uid (advance { w with bq := w.bq ++ [t] })
/-- R175. -/
def execLgo (o : BitVec 20) (s : State) : Host.Outcome State Fault Refusal :=
  onUser s fun b w => pushBq s b w (b.kd.lbase + 12 * uimm o)
/-- R175; that FADDR is 0 in the ALIGN frame is the model's choice (assumption 89). -/
def execLgor (a : SReg) (s : State) : Host.Outcome State Fault Refusal :=
  onUser s fun b w => if (sreg w a).toNat % 12 ≠ 0 then trapS s b w .align 3 0 else pushBq s b w (sreg w a)

/-! ### waitc (R185) -/

def execWaitc (l t c m : BitVec 6) (s : State) : Host.Outcome State Fault Refusal :=
  onWarp s fun b w =>
    if countN w .ld ≤ l.toNat ∧ countN w .st ≤ t.toNat ∧ countN w .cp ≤ c.toNat ∧ countN w .tl ≤ m.toNat
    then setWarp s b.uid (advance w) else waitS s b w .retry

end Sys2Proof.Machine
end

