-- ==== Sys2Proof/Machine/Sync.lean ====
section
/-! DEFINITION. Fences, barriers, yield and trig (R112 to R115, R186 to R188, R308, R354). -/

namespace Sys2Proof.Machine

/-- Whether a scope reaches beyond one core (R97, R114). -/
def wideScope : Scope → Bool
  | .warp | .block => false | _ => true

/-- What a REL waits for (R113, R114): the warp's S-stream stores; at COURSE or wider every store of the core that has left its
warp's buffer; and every write already performed and not yet acknowledged, which some access before it may have seen. -/
def relIds (s : State) (b : Block) (w : Warp) (wide : Bool) : List Nat :=
  w.sst ++ ((s.transit.filter fun t => t.performed || (wide && t.core == coreNo b && !t.engine && !t.copyEng)).map fun t => t.id)
  ++ (s.ops.filter fun o => !o.lines.isEmpty).map (·.id)
/-- Whether all of them are acknowledged. -/
def relDone (s : State) (w : Warp) (ids : List Nat) : Bool :=
  ids.all fun i => !w.sst.contains i && !s.transit.any (fun t => t.id == i) && !s.ops.any fun o => o.id == i && !o.lines.isEmpty

/-- The L1 invalidation of an acquire: every line not marked read-only (R97, R98). -/
def acqL1 (s : State) (c : Nat) : State :=
  modCore s c fun x => { x with l1 := ⟨x.l1.cells.filter fun e => match e.2 with | some l => l.ro | none => false⟩ }
/-- A FENCE ACQ of a core's warp at a scope. -/
def acquire (s : State) (c : Nat) (sc : Scope) : State := if wideScope sc then acqL1 s c else s

/-- Runs `k` once the REL conditions hold, waiting in the state `mk ids` until then (R114). The set is taken at the first
issue. -/
def afterRel (s : State) (b : Block) (w : Warp) (wide : Bool) (have_ : Option (List Nat)) (mk : List Nat → SWait) (k : State) : State :=
  let ids := have_.getD (relIds s b w wide)
  if relDone s w ids then k else waitS s b w (mk (ids.filter fun i => !relDone s w [i]))

/-- R114, R186. -/
def execFence (k : FenceKind) (sc : Scope) (s : State) : Host.Outcome State Fault Refusal :=
  onWarp s fun b w =>
    let held := match w.swait with | .fence ids => some ids | _ => none
    let done := setWarp s b.uid (advance w)
    match k with
    | .acq => acquire done (coreNo b) sc
    | .rel => afterRel s b w (wideScope sc) held .fence done
    | .full => afterRel s b w (wideScope sc) held .fence (acquire done (coreNo b) sc)

/-- A waiting S-instruction completes apart from an issue move: its stream goes on, and an error that it read is consumed (R188, R308,
R388). -/
def completeWait (s : State) (b : Block) (w : Nat) : State :=
  match getWarp s b.uid w with
  | some x =>
    let t := completeIssue s (setWarp s b.uid (passedBp (advance x) x.spc x.handler)) b x false 0 30
    match decodeS (BitVec.ofNat 32 x.sWord) 0 with
    | .ok i => eatBad t b x i
    | .refused _ => t
  | none => s

/-! ### Barriers -/

/-- The barrier set an instruction names (R187). -/
def getBar (s : State) (b : Block) (course : Bool) (n : Nat) : Barrier :=
  if course then match b.gang with | some g => (s.gangs.get {} g).bars.get {} n | none => {} else b.bars.get {} n
def setBar (s : State) (b : Block) (course : Bool) (n : Nat) (x : Barrier) : State :=
  if course then match b.gang with
    | some g => { s with gangs := s.gangs.modify {} g fun y => { y with bars := y.bars.set {} n x } }
    | none => s
  else modBlock s b.uid fun y => { y with bars := y.bars.set {} n x }
/-- The members of a block's gang, itself alone without one. -/
def gangBlocks (s : State) (b : Block) : List Block :=
  match b.gang with | some g => (s.gangs.get {} g).members.filterMap (getBlock s) | none => [b]
/-- Participants that have not exited (R187). -/
def participants (s : State) (b : Block) (course : Bool) : Nat :=
  if course then ((gangBlocks s b).map fun x => (liveWarps x).length).sum
  else ((getBlock s b.uid).map fun x => (liveWarps x).length).getD 0
/-- Whether a phase has all its arrivals (R187, R188). -/
def phaseFull (s : State) (b : Block) (course : Bool) (x : Barrier) : Bool :=
  match x.n with
  | none => false
  | some 0 => 0 < x.arr && participants s b course ≤ x.arr
  | some n => x.arr == n
/-- Whether another member of the gang has failed (R354). -/
def peerFailed (s : State) (b : Block) : Bool := b.gang.isSome && (gangBlocks s b).any fun x => x.uid != b.uid && x.frozen

/-- The row writes of a barrier's participants that have not landed and that no pending bit guards: issued before an arrival now, by
whichever warp (R53). -/
def rowsOut (s : State) (b : Block) (course : Bool) : List Nat :=
  (if course then gangBlocks s b else [b]).flatMap fun y => ((getCore s (coreNo y)).flight.filter fun t =>
    t.block == y.uid && !t.pend && match t.tgt with | .row _ => true | _ => false).map (·.id)
/-- Whether every row write issued before an arrival of a phase has landed. -/
def rowsLanded (s : State) (b : Block) (x : Barrier) : Bool :=
  (gangBlocks s b).all fun y => (getCore s (coreNo y)).flight.all fun t => !x.writes.contains t.id
/-- R187, R188: the REL of the arrival first, then the count. -/
def execBar (course arrive : Bool) (n : BitVec 4) (a : SReg) (s : State) : Host.Outcome State Fault Refusal :=
  onUser s fun b w =>
    let e := (sreg w a).toNat
    if course ∧ b.gang.isNone then trapS s b w .perm 3 0
    else if course ∧ peerFailed s b then trapS (abandonWait s b w) b w .peerFail 0 0
    else match w.swait with
    | .barIn _ _ => waitS s b w w.swait
    | _ =>
      let held := match w.swait with | .barRel ids => some ids | _ => none
      let x := getBar s b course n.toNat
      afterRel s b w course held .barRel
        (if phaseFull s b course x then waitS s b w (.barRel [])
         else if x.n.any (fun m => m != e) ∨ participants s b course < e then trapS s b w .illegal 9 0
         else
          let y := { x with arr := x.arr + 1, n := some e, writes := x.writes ++ rowsOut s b course, waiting := if arrive then x.waiting else x.waiting ++ [(b.uid, w.idx)] }
          if arrive then setBar (setWarp s b.uid (advance w)) b course n.toNat y
          else setBar (waitS s b w (.barIn course n.toNat)) b course n.toNat y)

/-- BARRIER_PHASE_COMPLETE: a full phase releases its waiters, each with an acquire, and a new phase opens (R188). -/
def execBarrierPhaseComplete (course : Bool) (bu n : Nat) (s : State) : Host.Outcome State Fault Refusal :=
  .next (match getBlock s bu with
  | none => s
  | some b =>
    let x := getBar s b course n
    if ¬ phaseFull s b course x ∨ ¬ rowsLanded s b x ∨ b.core.isNone ∨ b.saving ∨ ¬ b.started ∨ (course ∧ (gangBlocks s b).any (·.frozen)) then s else
    let s := setBar s b course n {}
    x.waiting.foldl (fun s e =>
      match getBlock s e.1 with
      | some y => completeWait (if course then acqL1 s (coreNo y) else s) y e.2
      | none => s) s)

/-! ### yield and trig (R308) -/

def execSysYield (s : State) : Host.Outcome State Fault Refusal := onUser s fun b w => waitS s b w .yield

/-- `trig`: a REL at SPAN, then the block is triggered; a second trig does nothing. -/
def execSysTrig (s : State) : Host.Outcome State Fault Refusal :=
  onWarp s fun b w =>
    let done := setWarp s b.uid (advance w)
    if b.triggered then done else
    let held := match w.swait with | .trigRel ids => some ids | _ => none
    afterRel s b w true held .trigRel
      (modGridOf (modBlock done b.uid fun x => { x with triggered := true }) b fun g => { g with triggered := g.triggered + 1 })

end Sys2Proof.Machine
end

