-- ==== Sys2Proof/Machine/Csr.lean ====
section
/-! DEFINITION. csrr and csrw: every register of R135, with the access rules of R4 and R189, R190. -/

namespace Sys2Proof.Machine

/-- Whether an operation is that of an L-instruction which trapped, or which a return has let issue again: it has not issued (R305, R345). -/
def stands (w : Warp) (id : Nat) : Bool := w.reqs.any fun r => r.id == id && (r.trapped || r.again)
/-- Whether every L-instruction of the warp that writes a register has completed (R76, R345). A store that has issued raises no flag, and
whether it is to be acknowledged first the spec does not say: it is not waited for (assumption 87). -/
def lDone (s : State) (b : Block) (w : Warp) : Bool :=
  !lFlying (getCore s (coreNo b)) b w && w.reqs.all (fun r => r.trapped || r.again) && w.ldq.all fun e => e.2 || stands w e.1
/-- What a csrr or csrw of LMODE, PARTN or FFLAGS waits for (R46, R76, R345). -/
def lSettled (s : State) (b : Block) (w : Warp) (flags : Bool) : Bool :=
  if w.handler then lDone s b w else lIdle w && (!flags || lDone s b w)

/-- A context's registers, zero where none is recorded (R389). -/
def getCtx (s : State) (k p : Nat) : Ctx := (s.ctxs.find? fun c => c.part == k && c.pasid == p).getD { part := k, pasid := p }
def setCtx (s : State) (x : Ctx) : State :=
  if s.ctxs.any fun c => c.part == x.part && c.pasid == x.pasid
  then { s with ctxs := s.ctxs.map fun c => if c.part = x.part ∧ c.pasid = x.pasid then x else c }
  else { s with ctxs := s.ctxs ++ [x] }

/-- MULT and VBASE of a vault (R373, R374). -/
def multOf (p : Pier) (v : Nat) : Nat := p.mult.get 0 v
def vbaseOf (p : Pier) (v : Nat) : Nat := match multOf p v with | 0 => 45 | 1 => 90 | _ => 180
/-- TALW of a core (R377), in sixteenths of a degree. -/
def thpOf (s : State) (c : Nat) : Int := (getPier s (pierOf c)).thp.get 1520 (physOf s c)
def talwOf (s : State) (c : Nat) : Int := thpOf s c - (getPier s (pierOf c)).ctemp.get 0 (physOf s c)

/-- A reading of GTIME: within 4 of the count and never below an earlier reading (R23). -/
def gtimeRead (s : State) : Nat := Nat.max s.gmark (s.gtime + Config.gtimeSkew s.fresh % 5)

/-- The value of a CSR that exists (R135). -/
def csrVal (s : State) (b : Block) (w : Warp) (n : Nat) : DWord :=
  let c := coreNo b
  let x := getCtx s b.part b.pasid
  let p := getPier s (pierOf c)
  match n with
  | 0x000 => BitVec.ofNat 64 w.width
  | 0x001 => w.lmode.setWidth 64
  | 0x002 => w.partn.setWidth 64
  | 0x003 => w.fflags.setWidth 64
  | 0x010 => w.tvec
  | 0x011 => w.tframe
  | 0x012 => BitVec.ofNat 64 w.regions.length
  | 0x013 => w.restarts.setWidth 64
  | 0x014 => w.rlimit.setWidth 64
  | 0x020 => BitVec.ofNat 64 w.wtim
  | 0x021 => w.wtimCmp
  | 0x022 => BitVec.ofNat 64 (gtimeRead s)
  | 0x023 => BitVec.ofNat 64 (getCore s c).cyc
  | 0x030 => BitVec.ofNat 64 b.x
  | 0x031 => BitVec.ofNat 64 b.y
  | 0x032 => BitVec.ofNat 64 b.z
  | 0x034 => BitVec.ofNat 64 w.idx
  | 0x035 => BitVec.ofNat 64 c
  | 0x036 => BitVec.ofNat 64 (courseOf c)
  | 0x037 => BitVec.ofNat 64 (pierOf c)
  | 0x040 => w.batch.setWidth 64
  | 0x041 => BitVec.ofNat 64 (countN w .ld)
  | 0x042 => BitVec.ofNat 64 (countN w .st)
  | 0x043 => BitVec.ofNat 64 (countN w .cp)
  | 0x044 => BitVec.ofNat 64 (countN w .tl)
  | 0x045 => b.accSat.setWidth 64
  | 0x050 => x.errqb
  | 0x051 => x.errqh
  | 0x060 => BitVec.ofInt 64 (getCourse s (courseOf c)).pwra
  | 0x061 => BitVec.ofInt 64 (talwOf s c)
  | 0x070 => ((gridOf s b).map fun g => g.lpb.deadline).getD 0
  | 0x071 => ((gridOf s b).map fun g => g.budg).getD 0
  | _ =>
    let v := n % 32
    if n < 0x140 then BitVec.ofNat 64 (p.vra.get 1000 v)
    else if n < 0x180 then BitVec.ofNat 64 (vbaseOf p v)
    else BitVec.ofNat 64 (multOf p v * 65536 + intPat 16 (p.vtemp.get 0 v))

/-- The registers with a field reserved to supervisor mode (R135). -/
def csrSup (n : Nat) : Bool :=
  n == 0 || n == 0x10 || n == 0x11 || n == 0x13 || n == 0x14 || n == 0x50 || n == 0x51 || (0x100 ≤ n && n < 0x120)

/-- ERRQH written: HEAD stored, OVF and XLF cleared where written 1 (R389). -/
def errqhWrite (old v : DWord) : DWord :=
  let w1c : DWord := 0x8000000080000000
  (old &&& 0x7FFFFFFF00000000) ||| (old &&& w1c &&& ~~~v) ||| (v &&& 0x7FFFFFFF)
/-- ERRQB written: SZ 11 to 15 stores 10. -/
def errqbWrite (v : DWord) : DWord :=
  (v &&& ~~~0xFFF) ||| BitVec.ofNat 64 (Nat.min (v.toNat % 16) 10)

/-- Whether a partition holds every course of a pier (R375). -/
def holdsPier (s : State) (k p : Nat) : Bool :=
  let x := getPart s k
  x.courses.getLsbD (2 * p) && x.courses.getLsbD (2 * p + 1)

/-- The ACCSAT bits left as those of a mask are cleared in clock `cyc`: a bit that the array set in the same clock stays set (R84). -/
def clearSat (b : Block) (cyc : Nat) (m : BitVec 48) : BitVec 48 :=
  b.accSat &&& ~~~(m &&& ~~~(if b.satAt = cyc + 1 then b.satNew else 0))

/-- Writes a CSR field by field (R4, R189): read-only registers ignore the write. -/
def csrWrite (s : State) (b : Block) (w : Warp) (n : Nat) (v : DWord) : State :=
  let put := fun (x : Warp) => setWarp s b.uid x
  match n with
  | 0x001 => put { w with lmode := v.setWidth 5 }
  | 0x002 => put { w with partn := v.setWidth 3 }
  | 0x003 => put { w with fflags := v.setWidth 5 }
  | 0x010 => put { w with tvec := v }
  | 0x011 => put { w with tframe := v }
  | 0x013 => put { w with restarts := v.setWidth 8 }
  | 0x014 => put { w with rlimit := v.setWidth 8 }
  | 0x021 => put { w with wtimCmp := v, wtimArmed := w.wtim < v.toNat }
  | 0x045 => modBlock (put w) b.uid fun x => { x with accSat := clearSat x (getCore s (coreNo b)).cyc (v.setWidth 48) }
  | 0x050 => setCtx (put w) { getCtx s b.part b.pasid with errqb := errqbWrite v }
  | 0x051 => let x := getCtx s b.part b.pasid; setCtx (put w) { x with errqh := errqhWrite x.errqh v }
  | _ =>
    if 0x100 ≤ n ∧ n < 0x120 ∧ holdsPier s b.part (pierOf (coreNo b)) then
      modPier (put w) (pierOf (coreNo b)) fun p => { p with vra := p.vra.set 1000 (n % 32) (Nat.min (v.toNat % 1024) 1000) }
    else put w

/-- R189, R190. -/
def execCsrr (d : SReg) (n : BitVec 12) (s : State) : Host.Outcome State Fault Refusal :=
  onWarp s fun b w =>
    let k := n.toNat
    if !csrExists n then trapS s b w .illegal 8 0
    else if (k = 1 ∨ k = 2 ∨ k = 3) ∧ ¬ lSettled s b w (k = 3) then waitS s b w .retry
    else
      let v := csrVal s b w k
      let s := if k = 0x22 then { s with gmark := gtimeRead s, fresh := s.fresh + 1 } else s
      sResult s b w d v 2

def execCsrw (n : BitVec 12) (a : SReg) (s : State) : Host.Outcome State Fault Refusal :=
  onWarp s fun b w =>
    let k := n.toNat
    let v := sreg w a
    if !csrExists n then trapS s b w .illegal 8 0
    else if csrSup k ∧ ¬ w.handler then trapS s b w .perm 6 0
    else if k = 2 ∧ (v.toNat % 8 = 0 ∨ v.toNat % 8 = 7) then trapS s b w .illegal 2 0
    else if (k = 1 ∨ k = 2 ∨ k = 3) ∧ ¬ lSettled s b w (k = 3) then waitS s b w .retry
    else csrWrite s b (advance w) k v

end Sys2Proof.Machine
end

