-- ==== Sys2Proof/Machine/Errors.lean ====
section
/-! DEFINITION. Error records, the unwind of a containment region, and what the report of a consumption does (R312, R389 to
R398). -/

namespace Sys2Proof.Machine

/-- The fields of an error record (R391); `place` is PIER, COURSE, CORE and WARP, 0xFF where none applies. -/
structure Rec where
  type : Nat
  sev : Nat
  unit : Nat
  place : Nat × Nat × Nat × Nat := (0xFF, 0xFF, 0xFF, 0xFF)
  pasid : Nat
  pa : DWord := 0
  va : DWord := 0
  spc : DWord := 0
  skid : Nat := 0
  depth : Nat := 0
  count : Nat := 0
  synd : DWord := 0

/-- The place of a core and a warp. -/
def onCore (c w : Nat) : Nat × Nat × Nat × Nat := (pierOf c, courseOf c, c, w)
/-- The 64 bytes of a record (R391). -/
def recBytes (gtime : Nat) (r : Rec) : List Byte :=
  let pl := [r.place.1, r.place.2.1, r.place.2.2.1, r.place.2.2.2]
  leBytes 1 r.type ++ leBytes 1 r.sev ++ leBytes 2 r.unit ++ (pl.map fun x => BitVec.ofNat 8 x) ++ leBytes 8 (r.pasid % 2 ^ 20)
  ++ leBytes 8 r.pa.toNat ++ leBytes 8 r.va.toNat ++ leBytes 4 r.spc.toNat ++ leBytes 4 r.skid
  ++ leBytes 8 (r.depth % 16 + r.count % 2 ^ 24 * 256) ++ leBytes 8 gtime ++ leBytes 8 r.synd.toNat

/-- The management error log: the newest 1024 records (R409). -/
def logRec (s : State) (bs : List Byte) : State :=
  modDev s fun d => { d with log := d.log.set [] (d.logCnt % 1024) bs, logCnt := d.logCnt + 1 }

/-- Records in a context's error queue, and its fields (R389). -/
def eqSize (q : DWord) : Nat := 2 ^ (q.toNat % 16 + 6)
def eqBase (q : DWord) : Nat := q.toNat / 4096 * 4096
def eqTail (h : DWord) : Nat := fld h.toNat 32 31
def eqHead (h : DWord) : Nat := fld h.toNat 0 31
def eqFull (q h : DWord) : Bool := eqBase q == 0 || (eqTail h + 2 ^ 31 - eqHead h) % 2 ^ 31 == eqSize q

/-- Whether the host has refused a page to an asker (R390, R428). -/
def refusedPage (l : List (Nat × Nat)) (pasid va : Nat) : Bool := l.contains (pasid, va / 4096)

/-- The refusal has been answered for. -/
def forgetPage (s : State) (c pasid va : Nat) : State :=
  modCore s c fun x => { x with noPage := x.noPage.filter fun e => e != (pasid, va / 4096) }

/-- Writes a record for a context: a full or disabled queue sets OVF, a refused page XLF, and the management log keeps every
record (R390). `none` while the translation is awaited. `c` is the core whose translations serve the write. -/
def putRecord (s : State) (c k : Nat) (r : Rec) : Option State :=
  let x := getCtx s k r.pasid
  let bs := recBytes s.gtime r
  let logged := logRec s bs
  if eqFull x.errqb x.errqh then some (setCtx logged { x with errqh := x.errqh ||| (1#64 <<< 63) })
  else
    let a := eqBase x.errqb + 64 * (eqTail x.errqh % eqSize x.errqb)
    let refused := fun (s : State) => setCtx (forgetPage s c r.pasid a) { x with errqh := x.errqh ||| 0x80000000 }
    match devXlat s c k r.pasid (BitVec.ofNat 64 a) true with
    | none => some (refused logged)
    | some (.at_ l) => some (setCtx (devWrite logged (some c) l bs)
        { x with errqh := (x.errqh &&& ~~~0x7FFFFFFF00000000#64) ||| (BitVec.ofNat 64 ((eqTail x.errqh + 1) % 2 ^ 31) <<< 32) })
    | some _ => if refusedPage (getCore s c).noPage r.pasid a then some (refused logged) else none

/-- A record about a warp (R391). -/
def warpRec (b : Block) (w : Warp) (type sev unit : Nat) (pa va : DWord) (skid depth count : Nat) (synd : DWord) : Rec :=
  { type := type, sev := sev, unit := unit, place := onCore (coreNo b) w.idx, pasid := b.pasid, pa := pa, va := va, spc := w.spc,
    skid := skid, depth := depth, count := count, synd := synd }

/-- Step 1 of R312, shared with a restart (R315): the queues are emptied and the splits become one at LNEXT, which waits for nothing
else. Instructions already issued complete: a request not yet finished goes on without a split. One that trapped and has not issued again
is discarded as R249 gives. -/
def resetStreams (s : State) (b : Block) (w : Warp) : State × Warp :=
  let p := (w.reqs.filter fun r => r.trapped || r.again).foldl (fun (p : State × Warp) r => discardReq p.1 b p.2 r)
    (leaveOrders s (coreNo b) b.uid w.idx fun _ => true, w)
  (p.1, { oneSplit p.2 with qs := SMap.empty, bq := [], bqBad := [], reqs := p.2.reqs.map fun r => { r with split := 4 } })

/-- The open region of a depth and count. -/
def regionAt (w : Warp) (depth count : Nat) : Option Region :=
  if depth = 0 ∨ w.regions.length < depth then none
  else (w.regions[w.regions.length - depth]?).filter fun r => r.count == count

/-- THE UNWIND of a region (R312). -/
def unwind (s : State) (b : Block) (w : Warp) (depth : Nat) (r : Region) : State :=
  let p := resetStreams (abandonWait s b w) b w
  let w := { p.2 with regions := p.2.regions.drop (p.2.regions.length - depth + 1), restartPt := none, unwindHeld := none }
  setWarp p.1 b.uid { setS w 1 (BitVec.ofNat 64 depth) with spc := r.handler, swait := .run }

/-- What a detected consumption does to its warp (R394): the unwind of its region, or a POISON trap; in handler mode, and while an
S-instruction that has issued is still to complete, either is held; a region already closed causes nothing. -/
def afterReport (s : State) (b : Block) (w : Warp) (x : Consumption) : State :=
  if x.depth = 0 then takeTrap s b w { cause := .poison, subc := x.subc, asyn := true, faddr := x.va }
  else match regionAt w x.depth x.regionCount with
    | none => setWarp s b.uid w
    | some r =>
      if w.handler ∨ w.pending.isSome ∨ w.infill ∨ asking w ∨ w.held.any (·.cause == .poison) then
        let h := match w.unwindHeld with | some h => if h.1 ≤ x.depth then h else (x.depth, x.regionCount) | none => (x.depth, x.regionCount)
        setWarp s b.uid { w with unwindHeld := some h }
      else unwind s b w x.depth r

/-- The records of consumptions of a warp, oldest first; none while one waits for its translation (R390). -/
def reportRecords (s : State) (b : Block) (w : Warp) (xs : List Consumption) : Option State :=
  xs.foldl (fun (o : Option State) x => o.bind fun s =>
    putRecord s (coreNo b) b.part (warpRec b w 1 (if x.depth = 0 then 3 else 2) x.unit x.pa x.va x.skid x.depth x.regionCount
      (Config.syndrome s.dev.logCnt))) (some s)
/-- Inserts a consumption by its depth. -/
def byDepth (x : Consumption) : List Consumption → List Consumption
  | [] => [x]
  | y :: t => if x.depth < y.depth then x :: y :: t else y :: byDepth x t
/-- What the consumptions detected in one cycle do, in a state that holds their records: a POISON trap goes before any unwind, and the
outermost region's unwind closes the others (R394). -/
def reportEffects (s : State) (bu : Nat) (w : Warp) (xs : List Consumption) : State :=
  (xs.foldl (fun l x => byDepth x l) []).foldl (fun s x => match getBlock s bu, getWarp s bu w.idx with
    | some b, some w => afterReport s b w x
    | _, _ => s) (setWarp s bu w)

/-- The oldest outstanding consumptions of a warp report in one cycle, the oldest and any number of those after it: the records
first, then their effects (R390, R394). -/
def reportCons (s : State) (b : Block) (w : Warp) : State :=
  match w.cons with
  | [] => s
  | x :: t =>
    let more := t.take ((Config.freeWord s.fresh).toNat % (t.length + 1))
    match reportRecords (if t.isEmpty then s else { s with fresh := s.fresh + 1 }) b w (x :: more) with
    | none => s
    | some s => reportEffects s b.uid { w with cons := t.drop more.length } (x :: more)

/-- A record of keystone for a context: the management log keeps it, and it waits to be written (R390). -/
def ctxRecord (s : State) (k pasid : Nat) (r : Rec) : State :=
  let bs := recBytes s.gtime r
  let x := getCtx s k pasid
  setCtx (logRec s bs) { x with due := x.due ++ [bs] }
/-- The contexts of some blocks, each once. -/
def ctxsOf (bs : List Block) : List (Nat × Nat) := (bs.map fun b => (b.part, b.pasid)).eraseDups

/-! ### Masters (R403) -/

def masterFrozen (s : State) (m : Master) : Bool := s.dev.frozen.contains m
def masterNo : Master → Nat
  | .core c => c
  | .copyEngine c => 32 + c
  | .hostFn k => 64 + k
  | .infill p => 80 + p
def masterPlace : Master → Nat × Nat × Nat × Nat
  | .core c | .copyEngine c => onCore c 0xFF
  | .infill p => (p, 0xFF, 0xFF, 0xFF)
  | .hostFn _ => (0xFF, 0xFF, 0xFF, 0xFF)
/-- A master is frozen: the violating access is not performed, and it issues nothing more; a frozen core is a fatal fault of
each resident block. -/
def freezeMaster (s : State) (m : Master) (pa : Nat) : State :=
  if masterFrozen s m then s else
  let s := modDev s fun d => { d with frozen := m :: d.frozen }
  let r : Rec := { type := 7, sev := 3, unit := (match m with | .core _ => 13 | .copyEngine _ => 14 | m => (Config.masterUnit (masterNo m)).toNat),
                   place := masterPlace m, pasid := 0, pa := BitVec.ofNat 64 pa,
                   synd := Config.masterCode (masterNo m) }
  match m with
  | .core c =>
    let bs := (blocksOn s c).filter fun b => !b.exited
    let s := (ctxsOf bs).foldl (fun s e => ctxRecord s e.1 e.2 { r with pasid := e.2 }) s
    let s := if bs.isEmpty then logRec s (recBytes s.gtime r) else s
    bs.foldl (fun s b => fatalFault s b.uid) s
  | _ => logRec s (recBytes s.gtime r)
/-- CONSUMPTION_REPORT. -/
def execConsumptionReport (bu wi : Nat) (s : State) : Host.Outcome State Fault Refusal :=
  .next (match getBlock s bu, getWarp s bu wi with
  | some b, some w => if b.core.isNone then s else reportCons s b w
  | _, _ => s)

end Sys2Proof.Machine
end

