-- ==== Sys2Proof/Machine/System.lean ====
section
/-! DEFINITION. The sys group, trap, containment regions, K registers, chk and restart (R31, R300 to R316). -/

namespace Sys2Proof.Machine

/-- R308. -/
def execSysNop (s : State) : Host.Outcome State Fault Refusal := onWarp s fun b w => setWarp s b.uid (advance w)

/-- Whether every L-instruction the warp has issued has completed, stores included (R31, R314). -/
def lAllDone (s : State) (b : Block) (w : Warp) : Bool :=
  lDone s b w && w.stq.all fun e => e.2 || w.sst.contains e.1 || stands w e.1

/-! ### Exit (R31, R52) -/

/-- Whether a warp has a matrix command in the engine numbered at or above `n`. -/
def cmdsSince (s : State) (b : Block) (w : Warp) (n : Nat) : Bool :=
  (getCore s (coreNo b)).cmds.any fun m => m.block == b.uid && m.warp == w.idx && n ≤ m.id
/-- What a region covers has completed and reported (R311): loads, atomics, copies, matrix commands, L-instructions. -/
def regionDone (s : State) (b : Block) (w : Warp) (r : Region) (depth : Nat) : Bool :=
  let old := fun (c : Counter) => c.all fun e => e.2 || e.1 < r.since
  old w.ldq && old w.cpq && !cmdsSince s b w r.since
  && !((getCore s (coreNo b)).flight.any fun t => mine b w t && r.since ≤ t.id)
  && w.sfu.all (fun e => e.id < r.since) && w.reqs.all (fun q => q.id < r.since) && w.sload.all (fun e => e.1 < r.since)
  && w.stq.all (fun e => e.2 || e.1 < r.since || w.sst.contains e.1) && w.cons.all fun x => x.depth < depth

/-- A block's charges leave CHG (R329). -/
def uncharge (s : State) (b : Block) (c : Nat) : State :=
  modBlock (modPier s (pierOf c) fun p => { p with chg := b.chg.foldl (fun m e => m.set 0 e.1 (m.get 0 e.1 - e.2)) p.chg }) b.uid
    fun x => { x with chg := [] }

/-- Releases what a block held when its last warp exits: its banker rows, and those taken before they were readable, whose writes have
landed now that every warp has ended; its parked drains are discarded; it counts as exited, and as triggered (R52, R295, R334). -/
def exitBlock (s : State) (b : Block) : State :=
  let rows := b.banker.cells.filterMap fun e => e.2.map fun k => k.row
  let s := modCore s (coreNo b) fun x =>
    { b.takes.foldl (fun x e => unpendRow x e.2.row) (rows.foldl decRow x) with cmds := x.cmds.filter fun m => m.block != b.uid || !m.drain.parked }
  let s := modBlock s b.uid fun y => { y with banker := SMap.empty, bankWait := [], takes := [], exited := true }
  let s := modGridOf s b fun g => { g with exited := g.exited + 1, triggered := if b.triggered then g.triggered else g.triggered + 1 }
  uncharge (disarmSpad s (coreNo b) b.uid) b (coreNo b)

/-- A warp ends: entries and held causes are discarded, its names unmapped, its slots freed (R31, R52, R319, R340). -/
def exitWarp (s : State) (b : Block) (w : Warp) : State :=
  let rows := w.map.cells.filterMap Prod.snd
  let s := modCore s (coreNo b) fun x => rows.foldl decRow x
  let s := match w.poolSlot with
    | some n => modQueue s b.part b.queue fun q => { q with used := q.used.filter fun k => k != n }
    | none => s
  let s := modBlock s b.uid fun y => { y with warps := y.warps.set none w.idx none }
  match getBlock s b.uid with
  | some y => if (liveWarps y).isEmpty then exitBlock s y else s
  | none => s

/-- SYS EXIT waits for the L-stream, for every open region and for the store buffer to drain, then ends the warp. -/
def execSysExit (s : State) : Host.Outcome State Fault Refusal :=
  onUser s fun b w =>
    let regionsDone := w.regions.zipIdx.all fun e => regionDone s b w e.1 (w.regions.length - e.2)
    if lIdle w ∧ lAllDone s b w ∧ w.sb.isEmpty ∧ w.cons.isEmpty ∧ regionsDone
        ∧ ¬ s.ops.any (fun o => o.block == b.uid && o.warp == w.idx)
    then exitWarp s b w else waitS s b w .exit

/-! ### Traps, debugging, time -/

/-- R306. In user mode eret traps PERM, SUBC 8 (R300). A slot at a peer is read by a request, whose refusal is a fatal fault (R417, R428). -/
def execSysEret (s : State) : Host.Outcome State Fault Refusal :=
  onWarp s fun b w =>
    if ¬ w.handler then trapS s b w .perm 8 0
    else match w.swait with
    | .refused _ _ => fatalFault s b.uid
    | .got v p => returnGot s b { w with swait := .run } v p
    | .peer _ => waitS s b w w.swait
    | _ => match devXlat s (coreNo b) b.part b.pasid w.tframe false with
      | none => fatalFault s b.uid
      | some (.at_ l) =>
        if slotWaits s b w l then waitS s b w .retry
        else match l with
        | .peer _ _ => askPeer s b w w.tframe l (.load false false false) 1024 0 0
        | _ => returnFrom s b w l
      | some .weak => waitS s b w (.pri w.tframe.toNat)
      | some .miss => waitS s b w (if w.swait = .pri w.tframe.toNat then .pri w.tframe.toNat else .ats w.tframe.toNat)

/-- R308: a stop of the course in a debug grid, else a nop (R304, R365). -/
def execSysBkpt (s : State) : Host.Outcome State Fault Refusal :=
  onWarp s fun b w =>
    let s := setWarp s b.uid (advance w)
    if b.debug then raiseStop s (coreNo b)
      { src := 2, core := coreNo b, warp := w.idx, own := some (b.uid, w.idx), reason := 2, atOnce := true, noSkid := true }
    else s

/-- R308: Min(S[A], 2^32 - 1) cycles. -/
def execSysPause (a : SReg) (s : State) : Host.Outcome State Fault Refusal :=
  onWarp s fun b w =>
    let cyc := (getCore s (coreNo b)).cyc
    let stop := match w.swait with | .pause t => t | _ => cyc + Nat.min (sreg w a).toNat (2 ^ 32 - 1)
    if stop ≤ cyc then setWarp s b.uid (advance w) else waitS s b w (.pause stop)

/-- R309. -/
def execTrap (code : BitVec 16) (s : State) : Host.Outcome State Fault Refusal :=
  onWarp s fun b w => trapS s b w .soft code.toNat 0

/-! ### Regions and restart points -/

/-- R310. -/
def execCtopen (d : SReg) (o : BitVec 20) (s : State) : Host.Outcome State Fault Refusal :=
  onWarp s fun b w =>
    if 8 ≤ w.regions.length then trapS s b w .illegal 0xB 0
    else
      let r : Region := { handler := sTarget w o, count := w.ctopens + 1, since := s.serial }
      sResult s b { w with regions := r :: w.regions, ctopens := w.ctopens + 1 } d (BitVec.ofNat 64 (w.regions.length + 1)) 1

/-- R311. -/
def execSysCtclose (s : State) : Host.Outcome State Fault Refusal :=
  onWarp s fun b w =>
    match w.regions with
    | [] => trapS s b w .illegal 0xC 0
    | r :: t => if regionDone s b w r w.regions.length then setWarp s b.uid (advance { w with regions := t }) else waitS s b w .retry

def kreg (w : Warp) (k : Nat) : DWord := w.kregs.get 0 k
def setK (w : Warp) (k : Nat) (v : DWord) : Warp := { w with kregs := w.kregs.set 0 k v, badK := w.badK &&& ~~~(1#4 <<< k) }

/-- R314. -/
def execSysIdem (s : State) : Host.Outcome State Fault Refusal :=
  onWarp s fun b w =>
    if lIdle w ∧ lAllDone s b w
    then setWarp s b.uid (advance { w with restartPt := some (w.spc + 4, (List.range 4).map (kreg w)), restarts := 0 })
    else waitS s b w .retry

/-- An S-instruction of a K register waits for the folds in flight (R239). -/
def onK (s : State) (f : Block → Warp → State) : Host.Outcome State Fault Refusal :=
  onWarp s fun b w => if foldFlying (getCore s (coreNo b)) b w then waitS s b w .retry else f b w

/-- R308. -/
def execSysKclr (m : BitVec 4) (s : State) : Host.Outcome State Fault Refusal :=
  onK s fun b w => setWarp s b.uid (advance ((List.range 4).foldl (fun w k => if m.getLsbD k then setK w k 0 else w) w))
/-- R316. -/
def execKmovR (d : SReg) (k : BitVec 2) (s : State) : Host.Outcome State Fault Refusal :=
  onK s fun b w => sResult s b w d (kreg w k.toNat) 1
def execKmovW (k : BitVec 2) (a : SReg) (s : State) : Host.Outcome State Fault Refusal :=
  onK s fun b w => setWarp s b.uid (advance (setK w k.toNat (sreg w a)))

/-- |a − b| ≤ 2^−t · max(|a|, |b|), exactly, for two finite values (R313). -/
def closeTo (a b : DWord) (t : Nat) : Bool :=
  match unpack fmF64 false a.toNat, unpack fmF64 false b.toNat with
  | .fin na ma ea, .fin nb mb eb =>
    let e := if ea ≤ eb then ea else eb
    let x : Int := (if na then -1 else 1) * (ma * 2 ^ (ea - e).toNat : Nat)
    let y : Int := (if nb then -1 else 1) * (mb * 2 ^ (eb - e).toNat : Nat)
    (x - y).natAbs * 2 ^ t ≤ Nat.max x.natAbs y.natAbs
  | _, _ => false

/-- A restart (R315): once the warp's L-instructions and matrix commands have finished, the queues are emptied, K restored,
the record written, and SPC set to the restart point. -/
def restart (s : State) (b : Block) (w : Warp) (ka kb : DWord) : State :=
  match w.restartPt with
  | none => s
  | some (pt, ks) =>
    if ¬ lAllDone s b w ∨ cmdsSince s b w 0 then waitS s b w (.restart ka kb) else
    let r := warpRec b w 2 1 11 ka kb 0 w.regions.length ((w.regions.head?.map fun r => r.count).getD 0) (BitVec.ofNat 64 s.sel.word)
    match putRecord s (coreNo b) b.part r with
    | none => waitS s b w (.restart ka kb)
    | some s =>
      let p := resetStreams s b w
      let w := (ks.zipIdx).foldl (fun w e => setK w e.2 e.1) p.2
      let n := if w.restarts.toNat < 255 then w.restarts + 1 else w.restarts
      setWarp p.1 b.uid { w with restarts := n, spc := pt, swait := .run }

/-- The consumptions of a warp that are detected as a chk fails: the device may detect any number of those outstanding (R396, R427). -/
def detectedAt (s : State) (w : Warp) : List Consumption := w.cons.take ((Config.freeWord s.fresh).toNat % (w.cons.length + 1))

/-- Whether a detected consumption has an effect beyond its record: a POISON trap, or the unwind of a region that is still open (R394). -/
def hasEffect (w : Warp) (x : Consumption) : Bool := x.depth == 0 || (regionAt w x.depth x.regionCount).isSome
/-- A chk that fails without restart writes an SDC record and unwinds, or traps SDC. The effect of a detected consumption of the warp takes the
place of both, and the chk is over: where the effect is held, in handler mode too, the S-stream goes on past it, and it does not restart
(R313, R394, R396; assumption 113). All its records are written before anything else happens (R390). -/
def chkFails (s : State) (b : Block) (w : Warp) (ka kb : DWord) (det : List Consumption) : State :=
  let cnt := (w.regions.head?.map fun r => r.count).getD 0
  let sev := match det with | x :: _ => if x.depth = 0 then 3 else 2 | [] => if w.regions.isEmpty then 3 else 2
  match (reportRecords s b w det).bind fun s =>
      putRecord s (coreNo b) b.part (warpRec b w 3 sev 11 ka kb 0 w.regions.length cnt (BitVec.ofNat 64 s.sel.word)) with
  | none => waitS s b w .retry
  | some s =>
    let w := { w with cons := w.cons.drop det.length }
    if det.any (hasEffect w) then reportEffects s b.uid (advance w) det
    else match w.regions with
    | r :: _ => unwind s b w w.regions.length r
    | [] => trapS s b w .sdc 0 0

/-- R313. -/
def chkWith (s : State) (p : DWord → DWord → Bool) (a c : BitVec 2) : Host.Outcome State Fault Refusal :=
  onK s fun b w =>
    match w.swait with
    | .restart ka kb => restart s b w ka kb
    | _ =>
      let ka := kreg w a.toNat
      let kb := kreg w c.toNat
      if p ka kb then setWarp s b.uid (advance w)
      else
        let det := detectedAt s w
        let s := if w.cons.isEmpty then s else { s with fresh := s.fresh + 1 }
        if det.isEmpty ∧ w.restartPt.isSome ∧ w.restarts.toNat < w.rlimit.toNat then restart s b w ka kb
        else chkFails s b w ka kb det
def execChkEq (a c : BitVec 2) (s : State) : Host.Outcome State Fault Refusal := chkWith s (fun x y => x == y) a c
def execChkRel (a c : BitVec 2) (t : SReg) (s : State) : Host.Outcome State Fault Refusal :=
  chkWith s (fun x y => x == y || closeTo x y t.toNat) a c

end Sys2Proof.Machine
end

