-- ==== Sys2Proof/Machine/Control.lean ====
section
/-! DEFINITION. Control of the L-stream: splits, reconvergence, LNEXT, rep, lpart, retired opcodes, and the events of the
overflow stack and of deadlock (R36 to R43, R134, R212 to R218, R429). -/

namespace Sys2Proof.Machine

/-- R212. -/
def execLnop (f : LF) (s : State) : Host.Outcome State Fault Refusal :=
  onWarp s fun b w => issueL s b w (.lnop f) f false fun s q => issued s q

/-- The selected split waits at an LNEXT or LJOIN, in the order in which it began to wait (R41). -/
def waitAt (s : State) (b : Block) (w : Warp) (p : Split) (why : LWait) : State :=
  if p.wait = why then waitL (setWarp s b.uid w)
  else waitL (bump (setWarp s b.uid (setSplit w s.sel.split { p with wait := why, since := s.serial })))

/-- LNEXT (R36, R42): once every live and stacked split waits at an LNEXT they fuse into one, which pops BQ. -/
def execLnext (f : LF) (s : State) : Host.Outcome State Fault Refusal :=
  onWarp s fun b w =>
    match getSplit w s.sel.split, lfmt (.lnext f) with
    | some p, some _ =>
      let others := (liveSplits w).filter fun e => e.1 != s.sel.split
      if others.any (fun e => e.2.wait != .lnext) || w.stack.any (fun e => e.wait != .lnext) then waitAt s b w p .lnext
      else
        let m := others.foldl (fun m e => m ||| e.2.mask) (w.stack.foldl (fun m e => m ||| e.mask) p.mask)
        let k := others.foldl (fun k e => Nat.min k e.1) s.sel.split
        let one := fun q => { w with splits := SMap.empty.set none k (some q), stack := [] }
        match w.bq with
        | a :: t => setWarp s b.uid { one { lpc := a, mask := m } with bq := t, bqBad := (w.bqBad.filter (0 < ·)).map (· - 1) }
        | [] =>
          let q : Split := { p with mask := m, rpc := none, rep := none, wait := .lnext, since := if p.wait = .lnext then p.since else s.serial }
          waitL (bump (setWarp s b.uid (one q)))
    | _, _ => waitL s

/-- LPC + 12 × a signed 16-bit offset (R213, R214). -/
def lTarget (p : Split) (o : BitVec 16) : DWord := p.lpc + 12 * o.signExtend 64

/-- LBR (R39): the lanes where the guard holds are taken. -/
def execLbr (f : LF) (s : State) : Host.Outcome State Fault Refusal :=
  onWarp s fun b w => issueL s b w (.lbr f) f false fun s q =>
    let k := s.sel.split
    let p := q.p
    let m := p.mask &&& widthMask q.w
    let t := q.act
    let n := m &&& ~~~t
    let j := lTarget p (f.imm.setWidth 16)
    let tgt := lTarget p ((f.imm >>> 16).setWidth 16)
    let here := fun (x : Split) => setWarp s b.uid (setSplit q.w k { x with wait := .run, repStart := 0 })
    if t = 0 then here { p with lpc := p.lpc + 12, rpc := some j }
    else if n = 0 then here { p with lpc := tgt, rpc := some j }
    else match freeSplit q.w with
      | some k' =>
        let w := setSplit q.w k' { lpc := tgt, mask := t, rpc := some j }
        setWarp s b.uid (setSplit w k { p with lpc := p.lpc + 12, mask := n, rpc := some j, wait := .run, repStart := 0 })
      | none =>
        if 16 ≤ q.w.stack.length then trapL s b w .split 0 0 0
        else setWarp s b.uid (setSplit { q.w with stack := { lpc := p.lpc + 12, mask := n, rpc := some j } :: q.w.stack } k
          { p with lpc := tgt, mask := t, rpc := some j, wait := .run, repStart := 0 })

/-- Whether another live or stacked split records a reconvergence address (R40). -/
def recordsRpc (w : Warp) (k : Nat) (a : DWord) : Bool :=
  (liveSplits w).any (fun e => e.1 != k && e.2.rpc == some a) || w.stack.any fun e => e.rpc == some a
/-- The live split that waits at an LJOIN with that reconvergence address. -/
def joinPartner (w : Warp) (k : Nat) (a : DWord) : Option (Nat × Split) :=
  (liveSplits w).find? fun e => e.1 != k && e.2.rpc == some a && e.2.wait == .ljoin && e.2.lpc == a

/-- LJOIN (R40, R214). -/
def execLjoin (f : LF) (s : State) : Host.Outcome State Fault Refusal :=
  onWarp s fun b w => issueL s b w (.ljoin f) f false fun s q =>
    let k := s.sel.split
    let p := q.p
    let outer := if f.imm.getLsbD 16 then none else some (lTarget p (f.imm.setWidth 16))
    let past := fun (x : Split) => { x with lpc := p.lpc + 12, rpc := outer, wait := .run, repStart := 0 }
    if p.rpc ≠ some p.lpc then issued s q
    else match joinPartner q.w k p.lpc with
      | some e => setWarp s b.uid (setSplit (dropSplit (dropSplit q.w k) e.1) (Nat.min k e.1) (past { p with mask := p.mask ||| e.2.mask }))
      | none =>
        if recordsRpc q.w k p.lpc then waitAt s b q.w p .ljoin
        else setWarp s b.uid (setSplit q.w k (past p))

/-- R215. -/
def execLpart (f : LF) (s : State) : Host.Outcome State Fault Refusal :=
  onWarp s fun b w => issueL s b w (.lpart f) f false fun s q =>
    issued s { q with w := { q.w with partn := f.imm.setWidth 3 } }

/-- Whether a word may be the target of a rep: a guarded instruction other than lbr and the retired opcodes (R216). -/
def repTargetOk (x : BitVec 96) : Bool :=
  match readSub (opSubOf x).1 (opSubOf x).2 with
  | none => false
  | some (k, _) =>
    let i := k (rawOf x).lf
    match i with
    | .lbr _ | .retired _ _ _ => false
    | _ => (lfmt i).any fun m => m.guarded

/-- R216, R218: the split begins to repeat the next word, at repetition 0, or at the one an ERET left. -/
def execRep (f : LF) (s : State) : Host.Outcome State Fault Refusal :=
  onWarp s fun b w => issueL s b w (.rep f) f false fun s q =>
    let a := q.p.lpc + 12
    match fetchBytes s b a 12 with
    | .ok bs =>
      if repTargetOk (BitVec.ofNat 96 (ofLeBytes bs)) then
        setWarp s b.uid (setSplit q.w s.sel.split
          { q.p with rep := some { count := f.imm.toNat % 64 + 1, next := q.p.repStart, steps := f.imm.toNat / 64 % 256 }, repStart := 0, wait := .run })
      else trapL s b (if q.p.repStart = 0 then w else setSplit w s.sel.split { q.p with repStart := 0 }) .illegal 1 0 0
    | .layout => trapL s b w .page 1 a 0
    | .refused => trapL s b w .page 0 a 0
    | .hold => splitWaits s b w .retry
    | .wait g pri => splitWaits s b w (.fetch a.toNat g (pri || q.p.wait == .fetch a.toNat g true))

/-- Whether infill emulates a retired opcode of a kernel (R157, R343): a registration holds for its own PASID alone (assumption 109). -/
def infillTakes (s : State) (b : Block) (op : BitVec 4) : Bool :=
  s.dev.registered.any fun r => r.part == b.part && r.pasid == b.pasid && r.kdesc == b.kd.addr && r.opcodes.getLsbD op.toNat

/-- R134: with an active lane the popped operands go into the frame of an EMUL trap. -/
def execRetired (op : BitVec 4) (sub : Byte) (f : LF) (s : State) : Host.Outcome State Fault Refusal :=
  onWarp s fun b w => issueL s b w (.retired op sub f) f false fun s q =>
    if q.act = 0 then issued s q
    else
      let row := fun (s : State) (o : Opnd) =>
        let fv := freeLanes s o.pois o.val
        (laneList fun l => BitVec.ofNat 32 (fv.1 l), fv.2)
      let ra := row s q.va
      let rb := row ra.2 q.vb
      let rc := row rb.2 q.vc
      takeTrap rc.2 b q.w { cause := .emul, stream := true, split := s.sel.split, insn := s.sel.word, mask := q.act, rowA := ra.1,
                            rowB := rb.1, rowC := rc.1, toInfill := infillTakes s b op }

/-! ### The overflow stack (R41) and deadlocks (R37, R43) -/

/-- A stack entry that becomes live: it executes its LJOIN or LNEXT again. -/
def enterSplit (e : StackEnt) : Split := { lpc := e.lpc, mask := e.mask, rpc := e.rpc }

/-- An event about a resident warp. -/
def onWarpEvent (s : State) (bu wi : Nat) (k : Block → Warp → State) : Host.Outcome State Fault Refusal :=
  .next (match getBlock s bu, getWarp s bu wi with
  | some b, some w => if b.core.isNone || b.frozen || b.saving || !b.started then s else k b w
  | _, _ => s)

/-- Whether the splits stay as they are: from a trap until the return from it (R301, R304). -/
def lHeld (w : Warp) : Bool := w.handler || w.infill || w.pending.isSome
def execSplitStackPop (bu wi : Nat) (s : State) : Host.Outcome State Fault Refusal :=
  onWarpEvent s bu wi fun _ w =>
    if lHeld w then s else
    match freeSplit w, w.stack with
    | some k, e :: t => setWarp s bu (setSplit { w with stack := t } k (enterSplit e))
    | _, _ => s

/-- Whether a split stands at an LJOIN or LNEXT where it waits. -/
def atWait (x : LWait) : Bool := x == .ljoin || x == .lnext

/-- The live split that began waiting earliest. -/
def earliest (l : List (Nat × Split)) : Option (Nat × Split) :=
  l.foldl (fun a e => match a with | some x => if e.2.since < x.2.since then some e else a | none => some e) none

def execSplitStackExchange (bu wi : Nat) (s : State) : Host.Outcome State Fault Refusal :=
  onWarpEvent s bu wi fun _ w =>
    let live := liveSplits w
    if lHeld w then s else
    match w.stack, earliest live with
    | e :: t, some (k, p) =>
      if live.all (fun x => atWait x.2.wait) ∧ ¬ (live.all (fun x => x.2.wait == .lnext) ∧ w.stack.all fun x => x.wait == .lnext)
      then setWarp s bu (setSplit { w with stack := t ++ [{ lpc := p.lpc, mask := p.mask, rpc := p.rpc, wait := p.wait }] } k (enterSplit e))
      else s
    | _, _ => s

/-- R37: the S-stream waits on a queue, and every split on a queue that only the S-stream serves, and no stacked entry could still
run (R41). -/
def execQdead (bu wi : Nat) (s : State) : Host.Outcome State Fault Refusal :=
  onWarpEvent s bu wi fun b w =>
    match w.swait with
    | .queue q =>
      let sBlocked := if q = 8 then 16 ≤ w.bq.length else if q < 4 then 16 ≤ (qOf w q).length else (qOf w q).isEmpty
      let lBlocked := (liveSplits w).all fun e => match e.2.wait with
        | .pop k n => (qOf w k).length < n
        | .push k => 16 ≤ (qOf w k).length
        | .lnext => w.bq.isEmpty
        | _ => false
      let stackRuns := w.stack.any (fun e => e.wait != .lnext) ∧ ((freeSplit w).isSome ∨ (liveSplits w).all fun e => e.2.wait == .lnext)
      if sBlocked ∧ lBlocked ∧ ¬ stackRuns ∧ ¬ w.handler ∧ ¬ w.infill ∧ w.pending.isNone ∧ ¬ asking w
      then takeTrap s b { w with swait := .run } { cause := .qdead, subc := q, insn := wordAt s b w.spc 4 } else s
    | _ => s

/-- R43, over the live splits and the stacked entries together: a split at an LJOIN can pass when no other records its
address, or fuse with another that waits there. -/
def someAdvance (es : List (DWord × Option DWord × LWait)) : Bool :=
  es.all (fun e => e.2.2 == .lnext) ||
  es.zipIdx.any fun e =>
    !atWait e.1.2.2 ||
    (e.1.2.2 == .ljoin &&
      (e.1.2.1 != some e.1.1
       || es.zipIdx.any (fun g => g.2 != e.2 && g.1.2.1 == some e.1.1 && g.1.2.2 == .ljoin && g.1.1 == e.1.1)
       || !es.zipIdx.any fun g => g.2 != e.2 && g.1.2.1 == some e.1.1))

def execSplitDeadlock (bu wi : Nat) (s : State) : Host.Outcome State Fault Refusal :=
  onWarpEvent s bu wi fun b w =>
    let live := liveSplits w
    let es := live.map (fun e => (e.2.lpc, e.2.rpc, e.2.wait)) ++ w.stack.map fun e => (e.lpc, e.rpc, e.wait)
    if someAdvance es ∨ w.handler ∨ w.infill ∨ w.pending.isSome ∨ asking w then s
    else match live with
      | e :: _ => takeTrap s b w { cause := .split, subc := 1, stream := true, split := e.1, insn := wordAt s b e.2.lpc 12 }
      | [] => s

end Sys2Proof.Machine
end

