-- ==== Sys2Proof/Machine/LaneMem.lean ====
section
/-! DEFINITION. Lane memory and atomic instructions (R241 to R260): the checks, translation and parking of a request, its
replay record, what it sends and how the split waits for it. -/

namespace Sys2Proof.Machine

/-- The rights an access needs. -/
def needsRead : AccKind → Bool
  | .store => false | _ => true
def needsWrite : AccKind → Bool
  | .load _ _ _ => false | _ => true
/-- The scope of an atomic or red. -/
def scopeOf : AccKind → Option Scope
  | .atomic _ sc _ => some sc
  | _ => none

def findReq (w : Warp) (id : Nat) : Option MemReq := w.reqs.find? fun r => r.id == id
def modReq (s : State) (b w id : Nat) (f : MemReq → MemReq) : State :=
  modWarp s b w fun x => { x with reqs := x.reqs.map fun r => if r.id = id then f r else r }

/-! ### The checks of R245 and R354 -/

/-- The lanes of a request that a predicate picks. -/
def laneSet (ls : List LaneAcc) : DWord := maskOf fun l => ls.any fun a => a.lane == l
/-- An effective address as a 64-bit number. -/
def eaBits (ea : Nat) : DWord := BitVec.ofNat 64 ea
/-- Peer index and offset of a course-peer address (R93). -/
def peerIdx (ea : Nat) : Nat := ea / 2 ^ 22 % 4
def peerOff (ea : Nat) : Nat := ea % 2 ^ 22
/-- The block a peer access reaches: none for an index that names no member. -/
def peerTarget (s : State) (b : Block) (ea : Nat) : Option Block :=
  if b.gang.isSome then peerBlock s b (peerIdx ea) else none
/-- Whether bytes lie outside a block's allocation (R92). -/
def outOf (b : Block) (off n : Nat) : Bool := b.kd.scratch < off + n

/-- The lanes that fail each check of a request, in the order of R245, with its trap; PEERFAIL after them (R354). Address
check 3 follows translation. -/
def laneChecks (s : State) (b : Block) (r : MemReq) : List (Cause × Nat × List LaneAcc) :=
  let bad := fun p => r.todo.filter p
  let align := (Cause.align, 2, bad fun a => a.ea % r.bytes != 0)
  match r.space with
  | .glob => [align, (.page, 1, bad fun a => !addrOk s b.part (eaBits a.ea))]
  | .own => [align, (.perm, 2, bad fun a => outOf b a.ea r.bytes)]
  | .peer => [align,
      (.perm, 2, bad fun a => 2 ^ 24 ≤ a.ea || (peerTarget s b a.ea).any fun t => outOf t (peerOff a.ea) r.bytes),
      (.perm, 3, bad fun a => (peerTarget s b a.ea).isNone),
      (.peerFail, 0, if b.pfail then bad fun a => (peerTarget s b a.ea).any fun t => t.uid != b.uid && t.frozen else [])]
/-- The first check that fails. -/
def firstBad (s : State) (b : Block) (r : MemReq) : Option (Cause × Nat × List LaneAcc) :=
  (laneChecks s b r).find? fun e => !e.2.2.isEmpty

/-- The trap of a request over given failing lanes: the request stays as its replay record, every lane to be checked and
translated anew (R245, R249, R257, R305). -/
def reqTrap (s : State) (b w : Nat) (r : MemReq) (c : Cause) (subc : Nat) (ls : List LaneAcc) : State :=
  let s := modReq s b w r.id fun q => { q with trapped := true, begun := false, parked := false, todo := q.todo.map fun a => { a with st := .new, loc := none } }
  match getBlock s b, getWarp s b w with
  | some x, some y =>
    let peerfail := decide (c = .peerFail)
    takeTrap s x y { cause := c, subc := subc, stream := true, split := r.split, insn := r.word,
                     faddr := if peerfail then 0 else (ls.head?.map fun a => eaBits a.ea).getD 0
                     mask := if peerfail then 0 else laneSet ls }
  | _, _ => s

/-! ### Translation (R246, R90) -/

/-- Translation of one lane with the rights a kind needs: the location and the page that gave it. -/
def xlatLaneIn (t : List Page) (pasid : Nat) (k : AccKind) (ea : DWord) : Xlat × Option Page :=
  let p := findPage t pasid (vaOf ea)
  let rd := if needsRead k then xlat t pasid ea false false else xlat t pasid ea true false
  (match rd with
   | .at_ l => if needsWrite k then (match xlat t pasid ea true false with | .at_ _ => .at_ l | e => e) else .at_ l
   | e => e, p)

/-- One lane against its last-page register, then the core's translations; a lookup by ATS or a page request remains to be
made otherwise (R89, R246, R413). -/
def xlatLane (s : State) (b : Block) (k : AccKind) (w : Warp) (a : LaneAcc) : LaneAcc × Warp :=
  if a.loc.isSome || a.st != .new then (a, w)
  else
    let ea := eaBits a.ea
    match xlatLaneIn (w.lastPage.get none a.lane).toList b.pasid k ea with
    | (.at_ l, _) => ({ a with loc := some (.g l) }, w)
    | _ =>
      match xlatLaneIn (getCore s (coreNo b)).tlb b.pasid k ea with
      | (.at_ l, p) => ({ a with loc := some (.g l) }, if p.isSome then { w with lastPage := w.lastPage.set none a.lane p } else w)
      | (.weak, _) => ({ a with st := if (getPart s b.part).priOff then .bad .perm 0 else .pri }, w)
      | (.miss, _) => ({ a with st := .ats }, w)

/-- Translates the lanes of a request that nothing has decided. -/
def xlatReq (s : State) (b : Block) (w : Warp) (r : MemReq) : State :=
  let t := r.todo.foldl (fun (p : List LaneAcc × Warp) a => let e := xlatLane s b r.kind p.2 a; (p.1 ++ [e.1], e.2)) ([], w)
  modReq (setWarp s b.uid t.2) b.uid w.idx r.id fun q => { q with todo := t.1 }

/-- Check 3 of R245: an atomic of another scope than SYSTEM on host or peer memory. -/
def failsScopeKind (k : AccKind) (a : LaneAcc) : Bool :=
  match scopeOf k, a.loc with
  | some sc, some (.g (.host _)) => sc != .system
  | some sc, some (.g (.peer _ _)) => sc != .system
  | _, _ => false

/-! ### Sending lanes -/

/-- A lane that can be sent. -/
def sendable (a : LaneAcc) : Bool := a.st == .new && a.loc.isSome
/-- The global location of a lane. -/
def gLoc (a : LaneAcc) : GLoc := match a.loc with | some (.g l) => l | _ => .dev 0
def isPeerLoc (a : LaneAcc) : Bool := match a.loc with | some (.g (.peer _ _)) => true | _ => false
def isDevLoc (a : LaneAcc) : Bool := match a.loc with | some (.g (.dev _)) => true | _ => false

/-- Adds lanes to the operation of a request, making it where there is none; each takes the order number of its sending (R99, R415). An
instruction that has consumed poison does not do so again (R258). -/
def addOp (s : State) (b : Block) (w : Warp) (r : MemReq) (ls : List LaneAcc) : State :=
  let ls := ls.map fun a => { a with sent := s.serial }
  if ls.isEmpty then s
  else if s.ops.any (fun o => o.id == r.id) then
    bump { s with ops := s.ops.map fun o => if o.id = r.id then { o with todo := o.todo ++ ls } else o }
  else
    bump { s with ops := s.ops ++ [{ id := r.id, cls := r.cls, block := b.uid, warp := w.idx, core := coreNo b, kind := r.kind,
                                     bytes := r.bytes, todo := ls, dest := r.dest, depth := r.depth, regionCount := r.regionCount,
                                     issuedAt := r.issuedAt, consumed := r.consumed, ord := r.ord, pasid := b.pasid }] }

/-- Takes lanes out of a request. A lane stays as sent whose answer a peer gives with its translation (R417), or whose scope check its
home makes (R257); and of an instruction that was parked every load or atomic lane, until it is performed (R248). -/
def dropLanes (s : State) (b w : Nat) (r : MemReq) (ls : List Nat) : State :=
  let stays := fun (a : LaneAcc) => (isPeerLoc a && r.cls == .ld) || (isDevLoc a && (scopeOf r.kind).isSome) || (r.parked && r.kind != .store)
  modReq s b w r.id fun q => { q with todo := (q.todo.filter fun a => !(ls.contains a.lane && !stays a)).map (
    fun a => if ls.contains a.lane then { a with st := .sent } else a) }

/-- Sends the translated lanes of a load: bytes that the store buffer holds are taken as they are sent (R105, R250). -/
def sendLoads (s : State) (b : Block) (w : Warp) (r : MemReq) : State :=
  let ls := (r.todo.filter fun a => sendable a && !olderReq w r.ord (.g (gLoc a)) r.bytes).map fun a =>
    { a with fwd := forwards w r.ord (gLoc a) r.bytes, bPois := forwardPois w r.ord (gLoc a) r.bytes }
  dropLanes (addOp s b w r ls) b.uid w.idx r (ls.map (·.lane))

/-- Lines in increasing address order. -/
def lineKey (l : GLoc) : Nat × Nat :=
  match l with | .dev a => (0, a / 128) | .host a => (1, a / 128) | .peer d a => (2 + d, a / 128)
def keyLe (a b : Nat × Nat) : Bool := a.1 < b.1 || (a.1 == b.1 && a.2 ≤ b.2)
def insertKey (k : Nat × Nat) : List (Nat × Nat) → List (Nat × Nat)
  | [] => [k]
  | x :: t => if k = x then x :: t else if keyLe k x then k :: x :: t else x :: insertKey k t
def lineKeys (ls : List LaneAcc) : List (Nat × Nat) := ls.foldl (fun ks a => insertKey (lineKey (gLoc a)) ks) []

/-- The bytes of a store lane. -/
def laneBytes (n : Nat) (a : LaneAcc) : List StByte :=
  (leBytes n a.b).zipIdx.map fun e =>
    { loc := gAdd (gLoc a) e.2, vline := vaOf (eaBits a.ea) / 128 * 128 + devidOf (eaBits a.ea) * 2 ^ 57, byte := e.1, pois := a.bPois }

/-- Places the lines of a store in increasing order, each while an entry is free or the youngest takes it; the other lanes
wait (R104, R251). Lanes are written in increasing order, so the higher lane's byte stays. A save takes `all` of them. -/
def sendStores (all : Bool) (s : State) (b : Block) (w : Warp) (r : MemReq) : State :=
  let ls := r.todo.filter sendable
  if ls.any fun a => olderReq w r.ord (.g (gLoc a)) r.bytes then s else
  let step := fun (p : List SbEnt × List Nat × Bool) (k : Nat × Nat) =>
    let mine := ls.filter fun a => lineKey (gLoc a) == k
    match mine with
    | [] => p
    | a :: _ =>
      let merge := sbMerges s b.uid w r.ord (gLoc a)
      if p.2.2 && (all || sbRoom merge p.1 b.pasid (gLoc a))
      then (sbPlace merge p.1 r.id r.ord b.pasid (mine.flatMap (laneBytes r.bytes)), p.2.1 ++ mine.map (·.lane), true)
      else (p.1, p.2.1, false)
  let q := (lineKeys ls).foldl step (w.sb, [], true)
  dropLanes (modWarp s b.uid w.idx fun x => { x with sb := q.1 }) b.uid w.idx r q.2.1

/-- Whether an atomic or red must wait before it is sent: a buffered byte of its line, a drain store of its block on it, an
earlier access of the warp that is still to be sent (R111, R256, R259). -/
def atomWaits (s : State) (b : Block) (w : Warp) (before n : Nat) (l : GLoc) : Bool :=
  sbHolds w before l || drainHolds s b.uid l || olderReq w before (.g l) n

/-- Sends the lanes of an atomic or red, each to be performed at its point of coherence (R254). -/
def sendAtoms (s : State) (b : Block) (w : Warp) (r : MemReq) : State :=
  let ls := r.todo.filter sendable
  if ls.any (fun a => atomWaits s b w r.ord r.bytes (gLoc a)) then s
  else dropLanes (addOp s b w r ls) b.uid w.idx r (ls.map (·.lane))

/-- Sends what can be sent. -/
def sendLanes (s : State) (b : Block) (w : Warp) (r : MemReq) : State :=
  match r.kind with
  | .load _ _ _ => sendLoads s b w r
  | .store => sendStores false s b w r
  | .atomic _ _ _ => sendAtoms s b w r

/-! ### The life of a request -/

/-- The class count of an operation advances, and its rows lose their pending bits, once nothing of it is outstanding
(R56, R107). -/
def settleOp (s : State) (b w id core : Nat) (cls : Cls) (dest : List Nat) : State :=
  match cls with
  | .st => settleStore s b w id
  | _ =>
    if s.ops.any (fun o => o.id == id) || (getWarp s b w).any (fun x => (findReq x id).isSome) then s
    else modWarp (modCore s core fun x => dest.foldl unpendRow x) b w fun x => countDone x cls id

/-- The split of a finished request goes on past it: in handler mode only after the return, which finds it where it was (R301, R306). -/
def reqDone (s : State) (b : Block) (w : Nat) (r : MemReq) : State :=
  let s := modWarp s b.uid w fun x =>
    let x := { x with reqs := x.reqs.filter fun q => q.id != r.id }
    if x.handler || x.infill then x else advanceL x r.split
  settleOp s b.uid w r.id (coreNo b) r.cls r.dest

/-- The split of an unfinished request waits at the instruction (R248, R257). -/
def reqParks (s : State) (b w : Nat) (r : MemReq) : State :=
  modWarp s b w fun x => match getSplit x r.split with
    | some p => setSplit x r.split { p with wait := .park }
    | none => x

/-- Whether every lane left has failed and no other answer is outstanding (R249, R257). -/
def allBad (s : State) (r : MemReq) : Bool :=
  r.todo.all (fun a => match a.st with | .bad _ _ => true | _ => false) && !s.ops.any fun o => o.id == r.id
/-- Whether neither a handler, nor infill, nor a trap that waits for its save slot keeps a warp from a trap of its L-stream (R301). -/
def canTrapL (w : Warp) : Bool := !w.handler && !w.infill && w.pending.isNone
/-- Whether a warp can take a trap of its L-stream now. -/
def mayTrapL (w : Warp) : Bool := canTrapL w && !asking w

/-- What is left of a request after its lanes were sent: it is done, it traps, or it waits. Where its split is gone (R312), no trap is
left to take: the lanes refused are dropped (assumption 75). -/
def reqSettle (s : State) (b w id : Nat) (mayTrap : Bool) : State :=
  match getBlock s b, getWarp s b w with
  | some x, some y => match findReq y id with
    | none => s
    | some r =>
      match r.todo with
      | [] => reqDone s x w r
      | a :: _ => match a.st with
        | .bad c subc =>
          if r.split == 4 && allBad s r then let p := discardReq s x y r; setWarp p.1 b p.2
          else if mayTrap && mayTrapL y && allBad s r then reqTrap (reqParks s b w r) b w r c subc r.todo
                         else reqParks s b w r
        | _ => reqParks s b w r
  | _, _ => s

/-- Translated lanes once no Translation Completion is awaited: check 3 before any lane is performed, or as a failed lane
after a park; then they are sent (R245, R248). Of an instruction whose split is gone, the lanes that fail a check are not performed. -/
def reqSend (s : State) (b w id : Nat) (mayTrap : Bool) : State :=
  match getBlock s b, getWarp s b w with
  | some x, some y => match findReq y id with
    | none => s
    | some r =>
      if r.todo.any (fun a => a.st == .ats) then reqParks s b w r
      else
        let r := { r with again := false, parked := r.parked || r.todo.any fun a => a.st == .pri }
        let bad := r.todo.filter (fun a => sendable a && failsScopeKind r.kind a)
        if !r.begun && !bad.isEmpty && r.split != 4 then (if mayTrap && canTrapL y then reqTrap (reqParks s b w r) b w r .perm 4 bad else reqParks s b w r)
        else
          let r := { r with begun := true, todo := r.todo.map fun a => if sendable a && failsScopeKind r.kind a then { a with st := .bad .perm 4 } else a }
          let s := modReq s b w id fun _ => r
          reqSettle (sendLanes s x y r) b w id mayTrap
  | _, _ => s

def setPfail (s : State) (b : Nat) : State := modBlock s b fun x => { x with pfail := true }
/-- Scratchpad lanes go to their banks at once (R252); a write lane to a peer that has failed sets PFAIL as it is sent (R354). -/
def spadSend (s : State) (b : Block) (w : Warp) (r : MemReq) : State :=
  let at_ := fun (a : LaneAcc) => match r.space with
    | .peer => .spad ((peerTarget s b a.ea).map (·.uid) |>.getD b.uid) (peerOff a.ea)
    | _ => ALoc.spad b.uid a.ea
  let dropped := r.space == .peer && needsWrite r.kind && r.todo.any fun a => (peerTarget s b a.ea).any fun t => t.uid != b.uid && t.frozen
  let s := if dropped then setPfail s b.uid else s
  let s := addOp s b w r (r.todo.map fun a => { a with loc := some (at_ a) })
  let s := modReq s b.uid w.idx r.id fun q => { q with todo := [] }
  reqSettle s b.uid w.idx r.id false

/-- MOVES A REQUEST ON: its checks, its translation, and what can then be sent. Used at issue, at every page event, at each
issue slot of a parked split, and when ERET re-issues it. -/
def reqAdvance (s : State) (b w id : Nat) (mayTrap : Bool) : State :=
  match getBlock s b, getWarp s b w with
  | some x, some y => match findReq y id with
    | none => s
    | some r =>
      if r.trapped then s
      else
      let s := if r.again then modReq s b w id fun q => { q with again := false } else s
      match if r.begun || r.split == 4 then none else firstBad s x r with
      | some (c, subc, ls) => if mayTrap && canTrapL y then reqTrap (reqParks s b w r) b w r c subc ls else reqParks s b w r
      | none => match r.space with
        | .glob => reqSend (xlatReq s x y r) b w id mayTrap
        | _ => spadSend s x y r
  | _, _ => s

/-! ### Issue -/

/-- The effective address of a lane, exact (R243). -/
def memEa (qb : Bool) (sp : Space) (q : LIn) (l : Nat) : Int :=
  let off := q.f.imm.toInt
  match sp with
  | .glob => if qb then ((q.vb.val 0 : Int) + (q.va.val l : Int) + off) % 2 ^ 64 else ((q.va.val l : Int) + off) % 2 ^ 64
  | _ => (q.va.val l : Int) + off
/-- A negative scratchpad address stands as the 64-bit number it is in a frame: it fails every bound. -/
def eaNat (x : Int) : Nat := (x % 2 ^ 64).toNat

/-- One lane's operands: store data, or b and c of an atomic; cas compares VB and writes VC (R127, R241). -/
def laneAcc (qb : Bool) (sp : Space) (k : AccKind) (n : Nat) (q : LIn) (l : Nat) : LaneAcc :=
  let low := fun x => x % 2 ^ (8 * n)
  let a : LaneAcc := { lane := l, ea := eaNat (memEa qb sp q l) }
  match k with
  | .load _ _ _ => a
  | .store => { a with b := low (q.vc.val l), bPois := bitOf q.vc.pois l }
  | .atomic .cas _ _ => { a with b := low (q.vc.val l), c := BitVec.ofNat 64 (low (q.vb.val l)), bPois := bitOf (q.vb.pois ||| q.vc.pois) l }
  | .atomic _ _ _ => { a with b := low (q.vb.val l), bPois := bitOf q.vb.pois l }

/-- Lanes whose translation is decided at once and that must wait at issue (R256). -/
def issueWaits (s : State) (b : Block) (w : Warp) (sp : Space) (k : AccKind) (n : Nat) (ls : List LaneAcc) : Bool :=
  match sp, k with
  | .glob, .atomic _ _ _ => ls.any fun a => match (xlatLane s b k w a).1.loc with
    | some (.g l) => atomWaits s b w s.serial n l
    | _ => false
  | _, _ => false

/-- Destination lanes whose address lane is poisoned: the access is not performed and the lane is written unspecified and
poisoned (R386, R387). -/
def poisonDest (s : State) (c : Nat) (dst : List Nat) (m : DWord) : State :=
  if m = 0 then s
  else dst.foldl (fun s r =>
    let fv := freeLanes s m fun _ => 0
    modCore fv.2 c fun x => modRow x r fun v => writeLanes v m (laneList fun l => BitVec.ofNat 32 (fv.1 l)) m) s

/-- THE ISSUE of a lane memory instruction (R241 to R260). -/
def laneMem (s : State) (i : Instr) (f : LF) (sp : Space) (cls : Cls) (k : AccKind) (n : Nat) (qb : Bool) : Host.Outcome State Fault Refusal :=
  onWarp s fun b w => issueL s b w i f (decide (4095 ≤ countN w cls)) fun s q =>
    let bad := q.act &&& q.va.pois
    let ls := (lanesOf (q.act &&& ~~~bad)).map (laneAcc qb sp k n q)
    let q := { q with w := consume q.w bad 1 }
    if issueWaits s b w sp k n ls then splitWaits s b w .retry
    else if ls.isEmpty then poisonDest (issued s q) (coreNo b) q.dst bad
    else
      let id := s.serial
      let pm := maskOf fun l => ls.any fun a => a.lane == l && a.bPois && needsRead k
      let fv := freeLanes s pm fun _ => 0
      let fc := freeLanes fv.2 pm fun _ => 0
      let s := bump fc.2
      let ls := ls.map fun a => if a.bPois && needsRead k
        then { a with b := fv.1 a.lane % 2 ^ (8 * n), c := BitVec.ofNat 64 (fc.1 a.lane % 2 ^ (8 * n)) } else a
      let r : MemReq := { id := id, word := s.sel.word, split := s.sel.split, space := sp, cls := cls, kind := k, bytes := n, todo := ls,
                          dest := q.dst, counted := true, depth := q.w.regions.length,
                          regionCount := (q.w.regions.head?.map fun g => g.count).getD 0, issuedAt := q.w.issues + 1, clk := q.w.wtim,
                          ord := id, consumed := bad != 0 }
      let s := setWarp s b.uid (countIn { q.w with reqs := q.w.reqs ++ [r] } cls id)
      let s := poisonDest s (coreNo b) q.dst bad
      let s := modCore s (coreNo b) fun x => q.dst.foldl pendRow x
      reqAdvance s b.uid w.idx id true

/-- R250. -/
def execLd (qb : Bool) (h : Hint) (sx : Bool) (wd : MemW) (f : LF) (s : State) : Host.Outcome State Fault Refusal :=
  laneMem s (.ld qb h sx wd f) f .glob .ld (.load sx (h == .ro) (h == .st)) wd.bytes qb
/-- R251. -/
def execSt (qb : Bool) (wd : MemW) (f : LF) (s : State) : Host.Outcome State Fault Refusal :=
  laneMem s (.st qb wd f) f .glob .st .store wd.bytes qb
/-- R252. -/
def execLds (sx : Bool) (wd : MemW) (f : LF) (s : State) : Host.Outcome State Fault Refusal :=
  laneMem s (.lds sx wd f) f .own .ld (.load sx false false) wd.bytes false
def execSts (wd : MemW) (f : LF) (s : State) : Host.Outcome State Fault Refusal :=
  laneMem s (.sts wd f) f .own .st .store wd.bytes false
def execLdx (sx : Bool) (wd : MemW) (f : LF) (s : State) : Host.Outcome State Fault Refusal :=
  laneMem s (.ldx sx wd f) f .peer .ld (.load sx false false) wd.bytes false
def execStx (wd : MemW) (f : LF) (s : State) : Host.Outcome State Fault Refusal :=
  laneMem s (.stx wd f) f .peer .st .store wd.bytes false
/-- R254. -/
def execAtom (op : AtomOp) (wide : Bool) (sc : Scope) (f : LF) (s : State) : Host.Outcome State Fault Refusal :=
  laneMem s (.atom op wide sc f) f .glob .ld (.atomic op sc true) (if wide then 8 else 4) false
def execAtoms (op : AtomOp) (wide : Bool) (sc : Scope) (f : LF) (s : State) : Host.Outcome State Fault Refusal :=
  laneMem s (.atoms op wide sc f) f .own .ld (.atomic op sc true) (if wide then 8 else 4) false
def execAtomx (op : AtomOp) (wide : Bool) (sc : Scope) (f : LF) (s : State) : Host.Outcome State Fault Refusal :=
  laneMem s (.atomx op wide sc f) f .peer .ld (.atomic op sc true) (if wide then 8 else 4) false
def execRed (op : AtomOp) (wide : Bool) (sc : Scope) (f : LF) (s : State) : Host.Outcome State Fault Refusal :=
  laneMem s (.red op wide sc f) f .glob .st (.atomic op sc false) (if wide then 8 else 4) false

end Sys2Proof.Machine
end

