-- ==== Sys2Proof/Machine/Issue.lean ====
section
/-! DEFINITION. Who may issue: a warp, a stream, a split (R246, R248, R303, R333, R338, R346, R347, R364, R383, R393, R403); the L slots
and lanes of a clock (R11, R57); the age and the round robin of R331. -/

namespace Sys2Proof.Machine

/-! ### Who may issue -/

/-- Whether a warp has 256 issues after an access that may still consume poison, which it then waits for, so that the skid of a consumption
stays within 256: a load or atomic that is sent, or translated and waiting to be sent; a drain whose accumulator holds poison (R393,
assumption 86). -/
def skidFull (s : State) (b : Block) (w : Warp) : Bool :=
  let old := fun (n : Nat) => n + 256 ≤ w.issues
  s.ops.any (fun o => o.block == b.uid && o.warp == w.idx && needsRead o.kind && !o.consumed && !o.todo.isEmpty && old o.issuedAt)
  || w.reqs.any (fun r => needsRead r.kind && !r.trapped && !r.consumed && old r.issuedAt && r.todo.any fun a => a.st == .new && a.loc.isSome)
  || (getCore s (coreNo b)).cmds.any fun m => m.block == b.uid && m.warp == w.idx && !m.drain.reported && old m.issuedAt && match m.kind with
    | .drain c _ _ _ _ _ => b.accPois.cells.any fun e => e.2 && e.1 / 16384 == c
    | _ => false
/-- Whether a warp may issue at all: resident on a core with power, its block running, not gated, not waiting for infill, and no
consumption 256 issues behind (R333, R346, R347, R383, R393, R403). -/
def mayIssue (s : State) (b : Block) (w : Warp) : Bool :=
  b.core.isSome && !s.dev.tripped && !masterFrozen s (.core (coreNo b)) && !b.frozen && !b.exited && !b.saving && b.started
  && !w.gated && !w.infill && w.cons.all (fun k => k.skid < 256) && !skidFull s b w
/-- Whether a debug stop and a single step let a stream issue (R303, R364, R370). -/
def streamLet (s : State) (b : Block) (w : Warp) (lane : Bool) (k : Nat) : Bool :=
  (!w.dbg.stopped || (stepNames s b w lane k && !(getCourse s (courseOf (coreNo b))).stepIssued))
  && w.sstep.all fun e => e.1 == lane && (e.2 == k || e.2 == k + 4)
/-- Whether a warp has an asynchronous trap to take before it issues anything else (R303, R351). -/
def trapsFirst (w : Warp) : Bool := w.held.any (·.first)
/-- Whether the warp's L-stream is held: a memory instruction of another split has a translation that is not decided, was parked and has
a lane that is not performed, or was refused one (R246, R248, R338). -/
def heldL (w : Warp) (k : Nat) : Bool :=
  w.reqs.any fun r => !r.trapped && r.split != k && r.todo.any fun a => r.parked || match a.st with
    | .ats | .pri => true
    | .sent => isPeerLoc a
    | .bad c _ => c == .page || c == .perm
    | .new => !r.begun && !r.again

/-! ### Slots, ages and the round robin (R331) -/

/-- A free half of a quadrant's FMA lanes. -/
def freeHalf (x : Core) (q : Nat) : Option Nat := [2 * q, 2 * q + 1].find? fun h => x.lHold.get 0 h ≤ x.cyc
/-- Counts an L-instruction that issued against its quadrant's slots and lanes of the clock. -/
def takeSlotL (s : State) (c q clocks : Nat) : State :=
  modCore s c fun x =>
    let x := { x with lUsed := x.lUsed.set 0 q (x.lUsed.get 0 q + 1) }
    match freeHalf x q with
    | some h => if clocks = 0 then x else { x with lHold := x.lHold.set 0 h (x.cyc + clocks) }
    | none => x
/-- One issue of a split in a clock (R57): each live split that holds a lane of the one that issued waits for the next clock, so also
one that it fused into or that it divided off. A word that a breakpoint matched has issued (R363). -/
def usedSplit (s : State) (b : Nat) (old : Warp) (k cyc : Nat) : State :=
  let m := splitLanes old k
  modWarp s b old.idx fun x => (liveSplits x).foldl (fun x e =>
    if e.2.mask &&& m = 0 then x else setSplit x e.1 { e.2 with nextCyc := cyc + 1, passBp := false }) x
/-- A stream of a warp: its block, warp and split, 4 for the S-stream. -/
abbrev Stream := Nat × Nat × Nat
def ageKey (e : Stream) : Nat := (e.1 * 64 + e.2.1) * 8 + e.2.2
/-- Which instruction a stream stands at: its address, and in a split the repetition. -/
def instrAt (s : State) (e : Stream) : Nat :=
  match getWarp s e.1 e.2.1 with
  | some w => if e.2.2 = 4 then w.spc.toNat else ((getSplit w e.2.2).map fun p => p.lpc.toNat * 64 + repcOf p).getD 0
  | none => 0
/-- One more than the clock since which the instruction of a stream can issue. -/
def ageOf (s : State) (c : Nat) (e : Stream) : Nat :=
  let x := getCore s c
  let a := x.ages.get 0 (ageKey e)
  if a = 0 ∨ x.ageAt.get 0 (ageKey e) ≠ instrAt s e then x.cyc + 1 else a
/-- The place of a stream in the round robin: warp index, split index; among equals its block (assumption 92). -/
def rrKey (e : Stream) : Nat × Nat := (e.2.1 * 8 + e.2.2, e.1)
def rrLess (a b : Nat × Nat) : Bool := a.1 < b.1 || (a.1 == b.1 && a.2 < b.2)
/-- Whether `a` comes before `b` in the round robin that starts after the last winner. -/
def rrBefore (last : Option (Nat × Nat)) (a b : Nat × Nat) : Bool :=
  let past := fun x => last.all fun l => rrLess l x
  if past a == past b then rrLess a b else past a
/-- The last winner of a kind of slot of a stream's quadrant. -/
def lastWin (x : Core) (e : Stream) : Option (Nat × Nat) := if e.2.2 = 4 then x.lastS.get none (e.2.1 % 4) else x.lastL.get none (e.2.1 % 4)
/-- Whether a stream `d` goes before `e` for a slot that both want (R331): the oldest age, then round robin. -/
def aheadOf (s : State) (c : Nat) (d e : Stream) : Bool :=
  d != e && (d.2.2 == 4) == (e.2.2 == 4) && d.2.1 % 4 == e.2.1 % 4
  && (ageOf s c d < ageOf s c e || (ageOf s c d == ageOf s c e && rrBefore (lastWin (getCore s c) e) (rrKey d) (rrKey e)))
/-- Whether a stream that could issue as the clock began, and has not since, goes before `e` for its slot. -/
def waitsBehind (s : State) (c : Nat) (e : Stream) : Bool := (getCore s c).ages.keys.any fun k => aheadOf s c (k / 512, k / 8 % 64, k % 8) e
/-- A stream has won a slot. -/
def won (s : State) (c : Nat) (e : Stream) : State :=
  modCore s c fun x =>
    let x := { x with ages := x.ages.set 0 (ageKey e) 0 }
    if e.2.2 = 4 then { x with lastS := x.lastS.set none (e.2.1 % 4) (some (rrKey e)) } else { x with lastL := x.lastL.set none (e.2.1 % 4) (some (rrKey e)) }


end Sys2Proof.Machine
end

