-- ==== Sys2Proof/Machine/MapEdit.lean ====
section
/-! DEFINITION. The map edits, the banker, copy and mapq (R47 to R56, R220 to R229). -/

namespace Sys2Proof.Machine

/-- The number of a V name. -/
def vnum (n : Name) : Nat := n.code

/-- The issue of a map edit (R220): no HAZARD check and no operand; a `.try` predicate written by a far-row instruction is
waited for. The predicate of `.try` covers every lane of the warp's width. -/
def editL (s : State) (b : Block) (w : Warp) (f : LF) (try_ : Bool) (k : LIn → State) : State :=
  match getSplit w s.sel.split with
  | none => waitL s
  | some p =>
    let x := getCore s (coreNo b)
    if try_ && interlocked b x w [] [f.pd.toNat] then splitWaits s b w .retry
    else k { b := b, w := w, p := p, x := x, f := f, act := widthMask w, va := {}, vb := {}, vc := {}, dst := [], far := false }

/-- The predicate of a `.try` form, true or false in every lane of the width (R222, R226). -/
def tryPred (s : State) (q : LIn) (v : Bool) : State :=
  flyPred (issued s q) q 4 (if v then BitVec.allOnes 64 else 0) 0

/-- Maps a name to a row, dropping the row it held (R49). -/
def remap (x : Core) (w : Warp) (n r : Nat) : Core × Warp :=
  (match mapOf w n with | some o => decRow x o | none => x, setMap w n (some r))

/-! ### acq and rel (R50, R222, R223) -/

/-- Whether an entry of the acq queue still waits. -/
def acqLive (s : State) (c : Nat) (e : AcqWait) : Bool :=
  match getBlock s e.block, getWarp s e.block e.warp with
  | some b, some w => b.core == some c && !b.frozen && (getSplit w e.split).any fun p => p.wait == .acq
  | _, _ => false
/-- The waiting entries of a quadrant, oldest first. -/
def acqQueue (s : State) (c q : Nat) : List AcqWait := (getCore s c).acqWait.filter fun e => e.quad == q && acqLive s c e
/-- A fresh row is pending until it reads zero, after a time that is free (R56, R222, R427; assumption 94). -/
def freshFlight (s : State) (b : Block) (w : Warp) (cyc k r : Nat) : Flight :=
  { id := s.serial + k, due := cyc + 1 + (Config.freeWord (s.fresh + 1 + k)).toNat, block := b.uid, warp := w.idx, lpc := 0, tgt := .row r,
    mask := 0, pend := true }
/-- Takes `n` fresh rows for the names from `base` on; which free rows is the device's choice, from a free value (R222): the next
free ones from a free start, none of them a row that the range itself drops (assumption 106). Those that an acq takes are pending at first
(R56). -/
def takeRows (acq : Bool) (s : State) (b : Block) (w : Warp) (base n : Nat) : State × Warp :=
  let c := coreNo b
  let x := getCore s c
  let start := (Config.freeWord s.fresh).toNat
  let rs := pickRows x (quadOf w) start 2048 n
  let r := (rs.zipIdx).foldl (fun (a : Core × Warp) e => let d := remap a.1 a.2 (base + e.2) e.1
    (if acq then { pendRow (freshRow d.1 e.1) e.1 with flight := d.1.flight ++ [freshFlight s b w x.cyc e.2 e.1] } else freshRow d.1 e.1, d.2)) (x, w)
  ({ setCore s c r.1 with fresh := s.fresh + 1 + n, serial := s.serial + n }, r.2)

def execAcqWait (f : LF) (s : State) : Host.Outcome State Fault Refusal :=
  onWarp s fun b w => editL s b w f false fun q =>
    let c := coreNo b
    let n := f.imm.toNat
    let me : AcqWait := { quad := quadOf w, block := b.uid, warp := w.idx, split := s.sel.split, base := vnum f.vd, count := n }
    let ahead := (acqQueue s c (quadOf w)).takeWhile fun e => e != me
    if ahead.isEmpty ∧ n ≤ freeRows q.x (quadOf w) then
      let t := takeRows true s b w (vnum f.vd) n
      let s := modCore t.1 c fun x => { x with acqWait := x.acqWait.filter fun e => e != me }
      issued s { q with w := t.2 }
    else
      let s := modCore s c fun x => if x.acqWait.contains me then x else { x with acqWait := x.acqWait ++ [me] }
      splitWaits s b w .acq

/-- Whether a split may issue now in an L slot of its quadrant, before every candidate that the clock began with (R11, R57, R331). -/
def slotLets (s : State) (c : Nat) (b : Block) (w : Warp) (k : Nat) : Bool :=
  let x := getCore s c
  mayIssue s b w && !w.handler && w.pending.isNone && !trapsFirst w && streamLet s b w true k && !heldL w k
  && x.lUsed.get 0 (quadOf w) < 2 && (getSplit w k).any (fun p => p.nextCyc ≤ x.cyc) && !waitsBehind s c (b.uid, w.idx, k)
/-- ACQ_SERVED: the oldest waiter of a quadrant takes its rows once enough are free, as an issue of its split in an L slot (R50, R240). -/
def execAcqServed (c qd : Nat) (s : State) : Host.Outcome State Fault Refusal :=
  .next (match acqQueue s c qd with
  | [] => s
  | e :: _ =>
    match getBlock s e.block, getWarp s e.block e.warp with
    | some b, some w =>
      if e.count ≤ freeRows (getCore s c) qd ∧ slotLets s c b w e.split then
        let t := takeRows true s b w e.base e.count
        let s := modCore t.1 c fun x => { x with acqWait := x.acqWait.filter fun u => u != e }
        let s := usedSplit (completeIssue s (setWarp s b.uid (advanceL t.2 e.split)) b w true e.split 10) b.uid w e.split (getCore s c).cyc
        won (takeSlotL s c qd 0) c (b.uid, w.idx, e.split)
      else s
    | _, _ => s)

def execAcqTry (f : LF) (s : State) : Host.Outcome State Fault Refusal :=
  onWarp s fun b w => editL s b w f true fun q =>
    let n := f.imm.toNat
    if (acqQueue s (coreNo b) (quadOf w)).isEmpty ∧ n ≤ freeRows q.x (quadOf w) then
      let t := takeRows true s b w (vnum f.vd) n
      tryPred t.1 { q with w := t.2 } true
    else tryPred s q false

/-- Unmaps a name, dropping its count. -/
def unmapName (a : Core × Warp) (n : Nat) : Core × Warp :=
  match mapOf a.2 n with
  | some r => (decRow a.1 r, setMap a.2 n none)
  | none => a

def execRel (f : LF) (s : State) : Host.Outcome State Fault Refusal :=
  onWarp s fun b w => editL s b w f false fun q =>
    let a := ((List.range f.imm.toNat).map fun i => vnum f.vd + i).foldl unmapName (q.x, w)
    issued (setCore s (coreNo b) a.1) { q with w := a.2 }

/-! ### alias, rmov, unmap (R224) -/

def execAliasOp (f : LF) (s : State) : Host.Outcome State Fault Refusal :=
  onWarp s fun b w => editL s b w f false fun q =>
    match mapOf w (vnum f.va) with
    | none => trapL s b w .unmapped (vnum f.va) 0 0
    | some r =>
      if mapOf w (vnum f.vd) = some r then issued s q
      else if 15 ≤ (getRow q.x r).count then trapL s b w .mapLimit (vnum f.vd) 0 0
      else
        let a := remap q.x w (vnum f.vd) r
        issued (setCore s (coreNo b) (incRow a.1 r)) { q with w := a.2 }

def execRmov (f : LF) (s : State) : Host.Outcome State Fault Refusal :=
  onWarp s fun b w => editL s b w f false fun q =>
    match mapOf w (vnum f.va) with
    | none => trapL s b w .unmapped (vnum f.va) 0 0
    | some r =>
      if mapOf w (vnum f.vd) = some r then issued s q
      else
        let a := remap q.x w (vnum f.vd) r
        issued (setCore s (coreNo b) a.1) { q with w := setMap a.2 (vnum f.va) none }

def execUnmap (f : LF) (s : State) : Host.Outcome State Fault Refusal :=
  onWarp s fun b w => editL s b w f false fun q =>
    match mapOf w (vnum f.vd) with
    | none => trapL s b w .unmapped (vnum f.vd) 0 0
    | some _ =>
      let a := unmapName (q.x, w) (vnum f.vd)
      issued (setCore s (coreNo b) a.1) { q with w := a.2 }

/-! ### The banker (R51, R225 to R227) -/

/-- Writes of a warp to a row that have not landed: flights, vsfu results, loads, atomics and replayed requests. -/
def rowWrites (s : State) (x : Core) (b : Block) (w : Warp) (r : Nat) : List Nat :=
  (x.flight.filter fun t => mine b w t && t.tgt == .row r).map (·.id)
  ++ (w.sfu.filter fun e => e.dest == r).map (·.id)
  ++ (s.ops.filter fun o => o.block == b.uid && o.warp == w.idx && o.dest.contains r).map (·.id)
  ++ (w.reqs.filter fun q => q.dest.contains r).map (·.id)
/-- Whether a write numbered `id` of the block is still outstanding. -/
def writeOut (s : State) (b : Block) (id : Nat) : Bool :=
  (getCore s (coreNo b)).flight.any (fun t => t.id == id) || s.ops.any (fun o => o.id == id)
  || (liveWarps b).any fun w => w.sfu.any (fun e => e.id == id) || w.reqs.any fun q => q.id == id
def slotReadable (s : State) (b : Block) (k : BankSlot) : Bool := k.ids.all fun i => !writeOut s b i

/-- Whether an entry of the banker's waiting order still waits. -/
def bankLive (b : Block) (e : Nat × Nat × Nat × Bool) : Bool :=
  (warpOf b e.2.1).any fun w => (getSplit w e.2.2.1).any fun p => p.wait == .bank
/-- The earlier waiters of a kind on a slot. -/
def bankAhead (b : Block) (slot w k : Nat) (give_ : Bool) : List (Nat × Nat × Nat × Bool) :=
  (b.bankWait.filter fun e => e.1 == slot && e.2.2.2 == give_ && bankLive b e).takeWhile fun e => e != (slot, w, k, give_)
/-- The selected split joins a slot's waiting order, or leaves every one. -/
def bankJoin (s : State) (b : Block) (e : Nat × Nat × Nat × Bool) : State :=
  modBlock s b.uid fun y => if y.bankWait.contains e then y
    else { y with bankWait := (y.bankWait.filter fun u => !(u.2.1 == e.2.1 && u.2.2.1 == e.2.2.1)) ++ [e] }
def bankLeave (s : State) (b : Block) (w k : Nat) : State :=
  modBlock s b.uid fun y => { y with bankWait := y.bankWait.filter fun u => !(u.2.1 == w && u.2.2.1 == k) }

/-- A banker operation of the selected warp arrives: in the order of its cycle (R227), else the split tries again in a later clock. -/
def arrives (s : State) (b : Block) (w : Warp) (q : LIn) (k : State → State) : State :=
  if inOrder q.x.bankAt q.x.cyc w then k (modCore s (coreNo b) fun x => { x with bankAt := (x.cyc, arrivalKey w) }) else waitL s

def execGive (f : LF) (s : State) : Host.Outcome State Fault Refusal :=
  onWarp s fun b w => editL s b w f false fun q =>
    let slot := f.imm.toNat
    let k := s.sel.split
    match mapOf w (vnum f.va) with
    | none => trapL s b w .unmapped (vnum f.va) 0 0
    | some r =>
      if (b.banker.get none slot).isSome ∨ ¬ (bankAhead b slot w.idx k true).isEmpty then
        if b.bankWait.contains (slot, w.idx, k, true) then splitWaits s b w .bank
        else arrives s b w q fun s => splitWaits (bankJoin s b (slot, w.idx, k, true)) b w .bank
      else arrives s b w q fun s =>
        let e : BankSlot := { row := r, ids := rowWrites s q.x b w r }
        let s := modBlock (bankLeave s b w.idx k) b.uid fun y => { y with banker := y.banker.set none slot (some e) }
        issued s { q with w := setMap w (vnum f.va) none }

/-- The row of a full slot goes to Vd (R226): pending until the slot is readable. -/
def takeSlot (s : State) (b : Block) (w : Warp) (slot vd : Nat) (e : BankSlot) : State × Warp :=
  let x := getCore s (coreNo b)
  let a := if mapOf w vd = some e.row then (decRow x e.row, w) else remap x w vd e.row
  let ready := slotReadable s b e
  let s := setCore s (coreNo b) (if ready then a.1 else pendRow a.1 e.row)
  (modBlock s b.uid fun y => { y with banker := y.banker.set none slot none
                                      takes := if ready then y.takes else y.takes ++ [(slot, e)] }, a.2)

def execTake (f : LF) (s : State) : Host.Outcome State Fault Refusal :=
  onWarp s fun b w => editL s b w f false fun q =>
    let slot := f.imm.toNat
    let k := s.sel.split
    match b.banker.get none slot, (bankAhead b slot w.idx k false).isEmpty with
    | some e, true => arrives s b w q fun s =>
      let t := takeSlot (bankLeave s b w.idx k) b w slot (vnum f.vd) e
      issued t.1 { q with w := t.2 }
    | _, _ =>
      if b.bankWait.contains (slot, w.idx, k, false) then splitWaits s b w .bank
      else arrives s b w q fun s => splitWaits (bankJoin s b (slot, w.idx, k, false)) b w .bank

/-- R226: another warp's waiting take makes it fail; a wait of the warp's own other split does not. -/
def execTakeTry (f : LF) (s : State) : Host.Outcome State Fault Refusal :=
  onWarp s fun b w => editL s b w f true fun q => arrives s b w q fun s =>
    let slot := f.imm.toNat
    match b.banker.get none slot, (b.bankWait.filter fun e => e.1 == slot && !e.2.2.2 && e.2.1 != w.idx && bankLive b e).isEmpty with
    | some e, true =>
      let t := takeSlot s b w slot (vnum f.vd) e
      tryPred t.1 { q with w := t.2 } true
    | _, _ => tryPred s q false

/-- BANKER_SLOT_READABLE: the giver's writes have landed; a row already taken loses its pending bit (R225, R226). -/
def execBankerSlotReadable (bu slot : Nat) (s : State) : Host.Outcome State Fault Refusal :=
  .next (match getBlock s bu with
  | none => s
  | some b =>
    let ready := b.takes.filter fun e => e.1 == slot && slotReadable s b e.2
    let s := modCore s (coreNo b) fun x => ready.foldl (fun x e => unpendRow x e.2.row) x
    modBlock s bu fun y => { y with takes := y.takes.filter fun e => !ready.contains e
                                    banker := match y.banker.get none slot with
                                      | some k => if slotReadable s b k then y.banker.set none slot (some { k with ids := [] }) else y.banker
                                      | none => y.banker })

/-! ### copy and mapq (R228, R229) -/

def execCopy (f : LF) (s : State) : Host.Outcome State Fault Refusal :=
  onWarp s fun b w => issueL s b w (.copy f) f false fun s q => flyRows (issued s q) q 4 q.va.val q.va.pois 0

/-- The description of a name's row (R229). -/
def mapDesc (x : Core) (w : Warp) (a : Nat) : Nat :=
  if 384 ≤ a then 2 ^ 30
  else match mapOf w a with
    | none => 0
    | some r => 2 ^ 31 + (getRow x r).count % 16 * 2 ^ 24 + (isFar w r).toNat * 2 ^ 23 + r / 2048 * 2 ^ 11 + r % 2048

def execMapq (f : LF) (s : State) : Host.Outcome State Fault Refusal :=
  onWarp s fun b w => issueL s b w (.mapq f) f false fun s q =>
    flyRows (issued s q) q 4 (fun l => mapDesc q.x q.w (q.va.val l)) q.va.pois 0

end Sys2Proof.Machine
end

