-- ==== Sys2Proof/Machine/MemEvents.lean ====
section
/-! DEFINITION. Events of the memory system: stores leaving and being acknowledged, responses, translations, page responses,
invalidations, refusals by peers, and results of far rows (R54, R56, R89 to R91, R100, R105, R248, R413, R417). -/

namespace Sys2Proof.Machine

/-! ### Responses -/

def findOp (s : State) (id : Nat) : Option Op := s.ops.find? fun o => o.id == id
def modOp (s : State) (id : Nat) (f : Op → Op) : State := { s with ops := s.ops.map fun o => if o.id = id then f o else o }

/-- Whether a lane of an operation can be performed now (R99, R111, R119, R259, R415). -/
def laneFree (s : State) (o : Op) (a : LaneAcc) : Bool :=
  a.loc.any fun l => !olderOp s o.block o.warp o.ord l o.bytes &&
    match l with
    | .spad _ _ => true
    | .g x => !held s x && match o.kind with
      | .load _ _ _ => !drainHolds s o.block x && (a.fwd.all Option.isSome || (spanLines x o.bytes).all fun y => !readWaits s o.core a.sent y)
      | _ => !pathBusy s o.core a.sent x

/-- What a lane's access is performed on as one: the location of an atomic, else a line, or a granule of a scratchpad (R247, R252,
R255). -/
def groupOf (k : AccKind) (n : Nat) (l : ALoc) : Nat × Nat × Nat :=
  match k, l with
  | .atomic _ _ _, .g l => (2, (lineKey l).1, gAddr l / n)
  | .atomic _ _ _, .spad b off => (3, b, off / n)
  | _, .g l => (0, (lineKey l).1, (lineKey l).2)
  | _, .spad b off => (1, b, off / 64)
def addGroup (k : AccKind) (n : Nat) (gs : List (Nat × Nat × Nat)) (a : LaneAcc) : List (Nat × Nat × Nat) :=
  match a.loc with
  | some l => if gs.contains (groupOf k n l) then gs else gs ++ [groupOf k n l]
  | none => gs
/-- The lanes that one response performs: those of one line, granule or location, and which one comes first is free. Of atomics on
host or peer memory it is the lowest lane alone: other accesses may fall between them (R255, R418). -/
def pickGroup (s : State) (k : AccKind) (n : Nat) (ls : List LaneAcc) : List LaneAcc :=
  let gs := ls.foldl (addGroup k n) []
  match gs[(Config.freeWord s.fresh).toNat % gs.length]? with
  | some g =>
    let ms := ls.filter fun a => a.loc.any fun l => groupOf k n l == g
    match ms, k with
    | a :: _, .atomic _ _ _ => if isDevLoc a || (a.loc.any fun l => match l with | .spad _ _ => true | _ => false) then ms else [a]
    | ms, _ => ms
  | none => []

/-- A course-peer access to a member that has failed is not performed and sets PFAIL (R354). -/
def toFailed (s : State) (o : Op) (k : Nat) : Bool := k != o.block && (getBlock s k).any fun x => x.frozen

/-- What performing a lane gives: the value it leaves, old or loaded, whether that is poisoned, the unit and address of poison read; the
SUBC of a scope check that failed; whether the access was made. -/
structure LaneRes where
  s : State
  val : Nat := 0
  pois : Bool := false
  unit : Nat := 0
  pa : Nat := 0
  fail : Option Nat := none
  made : Bool := true

/-- One atomic at device memory: its scope check, then its step; a poisoned location is left as it is, and a poisoned operand poisons what
it writes (R117, R254, R257, R258, R386). -/
def atomDev (s : State) (o : Op) (a : LaneAcc) (op : AtomOp) (sc : Scope) (pa : Nat) : LaneRes :=
  match scopeCheck s o.core pa sc with
  | .error old => { s := s, fail := some (scopeSubc old sc), made := false }
  | .ok s =>
    let s := dropL1Line s o.core (lineNo pa)
    if gPois s (.dev pa) then { s := s, pois := true, unit := homeUnit s pa, pa := pa }
    else
      let r := atomStep s (.dev pa) op o.bytes a.b a.c.toNat
      { s := if a.bPois && (atomNew op (8 * o.bytes) r.1 a.b a.c.toNat).isSome then setPois r.2 (pa / 64) true else r.2, val := r.1 }

/-- Performs one lane of an operation (R105, R250, R252, R254, R258, R354). A load whose poison the store buffer forwards reads it from
the register file that stored it: UNIT 1 (assumption 76). -/
def performLane (s : State) (o : Op) (a : LaneAcc) : LaneRes :=
  match a.loc, o.kind with
  | some (.g l), .load _ ro st =>
    if a.fwd.all Option.isSome && !a.fwd.isEmpty
    then { s := s, val := ofLeBytes (overlay a.fwd (List.replicate o.bytes 0)), pois := a.bPois, unit := 1, pa := gAddr l }
    else
      let u := unitOf s o.core (gAddr l)
      let r := cachedRead s o.core l o.bytes ro st
      { s := r.2.2, val := ofLeBytes (overlay a.fwd r.1), pois := a.bPois || r.2.1, unit := if r.2.1 then u else 1, pa := gAddr l }
  | some (.g (.dev pa)), .atomic op sc _ => atomDev s o a op sc pa
  | some (.g l), .atomic op _ _ => let r := atomStep s l op o.bytes a.b a.c.toNat; { s := r.2, val := r.1 }
  | some (.spad k off), .load _ _ _ => { s := s, val := ofLeBytes (spadRead s k off o.bytes), pois := spadPois s k off, unit := 2 }
  | some (.spad k off), .atomic op _ _ =>
    let old := ofLeBytes (spadRead s k off o.bytes)
    if toFailed s o k then { s := setPfail s o.block, val := old, made := false }
    else if spadPois s k off then { s := s, pois := true, unit := 2 }
    else { s := match atomNew op (8 * o.bytes) old a.b a.c.toNat with
                | some v => spadWrite s k off (leBytes o.bytes v) a.bPois
                | none => s
           val := old }
  | _, _ => { s := s }

/-- The byte of scratchpad offset `i` that a store's lanes write, and whether it is poisoned: the highest lane's (R252). -/
def storedByte (n : Nat) (ls : List LaneAcc) (i : Nat) : Option (Byte × Bool) :=
  ls.reverse.findSome? fun a => match a.loc with
    | some (.spad _ off) => if off ≤ i ∧ i < off + n then some ((leBytes n a.b).getD (i - off) 0, a.bPois) else none
    | _ => none
/-- Stores the lanes that lie in one granule, as one access of its bank: a poisoned byte poisons the granule, clean bytes that cover it
clear it (R252, R386). -/
def storeGranule (s : State) (o : Op) (ls : List LaneAcc) (k g : Nat) : LaneRes :=
  if toFailed s o k then { s := setPfail s o.block, made := false }
  else
    let bs := (List.range 64).map fun i => (64 * g + i, storedByte o.bytes ls (64 * g + i))
    { s := modBlock s k fun x =>
        { x with spad := bs.foldl (fun m e => match e.2 with | some b => Memory.write m e.1 b.1 | none => m) x.spad
                 spadPois := if bs.any fun e => e.2.any (·.2) then x.spadPois.set false g true
                             else if bs.all fun e => e.2.isSome then x.spadPois.set false g false else x.spadPois } }

/-- A loaded value as its group of lanes holds it (R244). -/
def loadedVal (k : AccKind) (n v : Nat) : Nat :=
  match k with
  | .load true _ _ => if n ≤ 2 then ((BitVec.ofNat (8 * n) v).signExtend 32).toNat else v
  | _ => v

/-- Writes result lanes to the destination rows of an operation. -/
def landLanes (s : State) (o : Op) (rs : List (Nat × Nat)) (pois : DWord) : State :=
  let m := maskOf fun l => rs.any fun e => e.1 == l
  let v := fun l => ((rs.find? fun e => e.1 == l).map (·.2)).getD 0
  if m = 0 then s
  else (o.dest.zipIdx).foldl (fun s e => modCore s o.core fun x =>
    modRow x e.1 fun r => writeLanes r m (laneList fun l => BitVec.ofNat 32 (v l / 2 ^ (32 * e.2))) pois) s

/-- An operation's first consumption of poison: one record for the instruction, its skid counted from its issue (R258, R387,
R393). -/
def opConsumes (s : State) (o : Op) (a : LaneAcc) (r : LaneRes) : State :=
  if o.consumed ∨ ¬ r.pois then s
  else modWarp (modReq (modOp s o.id fun x => { x with consumed := true }) o.block o.warp o.id fun q => { q with consumed := true }) o.block o.warp fun w =>
    { w with cons := w.cons ++ [{ depth := o.depth, regionCount := o.regionCount, unit := r.unit, pa := BitVec.ofNat 64 (r.pa / 64 * 64),
                                  va := eaBits a.ea, skid := Nat.min 256 (w.issues - o.issuedAt) }] }

/-- What the lanes performed so far by one response left: the state, the results and their poison, the lanes whose scope check failed,
the lanes whose access was made. -/
structure RespAcc where
  s : State
  res : List (Nat × Nat) := []
  pois : DWord := 0
  fails : List (Nat × Nat) := []
  made : List LaneAcc := []

/-- A free value as wide as a lane group of four (R258). -/
def freeWide (s : State) : Nat × State :=
  ((Config.freeWord s.fresh).toNat + 2 ^ 64 * (Config.freeWord (s.fresh + 1)).toNat, { s with fresh := s.fresh + 2 })

/-- Performs one lane and records its result; a lane that read poison, or whose atomic had a poisoned operand, gets a free value and is
poisoned (R258, R386). -/
def respondLane (p : RespAcc) (id : Nat) (a : LaneAcc) : RespAcc :=
  match findOp p.s id with
  | none => p
  | some o =>
    let r := performLane p.s o a
    let s := modOp (opConsumes r.s o a r) id fun o => { o with todo := o.todo.filter fun x => x.lane != a.lane }
    match r.fail with
    | some subc => { p with s := s, fails := p.fails ++ [(a.lane, subc)] }
    | none =>
      let bad := r.pois || (needsWrite o.kind && a.bPois)
      let f := if bad then freeWide s else (loadedVal o.kind o.bytes r.val, s)
      { s := f.2, res := p.res ++ [(a.lane, f.1)], pois := if bad then p.pois ||| (1#64 <<< a.lane) else p.pois, fails := p.fails,
        made := if r.made then p.made ++ [a] else p.made }
/-- Performs the lanes of one group. -/
def respondGroup (s : State) (o : Op) (ls : List LaneAcc) : RespAcc :=
  match o.kind, ls with
  | .store, a :: _ => match a.loc with
    | some (.spad k off) =>
      let r := storeGranule s o ls k (off / 64)
      { s := modOp r.s o.id fun x => { x with todo := x.todo.filter fun t => !ls.any fun y => y.lane == t.lane }
        res := ls.map fun a => (a.lane, 0), made := if r.made then ls else [] }
    | _ => { s := s }
  | _, _ => ls.foldl (fun p a => respondLane p o.id a) { s := s }

/-- The kind of an access as watchpoints see it (R361). -/
def watchKind : AccKind → Nat
  | .load _ _ _ => 2 | .store => 1 | .atomic _ _ _ => 3

/-- The value of an sld arrives in its register (R160, R170). -/
def sArrives (w : Warp) (id : Nat) (d : Nat) (v : Nat) : Warp :=
  { setS w (BitVec.ofNat 6 d) (BitVec.ofNat 64 v) with sload := w.sload.filter fun e => e.1 != id }
/-- An operation with nothing left is complete: an sld writes its register, another scalar request hands its value to the instruction that
waits for it. -/
def finishOp (s : State) (o : Op) (v : Nat) : State :=
  let s := { s with ops := s.ops.filter fun x => x.id != o.id }
  if o.counted then settleOp s o.block o.warp o.id o.core o.cls o.dest
  else modWarp s o.block o.warp fun w => match o.sdest with
    | some d => sArrives w o.id d v
    | none => if w.swait = .peer o.id then { w with swait := .got v false } else w

/-- The device lines of performed atomics of which an RDC holds a copy: their acknowledgement waits for it to be dropped (R100). -/
def sharedLines (s : State) (o : Op) (ls : List LaneAcc) : List Nat :=
  if (scopeOf o.kind).isNone then [] else ls.filterMap fun a => match a.loc with
    | some (.g (.dev pa)) => if hasSharer s (lineNo pa) then some (lineNo pa) else none
    | _ => none

/-- A lane whose scope check failed. -/
def markFail (fails : List (Nat × Nat)) (a : LaneAcc) : LaneAcc :=
  match fails.find? (fun e => e.1 == a.lane) with
  | some e => { a with st := .bad .scope e.2 }
  | none => a

/-- One response to an operation: the copies that an earlier one left are dropped and its results written; then the lanes of one group
are performed, and their results written, or kept while an RDC holds a copy of what they wrote (R100, R254). -/
def respond (s : State) (o : Op) : State :=
  let ls := pickGroup s o.kind o.bytes (o.todo.filter (laneFree s o))
  if ls.isEmpty ∧ o.result.isEmpty ∧ o.lines.isEmpty ∧ ¬ o.todo.isEmpty then s
  else
    let s := { s with fresh := s.fresh + 1 }
    let s := o.lines.foldl (fun s n => dropL1Line (dropRdcAll s n) o.core n) s
    let s := modOp (landLanes s o o.result o.resPois) o.id fun x => { x with result := [], resPois := 0, lines := [] }
    let r := respondGroup s o ls
    let shared := sharedLines r.s o r.made
    let s := if shared.isEmpty then landLanes r.s o r.res r.pois
      else modOp r.s o.id fun x => { x with result := r.res, resPois := r.pois, lines := shared }
    let s := modReq s o.block o.warp o.id fun q => { q with todo := (q.todo.filter fun a =>
      !(a.st == .sent && r.res.any fun x => x.1 == a.lane)).map (markFail r.fails) }
    let s := match findOp s o.id with
      | some x => if x.todo.isEmpty ∧ x.lines.isEmpty then finishOp s x ((r.res.head?.map (·.2)).getD 0) else s
      | none => s
    let s := reqSettle s o.block o.warp o.id false
    r.made.foldl (fun s a => match a.loc with
      | some l => watch s (some (o.core, o.block, o.warp)) l o.bytes (watchKind o.kind)
      | none => s) s

/-- LOAD_RESPONSE. -/
def execLoadResponse (id : Nat) (s : State) : Host.Outcome State Fault Refusal :=
  .next (match findOp s id with
  | some o => if o.cls = .st then s else respond s o
  | none => s)

/-! ### Stores -/

/-- STORE_BUFFER_LEAVE: the oldest entry leaves, unless an older access of the warp to its line is still to be performed
(R105, R259). Requests of the warp that waited for room or for the entry move on (R104, R256). -/
def entryBlocked (s : State) (b : Nat) (w : Warp) (e : SbEnt) : Bool :=
  olderOp s b w.idx e.ord (.g e.line) 128 || olderReq w e.ord (.g e.line) 128
def execStoreBufferLeave (bu wi : Nat) (s : State) : Host.Outcome State Fault Refusal :=
  .next (match getBlock s bu, getWarp s bu wi with
  | some b, some w =>
    match w.sb with
    | e :: t => if b.core.isNone ∨ entryBlocked s bu w e then s
                else w.reqs.foldl (fun s r => reqAdvance s bu wi r.id false) (sbLeave (setWarp s bu { w with sb := t }) b wi e)
    | [] => s
  | _, _ => s)

/-- A write entry against the watchpoints, as one access (R359). -/
def entHits (d : DbgCore) (n : Nat) (e : SbEnt) : Option Nat :=
  (e.bytes.keys).find? fun o => wpMatch d n (.g (gAdd e.line o)) 1 1
def watchEnt (s : State) (by_ : By) (e : SbEnt) : State :=
  s.cores.cells.foldl (fun s c => (List.range 4).foldl (fun s n =>
    match entHits c.2.dbg n e with
    | some o => wpHitAt s c.1 n 1 by_ (.g (gAdd e.line o))
    | none => s) s) s

/-- A store in transit is acknowledged: its operations settle. -/
def ackTransit (s : State) (t : Transit) : State :=
  let s := { s with transit := s.transit.filter fun u => u.id != t.id }
  if t.copyEng then s else if t.engine then settleBatches s t.block t.warp else t.ent.ids.foldl (fun s i => settleStore s t.block t.warp i) s

/-- Whether an older write of the same sender to the same home is not performed (R99), or an older request to the same line of a peer
(R415). -/
def behind (s : State) (t : Transit) : Bool :=
  match t.ent.line with
  | .peer _ _ => peerAhead s t.ent.line t.id
  | _ => s.transit.any fun u => u.core == t.core && u.id < t.id && u.engine == t.engine && u.copyEng == t.copyEng && !u.performed
    && homeOf u.ent.line == homeOf t.ent.line

/-- A store reaches its point of coherence, and is acknowledged once the RDC copies of its line are gone: at once where there
is none, else at a second event (R99, R100). -/
def stepTransit (s : State) (t : Transit) : State :=
  if t.performed then
    match t.ent.line with
    | .dev pa => ackTransit (dropRdcAll s (lineNo pa)) t
    | _ => ackTransit s t
  else if behind s t || held s t.ent.line then s
  else
    let s := performEnt s t.ent
    let shared := match t.ent.line with | .dev pa => hasSharer s (lineNo pa) | _ => false
    let s := if shared then { s with transit := s.transit.map fun u => if u.id = t.id then { u with performed := true } else u } else ackTransit s t
    watchEnt s (some (t.core, t.block, t.warp)) t.ent

/-- STORE_ACK: for a store in transit, or for the operation of a scratchpad store or red. -/
def execStoreAck (id : Nat) (s : State) : Host.Outcome State Fault Refusal :=
  .next (match s.transit.find? fun t => t.id == id with
  | some t => stepTransit s t
  | none => match findOp s id with
    | some o => if o.cls = .st then respond s o else s
    | none => s)

/-! ### Translations and page responses -/

/-- The partition whose PASIDs include one (R356). -/
def partOfPasid (s : State) (pasid : Nat) : Nat :=
  ((List.range 4).find? fun k => (getPart s k).en && (getPart s k).pbase ≤ pasid && pasid < (getPart s k).pbase + (getPart s k).pcnt).getD 0
/-- Whether two pages of one PASID overlap a range. -/
def overlaps (p : Page) (pasid base size : Nat) : Bool := p.pasid == pasid && p.vbase < base + size && base < p.vbase + p.size
/-- A granted page replaces what overlaps it. -/
def addPage (t : List Page) (p : Page) : List Page := p :: t.filter fun q => !overlaps q p.pasid p.vbase p.size
/-- Whether an address lies in the 4 KiB page of another. -/
def samePage (a va : Nat) : Bool := a / 4096 == va / 4096

/-- The waiters of a core for addresses that `hit` picks: the lanes of requests change as `lane` says, the S-stream as `sw`
says, fetching splits as `fw` says; then every request of those warps moves on. -/
def wakeWarp (hit : Nat → Bool) (lane : LaneAcc → LaneAcc) (sw : SWait → SWait) (fw : LWait → LWait) (w : Warp) : Warp :=
  let ws := ⟨w.splits.cells.map fun e => (e.1, e.2.map fun p => { p with wait := fw p.wait })⟩
  { w with swait := sw w.swait, splits := ws
           reqs := w.reqs.map fun r => { r with todo := r.todo.map fun a => if hit a.ea then lane a else a } }
def onContext (s : State) (c pasid : Nat) (f : Warp → Warp) : State :=
  (blocksOn s c).foldl (fun s b => if b.pasid = pasid
    then modBlock s b.uid fun x => { x with warps := ⟨x.warps.cells.map fun e => (e.1, e.2.map f)⟩ } else s) s
/-- Every request of a core's warps in a context moves on. -/
def advanceAll (s : State) (c pasid : Nat) : State :=
  (blocksOn s c).foldl (fun s b => if b.pasid = pasid
    then (liveWarps b).foldl (fun s w => w.reqs.foldl (fun s r => reqAdvance s b.uid w.idx r.id false) s) s else s) s
/-- Traps that wait for their save slot are entered, once it translates (R428). -/
def enterPending (s : State) (c pasid : Nat) : State :=
  (blocksOn s c).foldl (fun s b => if b.pasid = pasid
    then (liveWarps b).foldl (fun s w => match w.pending with
      | some t => match getBlock s b.uid with
        | some x => enterTrap s x w t
        | none => s
      | none => s) s else s) s

/-- A page arrives: what waited for an address in it is tried again. -/
def pageArrives (s : State) (c : Nat) (p : Page) : State :=
  let hit := fun a => pageHolds p p.pasid (a % 2 ^ 57)
  let kept := fun (l : List (Nat × Nat)) => l.filter fun e => !(e.1 == p.pasid && hit (4096 * e.2))
  let s := modCore s c fun x => { x with tlb := addPage x.tlb p, noPage := kept x.noPage, priWait := kept x.priWait }
  let lane := fun (a : LaneAcc) => if a.st = .ats ∨ a.st = .pri then { a with st := .new } else a
  let sw := fun x => match x with | .ats v => if hit v then .run else x | .pri v => if hit v then .run else x | _ => x
  let fw := fun x => match x with | .fetch _ v _ => if hit (v % 2 ^ 57) then .run else x | _ => x
  let s := onContext s c p.pasid (wakeWarp hit lane sw fw)
  enterPending (advanceAll s c p.pasid) c p.pasid

/-- The pages of a context that the fetches of a core's splits wait for, all or those asked for by a page request (R341). -/
def fetchPages (s : State) (c pasid : Nat) (asked : Bool) : List Nat :=
  (blocksOn s c).flatMap fun b => if b.pasid = pasid then (liveWarps b).flatMap fun w => (liveSplits w).filterMap fun e =>
    match e.2.wait with | .fetch _ v q => if q || !asked then some (v % 2 ^ 57) else none | _ => none
  else []
/-- The save slots of a context's warps that wait for infill, which returns through them (R343). -/
def infillPages (s : State) (c pasid : Nat) : List Nat :=
  (blocksOn s c).flatMap fun b => if b.pasid = pasid then ((liveWarps b).filter fun w => w.infill && devidOf w.tframe == 0).map fun w => vaOf w.tframe else []
/-- The error queue slots of a context, to be written next (R390). -/
def queuePages (s : State) (pasid : Nat) : List Nat :=
  (s.ctxs.filter fun x => x.pasid == pasid).map fun x => eqBase x.errqb + 64 * (eqTail x.errqh % eqSize x.errqb)
/-- Whether something of a core other than lanes and S-instructions waits for a refused page: a fetch, infill's return, or an error
queue slot. -/
def fetchWaits (s : State) (c pasid va : Nat) : Bool :=
  (fetchPages s c pasid false ++ infillPages s c pasid ++ queuePages s pasid).any fun v => samePage v va
/-- A refused page is kept for what will ask for it again. -/
def keepRefusal (s : State) (c pasid va : Nat) : State :=
  if fetchWaits s c pasid va then modCore s c fun x => { x with noPage := (pasid, va / 4096) :: x.noPage } else s
/-- Whether a core has asked the host for a page in order to write it: no translation came, or an insufficient one (R89, R248). -/
def pageAsked (s : State) (c pasid va : Nat) : Bool :=
  (getCore s c).priWait.contains (pasid, va / 4096) || xlat (getCore s c).tlb pasid (BitVec.ofNat 64 (va % 2 ^ 57)) true false == .weak

/-- A trap whose frame cannot be written is a fatal fault (R346, R428). -/
def fatalPending (s : State) (c pasid : Nat) (hit : Nat → Bool) : State :=
  (blocksOn s c).foldl (fun s b =>
    if b.pasid = pasid ∧ (liveWarps b).any (fun w => w.pending.isSome && devidOf w.tframe == 0 && hit (vaOf w.tframe)) then fatalFault s b.uid else s) s

/-- A restored store buffer entry whose page is refused is not sent, nor is any later one of its warp: the warp takes an asynchronous
trap at its first issue, and their stores count as complete then (R351, step 5). -/
def refuseSend (s : State) (bu : Nat) (w : Warp) (perm : Bool) : State :=
  match w.sb with
  | e :: _ =>
    let t : TrapRec := { cause := if perm then .perm else .page, subc := 0x100, asyn := true, faddr := BitVec.ofNat 64 e.vline,
                         first := true, ids := w.sb.flatMap fun x => x.ids }
    setWarp s bu { w with sb := [], held := w.held ++ [t] }
  | [] => s
/-- Whether a line is a peer's. -/
def isPeerLine (l : GLoc) : Bool := match l with | .peer _ _ => true | _ => false
/-- The restoring warps of a context whose next entry lies in a refused page. -/
def refuseResend (s : State) (c pasid : Nat) (hit : Nat → Bool) (perm : Bool) : State :=
  (blocksOn s c).foldl (fun s b => if b.pasid = pasid ∧ b.resend then
    (liveWarps b).foldl (fun s w => if w.sb.head?.any fun e => !isPeerLine e.line && hit e.vline then refuseSend s b.uid w perm else s) s else s) s

/-- No translation exists: what waited for the lookup now needs a page request, or fails where PRI is off (R413). -/
def pageMissing (s : State) (c pasid va : Nat) : State :=
  let hit := fun a => samePage (a % 2 ^ 57) va
  let off := (getPart s (partOfPasid s pasid)).priOff
  let lane := fun (a : LaneAcc) => if a.st = .ats then { a with st := if off then .bad .page 0 else .pri } else a
  let sw := fun x => match x with | .ats v => if hit v then (if off then .refused v false else .pri v) else x | _ => x
  let fw := fun x => match x with | .fetch u v false => if hit v then .fetch u v true else x | _ => x
  let s := if off then refuseResend (fatalPending (keepRefusal s c pasid va) c pasid hit) c pasid hit false
    else modCore s c fun x => { x with priWait := (pasid, va / 4096) :: x.priWait.filter fun e => e != (pasid, va / 4096) }
  advanceAll (onContext s c pasid (wakeWarp hit lane sw fw)) c pasid

/-- The host refuses the pages that `hit` picks, `vs` those of them that are asked for again: lanes fail, a waiting S-instruction and a
fetch will trap, and a trap whose frame cannot be written is a fatal fault (R249, R341, R428). -/
def refusePages (s : State) (c pasid : Nat) (hit : Nat → Bool) (vs : List Nat) (insufficient : Bool) : State :=
  let lane := fun (a : LaneAcc) => if a.st = .pri then { a with st := .bad (if insufficient then .perm else .page) 0 } else a
  let sw := fun x => match x with | .pri v => if hit v then .refused v insufficient else x | _ => x
  let s := refuseResend (vs.foldl (fun s v => keepRefusal s c pasid v) s) c pasid (fun v => hit v && pageAsked s c pasid v) insufficient
  let s := advanceAll (onContext s c pasid (wakeWarp hit lane sw id)) c pasid
  let s := fatalPending s c pasid fun v => hit v && pageAsked s c pasid v
  modCore s c fun x => { x with priWait := x.priWait.filter fun e => !(e.1 == pasid && hit (4096 * e.2)) }
/-- The host answers a page request with Invalid Request. -/
def pageRefused (s : State) (c pasid va : Nat) (insufficient : Bool) : State :=
  refusePages s c pasid (fun a => samePage (a % 2 ^ 57) va) [va] insufficient
/-- A Response Failure refuses every page of a context that is asked for, and none that only waits for a translation (R413). -/
def pagesFail (s : State) (c pasid : Nat) : State :=
  refusePages s c pasid (fun _ => true)
    (fetchPages s c pasid true ++ (infillPages s c pasid ++ queuePages s pasid).filter (pageAsked s c pasid)) false

/-! ### Invalidation (R91) -/

/-- Whether a lane has been translated to device or host memory. -/
def xlated (a : LaneAcc) : Bool := match a.loc with | some (.g (.dev _)) | some (.g (.host _)) => true | _ => false
/-- Whether an access issued under an old translation of a range is outstanding: in a store buffer, on its way, or a lane that is translated
and waits to be sent. -/
def oldAccess (s : State) (pasid base size : Nat) : Bool :=
  let inR := fun v => v < base + size && base < v + 128
  (allBlocks s).any (fun b => (liveWarps b).any fun w => w.sb.any fun e => e.pasid == pasid && inR e.vline)
  || s.transit.any (fun t => t.ent.pasid == pasid && inR t.ent.vline)
  || s.ops.any (fun o => o.pasid == pasid && o.todo.any fun a => xlated a && inR a.ea)
  || (allBlocks s).any fun b => b.pasid == pasid && (liveWarps b).any fun w => w.reqs.any fun r => !r.trapped && r.todo.any fun a =>
      a.st == .new && xlated a && inR a.ea

/-- A watchpoint on global memory is disarmed when an invalidation of its page completes (R360). -/
def disarmPage (s : State) (pasid base size : Nat) : State :=
  s.cores.cells.foldl (fun s e => modCore s e.1 fun x => (List.range 4).foldl (fun x n =>
    if (x.dbg.wpPage.get none n).any fun p => overlaps p pasid base size then
      { x with dbg := { x.dbg with wpC := x.dbg.wpC.set 0 n (wpDisarm (x.dbg.wpC.get 0 n)), wpLoc := x.dbg.wpLoc.set none n none,
                                   wpPage := x.dbg.wpPage.set none n none } }
    else x) x) s

/-- ATS_INVALIDATION: matching translations are cleared; the reply is 1, the Invalidation Completion, once no access issued
under them is outstanding, else 0. -/
def execAtsInvalidation (pasid base size : Nat) (s : State) : Host.Outcome State Fault Refusal :=
  .next (
    let keep := fun (t : List Page) => t.filter fun p => !overlaps p pasid base size
    let s := (allBlocks s).foldl (fun s b => if b.pasid = pasid then modBlock s b.uid fun x =>
      { x with warps := ⟨x.warps.cells.map fun e => (e.1, e.2.map fun w =>
          { w with lastPage := ⟨w.lastPage.cells.filter fun g => !(g.2.any fun p => overlaps p pasid base size)⟩ })⟩ } else s) s
    let s := s.cores.cells.foldl (fun s e => modCore s e.1 fun x => { x with tlb := keep x.tlb }) s
    let s := (List.range 4).foldl (fun s k => modPart s k fun x => { x with dtlb := keep x.dtlb }) s
    if oldAccess s pasid base size then modDev s fun d => { d with reply := [0] }
    else modDev (disarmPage s pasid base size) fun d => { d with reply := [1] })

/-! ### Refusals by peers (R417), far rows (R54) -/

/-- Where an engine's or copy's own write is refused, the warp that issued it traps. -/
def refusedCause (perm : Bool) : Cause := if perm then .perm else .page

/-- A peer refuses an operation: a scalar access, the lanes of one line of a load or atomic, or a red (R417). -/
def refuseOp (s : State) (o : Op) (perm : Bool) : State :=
  let c := refusedCause perm
  match o.todo.filter isPeerLoc with
  | [] => s
  | a :: t =>
    let ls := a :: t.filter fun x => lineOf (gLoc x) == lineOf (gLoc a)
    let gone := fun (x : LaneAcc) => ls.any fun y => y.lane == x.lane
    if ¬ o.counted then
      modWarp { s with ops := s.ops.filter fun x => x.id != o.id } o.block o.warp fun w =>
        if w.swait = .peer o.id then { w with swait := .refused a.ea perm } else w
    else
      let s := modOp s o.id fun x => { x with todo := x.todo.filter fun x => !gone x }
      let s := modReq s o.block o.warp o.id fun q => { q with todo := q.todo.map fun x => if x.st = .sent ∧ gone x then { x with st := .bad c 0 } else x }
      let s := match findOp s o.id with
        | some x => if x.todo.isEmpty ∧ x.result.isEmpty ∧ x.lines.isEmpty then finishOp s x 0 else s
        | none => s
      if o.cls = .st then asyncTrap s o.block o.warp { cause := c, subc := 0x102, faddr := BitVec.ofNat 64 (a.ea / 128 * 128) }
      else reqSettle s o.block o.warp o.id false

/-- FAR_ROW_RESULT: the result of an instruction that touches a far row lands. -/
def execFarRowResult (c id : Nat) (s : State) : Host.Outcome State Fault Refusal :=
  .next (match (getCore s c).flight.find? fun t => t.id == id with
  | some t => if t.far ∧ ¬ foldBlocked (getCore s c) t then landFlight s c t else s
  | none => s)

end Sys2Proof.Machine
end

