-- ==== Sys2Proof/Machine/Copy.lean ====
section
/-! DEFINITION. The copy engine: cpy, its elements, its end and its faults (R177 to R184, R354, R417). -/

namespace Sys2Proof.Machine

/-- A copy descriptor (R178). -/
structure CDesc where
  src : Nat
  dst : Nat
  nx : Nat
  ny : Nat
  nz : Nat
  esize : Nat
  kind : Nat
  flags : Nat
  spy : Nat
  spz : Nat
  dpy : Nat
  dpz : Nat
  gidx : Nat
  prog : Nat
deriving DecidableEq, Repr

def cdesc (bs : List Byte) : CDesc :=
  { src := fieldOf bs 0 8, dst := fieldOf bs 8 8, nx := fieldOf bs 0x10 4, ny := fieldOf bs 0x14 4, nz := fieldOf bs 0x18 4,
    esize := fieldOf bs 0x1C 1, kind := fieldOf bs 0x1D 1, flags := fieldOf bs 0x1E 2, spy := fieldOf bs 0x20 4, spz := fieldOf bs 0x24 4,
    dpy := fieldOf bs 0x28 4, dpz := fieldOf bs 0x2C 4, gidx := fieldOf bs 0x30 8, prog := fieldOf bs 0x38 8 }

/-- The element size in bytes, and the number of elements (R181). -/
def cSize (d : CDesc) : Nat := 2 ^ d.esize
def cCount (d : CDesc) : Nat := d.nx * d.ny * d.nz
/-- F[2:0] of a kind (R180). -/
def copyCode : CopyKind → Nat
  | .g2s => 0 | .s2g => 1 | .g2g => 2 | .s2x => 3 | .gather => 4 | .p2p => 5
/-- Whether the source or destination of a kind is global. -/
def srcGlobal : CopyKind → Bool
  | .g2s | .g2g | .gather | .p2p => true | _ => false
def dstGlobal : CopyKind → Bool
  | .s2g | .g2g | .p2p => true | _ => false

/-- The bytes one side spans, from its base. -/
def cSpan (d : CDesc) (py pz : Nat) : Nat := (d.ny - 1) * py + (d.nz - 1) * pz + (d.nx - 1) * cSize d + cSize d

/-! ### cpy (R177, R182) -/

/-- A global base whose DEVID does not fit (check 4): DEVID 0, or for p2p exactly one peer with a good route. -/
def devidBad (a : Nat) (zero : Bool) : Bool := 2 ^ 63 ≤ a || a / 2 ^ 57 = 63 || (zero && a / 2 ^ 57 != 0)
def check4 (s : State) (b : Block) (k : CopyKind) (d : CDesc) : Option (Cause × Nat) :=
  match k with
  | .p2p =>
    if devidBad d.src false || devidBad d.dst false || ((d.src / 2 ^ 57 == 0) == (d.dst / 2 ^ 57 == 0)) then some (.perm, 5)
    else if !routeOkAddr s b d.src || !routeOkAddr s b d.dst then some (.page, 1) else none
  | _ =>
    if (srcGlobal k && devidBad d.src true) || (dstGlobal k && devidBad d.dst true) then some (.perm, 5)
    else if k == .s2x && (peerTarget s b d.dst).isNone then some (.perm, 3) else none
where
  routeOkAddr (s : State) (b : Block) (a : Nat) : Bool := a / 2 ^ 57 == 0 || routeOk s b.part (a / 2 ^ 57)

/-- Check 5: scratchpad bytes at or beyond SCRATCH. -/
def check5 (s : State) (b : Block) (k : CopyKind) (d : CDesc) : Bool :=
  cCount d != 0 &&
  ((!srcGlobal k && outOf b d.src (cSpan d d.spy d.spz))
   || (match k with
       | .g2s | .gather => outOf b d.dst (cSpan d d.dpy d.dpz)
       | .s2x => 2 ^ 24 ≤ d.dst || (peerTarget s b d.dst).any fun t => outOf t (peerOff d.dst) (cSpan d d.dpy d.dpz)
       | _ => false)
   || (k == .gather && outOf b d.gidx (4 * d.ny)))

/-- The checks of R182 after the first, in order, with R354's for a failed peer. -/
def copyCheck (s : State) (b : Block) (k : CopyKind) (d : CDesc) : Option (Cause × Nat) :=
  let g := k == .gather
  if d.kind ≠ copyCode k ∨ 4 < d.esize ∨ 4 ≤ d.flags ∨ (d.flags % 2 = 1 ∧ ¬ g) ∨ (d.gidx ≠ 0 ∧ ¬ g) ∨ d.prog ≠ 0 then some (.illegal, 5)
  else if [d.src, d.dst, d.spy, d.spz, d.dpy, d.dpz].any fun x => x % cSize d != 0 then some (.align, 2)
  else match check4 s b k d with
    | some e => some e
    | none =>
      if check5 s b k d then some (.perm, 2)
      else if k = .s2x ∧ b.pfail ∧ (peerTarget s b d.dst).any (fun t => t.uid != b.uid && t.frozen) then some (.peerFail, 0) else none

/-- R177: the descriptor is read once the warp's earlier ssts are performed; the engine holds 64 descriptors. A copy of no element is
complete once accepted, in the order of its class (R108, R181). The spec names no FADDR for a descriptor that fails checks 2 to 5: the model
gives S[A], the descriptor's own offset (assumption 85). -/
def execCpy (k : CopyKind) (a : SReg) (s : State) : Host.Outcome State Fault Refusal :=
  onWarp s fun b w =>
    let at_ := (sreg w a).toNat
    if at_ % 64 ≠ 0 then trapS s b w .align 2 (sreg w a)
    else if outOf b at_ 64 then trapS s b w .perm 2 (sreg w a)
    else if olderOp s b.uid w.idx s.serial (.spad b.uid at_) 64 || sstsOut s b w then waitS s b w .retry
    else
      let bs := spadRead s b.uid at_ 64
      let d := cdesc bs
      match copyCheck s b k d with
      | some (c, subc) => trapS s b w c subc (if c = .peerFail then 0 else sreg w a)
      | none =>
        if 64 ≤ (getCore s (coreNo b)).copies.length ∨ 4095 ≤ countN w .cp then waitS s b w .retry
        else
          let id := s.serial
          let s := bump s
          if cCount d = 0 then watch (setWarp s b.uid (advance (countDone (countIn w .cp id) .cp id))) (byMe b w) (.spad b.uid at_) 64 2
          else
            let x : Copy := { id := id, block := b.uid, warp := w.idx, kind := k, desc := bs, at_ := at_, depth := w.regions.length,
                              regionCount := (w.regions.head?.map (·.count)).getD 0 }
            let s := modCore s (coreNo b) fun y => { y with copies := y.copies ++ [x] }
            watch (setWarp s b.uid (advance (countIn w .cp id))) (byMe b w) (.spad b.uid at_) 64 2

/-! ### Elements (R181) -/

def findCopy (x : Core) (k : Nat) : Option Copy := x.copies.find? fun y => y.id == k
def modCopy (s : State) (c k : Nat) (f : Copy → Copy) : State :=
  modCore s c fun x => { x with copies := x.copies.map fun y => if y.id = k then f y else y }

/-- Coordinates of element `e` in the x-fastest order. -/
def elemOf (d : CDesc) (e : Nat) : Nat × Nat × Nat := (e % d.nx, e / d.nx % d.ny, e / (d.nx * d.ny))
/-- The index a gather reads for row y. -/
def gatherIx (s : State) (b : Nat) (d : CDesc) (y : Nat) : Nat := ofLeBytes (spadRead s b (d.gidx + 4 * y) 4)
/-- Whether an element is a zero row of a gather. -/
def zeroRow (s : State) (y : Copy) (d : CDesc) (e : Nat) : Bool :=
  y.kind == .gather && gatherIx s y.block d (elemOf d e).2.1 == 0xFFFFFFFF && d.flags % 2 == 1
/-- Source and destination address of an element, in 64 bits. -/
def srcAddr (s : State) (y : Copy) (d : CDesc) (e : Nat) : Nat :=
  let p := elemOf d e
  let row := if y.kind == .gather then gatherIx s y.block d p.2.1 else p.2.1
  (d.src + row * d.spy + p.2.2 * d.spz + p.1 * cSize d) % 2 ^ 64
def dstAddr (d : CDesc) (e : Nat) : Nat :=
  let p := elemOf d e
  (d.dst + p.2.1 * d.dpy + p.2.2 * d.dpz + p.1 * cSize d) % 2 ^ 64

/-- Translation of an engine's access; the layout of the address is checked first. An address that carries into the DEVID bits of a base
with DEVID 0 is translated as it stands: it goes to that peer, or fails as a route does; no rule says (assumption 101). -/
inductive EngXlat where
  | ok (l : GLoc) | wait | bad
deriving DecidableEq, Repr
def engXlat (s : State) (c : Nat) (b : Block) (a : Nat) (wr : Bool) : EngXlat :=
  if !addrOk s b.part (eaBits a) then .bad
  else match xlat (getCore s c).tlb b.pasid (eaBits a) wr false with
    | .at_ l => .ok l
    | _ => .wait

/-- A write of an engine or copy to global memory: the core's L1 line is dropped and the write leaves (R97, R184, R273). -/
def engineWrite (s : State) (c : Nat) (t : Transit) : State :=
  let s := match t.ent.line with | .dev pa => dropL1Line s c (lineNo pa) | _ => s
  bump { s with transit := s.transit ++ [{ t with id := s.serial, core := c }] }
/-- One line's entry of given bytes at a location. -/
def entOf (b : Block) (l : GLoc) (va : Nat) (bs : List Byte) (pois : Bool) : SbEnt :=
  let xs := bs.zipIdx.map fun e => StByte.mk (gAdd l e.2) 0 e.1 pois
  xs.foldl entAdd { line := lineOf l, vline := va / 128 * 128, pasid := b.pasid }

/-- What an element reads: its bytes and their poison, none while a translation is awaited. -/
def elemRead (s : State) (c : Nat) (b : Block) (y : Copy) (d : CDesc) (e : Nat) : Option (List Byte × Bool) :=
  if zeroRow s y d e then some (List.replicate (cSize d) 0, false)
  else if srcGlobal y.kind then
    match engXlat s c b (srcAddr s y d e) false with
    | .ok l => if peerBusy s l then none else some (gReadN s l (cSize d), gPois s l)
    | _ => none
  else some (spadRead s b.uid (srcAddr s y d e) (cSize d), spadPois s b.uid (srcAddr s y d e))
/-- The location an element reads, for watchpoints. -/
def elemSrc (s : State) (c : Nat) (b : Block) (y : Copy) (d : CDesc) (e : Nat) : Option ALoc :=
  if zeroRow s y d e then none
  else if srcGlobal y.kind then match engXlat s c b (srcAddr s y d e) false with | .ok l => some (.g l) | _ => none
  else some (.spad b.uid (srcAddr s y d e))

/-- Whether a byte of a gather's index of an element is poisoned: using it as an address is a consumption (R387). GIDX need not be
aligned, so the index may lie in two granules. -/
def ixPois (s : State) (y : Copy) (d : CDesc) (e : Nat) : Bool :=
  let a := d.gidx + 4 * (elemOf d e).2.1
  y.kind == .gather && (spadPois s y.block a || spadPois s y.block (a + 3))

/-- Whether the `n` elements from `e` on lie in one row at consecutive destination addresses of one granule and have not moved, so that the
engine may merge their writes into one (R181). -/
def merged (y : Copy) (d : CDesc) (e n : Nat) : Bool :=
  let a := dstAddr d e
  e % d.nx + n ≤ d.nx && e + n ≤ cCount d && (a + n * cSize d - 1) / 64 == a / 64 && (List.range n).all fun i => !y.moved.get false (e + i)
/-- What the elements of a list read, in order; none while one of them waits. -/
def elemsRead (s : State) (c : Nat) (b : Block) (y : Copy) (d : CDesc) : List Nat → Option (List Byte × Bool)
  | [] => some ([], false)
  | e :: t => match elemRead s c b y d e, elemsRead s c b y d t with
    | some r, some q => some (r.1 ++ q.1, r.2 || q.2)
    | _, _ => none
/-- The reads of an element against the watchpoints: its source, and a gather's index (R359). -/
def elemSeen (c : Nat) (b : Block) (y : Copy) (d : CDesc) (s : State) (e : Nat) : State :=
  let by_ : By := some (c, b.uid, y.warp)
  let s := if y.kind = .gather then watch s by_ (.spad b.uid (d.gidx + 4 * (elemOf d e).2.1)) 4 2 else s
  match elemSrc s c b y d e with
  | some l => watch s by_ l (cSize d) 2
  | none => s

/-- ELEMENTS MOVE (R181, R184): one, or `n` whose writes merge: read, then written to a scratchpad at once or sent to their point of
coherence. -/
def copyElement (s : State) (c k e n : Nat) : State :=
  match findCopy (getCore s c) k with
  | none => s
  | some y =>
    let d := cdesc y.desc
    if cCount d ≤ e ∨ y.moved.get false e ∨ ixPois s y d e then s else
    match getBlock s y.block with
    | none => s
    | some b =>
      let es := if 1 < n && merged y d e n then (List.range n).map fun i => e + i else [e]
      match elemsRead s c b y d es with
      | none => s
      | some (bs, p) =>
        let da := dstAddr d e
        let by_ : By := some (c, b.uid, y.warp)
        let seen := fun (s : State) => es.foldl (elemSeen c b y d) s
        let done := fun (s : State) => modCopy s c k fun y => { y with moved := es.foldl (fun m e => m.set false e true) y.moved }
        match y.kind with
        | .g2s | .gather => watch (seen (done (spadWrite s b.uid da bs p))) by_ (.spad b.uid da) bs.length 1
        | .s2x =>
          match peerTarget s b da with
          | none => s
          | some t =>
            if t.frozen && t.uid != b.uid then seen (done (setPfail s b.uid))
            else watch (seen (done (spadWrite s t.uid (peerOff da) bs p))) by_ (.spad t.uid (peerOff da)) bs.length 1
        | _ =>
          match engXlat s c b da true with
          | .ok l => seen (done (engineWrite s c { id := 0, core := c, block := b.uid, warp := y.warp, ent := { entOf b l da bs p with ids := k :: es }, copyEng := true }))
          | _ => s

/-! ### The end of a copy (R183) -/

/-- Whether a write of the copy, or of one element of it, is not acknowledged. -/
def copyOut (s : State) (k : Nat) : Bool := s.transit.any fun t => t.copyEng && t.ent.ids.head? == some k
def elemOut (s : State) (k e : Nat) : Bool := s.transit.any fun t => t.copyEng && t.ent.ids.head? == some k && t.ent.ids.tail.contains e
/-- The longest prefix of completed elements. -/
def progFrom (s : State) (y : Copy) : Nat → Nat → Nat
  | 0, e => e
  | n + 1, e => if y.moved.get false e && !elemOut s y.id e then progFrom s y n (e + 1) else e
def progOf (s : State) (y : Copy) : Nat := progFrom s y y.moved.cells.length 0
/-- PROG written into the descriptor, as an access of the copy (R183, R359). -/
def writeProg (s : State) (c : Nat) (y : Copy) (n : Nat) : State :=
  watch (spadWrite s y.block (y.at_ + 0x38) (leBytes 8 n) false) (some (c, y.block, y.warp)) (.spad y.block (y.at_ + 0x38)) 8 1
/-- A copy leaves the engine, complete in class CP. -/
def copyEnds (s : State) (c : Nat) (y : Copy) (prog : Nat) : State :=
  let s := modCore s c fun x => { x with copies := x.copies.filter fun z => z.id != y.id }
  modWarp (writeProg s c y prog) y.block y.warp fun w => countDone w .cp y.id

/-- COPY_COMPLETE: every element is moved and every write acknowledged. -/
def execCopyComplete (c k : Nat) (s : State) : Host.Outcome State Fault Refusal :=
  .next (match findCopy (getCore s c) k with
  | none => s
  | some y =>
    let d := cdesc y.desc
    if y.moved.cells.length = cCount d ∧ ¬ copyOut s k then copyEnds s c y (cCount d) else s)

/-- The subcause of an engine's access that cannot be made, as R183 gives it: 1 for a layout or route failure, 2 for a request that a peer
refuses, 0 for a page that the host refuses; none where the access can be made. A peer refuses a write after it was sent, and a read once
the requests before it have come (R415). -/
def engSubc (s : State) (c : Nat) (b : Block) (a : Nat) (wr : Bool) : Option Nat :=
  match engXlat s c b a wr with
  | .bad => some 1
  | .wait => some 0
  | .ok (.peer d v) => if wr || peerBusy s (.peer d v) then none else some 2
  | .ok _ => none
/-- Why an element cannot be moved, with the subcause and the failing address: poison in a gather's index, or a read or write that cannot
be made. -/
def elemFails (s : State) (c : Nat) (b : Block) (y : Copy) (d : CDesc) (e : Nat) : Option (Cause × Nat × Nat) :=
  if ixPois s y d e then some (.poison, 0, 0)
  else
    let sa := srcAddr s y d e
    let da := dstAddr d e
    match if srcGlobal y.kind && !zeroRow s y d e then engSubc s c b sa false else none with
    | some k => some (.page, k, sa)
    | none => (if dstGlobal y.kind then engSubc s c b da true else none).map fun k => (.page, k, da)
/-- The first element not moved that cannot be: where several cannot, the lowest is reported, and its source before its destination. R181 lets
the engine take any order; which it reports is the model's choice (assumption 102). -/
def failingElem (s : State) (c : Nat) (b : Block) (y : Copy) (d : CDesc) : Nat → Nat → Option (Cause × Nat × Nat)
  | 0, _ => none
  | n + 1, e =>
    match if y.moved.get false e then none else elemFails s c b y d e with
    | some f => some f
    | none => failingElem s c b y d n (e + 1)

/-- COPY_FAULT: the copy stops at a fault that the host does not resolve and writes PROG; its warp traps (R183). A poisoned
gather index is a consumption too. It counts as complete in CP at once, though writes of it may be in transit (assumption 103). -/
def execCopyFault (c k : Nat) (perm : Bool) (s : State) : Host.Outcome State Fault Refusal :=
  .next (match findCopy (getCore s c) k with
  | none => s
  | some y =>
    match getBlock s y.block with
    | none => s
    | some b =>
      let d := cdesc y.desc
      match failingElem s c b y d (cCount d) 0 with
      | none => s
      | some (cause, subc, a) =>
        let s := copyEnds s c y (progOf s y)
        if cause = .poison then modWarp s y.block y.warp fun w =>
          { w with cons := w.cons ++ [{ depth := y.depth, regionCount := y.regionCount, unit := 2, pa := 0, va := 0, subc := 0x100 }] }
        else asyncTrap s y.block y.warp { cause := if subc ≠ 1 ∧ perm then .perm else cause, subc := 0x100 + subc, faddr := eaBits a })

end Sys2Proof.Machine
end

