-- ==== Sys2Proof/Machine/Matrix.lean ====
section
/-! DEFINITION. The matrix engine: its commands, their acceptance checks, batches, tiles, accumulators and mma (R80 to R84,
R110, R261 to R282, R295). -/

namespace Sys2Proof.Machine

/-! ### Tiles (R266 to R268) -/

/-- The fields of a TCF word. -/
def tcEfmt (t : Word) : Nat := fld t.toNat 0 4
def tcRows (t : Word) : Nat := fld t.toNat 4 7 + 1
def tcBytes (t : Word) : Nat := (fld t.toNat 11 5 + 1) * 16
def tcBw (t : Word) : Nat := fld t.toNat 16 3
def tcPl (t : Word) : Nat := fld t.toNat 19 3
/-- Planes held by a BPI tile. -/
def tcPlanes (t : Word) : Nat := tcPl t + 1
/-- Elements per row read with a format (R267, R276). -/
def kOf (t : Word) (fmt : Nat) : Nat := if fmt = 15 then tcBytes t * 8 / tcPlanes t else tcBytes t * 8 / codeBits fmt
/-- Whether K is a whole number of elements. -/
def kWhole (t : Word) (fmt : Nat) : Bool := tcBytes t * 8 % (if fmt = 15 then tcPlanes t else codeBits fmt) == 0
/-- A valid TCF word (R267). -/
def tcfValid (t : Word) : Bool :=
  let e := tcEfmt t
  decide (t.toNat < 2 ^ 22) && e != 14 && kWhole t e && kOf t e % 8 == 0 &&
  (if e = 15 then 1 ≤ tcBw t && tcPlanes t ≤ tcBw t + 1 else tcBw t == 0 && tcPl t == 0)

/-- A byte of a tile row, and its storage key. -/
def tileKey (t y r : Nat) : Nat := t * 65536 + y * 512 + r
def tileByte (b : Block) (t y r : Nat) : Byte := Memory.read b.tiles (tileKey t y r)
/-- The valid bit of a tile row (R95). -/
def rowValid (b : Block) (t y : Nat) : Bool := b.tileValid.get false (t * 128 + y)
def rowBad (b : Block) (t y : Nat) : Bool := b.tilePois.get false (t * 128 + y)
/-- An element of an accumulator, and its storage key. -/
def accKey (c i j : Nat) : Nat := c * 16384 + i * 128 + j
def accEl (b : Block) (c i j : Nat) : Word := b.accs.get 0 (accKey c i j)
def accBad (b : Block) (c i j : Nat) : Bool := b.accPois.get false (accKey c i j)
/-- Every element of an accumulator zero and unpoisoned, its ACCSAT bit clear (R84, R274, R386). -/
def clearAcc (b : Block) (cyc c : Nat) : Block :=
  let inC := fun k => k / 16384 == c
  { b with accs := ⟨b.accs.cells.filter fun e => !inC e.1⟩, accPois := ⟨b.accPois.cells.filter fun e => !inC e.1⟩
           accSat := clearSat b cyc (1#48 <<< c) }

/-! ### Acceptance (R261 to R264) -/

def resTile (b : Block) (t : Nat) : Bool := t < b.kd.tiles
def resAcc (b : Block) (c : Nat) : Bool := c < b.kd.accs
def ownsSlot (b : Block) (n : Nat) : Bool := b.kd.drainSet.getLsbD n

/-- The configuration a command meets: the last tcfg of the tile that arrived before it (R263). -/
def tcfOf (s : State) (b : Block) (t : Nat) : Word :=
  ((getCore s (coreNo b)).cmds.reverse.findSome? fun m => if m.block != b.uid then none else
    match m.kind with | .tcfg t' w => if t' = t then some w else none | _ => none).getD (b.tcf.get 0 t)
/-- The program it meets: the last drld of the slot that arrived before it. -/
def slotOf (s : State) (b : Block) (n : Nat) : DSlot :=
  ((getCore s (coreNo b)).cmds.reverse.findSome? fun m => if m.block != b.uid then none else
    match m.kind with | .drld n' d => if n' = n then some d else none | _ => none).getD
    ((b.slots.get none n).getD { words := List.replicate 32 0, consts := List.replicate 16 0 })

/-- Whether an armed DINJ names an element that a command updates (R404, R405, R276). -/
def dinjAcc (d : DWord) : Nat := fld d.toNat 32 6
def dinjRow (d : DWord) : Nat := fld d.toNat 25 7
def dinjCol (d : DWord) : Nat := fld d.toNat 18 7
def dinjHits (d : DWord) (k : CmdKind) : Bool :=
  match k with
  | .mma c _ _ _ ca cb => d.getLsbD 63 && dinjAcc d == c && dinjRow d < tcRows ca && dinjCol d < tcRows cb
  | _ => false
/-- The queue holds 16 commands that have not started (R261). -/
def engFull (s : State) (b : Block) : Bool := 16 ≤ ((getCore s (coreNo b)).cmds.filter fun m => !m.started).length
/-- Whether the engine takes a command of a warp now: its queue has room, and none that comes after the warp's in the order of this clock
has arrived (R261). -/
def engTakes (s : State) (b : Block) (w : Warp) : Bool :=
  !engFull s b && inOrder (getCore s (coreNo b)).engAt (getCore s (coreNo b)).cyc w
/-- Accepts a command, which waits while the queue is full; in one clock commands arrive in the order of R261. -/
def acceptCmd (s : State) (b : Block) (w : Warp) (k : CmdKind) : State :=
  if !engTakes s b w then waitS s b w .retry
  else
    let x := getCore s (coreNo b)
    let m : Cmd := { inject := b.debug && dinjHits x.dbg.dinj k && !(x.cmds.any fun y => y.inject), id := s.serial, block := b.uid, warp := w.idx, batch := w.batch, kind := k, after := w.sst, issuedAt := w.issues + 1,
                     depth := w.regions.length, regionCount := (w.regions.head?.map fun r => r.count).getD 0 }
    setWarp (modCore (bump s) (coreNo b) fun x => { x with cmds := x.cmds ++ [m], engAt := (x.cyc, arrivalKey w) }) b.uid (advance w)

/-- R269. The spec gives no order of SUBC 0x0103 and 0x0101 (assumption 104). -/
def execTcfg (t : BitVec 4) (a : SReg) (s : State) : Host.Outcome State Fault Refusal :=
  onUser s fun b w =>
    let v := sreg w a
    if !resTile b t.toNat then trapS s b w .illegal 0x103 0
    else if 2 ^ 32 ≤ v.toNat ∨ !tcfValid (v.setWidth 32) then trapS s b w .illegal 0x101 0
    else acceptCmd s b w (.tcfg t.toNat (v.setWidth 32))

/-- The footprint of a tile transfer: byte `r` of row `y` at its address (R270). -/
def tileAddr (base pitch pstride : Nat) (cfg : Word) (y r : Nat) : Nat :=
  if tcEfmt cfg = 15 then
    let n := kOf cfg 15 / 8
    base + r / n * pstride + y * pitch + r % n
  else base + y * pitch + r
/-- Whether any byte of the footprint lies at or beyond SCRATCH. -/
def tileOut (b : Block) (base pitch pstride : Nat) (cfg : Word) : Bool :=
  let last := if tcEfmt cfg = 15 then base + tcPl cfg * pstride + (tcRows cfg - 1) * pitch + kOf cfg 15 / 8
              else base + (tcRows cfg - 1) * pitch + tcBytes cfg
  b.kd.scratch < last

/-- R271: the checks of tld and tst. That SUBC 0x0103 comes first, and that a command whose check fails traps while the queue is full
too, are the model's choices (assumption 104). -/
def tileMove (st : Bool) (sp : Bool) (t : Nat) (a p : SReg) (s : State) : Host.Outcome State Fault Refusal :=
  onUser s fun b w =>
    let base := (sreg w a).toNat
    let pitch := (sreg w p).toNat % 2 ^ 32
    let pstride := (sreg w p).toNat / 2 ^ 32
    let cfg := tcfOf s b t
    if !resTile b t then trapS s b w .illegal 0x103 0
    else if pstride ≠ 0 ∧ tcEfmt cfg ≠ 15 then trapS s b w .illegal 0x102 0
    else if base % 16 ≠ 0 ∨ pitch % 16 ≠ 0 ∨ pstride % 16 ≠ 0 then trapS s b w .align 2 (sreg w a)
    else if !sp && decide (2 ^ 57 ≤ base) then trapS s b w .perm 5 (sreg w a)
    else if sp && tileOut b base pitch pstride cfg then trapS s b w .perm 2 (sreg w a)
    else acceptCmd s b w (if st then .tst sp t base pitch pstride cfg else .tld sp t base pitch pstride cfg)
def execTld (sp : Bool) (t : BitVec 4) (a p : SReg) (s : State) : Host.Outcome State Fault Refusal := tileMove false sp t.toNat a p s
def execTst (sp : Bool) (t : BitVec 4) (a p : SReg) (s : State) : Host.Outcome State Fault Refusal := tileMove true sp t.toNat a p s

/-- R274. -/
def execAclr (c : BitVec 6) (s : State) : Host.Outcome State Fault Refusal :=
  onUser s fun b w => if !resAcc b c.toNat then trapS s b w .illegal 0x103 0 else acceptCmd s b w (.aclr c.toNat)

/-! ### The format word (R275, R278, R82) -/

def fsA (f : DWord) : Nat := fld f.toNat 0 4
def fsB (f : DWord) : Nat := fld f.toNat 4 4
def fsMode (f : DWord) : Nat := fld f.toNat 8 2
def fsPa (f : DWord) : Nat := fld f.toNat 10 3
def fsPb (f : DWord) : Nat := fld f.toNat 13 3
def fsMid (f : DWord) : Bool := f.getLsbD 16
def fsInt (f : DWord) : Bool := f.getLsbD 17
def fsSat (f : DWord) : Bool := f.getLsbD 18
def fsAsc (f : DWord) : Nat := fld f.toNat 20 16 * 64
def fsBsc (f : DWord) : Nat := fld f.toNat 36 16 * 64

/-- The combinations of R82. -/
def mmaOk (f : DWord) : Bool :=
  let fl := fun x => (1 ≤ x && x ≤ 10) || x == 15
  let it := fun x => x == 8 || x == 9 || x == 10 || x == 11 || x == 15
  let mx := fun x => 3 ≤ x && x ≤ 8
  if fsInt f then it (fsA f) && it (fsB f) && fsMode f == 0
  else !fsSat f && match fsMode f with
    | 0 | 2 => fl (fsA f) && fl (fsB f)
    | 1 => mx (fsA f) && mx (fsB f)
    | _ => false
/-- A plane rule of R275 or R276 broken. -/
def planesBad (f : DWord) (ca cb : Word) : Bool :=
  (fsA f != 15 && fsPa f != 0) || (fsB f != 15 && fsPb f != 0) || (fsMid f && fsA f != 15 && fsB f != 15)
  || (fsA f == 15 && tcPl ca < fsPa f) || (fsB f == 15 && tcPl cb < fsPb f)
/-- Bytes of scale per row (R277). -/
def scaleBytes (f : DWord) (k : Nat) : Nat := match fsMode f with | 1 => k / 32 | 2 => 4 | _ => 0

/-- R278. -/
def mmaCheck (b : Block) (c ta tb : Nat) (f : DWord) (ca cb : Word) : Option (Cause × Nat) :=
  let ka := kOf ca (fsA f)
  let kb := kOf cb (fsB f)
  if fld f.toNat 52 12 ≠ 0 ∨ f.getLsbD 19 then some (.illegal, 0x108)
  else if !(resTile b ta && resTile b tb && resAcc b c) then some (.illegal, 0x103)
  else if fsMode f = 3 ∨ (fsMode f = 1 ∧ (ka % 32 ≠ 0 ∨ kb % 32 ≠ 0)) then some (.illegal, 0x106)
  else if planesBad f ca cb then some (.illegal, 0x107)
  else if !mmaOk f then some (.illegal, 0x105)
  else if ka ≠ kb then some (.illegal, 0x104)
  else
    let n := scaleBytes f ka
    if n ≠ 0 ∧ (outOf b (fsAsc f) (tcRows ca * n) ∨ outOf b (fsBsc f) (tcRows cb * n)) then some (.perm, 2) else none

def execMma (c : BitVec 6) (ta tb : BitVec 4) (fs : SReg) (s : State) : Host.Outcome State Fault Refusal :=
  onUser s fun b w =>
    let f := sreg w fs
    let ca := tcfOf s b ta.toNat
    let cb := tcfOf s b tb.toNat
    match mmaCheck b c.toNat ta.toNat tb.toNat f ca cb with
    | some (k, subc) => trapS s b w k subc 0
    | none => acceptCmd s b w (.mma c.toNat ta.toNat tb.toNat f ca cb)

/-! ### Batches (R280, R281) -/

/-- R280: an empty batch is complete as it closes. -/
def execSysMfence (d : SReg) (s : State) : Host.Outcome State Fault Refusal :=
  onWarp s fun b w =>
    if 4095 ≤ countN w .tl then waitS s b w .retry
    else
      let id := s.serial
      let w' := countIn { w with closed := w.closed ++ [(id, w.batch)], batch := w.batch + 1 } .tl id
      settleBatches (sResult (bump s) b w' d (w.batch.setWidth 64) 1) b.uid w.idx

/-- R281. -/
def execMwait (a : SReg) (s : State) : Host.Outcome State Fault Refusal :=
  onWarp s fun b w =>
    let d := (w.batch - (sreg w a).setWidth 16).toNat
    if d = 0 then trapS s b w .illegal 0x11A 0
    else if countN w .tl < d then setWarp s b.uid (advance w) else waitS s b w .retry

/-! ### Running commands (R262) -/

/-- Storage a command reads and writes: tiles (0), accumulators (1), drain slots (2). A tst has read its tile once its bytes have
moved. -/
def cmdReads (m : Cmd) : List (Nat × Nat) :=
  match m.kind with
  | .tst _ t _ _ _ _ => if m.moved then [] else [(0, t)]
  | .mma c ta tb _ _ _ => [(0, ta), (0, tb), (1, c)]
  | .drain c n _ _ _ _ => [(1, c), (2, n)]
  | _ => []
/-- Tiles that a drain writes (R284, R292). -/
def drainTiles (d : DSlot) (desc : List Byte) : List Nat :=
  let ops := d.words.takeWhile fun w => fld w.toNat 27 5 != 0
  (if fieldOf desc 0 8 / 2 ^ 62 = 2 && ops.any (fun w => fld w.toNat 27 5 == 0x13 || fld w.toNat 27 5 == 0x14) then [fieldOf desc 0 8 % 16] else [])
  ++ (ops.filter fun w => fld w.toNat 27 5 == 0x15).map fun w => fld w.toNat 0 4
/-- A drain writes its accumulator only to clear it, under CLR (R285). -/
def cmdWrites (m : Cmd) : List (Nat × Nat) :=
  match m.kind with
  | .tld _ t _ _ _ _ => [(0, t)]
  | .aclr c => [(1, c)]
  | .drld n _ => [(2, n)]
  | .mma c _ _ _ _ _ => [(1, c)]
  | .drain c _ d desc _ _ => (if fieldOf desc 0xD 1 % 2 = 1 then [(1, c)] else []) ++ (drainTiles d desc).map fun t => (0, t)
  | _ => []
def touch (a b : List (Nat × Nat)) : Bool := a.any b.contains
/-- Whether an earlier command of the block still holds storage that a command needs. -/
def cmdBlocked (x : Core) (m : Cmd) : Bool :=
  (x.cmds.takeWhile fun y => y.id != m.id).any fun y => y.block == m.block &&
    (touch (cmdWrites m) (cmdReads y ++ cmdWrites y) || touch (cmdReads m) (cmdWrites y))
/-- Whether a store of the warp that the command follows is not performed (R272); an mma, which reads its scale tables as it starts, follows
its warp's earlier scratchpad stores (R102, R277). -/
def cmdEarly (s : State) (m : Cmd) : Bool :=
  (getWarp s m.block m.warp).any fun w => m.after.any fun i => w.sst.contains i && match m.kind with
    | .tld _ _ _ _ _ _ | .tst _ _ _ _ _ _ => true
    | .mma _ _ _ _ _ _ => s.ops.any fun o => o.id == i
    | _ => false

/-- The unit a command runs on: one path for tcfg, aclr and drld, one for tld and tst, the array, the drain engines. -/
def unitNo (m : Cmd) : Nat :=
  match m.kind with
  | .tcfg _ _ | .aclr _ | .drld _ _ => 0
  | .tld _ _ _ _ _ _ | .tst _ _ _ _ _ _ => 1
  | .mma _ _ _ _ _ _ => 2
  | .drain _ _ _ _ _ _ => 3
/-- The oldest command of a unit that has not moved all it moves: units take commands in arrival order. -/
def unitHead (x : Core) (u : Nat) : Option Cmd := x.cmds.find? fun m => unitNo m == u && !m.moved
def modCmd (s : State) (c id : Nat) (f : Cmd → Cmd) : State :=
  modCore s c fun x => { x with cmds := x.cmds.map fun m => if m.id = id then f m else m }
/-- Bytes a transfer moves. -/
def transferLen (cfg : Word) : Nat := tcRows cfg * tcBytes cfg
/-- Clocks for which a command occupies its unit (R299). -/
def engTime (m : Cmd) : Nat :=
  match m.kind with
  | .tcfg _ _ | .aclr _ => 1
  | .drld _ _ => 4
  | .tld _ _ _ _ _ cfg | .tst _ _ _ _ _ cfg => ceilDiv (transferLen cfg) 2048
  | .mma _ _ _ f cfg _ => kOf cfg (fsA f) / (if codeBits (fsA f) = 16 ∨ codeBits (fsB f) = 16 then 4 else 8)
  | .drain _ _ d _ _ _ => 128 * Nat.max 1 (ceilDiv ((d.words.takeWhile fun w => fld w.toNat 27 5 != 0).length) 4)
/-- Whether a unit is still occupied; the two drain engines are units 3 and 4. -/
def engBusy (x : Core) (u : Nat) : Bool := decide (x.cyc < x.engFree.get 0 u)
/-- Elements of a chunk, and the chunks of an mma, of which the array adds one in a clock (R81, R279). -/
def chunkLen (fa fb : Nat) : Nat := let wide := fun x => x == 1 || x == 2 || x == 11; if wide fa || wide fb then 4 else 8
def mmaChunks (f : DWord) (cfg : Word) : Nat := kOf cfg (fsA f) / chunkLen (fsA f) (fsB f)
/-- A command occupies a unit from now on. -/
def occupy (s : State) (c u : Nat) (m : Cmd) : State := modCore s c fun x => { x with engFree := x.engFree.set 0 u (x.cyc + engTime m) }
/-- A command has finished. -/
def finishCmd (s : State) (c : Nat) (m : Cmd) : State :=
  settleBatches (modCore s c fun x => { x with cmds := x.cmds.filter fun y => y.id != m.id }) m.block m.warp

/-- The head of a unit when it can run now. -/
def ready (s : State) (c u : Nat) (f : Cmd → State) : Host.Outcome State Fault Refusal :=
  .next (match unitHead (getCore s c) u with
  | some m => if cmdBlocked (getCore s c) m || cmdEarly s m || engBusy (getCore s c) u then s else f m
  | none => s)

/-- TCFG_RUN, ACLR_RUN, DRLD_RUN. -/
def execTcfgRun (c : Nat) (s : State) : Host.Outcome State Fault Refusal :=
  ready s c 0 fun m => match m.kind with
    | .tcfg t w => finishCmd (modBlock (occupy s c 0 m) m.block fun b => { b with tcf := b.tcf.set 0 t w }) c m
    | _ => s
def execAclrRun (c : Nat) (s : State) : Host.Outcome State Fault Refusal :=
  ready s c 0 fun m => match m.kind with
    | .aclr n => finishCmd (modBlock (occupy s c 0 m) m.block fun b => clearAcc b (getCore s c).cyc n) c m
    | _ => s
def execDrldRun (c : Nat) (s : State) : Host.Outcome State Fault Refusal :=
  ready s c 0 fun m => match m.kind with
    | .drld n d => finishCmd (modBlock (occupy s c 0 m) m.block fun b => { b with slots := b.slots.set none n (some d) }) c m
    | _ => s

/-! ### Tile loads and stores (R272, R273, R295) -/

/-- A transfer's fields. -/
def transferOf (m : Cmd) : Option (Bool × Bool × Nat × Nat × Nat × Nat × Word) :=
  match m.kind with
  | .tld sp t a p q w => some (false, sp, t, a, p, q, w)
  | .tst sp t a p q w => some (true, sp, t, a, p, q, w)
  | _ => none
/-- The address of the next byte. -/
def nextAddr (m : Cmd) : Nat :=
  match transferOf m with
  | some (_, sp, _, a, p, q, cfg) =>
    let x := tileAddr a p q cfg (m.pos / tcBytes cfg) (m.pos % tcBytes cfg)
    if sp then x else x % 2 ^ 64
  | none => 0
/-- Whether a write of an earlier command of the core to a line has yet to be performed: a tile load reads after it (R262). -/
def tldWaits (s : State) (c : Nat) (m : Cmd) (l : GLoc) : Bool :=
  s.transit.any fun t => t.engine && t.core == c && !t.performed && t.ent.ids.any (· < m.id) && t.ent.line == lineOf l
/-- A byte as a tile load reads it: from the L1 line when present, else from its point of coherence (R272). -/
def tldByte (s : State) (c : Nat) (l : GLoc) : Byte × Bool :=
  match l with
  | .dev pa => match (getCore s c).l1.get none (lineNo pa) with
    | some x => (x.data.getD (pa % 128) 0, x.pois.getLsbD (pa % 128 / 64))
    | none => (gRead s l, gPois s l)
  | _ => (gRead s l, false)
/-- A byte into a tile: the row becomes valid, and poison marks it (R272, R386). -/
def putTile (s : State) (b t y r : Nat) (v : Byte) (p : Bool) : State :=
  modBlock s b fun x => { x with tiles := Memory.write x.tiles (tileKey t y r) v, tileValid := x.tileValid.set false (t * 128 + y) true
                                 tilePois := if p then x.tilePois.set false (t * 128 + y) true
                                             else if r = 0 then x.tilePois.set false (t * 128 + y) false else x.tilePois }

/-- The place of byte `p` of a transfer, in 64 bits where it is global. -/
def byteAddr (m : Cmd) (p : Nat) : Nat := nextAddr { m with pos := p }
/-- How many bytes from the position on lie at consecutive addresses of one 64-byte granule: a tst stores them as one access (assumption
84). -/
def runLen (m : Cmd) (len : Nat) : Nat → Nat → Nat
  | 0, k => k
  | n + 1, k => if m.pos + k < len ∧ byteAddr m (m.pos + k) = nextAddr m + k ∧ (nextAddr m + k) / 64 = nextAddr m / 64
      then runLen m len n (k + 1) else k
/-- The run of a tst at its position: its bytes, and whether a row of it is poisoned. -/
def tstRun (b : Block) (m : Cmd) (t : Nat) (cfg : Word) : List Byte × Bool :=
  let ps := (List.range (runLen m (transferLen cfg) 64 0)).map fun k => m.pos + k
  (ps.map fun p => tileByte b t (p / tcBytes cfg) (p % tcBytes cfg), ps.any fun p => rowBad b t (p / tcBytes cfg))

/-- One access of a transfer: a byte of a tld, a run of a tst; the position stays where the address does not translate, where a peer has no
live port, and where an earlier command's write comes first. -/
def moveByte (s : State) (c : Nat) (m : Cmd) : State :=
  match transferOf m, getBlock s m.block with
  | some (st, sp, t, _, _, _, cfg), some b =>
    let a := nextAddr m
    let y := m.pos / tcBytes cfg
    let r := m.pos % tcBytes cfg
    let by_ : By := some (c, m.block, m.warp)
    let on := fun (k : Nat) (s : State) => modCmd (if m.started then s else occupy s c 1 m) c m.id fun x =>
      { x with pos := m.pos + k, started := true, moved := decide (m.pos + k = transferLen cfg) }
    if st then
      let w := tstRun b m t cfg
      if sp then watch (on w.1.length (spadWrite s b.uid a w.1 w.2)) by_ (.spad b.uid a) w.1.length 1
      else match engXlat s c b a true with
        | .ok l => on w.1.length (engineWrite s c { id := 0, core := c, block := b.uid, warp := m.warp, engine := true, batch := m.batch,
                                                    ent := { entOf b l a w.1 w.2 with ids := [m.id] } })
        | _ => s
    else if sp then watch (on 1 (putTile s b.uid t y r (Memory.read b.spad a) (spadPois s b.uid a))) by_ (.spad b.uid a) 1 2
    else match engXlat s c b a false with
      | .ok l =>
        if peerBusy s l || tldWaits s c m l then s
        else let v := tldByte s c l; watch (on 1 (putTile s b.uid t y r v.1 v.2)) by_ (.g l) 1 2
      | _ => s
  | _, _ => s
/-- Up to `n` accesses of the transfer path's head. -/
def moveBytes (c : Nat) : Nat → State → State
  | 0, s => s
  | n + 1, s => match unitHead (getCore s c) 1 with
    | some m => if m.started then moveBytes c n (moveByte s c m)
      else if cmdBlocked (getCore s c) m || cmdEarly s m || engBusy (getCore s c) 1 then s
      else moveBytes c n (moveByte s c m)
    | none => s
/-- Whether a write of a command is not acknowledged. -/
def cmdOut (s : State) (m : Cmd) : Bool := s.transit.any fun t => t.engine && t.ent.ids == [m.id]
/-- Transfers that have moved everything and whose writes are acknowledged finish. -/
def endTransfers (s : State) (c : Nat) : State :=
  ((getCore s c).cmds.filter fun m => unitNo m == 1 && m.moved && !cmdOut s m).foldl (fun s m => finishCmd s c m) s

/-- TLD_RUN and TST_RUN: the head of the path makes `n` accesses. A frozen core makes none (R403). -/
def execTldRun (c n : Nat) (s : State) : Host.Outcome State Fault Refusal :=
  .next (if masterFrozen s (.core c) then endTransfers s c else match unitHead (getCore s c) 1 with
  | some m => match m.kind with
    | .tld _ _ _ _ _ _ => endTransfers (moveBytes c n s) c
    | _ => s
  | none => s)
def execTstRun (c n : Nat) (s : State) : Host.Outcome State Fault Refusal :=
  .next (if masterFrozen s (.core c) then endTransfers s c else match unitHead (getCore s c) 1 with
  | some m => match m.kind with
    | .tst _ _ _ _ _ _ => endTransfers (moveBytes c n s) c
    | _ => endTransfers s c
  | none => endTransfers s c)

/-- Rows of a tile from row `y` on with unspecified contents (R295). -/
def freeRowsOf (s : State) (b t cfgBytes : Nat) (ys : List Nat) : State :=
  ys.foldl (fun s y => (List.range cfgBytes).foldl (fun s r =>
    let f := freeVal s
    putTile f.2 b t y r (f.1.setWidth 8) false) s) s

/-- A transfer ends without its remaining accesses, and its warp traps (R295). -/
def transferFails (s : State) (c : Nat) (m : Cmd) (t : TrapRec) : State :=
  match transferOf m with
  | some (st, _, n, _, _, _, cfg) =>
    let y := m.pos / tcBytes cfg
    let s := if st then s else freeRowsOf s m.block n (tcBytes cfg) ((List.range (tcRows cfg - y)).map fun i => y + i)
    let s := modCmd s c m.id fun x => { x with moved := true, started := true }
    asyncTrap (endTransfers s c) m.block m.warp t
  | none => s
/-- ENGINE_FAULT: the access at which the transfer stands cannot be made; the transfer ends without the rest, and its warp traps
(R295). -/
def execEngineFault (c : Nat) (perm : Bool) (s : State) : Host.Outcome State Fault Refusal :=
  .next (match unitHead (getCore s c) 1 with
  | none => s
  | some m =>
    match transferOf m, getBlock s m.block with
    | some (st, false, _, _, _, _, _), some b =>
      let a := nextAddr m
      if ¬ m.started ∧ (cmdBlocked (getCore s c) m ∨ cmdEarly s m ∨ engBusy (getCore s c) 1) then s
      else match engSubc s c b a st with
        | some k => transferFails s c m { cause := if k = 1 then .page else refusedCause perm, subc := 0x100 + k, faddr := eaBits a }
        | none => s
    | _, _ => s)

/-! ### mma (R80, R81, R276, R277) -/

/-- An exact signed sum v · 2^e, an infinity, or NaN. -/
inductive XVal where
  | nan | inf (neg : Bool) | fin (v : Int) (e : Int)
deriving DecidableEq, Repr

def signed (neg : Bool) (m : Nat) : Int := if neg then -(m : Int) else m
/-- The element value of a code (R63, R65). -/
def elVal (fmt x : Nat) : XVal :=
  match fmtOfCode fmt with
  | some f => match unpack f false x with
    | .nan _ => .nan | .inf n => .inf n | .fin n m e => .fin (signed n m) e
  | none => match intOfCode fmt with
    | some (w, sg) => .fin (intVal w sg x) 0
    | none => .fin 0 0
/-- The value of a BPI element from its first `p` planes of width `bw` (R70): `bits` lists the planes' bits. -/
def bpiVal (bw : Nat) (mid : Bool) (bits : List Nat) : Int :=
  let p := bits.length
  let v := (bits.drop 1).foldl (fun (v : Int) (x : Nat) => 2 * v + x) (-((bits.headD 0 : Nat) : Int))
  v * 2 ^ (bw - p) + (if mid && p < bw then 2 ^ (bw - p - 1) else 0)
/-- The bytes of a tile row. -/
def tileRow (b : Block) (t y n : Nat) : List Byte := (List.range n).map (tileByte b t y)
/-- Bits `[lo, lo+n)` of a tile row's bit stream (R64, R268). -/
def rowBits (row : List Byte) (lo n : Nat) : Nat := ofLeBytes ((row.drop (lo / 8)).take ((lo % 8 + n + 7) / 8)) / 2 ^ (lo % 8) % 2 ^ n
/-- Element k of a row of an operand, before scales. -/
def elemVal (row : List Byte) (cfg : Word) (fmt planes : Nat) (mid : Bool) (k : Nat) : XVal :=
  if fmt = 15 then
    let n := kOf cfg 15 / 8
    .fin (bpiVal (tcBw cfg + 1) mid ((List.range (planes + 1)).map fun q => rowBits row (8 * (q * n) + k) 1)) 0
  else elVal fmt (rowBits row (codeBits fmt * k) (codeBits fmt))

def xMul (a b : XVal) : XVal :=
  match a, b with
  | .nan, _ | _, .nan => .nan
  | .inf n, .inf m => .inf (n != m)
  | .inf n, .fin v _ | .fin v _, .inf n => if v = 0 then .nan else .inf (n != decide (v < 0))
  | .fin v e, .fin w f => .fin (v * w) (e + f)
def xAdd (a b : XVal) : XVal :=
  match a, b with
  | .nan, _ | _, .nan => .nan
  | .inf n, .inf m => if n = m then .inf n else .nan
  | .inf n, _ => .inf n
  | _, .inf n => .inf n
  | .fin v e, .fin w f => let g := min e f; .fin (v * 2 ^ (e - g).toNat + w * 2 ^ (f - g).toNat) g
/-- Round(s, F32, RN) (R81). -/
def xRound (a : XVal) : Nat :=
  match a with
  | .nan => 0x7FC00000
  | .inf n => infPat fmF32 n
  | .fin v e => (roundTo fmF32 .rn false false (decide (v < 0)) v.natAbs e false).1
def xInt (a : XVal) : Int := match a with | .fin v e => v * 2 ^ e.toNat | _ => 0

/-- An E8M0 scale (R66). -/
def e8m0 (x : Nat) : XVal := if x = 255 then .nan else .fin 1 ((x : Int) - 127)
/-- A number of `n` bytes of a scale table. -/
def tabNum (tab : List Byte) (off n : Nat) : Nat := ofLeBytes ((tab.drop off).take n)

/-- One operand of an mma with its scale table. -/
structure MOp where
  t : Nat
  cfg : Word
  fmt : Nat
  planes : Nat
  tab : List Byte

/-- A row of an operand: its elements as Expand gives them (R80), scaled under SMODE 1; its scale under SMODE 2; its poison. A row whose valid bit
is clear holds zero bytes and reads as zero elements: for BPI without the midpoint too (R276). -/
structure MRow where
  y : Nat
  vals : List XVal
  scale : XVal
  bad : Bool
def expandEl (fmt mode : Nat) (scales : List XVal) (v : XVal) (k : Nat) : XVal :=
  if mode = 1 then xMul (if fmt = 8 then xMul v (.fin 1 (-6)) else v) (scales.getD (k / 32) .nan) else v
def expandRow (b : Block) (o : MOp) (mode : Nat) (mid : Bool) (y : Nat) : MRow :=
  let kk := kOf o.cfg o.fmt
  let row := tileRow b o.t y (tcBytes o.cfg)
  let scales := if mode = 1 then (List.range (kk / 32)).map fun h => e8m0 (tabNum o.tab (y * (kk / 32) + h) 1) else []
  { y := y, vals := (List.range kk).map fun k => expandEl o.fmt mode scales (if o.fmt = 15 && !rowValid b o.t y then .fin 0 0 else elemVal row o.cfg o.fmt o.planes mid k) k
    scale := if mode = 2 then elVal 0 (tabNum o.tab (4 * y) 4) else .fin 1 0, bad := rowBad b o.t y }
def operandRows (b : Block) (o : MOp) (mode : Nat) (mid : Bool) : List MRow := (List.range (tcRows o.cfg)).map (expandRow b o mode mid)

/-- The exact sum of products of a chunk. -/
def chunkSum (g : Nat) (la lb : List XVal) (ch : Nat) : XVal :=
  (((la.drop (ch * g)).take g).zip ((lb.drop (ch * g)).take g)).foldl (fun s e => xAdd s (xMul e.1 e.2)) (.fin 0 0)
/-- One chunk into an element: the new bits and whether it saturated (R81, R83). -/
def chunkStep (f : DWord) (ra rb : MRow) (st : Nat × Bool) (s : XVal) : Nat × Bool :=
  if fsInt f then
    let r := addInt32 (fsSat f) st.1 (xInt s)
    (r.1, st.2 || r.2)
  else
    let s := if fsMode f = 2 then xMul (xMul s ra.scale) rb.scale else s
    ((fAdd fmF32 .rn {} st.1 (xRound s)).1, st.2)
/-- The scale tables of an mma as the scratchpad holds them (R277). -/
def scaleTabs (b : Block) (f : DWord) (ca cb : Word) : List Byte × List Byte :=
  (Memory.readBytes b.spad (fsAsc f) (tcRows ca * scaleBytes f (kOf ca (fsA f))), Memory.readBytes b.spad (fsBsc f) (tcRows cb * scaleBytes f (kOf cb (fsB f))))
/-- The two operands of an mma. -/
def mmaOpA (ta : Nat) (f : DWord) (ca : Word) (tabs : List Byte × List Byte) : MOp :=
  { t := ta, cfg := ca, fmt := fsA f, planes := fsPa f, tab := tabs.1 }
def mmaOpB (tb : Nat) (f : DWord) (cb : Word) (tabs : List Byte × List Byte) : MOp :=
  { t := tb, cfg := cb, fmt := fsB f, planes := fsPb f, tab := tabs.2 }
/-- An element of C after a chunk: its bits, the poison of the operands' rows, and the saturation of the clock `cyc` (R81, R84, R386). -/
def mmaPut (x : Block) (cyc c : Nat) (ra rb : MRow) (r : Nat × Bool) : Block :=
  { x with accs := x.accs.set 0 (accKey c ra.y rb.y) (BitVec.ofNat 32 r.1)
           accPois := if ra.bad || rb.bad then x.accPois.set false (accKey c ra.y rb.y) true else x.accPois
           accSat := if r.2 then x.accSat ||| (1#48 <<< c) else x.accSat
           satNew := if r.2 then (if x.satAt = cyc + 1 then x.satNew else 0) ||| (1#48 <<< c) else x.satNew
           satAt := if r.2 then cyc + 1 else x.satAt }
/-- ONE CHUNK of an mma into every element of C (R81): elements beyond M and N are unchanged (R276). -/
def mmaChunk (b : Block) (cyc c ta tb : Nat) (f : DWord) (ca cb : Word) (tabs : List Byte × List Byte) (ch : Nat) : Block :=
  let g := chunkLen (fsA f) (fsB f)
  let rows := operandRows b (mmaOpA ta f ca tabs) (fsMode f) (fsMid f)
  let cols := operandRows b (mmaOpB tb f cb tabs) (fsMode f) (fsMid f)
  rows.foldl (fun x ra => cols.foldl (fun x rb =>
    mmaPut x cyc c ra rb (chunkStep f ra rb ((accEl b c ra.y rb.y).toNat, false) (chunkSum g ra.vals rb.vals ch))) x) b

/-- The flip of R405 as a selected mma finishes: the element's bit is inverted, ARM cleared, DONE set. -/
def injectFlip (s : State) (c : Nat) (m : Cmd) : State :=
  let d := (getCore s c).dbg.dinj
  if m.inject ∧ dinjHits d m.kind then
    let k := accKey (dinjAcc d) (dinjRow d) (dinjCol d)
    let s := modBlock s m.block fun b => { b with accs := b.accs.set 0 k (b.accs.get 0 k ^^^ (1#32 <<< (d.toNat % 32))) }
    modCore s c fun x => { x with dbg := { x.dbg with dinj := (d &&& ~~~(1#64 <<< 63)) ||| (1#64 <<< 62) } }
  else s
/-- MMA_RUN: the array adds one chunk of its oldest mma, in one clock (R84, R279); the scale tables are read as it starts, and it finishes
with its last chunk. -/
def execMmaRun (c : Nat) (s : State) : Host.Outcome State Fault Refusal :=
  ready s c 2 fun m => match m.kind, getBlock s m.block with
    | .mma n ta tb f ca cb, some b =>
      let tabs := if m.started then m.tabs else scaleTabs b f ca cb
      let x := getCore s c
      let s := modCore s c fun x => { x with engFree := x.engFree.set 0 2 (x.cyc + 1) }
      let s := modBlock s m.block fun b => mmaChunk b x.cyc n ta tb f ca cb tabs m.pos
      if m.pos + 1 < mmaChunks f ca then modCmd s c m.id fun y => { y with started := true, pos := m.pos + 1, tabs := tabs }
      else finishCmd (injectFlip s c m) c m
    | _, _ => s

end Sys2Proof.Machine
end

