-- ==== Sys2Proof/Machine/Drain.lean ====
section
/-! DEFINITION. Drain programs and drains: drld, drain, the micro-operations, parking and resuming (R85, R86, R111, R131, R142,
R282 to R297). -/

namespace Sys2Proof.Machine

/-! ### Micro-operation words (R131, R282) -/

/-- A decoded micro-operation. -/
structure Uop where
  op : Nat
  dd : Nat
  da : Nat
  db : Nat
  dc : Nat
  x : Nat
deriving DecidableEq, Repr

def uop (w : Word) : Uop :=
  { op := fld w.toNat 27 5, dd := fld w.toNat 24 3, da := fld w.toNat 21 3, db := fld w.toNat 18 3, dc := fld w.toNat 15 3, x := fld w.toNat 0 15 }
/-- Which of DD, DA, DB, DC a micro-operation uses, and the bits of X. -/
def uopUses (op : Nat) : Bool × Bool × Bool × Bool × Nat :=
  match op with
  | 0x00 => (false, false, false, false, 0)
  | 0x01 => (true, false, false, false, 0)
  | 0x02 | 0x03 | 0x04 => (true, true, true, false, 1)
  | 0x05 => (true, true, true, true, 0)
  | 0x06 | 0x07 => (true, true, true, false, 1)
  | 0x08 => (true, true, false, false, 1)
  | 0x09 | 0x0A => (true, true, false, false, 0)
  | 0x0B => (true, true, true, true, 1)
  | 0x0C => (true, false, false, false, 15)
  | 0x0D => (true, false, false, false, 1)
  | 0x0E => (true, false, false, false, 0)
  | 0x0F => (true, true, false, false, 0x1FF)
  | 0x10 => (true, true, false, false, 1)
  | 0x11 => (false, true, false, false, 1)
  | 0x12 | 0x13 => (false, true, false, false, 0)
  | 0x14 | 0x15 => (false, true, false, false, 15)
  | _ => (true, true, true, true, 0)
/-- A field that the word does not use is nonzero. -/
def uopSpare (u : Uop) : Bool :=
  let k := uopUses u.op
  (!k.1 && u.dd != 0) || (!k.2.1 && u.da != 0) || (!k.2.2.1 && u.db != 0) || (!k.2.2.2.1 && u.dc != 0) || u.x &&& k.2.2.2.2 != u.x
/-- An invalid dcvt or dmx code (R289, R293). -/
def uopCodeBad (u : Uop) : Bool :=
  match u.op with
  | 0x0F => let src := u.x / 16 % 16; 13 < u.x % 16 || u.x % 16 == src || !(src == 0 || src == 12)
  | 0x14 => u.x < 3 || 8 < u.x
  | _ => false
/-- A count condition broken by a word after the words before it. -/
def uopCountBad (before : List Uop) (u : Uop) : Bool :=
  let has := fun k => before.any fun v => v.op == k
  ((u.op == 0x11 || u.op == 0x12 || u.op == 0x14 || u.op == 0x15) && has u.op) || (u.op == 0x13 && has 0x14) || (u.op == 0x14 && has 0x13)
/-- The SUBC of the first word that breaks a condition, or of a program with no dend. -/
def programBad : List Uop → List Uop → Option Nat
  | _, [] => some 0x112
  | before, u :: t =>
    if 0x16 < u.op then some 0x110
    else if uopSpare u then some 0x111
    else if uopCodeBad u then some 0x114
    else if uopCountBad before u then some 0x113
    else if u.op = 0 then none
    else programBad (before ++ [u]) t
/-- The program of a slot up to its dend. -/
def program (d : DSlot) : List Uop := (d.words.map uop).takeWhile fun u => u.op != 0

/-- A drain record of 192 bytes (R142). -/
def slotFrom (bs : List Byte) : DSlot :=
  let w := fun i => BitVec.ofNat 32 (fieldOf bs (4 * i) 4)
  { words := (List.range 32).map w, consts := (List.range 16).map fun i => w (32 + i) }

/-- R282. -/
def execDrld (slot : BitVec 5) (a : SReg) (s : State) : Host.Outcome State Fault Refusal :=
  onUser s fun b w =>
    let at_ := (sreg w a).toNat
    if !ownsSlot b slot.toNat then trapS s b w .perm 7 0
    else if at_ % 64 ≠ 0 then trapS s b w .align 2 (sreg w a)
    else if outOf b at_ 192 then trapS s b w .perm 2 (sreg w a)
    else if olderOp s b.uid w.idx s.serial (.spad b.uid at_) 192 || sstsOut s b w then waitS s b w .retry
    else
      let d := slotFrom (spadRead s b.uid at_ 192)
      match programBad [] (d.words.map uop) with
      | some subc => trapS s b w .illegal subc 0
      | none => if !engTakes s b w then waitS s b w .retry else watch (acceptCmd s b w (.drld slot.toNat d)) (byMe b w) (.spad b.uid at_) 192 2

/-! ### The destination descriptor (R284 to R286) -/

structure DDesc where
  pbase : Nat
  ppitch : Nat
  pfmt : Nat
  flags : Nat
  sbase : Nat
  spitch : Nat
  rowt0 : Nat
  rowt1 : Nat
  colt0 : Nat
  rres : Nat
  spare : Nat
deriving DecidableEq, Repr

def ddesc (bs : List Byte) : DDesc :=
  { pbase := fieldOf bs 0 8, ppitch := fieldOf bs 8 4, pfmt := fieldOf bs 0xC 1, flags := fieldOf bs 0xD 1, sbase := fieldOf bs 0x10 8,
    spitch := fieldOf bs 0x18 4, rowt0 := fieldOf bs 0x20 8, rowt1 := fieldOf bs 0x28 8, colt0 := fieldOf bs 0x30 8, rres := fieldOf bs 0x38 8,
    spare := fieldOf bs 0xE 2 + fieldOf bs 0x1C 4 }

/-- Space and address of a field. -/
def spaceOf (v : Nat) : Nat := v / 2 ^ 62
def addrOf (v : Nat) : Nat := v % 2 ^ 62
/-- A field whose reserved bits or space are bad; only PBASE may name a tile. -/
def fieldBad (v : Nat) (tile : Bool) : Bool :=
  match spaceOf v with
  | 0 => 2 ^ 57 ≤ addrOf v
  | 1 => 2 ^ 22 ≤ addrOf v
  | 2 => !tile || 16 ≤ addrOf v
  | _ => true

def holds (us : List Uop) (op : Nat) : Bool := us.any fun u => u.op == op
def holdsRow (us : List Uop) (n : Nat) : Bool := us.any fun u => u.op == 0x0D && u.x == n
/-- Whether the program stores primary elements. -/
def usesP (us : List Uop) : Bool := holds us 0x13 || holds us 0x14
/-- The table fields a program uses. -/
def tablesOf (us : List Uop) (d : DDesc) : List Nat :=
  (if holdsRow us 0 then [d.rowt0] else []) ++ (if holdsRow us 1 then [d.rowt1] else []) ++ (if holds us 0x0E then [d.colt0] else [])
  ++ (if holds us 0x11 then [d.rres] else [])

/-- A tile that a drain cannot write (R286 check 5). -/
def drainTileBad (b : Block) (t : Nat) (cfg : Word) : Bool :=
  !resTile b t || tcEfmt cfg == 15 || tcEfmt cfg == 14 || tcRows cfg != 128 || tcBytes cfg < 16 * codeBits (tcEfmt cfg)

/-- R286 checks 4 to 6. `cfg` gives the configurations the drain meets. -/
def drainCheck (b : Block) (us : List Uop) (d : DDesc) (cfg : Nat → Word) : Option (Cause × Nat) :=
  let p := usesP us
  let mx := holds us 0x14
  let w := codeBits d.pfmt
  let tiled := p && spaceOf d.pbase == 2
  let bad4 := d.spare != 0 || 4 ≤ d.flags || (p && fieldBad d.pbase true) || (mx && fieldBad d.sbase false)
    || (tablesOf us d).any (fun v => fieldBad v false) || (p && 13 < d.pfmt)
  let bad5 := (us.any fun u => u.op == 0x14 && u.x != d.pfmt)
    || (tiled && (drainTileBad b (addrOf d.pbase) (cfg (addrOf d.pbase)) || d.pfmt != tcEfmt (cfg (addrOf d.pbase))))
    || us.any fun u => u.op == 0x15 && drainTileBad b u.x (cfg u.x)
  let prim := if p && !tiled then [(d.pbase, d.ppitch, if 8 ≤ w then w / 8 else 1, 128 * w / 8)] else []
  let sec := if mx then [(d.sbase, d.spitch, 1, 4)] else []
  let items := prim ++ sec ++ (tablesOf us d).map fun v => (v, 0, 4, 512)
  if bad4 then some (.illegal, 0x118)
  else if bad5 then some (.illegal, 0x119)
  else if items.any (fun e => addrOf e.1 % e.2.2.1 != 0 || e.2.1 % e.2.2.1 != 0) then some (.align, 2)
  else if items.any (fun e => spaceOf e.1 == 1 && outOf b (addrOf e.1 + 127 * e.2.1) e.2.2.2) then some (.perm, 2)
  else none

/-- R283, R286. -/
def execDrain (c : BitVec 6) (p : BitVec 5) (ds : SReg) (k : Option (BitVec 2)) (s : State) : Host.Outcome State Fault Refusal :=
  onUser s fun b w =>
    let at_ := (sreg w ds).toNat
    if !ownsSlot b p.toNat then trapS s b w .perm 7 0
    else if !resAcc b c.toNat then trapS s b w .illegal 0x103 0
    else if at_ % 64 ≠ 0 then trapS s b w .align 2 (sreg w ds)
    else if outOf b at_ 64 then trapS s b w .perm 2 (sreg w ds)
    else if olderOp s b.uid w.idx s.serial (.spad b.uid at_) 64 || sstsOut s b w then waitS s b w .retry
    else
      let bs := spadRead s b.uid at_ 64
      let d := slotOf s b p.toNat
      match drainCheck b (program d) (ddesc bs) (tcfOf s b) with
      | some (cause, subc) => trapS s b w cause subc 0
      | none =>
        let cmd := CmdKind.drain c.toNat p.toNat d bs ((List.range 16).map (tcfOf s b)) (k.map (·.toNat))
        if !engTakes s b w then waitS s b w .retry else watch (acceptCmd s b w cmd) (byMe b w) (.spad b.uid at_) 64 2

/-! ### Running an element (R287 to R294) -/

/-- What is fixed while a drain runs; `deny` says that a peer refuses the reads, or the writes, that the drain makes of it (R417). -/
structure DCtx where
  core : Nat
  b : Nat
  w : Nat
  id : Nat
  batch : BitVec 16
  acc : Nat
  us : List Uop
  consts : List Word
  d : DDesc
  cfg : List Word
  st : DrainSt
  depth : Nat
  regionCount : Nat
  issuedAt : Nat
  deny : Option Bool := none

/-- The running element: registers, reductions, poison, and the first access that cannot be performed (its micro-operation, STIX
and address). -/
structure DRun where
  s : State
  regs : List Word := List.replicate 8 0
  red : Option Word
  fold : DWord
  gather : List Word
  carry : Nat × Nat × Bool
  asked : Option Nat := none
  pois : Bool := false
  redPois : Bool
  gatherPois : Bool
  wc : Nat
  reported : Bool
  stop : Option (Nat × Nat × Nat) := none

def reg (r : DRun) (n : Nat) : Word := r.regs.getD n 0
def setReg (r : DRun) (n : Nat) (v : Nat) : DRun := { r with regs := r.regs.set n (BitVec.ofNat 32 v) }
def byDrain (k : DCtx) : By := some (k.core, k.b, k.w)

/-- Reads a word of a table or of RRES (R287, R288). -/
def drainRead (k : DCtx) (r : DRun) (u stix field idx : Nat) : DRun × Nat :=
  match getBlock r.s k.b with
  | none => (r, 0)
  | some b =>
    let a := addrOf field + 4 * idx
    if spaceOf field = 1 then
      ({ r with s := watch r.s (byDrain k) (.spad k.b a) 4 2, pois := r.pois || spadPois r.s k.b a }, ofLeBytes (spadRead r.s k.b a 4))
    else match engXlat r.s k.core b a false with
      | .ok l => if peerBusy r.s l || (k.deny == some false && isPeerLine l) then ({ r with stop := some (u, stix, a) }, 0) else
                 ({ r with s := watch r.s (byDrain k) (.g l) 4 2, pois := r.pois || gPois r.s l }, ofLeBytes (gReadN r.s l 4))
      | _ => ({ r with stop := some (u, stix, a) }, 0)

/-- Bits into a tile row, which becomes valid (R268, R292). -/
def putBits (s : State) (b t y lo n v : Nat) (p : Bool) : State :=
  match getBlock s b with
  | none => s
  | some x =>
    let first := lo / 8
    let len := (lo % 8 + n + 7) / 8
    let old := ofLeBytes ((List.range len).map fun i => tileByte x t y (first + i))
    let m := 2 ^ (lo % 8)
    let new := old - (old / m % 2 ^ n) * m + v % 2 ^ n * m
    let s := modBlock s b fun z => { z with tileValid := z.tileValid.set false (t * 128 + y) true }
    let s := (leBytes len new).zipIdx.foldl (fun s e => modBlock s b fun z => { z with tiles := Memory.write z.tiles (tileKey t y (first + e.2)) e.1 }) s
    if p then modBlock s b fun z => { z with tilePois := z.tilePois.set false (t * 128 + y) true } else s

/-- One write of the access order: performed unless it comes before the restart's skip point (R297). `bs` may be empty for an
element whose byte the next one completes. A write that goes to a peer stands there until the peer has answered (R295, R417). -/
def drainWrite (k : DCtx) (r : DRun) (u stix field a : Nat) (bs : List Byte) (p : Bool) : DRun :=
  if r.stop.isSome then r
  else if r.wc < k.st.skip then { r with wc := r.wc + 1 }
  else match getBlock r.s k.b with
    | none => r
    | some b =>
      if spaceOf field = 1 then
        { r with wc := r.wc + 1
                 s := if bs.isEmpty then r.s else watch (spadWrite r.s k.b a bs p) (byDrain k) (.spad k.b a) bs.length 1 }
      else match engXlat r.s k.core b a true with
        | .ok l =>
          let send := engineWrite r.s k.core
            { id := 0, core := k.core, block := k.b, warp := k.w, engine := true, batch := k.batch, ent := { entOf b l a bs p with ids := [k.id] } }
          if bs.isEmpty then { r with wc := r.wc + 1 }
          else if ¬ isPeerLine l then { r with wc := r.wc + 1, s := send }
          else if k.deny = some true then { r with stop := some (u, stix, a) }
          else if r.asked = some r.wc then
            if r.s.transit.any (fun t => t.engine && t.ent.ids == [k.id]) then { r with stop := some (u, stix, a) }
            else { r with wc := r.wc + 1, asked := none }
          else { r with s := send, asked := some r.wc, stop := some (u, stix, a) }
        | _ => { r with stop := some (u, stix, a) }
def drainWriteTile (k : DCtx) (r : DRun) (t y lo n v : Nat) (p : Bool) : DRun :=
  if r.stop.isSome then r
  else if r.wc < k.st.skip then { r with wc := r.wc + 1 }
  else { r with wc := r.wc + 1, s := putBits r.s k.b t y lo n v p }

/-- Element j of primary row i from a value, with the bits of the byte before it and their poison: what `carry` becomes, and the write. -/
def primary (k : DCtx) (r : DRun) (u stix j v : Nat) (carry : Nat × Nat × Bool) (p : Bool) : DRun × (Nat × Nat × Bool) :=
  let w := codeBits k.d.pfmt
  if spaceOf k.d.pbase = 2 then (drainWriteTile k r (addrOf k.d.pbase) k.st.row (w * j) w v p, (0, 0, false))
  else
    let bits := carry.1 + (v % 2 ^ w) * 2 ^ carry.2.1
    let n := carry.2.1 + w
    let a := addrOf k.d.pbase + k.st.row * k.d.ppitch + w * j / 8
    let r := drainWrite k r u stix k.d.pbase a (leBytes (n / 8) bits) (p || carry.2.2)
    -- an element that ends inside a further byte accesses that byte too (R292)
    let r := if n / 8 ≠ 0 ∧ n % 8 ≠ 0 then drainWrite k r u stix k.d.pbase (a + n / 8) [] p else r
    (r, (bits / 2 ^ (8 * (n / 8)), n % 8, n % 8 != 0 && (p || (n / 8 == 0 && carry.2.2))))

/-- R68: the scale byte and the 32 elements of a block. -/
def mxBlock (code : Nat) (vs : List Word) : Nat × List Nat :=
  let xs := vs.map fun v => unpack fmF32 false v.toNat
  if xs.any (fun x => match x with | .fin _ _ _ => false | _ => true) then (0xFF, vs.map fun _ => 0)
  else
    let top : FV → Int := fun x => match x with | .fin _ m e => if m = 0 then -1000 else e + bitLen m - 1 | _ => -1000
    let emax : Int := match code with | 3 => 8 | 4 => 15 | 5 => 2 | 6 => 4 | 7 => 2 | _ => 0
    let x := clampInt (xs.foldl (fun a v => max a (top v)) (-1000) - emax) (-127) 127
    ((x + 127).toNat, xs.map fun v => match v with
      | .fin n m e =>
        if code = 8 then intPat 8 (clampInt (roundInt .rn n m (e + 6 - x)).1 (-128) 127)
        else match fmtOfCode code with
          | some f => (roundTo f .rn false true n m (e - x) false).1
          | none => 0
      | _ => 0)

/-- The writes of a dmx block: 32 elements, then the scale (R293). -/
def mxWrites (k : DCtx) (r : DRun) (u j code : Nat) : DRun :=
  let blk := mxBlock code r.gather
  let p := r.gatherPois
  let q := (blk.2.zipIdx).foldl (fun (q : DRun × (Nat × Nat × Bool)) e => primary k q.1 u e.2 (j - 31 + e.2) e.1 q.2 p) (r, (0, 0, false))
  drainWrite k q.1 u 32 k.d.sbase (addrOf k.d.sbase + k.st.row * k.d.spitch + j / 32) [BitVec.ofNat 8 blk.1] p

/-- F32 with round to nearest and every NaN canonical (R86); signed integers. -/
def canon (x : Nat) : Nat := if isNaN (unpack fmF32 false x) then 0x7FC00000 else x
def dMin (int : Bool) (a b : Nat) : Nat := if int then (if intVal 32 true a ≤ intVal 32 true b then a else b) else canon (fMinMax fmF32 {} false a b).1
def dMax (int : Bool) (a b : Nat) : Nat := if int then (if intVal 32 true a ≤ intVal 32 true b then b else a) else canon (fMinMax fmF32 {} true a b).1

/-- A poisoned accumulator element is consumed: one record for the drain, its skid counted from the drain's issue (R294, R387,
R393). -/
def drainConsumes (k : DCtx) (r : DRun) : DRun :=
  if r.reported then r
  else { r with reported := true
                s := modWarp r.s k.b k.w fun w => { w with cons := w.cons ++
                  [{ depth := k.depth, regionCount := k.regionCount, unit := 8, pa := 0, va := 0, skid := Nat.min 256 (w.issues - k.issuedAt) }] } }

/-- One micro-operation of element (row, j) (R288 to R293). -/
def uopStep (k : DCtx) (j : Nat) (r : DRun) (e : Uop × Nat) : DRun :=
  if r.stop.isSome then r else
  let u := e.1
  let a := (reg r u.da).toNat
  let b := (reg r u.db).toNat
  let c := (reg r u.dc).toNat
  let int := u.x % 2 == 1
  let f := fun (i : Nat) (g : Nat × FFlags) => setReg r u.dd (if int then i % 2 ^ 32 else g.1)
  match u.op with
  | 0x01 =>
    match getBlock r.s k.b with
    | none => r
    | some x =>
      if accBad x k.acc k.st.row j then
        let r := drainConsumes k r
        let v := freeVal r.s
        setReg { r with s := v.2, pois := true } u.dd (v.1.toNat % 2 ^ 32)
      else setReg r u.dd (accEl x k.acc k.st.row j).toNat
  | 0x02 => f (a + b) (fAdd fmF32 .rn {} a b)
  | 0x03 => f (a + 2 ^ 32 - b) (fAdd fmF32 .rn {} a (flipIf fmF32 true b))
  | 0x04 => f (a * b) (fMul fmF32 .rn {} a b)
  | 0x05 => setReg r u.dd (fFma fmF32 .rn {} a b c).1
  | 0x06 => setReg r u.dd (dMax int a b)
  | 0x07 => setReg r u.dd (dMin int a b)
  | 0x08 => setReg r u.dd (if int then intPat 32 (intVal 32 true a).natAbs else canon (a % 2 ^ 31))
  | 0x09 => setReg r u.dd (fSfu .exp2 {} a).1
  | 0x0A => setReg r u.dd (fSfu .rcp {} a).1
  | 0x0B => setReg r u.dd (dMin int (dMax int a b) c)
  | 0x0C => setReg r u.dd (k.consts.getD u.x 0).toNat
  | 0x0D => let q := drainRead k r e.2 0 (if u.x = 1 then k.d.rowt1 else k.d.rowt0) k.st.row; setReg q.1 u.dd q.2
  | 0x0E => let q := drainRead k r e.2 0 k.d.colt0 j; setReg q.1 u.dd q.2
  | 0x0F => setReg r u.dd (fConv (u.x % 16) (u.x / 16 % 16) .rn {} (u.x / 256 % 2 == 1) a).1
  | 0x10 => setReg r u.dd (fConv 0 (if int then 13 else 12) .rn {} false a).1
  | 0x11 =>
    let v := match r.red with
      | none => a
      | some x => if int then canon (fMinMax fmF32 {} true x.toNat a).1 else (fAdd fmF32 .rn {} x.toNat a).1
    { r with red := some (BitVec.ofNat 32 v), redPois := r.redPois || r.pois }
  | 0x12 => { r with fold := BitVec.ofNat 64 (add64 r.fold.toNat (widen a)) }
  | 0x13 => let q := primary k r e.2 0 j a k.st.carry r.pois; { q.1 with carry := q.2 }
  | 0x14 =>
    let r := { r with gather := r.gather ++ [reg r u.da], gatherPois := r.gatherPois || r.pois }
    if j % 32 = 31 then mxWrites k r e.2 j u.x else r
  | 0x15 =>
    let w := codeBits (tcEfmt (k.cfg.getD u.x 0))
    drainWriteTile k r u.x k.st.row (w * j) w a r.pois
  | 0x16 => setReg r u.dd (if c < 2 ^ 31 then a else b)
  | _ => r

/-- The index of the program's dred. -/
def dredIx (us : List Uop) : Nat := us.findIdx fun u => u.op == 0x11

/-- The context of a drain command. -/
def drainCtx (c : Nat) (m : Cmd) : Option DCtx :=
  match m.kind with
  | .drain acc _ d desc cfg _ =>
    some { core := c, b := m.block, w := m.warp, id := m.id, batch := m.batch, acc := acc, us := program d, consts := d.consts, d := ddesc desc,
           cfg := cfg, st := m.drain, depth := m.depth, regionCount := m.regionCount, issuedAt := m.issuedAt }
  | _ => none

/-- The run that a drain's point begins with; a dmx block starts with nothing gathered. The end of a row begins none. -/
def drainStart (s : State) (k : DCtx) : DRun :=
  let x := k.st
  let fresh := x.col % 32 == 0 && decide (x.col < 128)
  { s := s, red := x.red, fold := x.fold, gather := if fresh then [] else x.gather, carry := x.carry, asked := x.asked, redPois := x.redPois,
    gatherPois := !fresh && x.gatherPois, wc := x.wc, reported := x.reported }

/-- What a drain does next: the RRES read of a row, an element, or the RRES write (R294). -/
def drainAct (s : State) (k : DCtx) : DRun :=
  let r := drainStart s k
  let red := holds k.us 0x11
  if ¬ k.st.began then
    if red ∧ k.d.flags / 2 % 2 = 1 then
      let q := drainRead k r (dredIx k.us) 33 k.d.rres k.st.row
      { q.1 with red := some (BitVec.ofNat 32 q.2), redPois := q.1.pois, pois := false }
    else { r with red := none, redPois := false }
  else if k.st.col < 128 then
    let q := (k.us.zipIdx).foldl (uopStep k k.st.col) r
    q
  else if red then
    drainWrite k r (dredIx k.us) 33 k.d.rres (addrOf k.d.rres + 4 * k.st.row) (leBytes 4 (r.red.getD 0x7FC00001).toNat) r.redPois
  else r

/-- The restart column of R296: the start of the dmx block, else the element itself. -/
def restartHere (k : DCtx) (col : Nat) : Bool := col < 128 && (!holds k.us 0x14 || col % 32 == 0)

/-- The point after a step that was not stopped. -/
def drainNext (k : DCtx) (r : DRun) : DrainSt :=
  let x := { k.st with red := r.red, fold := r.fold, gather := r.gather, carry := r.carry, redPois := r.redPois, gatherPois := r.gatherPois,
                       wc := r.wc, reported := r.reported, asked := none }
  let restart := fun (x : DrainSt) => { x with rred := x.red, rfold := x.fold, rcarry := x.carry, wc := 0, skip := 0 }
  if ¬ k.st.began then restart { x with began := true }
  else if k.st.col < 128 then
    let x := { x with col := k.st.col + 1 }
    if restartHere k x.col then restart x else x
  else restart { x with row := k.st.row + 1, col := 0, began := false, red := none, redPois := false, carry := (0, 0, false) }

/-- One step of a drain; a step that an access stops keeps its point, and the writes already performed are not repeated. -/
def drainStep (s : State) (c : Nat) (m : Cmd) : State :=
  match drainCtx c m with
  | none => s
  | some k =>
    if 128 ≤ m.drain.row then s
    else
      let r := drainAct s k
      modCmd r.s c m.id fun y => { y with drain := match r.stop with
        | some _ => { m.drain with skip := Nat.max m.drain.skip r.wc, reported := r.reported, asked := r.asked }
        | none => drainNext k r }

/-- The drain on an engine. -/
def onEngine (x : Core) (e : Nat) : Option Cmd := x.cmds.find? fun m => unitNo m == 3 && m.started && m.drain.eng == e
def drainSteps (c e : Nat) : Nat → State → State
  | 0, s => s
  | n + 1, s => match onEngine (getCore s c) e with
    | some m => if m.drain.parked then s else drainSteps c e n (drainStep s c m)
    | none => s

/-- DRAIN_RUN: a frozen core makes no access (R403); engine `e` takes the oldest drain that can start when it is free and no longer occupied (R299), and makes `n` steps. -/
def execDrainRun (c e n : Nat) (s : State) : Host.Outcome State Fault Refusal :=
  .next (if 2 ≤ e ∨ masterFrozen s (.core c) then s
  else match onEngine (getCore s c) e with
  | some _ => drainSteps c e n s
  | none => match (getCore s c).cmds.find? fun m => unitNo m == 3 && !m.started && !cmdBlocked (getCore s c) m with
    | some m => if engBusy (getCore s c) (3 + e) then s else drainSteps c e n (modCmd (occupy s c (3 + e) m) c m.id fun y => { y with started := true, drain := { y.drain with eng := e } })
    | none => s)

/-- A drain that adds its fold to a K register with an error consumes it: one record for the drain (R291, R388, R393). -/
def foldConsumes (m : Cmd) (n : Nat) (w : Warp) : Warp :=
  if m.drain.reported ∨ ¬ w.badK.getLsbD n then w
  else { w with cons := w.cons ++ [{ depth := m.depth, regionCount := m.regionCount, unit := 10, pa := 0, va := 0,
                                     skid := Nat.min 256 (w.issues - m.issuedAt) }] }
/-- DRAIN_COMPLETE: after the last row, with every write acknowledged, the fold goes into K and CLR clears C (R287, R291). -/
def execDrainComplete (c e : Nat) (s : State) : Host.Outcome State Fault Refusal :=
  .next (match onEngine (getCore s c) e with
  | none => s
  | some m => match m.kind with
    | .drain acc _ d desc _ kn =>
      if m.drain.row < 128 ∨ cmdOut s m then s
      else
        let s := match kn with
          | some n => if holds (program d) 0x12
            then modWarp s m.block m.warp fun w =>
              setK (foldConsumes m n w) n (BitVec.ofNat 64 (add64 (kreg w n).toNat m.drain.fold.toNat)) else s
          | none => s
        let s := if (ddesc desc).flags % 2 = 1 then modBlock s m.block fun b => clearAcc b (getCore s c).cyc acc else s
        finishCmd s c m
    | _ => s)

/-! ### Parking (R295 to R297) -/

/-- The column a drain restarts at. -/
def rcolOf (k : DCtx) : Nat := let c := Nat.min k.st.col 127; if holds k.us 0x14 then c / 32 * 32 else c
/-- The drain restart record (R296). -/
def drrBytes (k : DCtx) (slot : Nat) (kn : Option Nat) (r : DRun) (u stix a : Nat) : List Byte :=
  let mx := (r.gather.map fun v => v.toNat % 2 ^ 31).foldl Nat.max 0
  leBytes 1 k.acc ++ leBytes 1 slot ++ leBytes 1 k.st.row ++ leBytes 1 (Nat.min k.st.col 127) ++ leBytes 1 (rcolOf k) ++ leBytes 1 u ++ leBytes 1 stix
  ++ leBytes 1 (1 + (match kn with | some n => 2 + 4 * n | none => 0) + 16 * k.st.eng)
  ++ leBytes 4 (if holds k.us 0x14 then mx else 0) ++ leBytes 4 ((k.st.rred.getD 0x7FC00001).toNat) ++ leBytes 8 k.st.rfold.toNat ++ leBytes 8 a
  ++ leBytes 2 k.batch.toNat ++ leBytes 1 k.w ++ leBytes 29 0

/-- Whether the access at which a drain stands writes: all but table reads and the RRES read that begins a row (R294). -/
def standsAtWrite (k : DCtx) (u : Nat) : Bool := k.st.began && (k.us[u]?).all fun x => x.op != 0x0D && x.op != 0x0E
/-- Whether the access at address `a` that a drain stands at cannot be performed, and then whether its cause is PERM: an address that R88
forbids is a PAGE whatever the host says; an access that only waits, for a route, for requests before it or for an answer, does not park the drain.
`deny` is a refusal of a write by its peer. -/
def parkPerm (s : State) (k : DCtx) (b : Block) (wr : Bool) (a : Nat) (perm deny : Bool) : Option Bool :=
  match engXlat s k.core b a wr with
  | .bad => some false
  | .wait => if deny then none else some perm
  | .ok l => if isPeerLine l && wr == deny && (wr || !peerBusy s l) then some perm else none

/-- A drain stops parked at an access that cannot be performed, and its warp takes DRAINFAULT with the record (R295, R296); the writes
before that point are performed first (R297). A drain of a block that has failed is discarded (R346); where no warp of the block lives, the grid
fails and the drain is discarded (R295). -/
def parkDrain (s : State) (c : Nat) (m : Cmd) (perm : Bool) (deny : Bool) : State :=
  match drainCtx c m, m.kind, getBlock s m.block with
  | some k, .drain _ slot _ _ _ kn, some b =>
    let r := drainAct s { k with deny := some deny }
    match r.stop.bind fun e => (parkPerm s k b (standsAtWrite k e.1) e.2.2 perm deny).map fun p => (e, p) with
    | none => if deny then modCmd s c m.id fun y => { y with drain := { m.drain with asked := none } } else s
    | some ((u, stix, a), perm) =>
      if cmdOut r.s m then drainStep s c m
      else if b.frozen then finishCmd r.s c m
      else if (liveWarps b).isEmpty then failGrid (finishCmd r.s c m) b
      else
        let s := modCmd r.s c m.id fun y => { y with drain := { m.drain with
          skip := Nat.max m.drain.skip r.wc, reported := r.reported, asked := none, parked := true, armed := false, parkUop := u, parkStix := stix
          faddr := eaBits a } }
        asyncTrap s m.block m.warp
          { cause := .drainFault, subc := (if perm then 0x105 else 0x104) + 0x200 * m.drain.eng, faddr := eaBits a, drr := drrBytes k slot kn r u stix a
            tag := m.id }
  | _, _, _ => s

/-- DRAIN_PARK: the host refuses the page of the access at which the drain stands, or a peer refuses its read. -/
def execDrainPark (c e : Nat) (perm : Bool) (s : State) : Host.Outcome State Fault Refusal :=
  .next (match onEngine (getCore s c) e with
  | none => s
  | some m => if m.drain.parked ∨ 128 ≤ m.drain.row then s else parkDrain s c m perm false)

/-- DRAIN_RESUME: a parked drain whose DRAINFAULT has been returned from starts again at (ROW, RCOL) with RPART and KFOLD. -/
def execDrainResume (c e : Nat) (s : State) : Host.Outcome State Fault Refusal :=
  .next (match onEngine (getCore s c) e with
  | none => s
  | some m => match drainCtx c m with
    | none => s
    | some k => if m.drain.parked ∧ m.drain.armed then
        modCmd s c m.id fun y => { y with drain := { y.drain with parked := false, armed := false, col := if k.st.began then rcolOf k else 0,
                                                                  red := y.drain.rred, fold := y.drain.rfold, carry := y.drain.rcarry, gather := [], wc := 0 } }
      else s)

/-! ### Refusals of a peer (R417) -/

/-- A write of a copy is refused: the copy stops, its element not done, and writes PROG; its warp traps (R183). -/
def copyRefused (s : State) (t : Transit) (perm : Bool) : State :=
  let k := t.ent.ids.headD 0
  let s := { s with transit := s.transit.filter fun u => u.id != t.id }
  let s := match findCopy (getCore s t.core) k with
    | some y =>
      let y := { y with moved := t.ent.ids.tail.foldl (fun m e => m.set false e false) y.moved }
      copyEnds s t.core y (progOf s y)
    | none => s
  asyncTrap s t.block t.warp { cause := refusedCause perm, subc := 0x102, faddr := BitVec.ofNat 64 t.ent.vline }
/-- A write of an engine is refused: a tst ends without its remaining accesses, a drain parks at it (R295). -/
def engineRefused (s : State) (t : Transit) (perm : Bool) : State :=
  let r : TrapRec := { cause := refusedCause perm, subc := 0x102, faddr := BitVec.ofNat 64 t.ent.vline }
  let dropped := { s with transit := s.transit.filter fun u => u.id != t.id }
  match (getCore s t.core).cmds.find? fun m => t.ent.ids == [m.id] with
  | some m => if unitNo m = 3 then parkDrain dropped t.core m perm true
              else if m.moved then asyncTrap (endTransfers dropped t.core) t.block t.warp r else transferFails dropped t.core m r
  | none => asyncTrap dropped t.block t.warp r
/-- PEER_REFUSAL of the request `id`: of a write in transit, of a scalar access, or of the lanes of one line of a load, atomic or red. A
route with no live port holds its requests. -/
def execPeerRefusal (id : Nat) (perm : Bool) (s : State) : Host.Outcome State Fault Refusal :=
  .next (match s.transit.find? fun t => t.id == id with
  | some t => match t.ent.line with
    | .peer d _ =>
      if ¬ routeUp s d then s
      else if t.copyEng then copyRefused s t perm
      else if t.engine then engineRefused s t perm
      else asyncTrap (ackTransit s t) t.block t.warp { cause := refusedCause perm, subc := 0x102, faddr := BitVec.ofNat 64 t.ent.vline }
    | _ => s
  | none => match findOp s id with
    | some o => if (o.todo.find? isPeerLoc).any (fun a => held s (gLoc a)) then s else refuseOp s o perm
    | none => s)

end Sys2Proof.Machine
end

