-- ==== Sys2Proof/Machine/WarpEvents.lean ====
section
/-! DEFINITION. Events about one warp that no memory operation raises: its timer (R305), the end of infill's emulation (R343),
and the errors that the codes find in storage (R385, R388). -/

namespace Sys2Proof.Machine

/-- Whether the timer of a warp has crossed its compare value and not fired; a warp that waits at exit takes no WTIMER trap
(R305, R340). -/
def wtimDue (w : Warp) : Bool := w.wtimArmed && decide (w.wtimCmp.toNat ≤ w.wtim) && w.swait != .exit

/-- WTIMER. -/
def execWtimer (bu wi : Nat) (s : State) : Host.Outcome State Fault Refusal :=
  onWarpEvent s bu wi fun _ w =>
    if wtimDue w then asyncTrap (setWarp s bu { w with wtimArmed := false }) bu wi { cause := .wtimer } else s

/-- INFILL_RESUME: infill writes ROWA, ROWB and FLAGS and resumes the warp as an ERET would; where it cannot emulate the word
the trap goes on by TVEC with SUBC 1 (R343). While the slot's translation is awaited nothing happens yet; a slot that is refused is a
fatal fault (R428). -/
def execInfillResume (bu wi : Nat) (ok : Bool) (flags : Byte) (rowA rowB : List Word) (s : State) :
    Host.Outcome State Fault Refusal :=
  onWarpEvent s bu wi fun b w =>
    if ¬ w.infill ∨ masterFrozen s (.infill (pierOf (coreNo b))) then s else
    match devXlat s (coreNo b) b.part b.pasid w.tframe true with
    | none => fatalFault s bu
    | some (.at_ l) =>
      let c := some (coreNo b)
      if slotWaits s b w l then s
      else if ok then
        let s := devWrite (devWrite s c (gAdd l 0x100) (rowBytes rowA ++ rowBytes rowB)) c (gAdd l 7) [flags]
        returnFrom s b w l
      else if w.tvec = 0 then fatalFault (setWarp s bu { w with infill := false }) bu
      else setWarp (devWrite s c (gAdd l 2) (leBytes 2 1)) bu
        { setS w 1 w.tframe with infill := false, handler := true, spc := w.tvec, swait := .run }
    | some _ => if refusedPage (getCore s (coreNo b)).noPage b.pasid (vaOf w.tframe)
      then fatalFault (forgetPage s (coreNo b) b.pasid (vaOf w.tframe)) bu else s

/-- Marks a granule of a line. -/
def poisonLine (x : Option CLine) (g : Nat) : Option CLine := x.map fun l => { l with pois := l.pois ||| (1#2 <<< g) }

/-- A uncorrectable error: the poison bit of its unit (R385); an entry of S-stream state, a queue, a predicate or K has no
poison bit, so its value is unspecified and the instruction that reads it consumes the error (R388). -/
def spoil (s : State) (u : EccUnit) : State :=
  match u with
  | .row c q n lane => modCore s c fun x => modRow x (rowKey q n) fun r => { r with poison := r.poison ||| (1#64 <<< lane) }
  | .scratch b g => modBlock s b fun x => { x with spadPois := x.spadPois.set false g true }
  | .l1 c line g => modCore s c fun x => { x with l1 := x.l1.set none line (poisonLine (x.l1.get none line) g) }
  | .rdc p line g => modPier s p fun x => { x with rdc := x.rdc.set none line (poisonLine (x.rdc.get none line) g) }
  | .dram g => setPois s g true
  | .l2 g => setPois { s with l2Bad := s.l2Bad.set false g true } g true
  | .tile b t y => modBlock s b fun x => { x with tilePois := x.tilePois.set false (t * 128 + y) true }
  | .acc b c i j => modBlock s b fun x => { x with accPois := x.accPois.set false (accKey c i j) true }
  | .sreg b w n =>
    if n % 64 = 0 then s else
    let f := freeVal s
    modWarp f.2 b w fun x => { x with sregs := x.sregs.set 0 (n % 64) f.1, badS := x.badS ||| (1#64 <<< (n % 64)) }
  | .queue b w q n =>
    let f := freeVal s
    modWarp f.2 b w fun x =>
      if q = 8 then (if n < x.bq.length then { x with bq := x.bq.set n f.1, bqBad := n :: x.bqBad } else x)
      else setQ x q ((qOf x q).zipIdx.map fun e => if e.2 = n then { e.1 with val := f.1, bad := true } else e.1)
  | .kreg b w n =>
    let f := freeVal s
    modWarp f.2 b w fun x => { x with kregs := x.kregs.set 0 (n % 4) f.1, badK := x.badK ||| (1#4 <<< (n % 4)) }
  | .pred b w n =>
    if n % 32 = 31 then s else
    let f := freeVal s
    modWarp f.2 b w fun x => { x with preds := x.preds.set 0 (n % 32) f.1, badP := x.badP ||| (1#32 <<< (n % 32)) }

/-- The core or vault that reports an error of a unit, as a number (R399): the core of its block, the vault of its address. Which of
the two an error of each unit counts for is the model's reading (assumption 97). -/
def errUnit (s : State) (u : EccUnit) : Option Nat :=
  let core := fun (b : Nat) => (getBlock s b).bind (·.core)
  let vault := fun (pa : Nat) => 32 + 32 * homePier pa + homeVault pa
  match u with
  | .row c _ _ _ | .l1 c _ _ => some c
  | .dram g | .l2 g => some (vault (64 * g))
  | .rdc _ line _ => some (vault (128 * line))
  | .scratch b _ | .tile b _ _ | .acc b _ _ _ | .sreg b _ _ | .queue b _ _ _ | .kreg b _ _ | .pred b _ _ => core b
/-- An uncorrectable error is counted for its core or vault: the times of the latest 17. -/
def countErr (s : State) (u : EccUnit) : State :=
  match errUnit s u with
  | some n => modDev s fun d => { d with errs := d.errs.set [] n ((s.gtime :: d.errs.get [] n).take 17) }
  | none => s
/-- ECC_ERROR: a correctable error changes nothing and is counted. -/
def execEccError (u : EccUnit) (correctable : Bool) (s : State) : Host.Outcome State Fault Refusal :=
  .next (if correctable then modDev s fun d => { d with corrected := d.corrected + 1 } else countErr (spoil s u) u)

/-- SCRUB of a DRAM granule, with what the code finds: nothing, an error that it corrects and counts, or one that it cannot correct and
poisons. -/
def execScrub (granule : Nat) (found : Option Bool) (s : State) : Host.Outcome State Fault Refusal :=
  match found with
  | none => .next s
  | some ok => execEccError (.dram granule) ok s

end Sys2Proof.Machine
end

