-- ==== Sys2Proof/Machine/Queue.lean ====
section
/-! DEFINITION. Launch queues: notify pages, CTL commands and GRANT (R317 to R319, R325), and the reading and checking of a
launch packet (R320 to R322). A packet's number in State is its index plus 2^64 times its queue's count of resets. -/

namespace Sys2Proof.Machine

/-! ### Accesses the dispatcher makes for itself (R428) -/

/-- What a translation for the dispatcher gives: a location, a wait, for requests before it to a peer or for a route too (R415, R417), or a
refusal. -/
inductive DX where
  | at_ (l : GLoc) | wait | refused
deriving DecidableEq, Repr
def dXlat (s : State) (k pasid : Nat) (a : DWord) (write : Bool) : DX :=
  let p := getPart s k
  if !addrOk s k a then .refused
  else match xlat p.dtlb pasid a write false with
    | .at_ l => if peerBusy s l then .wait else .at_ l
    | .miss => if refusedPage p.noPage pasid (vaOf a) then .refused else .wait
    | .weak => if refusedPage p.noPage pasid (vaOf a) || p.priOff then .refused else .wait

/-- The refusals of a partition's dispatcher have been answered for. -/
def forgetD (s : State) (k : Nat) : State := modPart s k fun p => { p with noPage := [] }

/-- What a read by the dispatcher gives; a refused translation and poisoned data are both unreadable (R428). -/
inductive DRead where
  | ok (bs : List Byte) | wait | bad
deriving DecidableEq, Repr
def dByte (s : State) (k pasid : Nat) (a : DWord) : DRead :=
  match dXlat s k pasid a false with
  | .at_ l => if gPois s l then .bad else .ok [gRead s l]
  | .wait => .wait
  | .refused => .bad
def dRead (s : State) (k pasid : Nat) (a : DWord) : Nat → DRead
  | 0 => .ok []
  | n + 1 => match dByte s k pasid a, dRead s k pasid (a + 1) n with
    | .ok b, .ok bs => .ok (b ++ bs)
    | .ok _, e => e
    | e, _ => e

/-- Whether the TDI of a partition is in ERROR (R422). -/
def inError (s : State) (k : Nat) : Bool := (getPart s k).tdi == .error
/-- Whether the device answers its BARs (R425). -/
def answering (s : State) : Bool := s.dev.ready && !s.dev.tripped

/-- The number of PF0 among the host functions; VF k is number k. -/
def pfNo : Nat := 4
/-- Whether a request through host function `f` to the registers of partition `k` is taken: the function is not frozen (R403), and in RUN
the request comes in the function's IDE stream (R420, assumption 96). -/
def fnLet (s : State) (f k : Nat) : Bool := !masterFrozen s (.hostFn f) && !((getPart s k).tdi == .run && s.dev.outside)
/-- The same for a request that either function's BAR takes (R318, R407). -/
def hostLet (s : State) (k : Nat) : Bool := fnLet s (if s.dev.viaPf then pfNo else k) k
/-- Whether requests through PF0 are taken (R403). -/
def pfLet (s : State) : Bool := !masterFrozen s (.hostFn pfNo)

/-! ### Notify pages (R318) -/

/-- A write of `size` bytes to offset `off` of a notify page, from the host, a peer or a VF. -/
def notifyWrite (s : State) (k n off size : Nat) (v : DWord) : State :=
  let q := getQueue s k n
  if off ≠ 0 ∨ size ≠ 8 ∨ q.state = 0 ∨ q.state = 2 ∨ inError s k then s
  else if v.toNat < q.wridx then s
  else if v.toNat ≤ q.rdidx + 2 ^ q.rlog then setQueue s k n { q with wridx := v.toNat }
  else stopQueue s k n 0x08
/-- What a notify page reads as. -/
def notifyRead (s : State) (k n off : Nat) : DWord :=
  if off = 0 then BitVec.ofNat 64 (getQueue s k n).wridx else if off = 8 then BitVec.ofNat 64 (getQueue s k n).rdidx else 0

def execNotifyWrite (k n off size : Nat) (v : DWord) (s : State) : Host.Outcome State Fault Refusal :=
  .next (if answering s ∧ k < 4 ∧ n < 64 ∧ hostLet s k then notifyWrite s k n off size v else s)

/-! ### CTL and GRANT (R317, R319, R325) -/

def inPasids (p : Part) (pasid : Nat) : Bool := p.pbase ≤ pasid && pasid < p.pbase + p.pcnt
/-- The checks of an enable. -/
def enableBad (s : State) (k : Nat) (q : Queue) : Bool :=
  q.rlog < 4 || 16 < q.rlog || q.rbase.toNat % 128 != 0 || q.supaddr.toNat % 32 != 0 || !inPasids (getPart s k) (q.qpasid.toNat % 2 ^ 20)
/-- Whether another enabled queue of the partition names the context. -/
def ctxEnabled (s : State) (k n pasid : Nat) : Bool :=
  (getPart s k).queues.cells.any fun e => e.1 != n && e.2.state != 0 && e.2.qpasid.toNat % 2 ^ 20 == pasid

/-- CTL 1. In CONFIG_LOCKED and ERROR it is ignored (R420). -/
def execQueueEnable (k n : Nat) (s : State) : Host.Outcome State Fault Refusal :=
  .next (
    let q := getQueue s k n
    let t := (getPart s k).tdi
    if ¬ answering s ∨ 4 ≤ k ∨ 64 ≤ n ∨ ¬ hostLet s k ∨ q.state ≠ 0 ∨ t = .locked ∨ t = .error then s
    else if enableBad s k q then setQueue s k n { q with err := 0x02 }
    else
      let pasid := q.qpasid.toNat % 2 ^ 20
      let s := if ctxEnabled s k n pasid then s else setCtx s { part := k, pasid := pasid, errqb := errqbWrite q.qerrqb }
      setQueue s k n { q with state := 1, err := 0 })

/-- The rows that a block's names and banker slots map, each once (R349). -/
def blockRows (b : Block) : List Nat :=
  (((liveWarps b).flatMap fun w => w.map.cells.filterMap Prod.snd) ++ b.banker.cells.filterMap fun e => e.2.map fun k => k.row).eraseDups

/-- The rows of a block that no name and no slot of it maps, and on which a write of it is still pending (R49, R56). -/
def pendingRows (s : State) (b : Block) (c : Nat) : List Nat :=
  (b.takes.map fun e => e.2.row) ++ ((s.ops.filter fun o => o.block == b.uid).flatMap (·.dest))
  ++ ((liveWarps b).flatMap fun w => (w.reqs.flatMap (·.dest)) ++ w.sfu.map (·.dest))
  ++ ((getCore s c).flight.filterMap fun f => match f.tgt with | .row r => if f.block = b.uid then some r else none | _ => none)
/-- A block leaves its core: its charges leave CHG, its rows are free, its work leaves the units (R329, R348). -/
def unplace (s : State) (b : Block) : State :=
  match b.core with
  | none => s
  | some c =>
    let mine := fun (x : Nat) => x == b.uid
    let gone := pendingRows s b c
    let s := uncharge s b c
    let s := modCore s c fun x =>
      { x with rows := (blockRows b ++ gone).foldl (fun m r => m.set {} r {}) x.rows
               flight := x.flight.filter fun f => !mine f.block
               acqWait := x.acqWait.filter fun a => !mine a.block
               cmds := x.cmds.filter fun m => !mine m.block
               copies := x.copies.filter fun y => !mine y.block }
    modBlock (disarmSpad s c b.uid) b.uid fun x => { x with core := none, saving := false }

/-- Removes a block from the machine, returning its pool slots. Requests that have left go on without it; those held for a
route are discarded (R417). `send` sends what its store buffers hold (R346). -/
def releaseBlock (s : State) (send : Bool) (u : Nat) : State :=
  match getBlock s u with
  | none => s
  | some b =>
    let s := if send ∧ b.core.isSome then (liveWarps b).foldl (fun s w => w.sb.foldl (fun s e => sbLeave s b w.idx e) s) s else s
    let s := unplace s b
    let slots := (liveWarps b).filterMap fun w => w.poolSlot
    let s := modQueue s b.part b.queue fun q => { q with used := q.used.filter fun n => !slots.contains n }
    let heldAt := fun (l : GLoc) => held s l
    let s := { s with
      transit := s.transit.filter fun t => !(t.block == u && heldAt t.ent.line)
      ops := s.ops.filterMap fun (o : Op) =>
        if o.block ≠ u then some o
        else match o.kind with
          | .load _ _ _ => none
          | k =>
            let k := match k with | .atomic op sc _ => AccKind.atomic op sc false | k => k
            let o := { o with kind := k, dest := [], result := [], todo := o.todo.filter fun a => !(match a.loc with | some (.g l) => heldAt l | _ => false) }
            if o.todo.isEmpty then none else some o }
    let s := match b.gang with
      | some g => { s with gangs := s.gangs.modify {} g fun x => { x with members := x.members.filter fun m => m != u } }
      | none => s
    { s with blocks := s.blocks.set none u none }

/-- The blocks of a grid. -/
def blocksOf (s : State) (g : Grid) : List Block :=
  (allBlocks s).filter fun b => b.part == g.part && b.queue == g.queue && b.packet == g.packet
/-- Ends a grid: its blocks are released, frozen ones included (R346). -/
def abortGrid (s : State) (g : Grid) (send : Bool) : State :=
  let s := (blocksOf s g).foldl (fun s b => releaseBlock s send b.uid) s
  modGrid s g.part g.queue g.packet fun x => { x with aborted := true, held := false, saved := [] }
/-- Whether a copy stands at an element whose source or destination is held for a route. -/
def copyHeld (s : State) (c : Nat) (y : Copy) : Bool :=
  let d := cdesc y.desc
  (getBlock s y.block).any fun b => (List.range (cCount d)).any fun e => !y.moved.get false e &&
    [(srcAddr s y d e, false, srcGlobal y.kind && !zeroRow s y d e), (dstAddr d e, true, dstGlobal y.kind)].any fun a =>
      a.2.2 && match engXlat s c b a.1 a.2.1 with | .ok l => held s l | _ => false
/-- Whether an engine command stands at a read that is held for a route. -/
def cmdHeld (s : State) (c : Nat) (m : Cmd) : Bool :=
  let at_ := fun (b : Block) (a : Nat) => match engXlat s c b a false with | .ok l => held s l | _ => false
  (getBlock s m.block).any fun b => match m.kind with
    | .tld false _ _ _ _ _ => unitHead (getCore s c) 1 == some m && at_ b (nextAddr m)
    | .drain _ _ _ _ _ _ => m.started && !m.drain.parked && decide (m.drain.row < 128) && (drainCtx c m).any fun k =>
        (drainAct s k).stop.any fun e => !standsAtWrite k e.1 && at_ b e.2.2
    | _ => false
/-- Whether a fetch of a warp, or the frame of a trap it enters, is held for a route. -/
def warpHeld (s : State) (b : Block) (w : Warp) : Bool :=
  let at_ := fun (a : DWord) (wr ex : Bool) => match xlat (getCore s (coreNo b)).tlb b.pasid a wr ex with | .at_ l => held s l | _ => false
  b.core.isSome && !b.frozen && ((!hasWordS w && at_ w.spc false true) || (w.pending.isSome && at_ w.tframe true false)
    || (liveSplits w).any fun e => e.2.wait == .run && at_ e.2.lpc false true)
/-- Whether a request of a grid's blocks is held for a route (R417). -/
def reqHeld (s : State) (g : Grid) : Bool :=
  let us := (blocksOf s g).map fun b => b.uid
  (blocksOf s g).any (fun b => (liveWarps b).any (warpHeld s b)) ||
  s.cores.cells.any (fun x => x.2.cmds.any fun m => us.contains m.block && cmdHeld s x.1 m) ||
  s.cores.cells.any (fun x => x.2.copies.any fun y => us.contains y.block && copyHeld s x.1 y) ||
  s.transit.any (fun t => us.contains t.block && held s t.ent.line)
  || s.ops.any fun o => us.contains o.block && o.todo.any fun a => match a.loc with | some (.g l) => held s l | _ => false
def gridOpen (g : Grid) : Bool := !g.complete && !g.aborted && !g.noop
/-- The grids that CTL 2 of a queue aborts. -/
def abortable (s : State) (k n : Nat) : List Grid :=
  s.grids.filter fun g => g.part == k && g.queue == n && gridOpen g && (g.held || g.failed || reqHeld s g)

/-- CTL 2. -/
def execQueueAbort (k n : Nat) (s : State) : Host.Outcome State Fault Refusal :=
  .next (match if answering s ∧ hostLet s k then abortable s k n else [] with
  | [] => s
  | l => stopQueue (l.foldl (fun s g => abortGrid s g true) s) k n 0x0B)

/-- Whether another member of a block's gang still runs: the scratchpad of a frozen member stays for it (R354). -/
def peersRun (s : State) (b : Block) : Bool := (gangBlocks s b).any fun x => x.uid != b.uid && !x.exited && !x.frozen
/-- CTL 3 (R317). -/
def resetGrid (s : State) (g : Grid) : State :=
  if ¬ gridOpen g then s
  else if g.placed = 0 then modGrid s g.part g.queue g.packet fun x => { x with aborted := true }
  else
    let frozen := (blocksOf s g).any (·.frozen)
    let gone := (blocksOf s g).filter fun b => (b.frozen && !peersRun s b) || (b.core.isNone && !b.exited)
    let s := gone.foldl (fun s b => releaseBlock s true b.uid) s
    let lost := g.placed < g.lpb.gx * g.lpb.gy * g.lpb.gz || frozen || !gone.isEmpty
    modGrid s g.part g.queue g.packet fun x => { x with saved := [], held := false, lost := x.lost || lost }
def resetQueue (s : State) (k n : Nat) : State :=
  let s := (s.grids.filter fun g => g.part == k && g.queue == n).foldl resetGrid s
  modQueue s k n fun q => { q with wridx := 0, rdidx := 0, state := 0, err := 0, epoch := q.epoch + 1 }
/-- Whether the queue of a grid has been reset since it was read: its resident blocks run on until they exit (R317). -/
def orphan (s : State) (g : Grid) : Bool := g.packet / 2 ^ 64 != (getQueue s g.part g.queue).epoch
/-- Frozen blocks of grids whose queues have been reset are released once no member of their gangs runs (R346, R354). -/
def releaseFrozen (s : State) : State :=
  (allBlocks s).foldl (fun s b => if b.frozen && b.gang.isSome && (gridOf s b).any (orphan s) && !peersRun s b then releaseBlock s true b.uid else s) s
def execQueueReset (k n : Nat) (s : State) : Host.Outcome State Fault Refusal :=
  .next (if answering s ∧ k < 4 ∧ n < 64 ∧ hostLet s k then resetQueue s k n else s)

/-- GRANT: a held grid gets a budget and goes on (R325). -/
def execGrant (k n : Nat) (v : DWord) (s : State) : Host.Outcome State Fault Refusal :=
  .next (if ¬ answering s ∨ ¬ hostLet s k ∨ (getQueue s k n).state ≠ 3 ∨ v = 0 then s
    else
      let s := { s with grids := s.grids.map fun g =>
        if g.part = k ∧ g.queue = n ∧ g.held ∧ gridOpen g then { g with held := false, budg := v } else g }
      modQueue s k n fun q => { q with state := 1 })

/-! ### The launch packet (R320, R321) -/

def f8 (bs : List Byte) (o : Nat) : DWord := BitVec.ofNat 64 (fieldOf bs o 8)
/-- The fields of an LPB. -/
def lpbOf (bs : List Byte) : Lpb :=
  { karg := f8 bs 0x10, gx := fieldOf bs 0x18 4, gy := fieldOf bs 0x1C 4, gz := fieldOf bs 0x20 4, blkw := fieldOf bs 0x24 2,
    courseN := fieldOf bs 0x26 1, order := fieldOf bs 0x27 1, swz := fieldOf bs 0x28 1, dclass := fieldOf bs 0x29 1,
    prio := fieldOf bs 0x2A 1, cmode := fieldOf bs 0x2B 1, width := fieldOf bs 0x2C 1, lmode := BitVec.ofNat 5 (fieldOf bs 0x2D 1),
    depN := fieldOf bs 0x2E 1, depK := fieldOf bs 0x2F 1, deadline := f8 bs 0x30, budget := f8 bs 0x38,
    deps := (List.range 4).map fun i => f8 bs (0x40 + 8 * i), cplAddr := f8 bs 0x60, cplVal := f8 bs 0x68, blkEvt := f8 bs 0x70 }

/-- An LPB field outside the values of R321, or too few save slots (R319). -/
def lpbBad (q : Queue) (bs : List Byte) : Bool :=
  let l := lpbOf bs
  fieldOf bs 1 7 != 0 || (fieldOf bs 0 1 == 1 &&
  (fieldOf bs 8 8 % 64 != 0 || l.gx == 0 || l.gy == 0 || l.gz == 0 || 2 ^ 32 < l.gx * l.gy * l.gz
   || !(l.courseN == 1 || l.courseN == 2 || l.courseN == 4) || (l.gx * l.gy * l.gz) % l.courseN != 0
   || l.blkw == 0 || 48 < l.blkw || 3 < l.order || 15 < l.swz || (2 ≤ l.order && l.swz != 0) || 7 < l.dclass || 3 < l.prio
   || 1 < l.cmode || !(l.width == 64 || l.width == 32) || 31 < fieldOf bs 0x2D 1 || 4 < l.depN || 1 < l.depK
   || l.cplAddr.toNat % 8 != 0 || (l.cmode == 0 && l.blkEvt != 0) || fieldOf bs 0x78 8 != 0
   || (q.qtvec != 0 && 2 ^ q.qtflog < l.blkw)))

/-- A kernel descriptor (R143, R144). -/
def kdescOf (addr : Nat) (bs : List Byte) : KDesc :=
  { addr := addr, sentry := f8 bs 0, lbase := f8 bs 8, drtab := fieldOf bs 0x10 8, rows := fieldOf bs 0x18 2, tiles := fieldOf bs 0x1A 2,
    scratch := fieldOf bs 0x1C 4, accs := fieldOf bs 0x20 8, drainSet := BitVec.ofNat 32 (fieldOf bs 0x28 4),
    feat := BitVec.ofNat 32 (fieldOf bs 0x2C 4) }
/-- ERR 0x03 (R143): ACCS is checked as the 64 bits of its field, so a nonzero bit above [5:0] stops the queue too (assumption 79). -/
def kdescBad (d : KDesc) : Bool :=
  d.sentry.toNat % 4 != 0 || d.lbase.toNat % 12 != 0 || 384 < d.rows || d.rows % 8 != 0 || 16 < d.tiles || 3145728 < d.scratch
  || d.scratch % 64 != 0 || 48 < d.accs || (d.drainSet == 0 && d.drtab != 0)
/-- ERR 0x04: FEAT.WREQ and FEAT.CGANG against WIDTHM and COURSEN (R144). -/
def featBad (d : KDesc) (l : Lpb) : Bool :=
  let wr := d.feat.toNat % 4
  let cg := fld d.feat.toNat 2 2
  !(wr == 0 || (wr == 1 && l.width == 64) || (wr == 2 && l.width == 32))
  || !(cg == 0 || (cg == 1 && l.courseN == 2) || (cg == 2 && l.courseN == 4))
/-- Warps of a block that run in a quadrant (R10, R328). -/
def warpsIn (blkw q : Nat) : Nat := (blkw + 3 - q) / 4
/-- ERR 0x05: a block that no empty core holds (R328); the other resources are within R143's limits. -/
def tooBig (d : KDesc) (l : Lpb) : Bool := (List.range 4).any fun q => 2048 < d.rows * warpsIn l.blkw q || 12 < warpsIn l.blkw q

/-- The drain slots of a DRAINSET. -/
def slotsOf (m : BitVec 32) : List Nat := (List.range 32).filter fun i => m.getLsbD i
/-- The drain records of a kernel, in slot order; an unreadable or failing record is bad (R282, R329). The checks of drld here are those of
the record's words: that the alignment of its address, worded for a scratchpad offset, is not among them is the model's choice (R143;
assumption 108). -/
inductive Records where
  | ok (l : List (Nat × DSlot)) | wait | bad
deriving DecidableEq, Repr
def readRecords (s : State) (k pasid : Nat) (d : KDesc) : List (Nat × Nat) → Records
  | [] => .ok []
  | (slot, i) :: t =>
    match dRead s k pasid (BitVec.ofNat 64 (d.drtab + 192 * i)) 192, readRecords s k pasid d t with
    | .bad, _ => .bad
    | .ok bs, r =>
      if (programBad [] ((slotFrom bs).words.map uop)).isSome then .bad
      else match r with
        | .ok l => .ok ((slot, slotFrom bs) :: l)
        | e => e
    | .wait, .bad => .bad
    | .wait, _ => .wait
def recordsOf (s : State) (k pasid : Nat) (d : KDesc) : Records := readRecords s k pasid d (slotsOf d.drainSet).zipIdx

/-- The number of a packet that a dependence names: queue [63:58], index [57:0], as of now. -/
def depKey (s : State) (k : Nat) (x : DWord) : Nat × Nat :=
  let n := x.toNat / 2 ^ 58
  (n, x.toNat % 2 ^ 58 + 2 ^ 64 * (getQueue s k n).epoch)
/-- ERR 0x07. -/
def depBad (s : State) (k n i : Nat) (l : Lpb) : Bool :=
  (l.deps.take l.depN).any fun x =>
    let m := x.toNat / 2 ^ 58
    let j := x.toNat % 2 ^ 58
    (getQueue s k m).wridx ≤ j || (m == n && j == i)

/-- What the checks of a packet give, in the order of their codes: a reason code, a wait, or admission. -/
inductive Checked where
  | err (code : Nat) | wait | takeIn (d : KDesc)
deriving DecidableEq, Repr
def checkLaunch (s : State) (k n i : Nat) (q : Queue) (bs : List Byte) : Checked :=
  let pasid := q.qpasid.toNat % 2 ^ 20
  let l := lpbOf bs
  match dRead s k pasid (f8 bs 8) 64 with
  | .wait => .wait
  | .bad => .err 3
  | .ok ds =>
    let d := kdescOf (fieldOf bs 8 8) ds
    if kdescBad d then .err 3 else if featBad d l then .err 4 else if tooBig d l then .err 5
    else match recordsOf s k pasid d with
      | .wait => .wait
      | .bad => .err 6
      | .ok _ => if depBad s k n i l then .err 7 else .takeIn d

/-- Admits a grid (R322, R324, R356). -/
def takeIn (s : State) (k n i : Nat) (q : Queue) (g : Grid) : State :=
  let s := setQueue s k n { q with rdidx := q.rdidx + 1 }
  { s with grids := s.grids ++ [{ g with part := k, queue := n, packet := i + 2 ^ 64 * q.epoch, pasid := q.qpasid.toNat % 2 ^ 20 }] }
def fullBudget (b : DWord) : DWord := if b = 0 then BitVec.allOnes 64 else b

/-- PACKET_READ: the next packet of a running queue is read and checked; RDIDX passes it only once it is admitted. -/
def execPacketRead (k n : Nat) (s : State) : Host.Outcome State Fault Refusal :=
  .next (
    let q := getQueue s k n
    let i := q.rdidx
    if ¬ answering s ∨ q.state ≠ 1 ∨ q.wridx ≤ i ∨ inError s k then s
    else match dRead s k (q.qpasid.toNat % 2 ^ 20) (q.rbase + BitVec.ofNat 64 (128 * (i % 2 ^ q.rlog))) 128 with
    | .wait => s
    | .bad => stopQueue (forgetD s k) k n 0x03
    | .ok bs =>
      if 1 < fieldOf bs 0 1 then stopQueue s k n 0x01
      else if lpbBad q bs then stopQueue s k n 0x02
      else if fieldOf bs 0 1 = 0 then takeIn s k n i q { noop := true }
      else match checkLaunch s k n i q bs with
        | .err c => stopQueue (forgetD s k) k n c
        | .wait => s
        | .takeIn d =>
          let l := lpbOf bs
          let p := getPart s k
          takeIn s k n i q { lpb := l, kd := d, needs := (l.deps.take l.depN).map (depKey s k), budg := fullBudget l.budget,
                             debug := p.dqen.getLsbD n, hazMode := p.dqen.getLsbD n && p.dhzm.getLsbD n })

end Sys2Proof.Machine
end

