-- ==== Sys2Proof/Machine/Place.lean ====
section
/-! DEFINITION. Placement: readiness and the deadline order (R322, R323, R334), the traversal order (R326), the fit of a block on
a core (R327, R328), placing a block (R329), and restoring a saved one (R330, R350 to R352). -/

namespace Sys2Proof.Machine

/-! ### Traversal (R326) -/

def swapXY (e : Nat × Nat) : Nat × Nat := (e.2, e.1)
/-- Place `r` of a row-major walk in panels of `w` rows. -/
def rowMajor (gx gy w r : Nat) : Nat × Nat :=
  let p := r / (w * gx) * w
  let h := Nat.min w (gy - p)
  let q := r - p * gx
  (q / h, p + q % h)
/-- Even bits of a number. -/
def evenBits : Nat → Nat → Nat
  | 0, _ => 0
  | n + 1, d => d % 2 + 2 * evenBits n (d / 4)
def mortonXY (d : Nat) : Nat × Nat := (evenBits 32 d, evenBits 32 (d / 2))
def hilbertLoop (n : Nat) : Nat → Nat → Nat → Nat → Nat → Nat × Nat
  | 0, _, _, x, y => (x, y)
  | fuel + 1, s, t, x, y =>
    if n ≤ s then (x, y) else
    let rx := t / 2 % 2
    let ry := (t + rx) % 2
    let e := if ry = 0 then swapXY (if rx = 1 then (s - 1 - x, s - 1 - y) else (x, y)) else (x, y)
    hilbertLoop n fuel (2 * s) (t / 4) (e.1 + s * rx) (e.2 + s * ry)
def hilbertXY (n d : Nat) : Nat × Nat := hilbertLoop n 33 1 d 0 0
/-- The least power of two no smaller than a number. -/
def pow2Up (m : Nat) : Nat → Nat → Nat
  | 0, n => n
  | fuel + 1, n => if m ≤ n then n else pow2Up m fuel (2 * n)
/-- The visit of number `r` among the points `f d` that lie in the plane. -/
def nthVisit (gx gy : Nat) (f : Nat → Nat × Nat) : Nat → Nat → Nat → Nat × Nat
  | 0, _, _ => (0, 0)
  | fuel + 1, d, r =>
    let e := f d
    if e.1 < gx ∧ e.2 < gy then (if r = 0 then e else nthVisit gx gy f fuel (d + 1) (r - 1)) else nthVisit gx gy f fuel (d + 1) r
/-- The coordinates of the block placed as number `i`: plane by plane, z increasing. -/
def visit (l : Lpb) (i : Nat) : Nat × Nat × Nat :=
  let r := i % (l.gx * l.gy)
  let n := pow2Up (Nat.max l.gx l.gy) 33 1
  let e := match l.order with
    | 0 => rowMajor l.gx l.gy (2 ^ l.swz) r
    | 1 => swapXY (rowMajor l.gy l.gx (2 ^ l.swz) r)
    | 2 => nthVisit l.gx l.gy mortonXY (n * n) 0 r
    | _ => nthVisit l.gx l.gy (hilbertXY n) (n * n) 0 r
  (e.1, e.2, i / (l.gx * l.gy))

/-! ### Readiness and order (R322, R323, R334) -/

def totalBlocks (g : Grid) : Nat := g.lpb.gx * g.lpb.gy * g.lpb.gz
/-- Whether a dependence of kind `kind` on a packet is met. -/
def depMet (s : State) (k kind : Nat) (e : Nat × Nat) : Bool :=
  match getGrid s k e.1 e.2 with
  | none => false
  | some g => g.noop || (!g.failed && !g.aborted && !g.lost && (if kind = 0 then g.complete else g.complete || g.triggered == totalBlocks g))
/-- Whether a grid has placed all its blocks. -/
def allPlaced (g : Grid) : Bool := g.noop || g.placed == totalBlocks g
def earlierGrid (g h : Grid) : Bool :=
  h.part == g.part && h.queue == g.queue && h.packet / 2 ^ 64 == g.packet / 2 ^ 64 && h.packet < g.packet
/-- Whether a grid is ready, with budget left, and has a block waiting: a saved one, which is restored in a grid that has failed too
(R383, R384), or one not yet placed, which then never is (R335). Once it has placed a block its dependences have been met. -/
def readyGrid (s : State) (g : Grid) : Bool :=
  gridOpen g && !g.held && (orphan s g || g.failed || g.budg != 0) && (g.saved != [] || (!g.failed && !g.lost && g.placed < totalBlocks g))
  && (g.placed != 0 || g.needs.all (depMet s g.part g.lpb.depK)) && s.grids.all fun h => !earlierGrid g h || allPlaced h
/-- The order of R323: DEADLINE, then queue, then packet. -/
def goesBefore (g h : Grid) : Bool :=
  let a := g.lpb.deadline.toNat
  let b := h.lpb.deadline.toNat
  a < b || (a == b && (g.queue < h.queue || (g.queue == h.queue && g.packet < h.packet)))
def insertBy {α : Type} (lt : α → α → Bool) (x : α) : List α → List α
  | [] => [x]
  | y :: t => if lt x y then x :: y :: t else y :: insertBy lt x t
def sortBy {α : Type} (lt : α → α → Bool) (l : List α) : List α := l.foldl (fun a x => insertBy lt x a) []
def readyOrder (s : State) (k : Nat) : List Grid := sortBy goesBefore (s.grids.filter fun g => g.part == k && readyGrid s g)

/-! ### The fit (R327, R328) -/

/-- What one block needs of a core. -/
structure Need where
  warps : List Nat
  rows : List Nat
  scratch : Nat
  tiles : Nat
  accs : Nat
  slots : BitVec 32
  dclass : Nat
  avoid : Option Nat := none
deriving DecidableEq, Repr

/-- The blocks that hold a core's resources: resident and not exited. -/
def holding (s : State) (c : Nat) : List Block := (blocksOn s c).filter fun b => !b.exited
/-- The blocks whose scratchpad a core still holds: those of its blocks that have not exited, and of gang members that have, until every
block of the gang has (R253). -/
def holdsSpad (s : State) (b : Block) : Bool := !b.exited || (gangBlocks s b).any fun x => !x.exited
def round4k (n : Nat) : Nat := (n + 4095) / 4096 * 4096
def warpsHeld (s : State) (c q : Nat) : Nat := ((holding s c).map fun b => ((liveWarps b).filter fun w => quadOf w == q).length).sum
/-- E[c][v] of a logical core (R376), and CHG[v] (R328). -/
def couplingOf (s : State) (c v : Nat) : Nat := (getPier s (pierOf c)).coup.get 0 (32 * physOf s c + v)
def chgOf (s : State) (p v : Nat) : Nat := (getPier s p).chg.get 0 v
/-- The charges of a block of a dissipation class on a core. -/
def chargesOf (s : State) (c dclass : Nat) : List (Nat × Nat) :=
  ((List.range 32).map fun v => (v, dclass * couplingOf s c v)).filter fun e => e.2 != 0
def refreshFits (s : State) (c dclass : Nat) : Bool :=
  let p := getPier s (pierOf c)
  (List.range 32).all fun v => vbaseOf p v + chgOf s (pierOf c) v + dclass * couplingOf s c v ≤ p.vra.get 1000 v
/-- Whether a course's regulator is assigned and powered (R378). -/
def powered (s : State) (co : Nat) : Bool :=
  let x := (getCourse s co).switch
  x.getLsbD 7 && s.dev.regOn.get false (x.toNat % 4)
/-- Whether a block fits a core (R328); the save slots are a condition of the queue. -/
def fits (s : State) (c : Nat) (n : Need) : Bool :=
  let hs := holding s c
  let x := getCore s c
  n.avoid != some c && !x.disabled && !masterFrozen s (.core c)
  && (List.range 4).all (fun q => warpsHeld s c q + n.warps.getD q 0 ≤ 12 && n.rows.getD q 0 ≤ freeRows x q)
  && (((blocksOn s c).filter (holdsSpad s)).map fun b => round4k b.kd.scratch).sum + round4k n.scratch ≤ 3145728
  && (hs.map fun b => b.kd.tiles).sum + n.tiles ≤ 16 && (hs.map fun b => b.kd.accs).sum + n.accs ≤ 48
  && hs.all (fun b => b.kd.drainSet &&& n.slots == 0)
  && powered s (courseOf c) && !(getPier s (pierOf c)).emerg && refreshFits s c n.dclass

/-- The cores of a partition. -/
def partCores (s : State) (k : Nat) : List Nat :=
  if (getPart s k).en then (List.range 32).filter fun c => (getPart s k).courses.getLsbD (courseOf c) else []
/-- Placement order: TALW ≥ 0 by COREID, then decreasing TALW. -/
def coreBefore (s : State) (a b : Nat) : Bool :=
  let x := talwOf s a
  let y := talwOf s b
  if 0 ≤ x then decide (y < 0) || a < b else decide (y < 0) && (decide (y < x) || (x == y && a < b))
def coreOrder (s : State) (cs : List Nat) : List Nat := sortBy (coreBefore s) cs
/-- The courses a gang tries: those with no core below its throttle point by COURSEID, then by decreasing lowest TALW. -/
def lowTalw (s : State) (co : Nat) : Int := ((coresOf co).map (talwOf s)).foldl (fun a b => if b < a then b else a) (talwOf s (4 * co))
def courseBefore (s : State) (a b : Nat) : Bool :=
  let x := lowTalw s a
  let y := lowTalw s b
  if 0 ≤ x then decide (y < 0) || a < b else decide (y < 0) && (decide (y < x) || (x == y && a < b))

/-- Adds a block's charges to CHG. -/
def charge (s : State) (c : Nat) (ch : List (Nat × Nat)) : State :=
  modPier s (pierOf c) fun p => { p with chg := ch.foldl (fun m e => m.set 0 e.1 (m.get 0 e.1 + e.2)) p.chg }
/-- The cores that the members of a gang take, each tried with the charges of the members before it. -/
def assign (s : State) : List Need → List Nat → Option (List Nat)
  | [], _ => some []
  | n :: ns, cs =>
    match cs.find? fun c => fits s c n with
    | none => none
    | some c => (assign (charge s c (chargesOf s c n.dclass)) ns (cs.filter fun d => d != c)).map (c :: ·)
/-- Where a block or a gang of these needs goes, whole or not at all (R327). -/
def findCores (s : State) (k : Nat) (gang : Bool) (ns : List Need) : Option (List Nat) :=
  if ¬ gang then assign s ns (coreOrder s (partCores s k))
  else
    let cos := sortBy (courseBefore s) ((List.range 8).filter fun co => (getPart s k).en && (getPart s k).courses.getLsbD co)
    cos.findSome? fun co => assign s ns (coreOrder s (coresOf co))

def needOf (g : Grid) : Need :=
  { warps := (List.range 4).map (warpsIn g.lpb.blkw), rows := (List.range 4).map fun q => g.kd.rows * warpsIn g.lpb.blkw q,
    scratch := g.kd.scratch, tiles := g.kd.tiles, accs := g.kd.accs, slots := g.kd.drainSet, dclass := g.lpb.dclass }
/-- What a saved block needs: its live warps, and as many rows as the save holds (R350). -/
def needSaved (b : Block) : Need :=
  { warps := (List.range 4).map fun q => ((liveWarps b).filter fun w => quadOf w == q).length,
    rows := (List.range 4).map fun q => (b.savedRows.keys.filter fun r => r / 2048 == q).length,
    scratch := b.kd.scratch, tiles := b.kd.tiles, accs := b.kd.accs, slots := b.kd.drainSet, dclass := b.dclass, avoid := b.avoid }
/-- Free slots of a queue's save slot pool. -/
def freeSlots (q : Queue) : List Nat := (List.range (2 ^ q.qtflog)).filter fun n => !q.used.contains n
def poolFits (s : State) (g : Grid) : Bool :=
  let q := getQueue s g.part g.queue
  q.qtvec == 0 || g.lpb.blkw * g.lpb.courseN ≤ (freeSlots q).length

/-- What one placement decision comes to (R323). -/
inductive Decision where
  | nothing | place (g : Grid) (cs : List Nat) (recs : List (Nat × DSlot)) | restore (us cs : List Nat) | bad (g : Grid)
deriving DecidableEq, Repr
/-- The first saved block of a grid, with the saved members of its gang. -/
def savedGang (s : State) (g : Grid) (u : Nat) : List Block :=
  match getBlock s u with
  | none => []
  | some b => match b.gang with
    | some _ => g.saved.filterMap fun v => (getBlock s v).filter fun x => x.gang == b.gang
    | none => [b]
def tryGrid (s : State) (k : Nat) (g : Grid) : Option Decision :=
  match g.saved with
  | u :: _ =>
    let bs := savedGang s g u
    if (allBlocks s).any fun x => x.saving && x.gang.isSome && bs.any fun b => b.gang == x.gang then none else
    (findCores s k (bs.any fun b => b.gang.isSome) (bs.map needSaved)).map fun cs => .restore (bs.map fun b => b.uid) cs
  | [] =>
    if ¬ poolFits s g then none else
    (findCores s k (1 < g.lpb.courseN) (List.replicate g.lpb.courseN (needOf g))).map fun cs =>
      match recordsOf s k g.pasid g.kd with
      | .ok l => .place g cs l
      | .wait => .nothing
      | .bad => .bad g
def decision (s : State) (k : Nat) : Decision :=
  if ¬ answering s ∨ inError s k then .nothing else ((readyOrder s k).findSome? (tryGrid s k)).getD .nothing

/-! ### Placing (R329, R60, R319) -/

/-- The lowest free warp slot of a quadrant (R10). -/
def slotFor (s : State) (c q : Nat) (b : Block) : Nat :=
  let used := ((holding s c).flatMap liveWarps ++ liveWarps b).filterMap fun w => if quadOf w = q then some w.slot else none
  ((List.range 12).find? fun n => !used.contains n).getD 0
/-- The highest PRIO among the gated warps of a course. -/
def highestGated (s : State) (co : Nat) : Nat :=
  (coresOf co).foldl (fun m c => (blocksOn s c).foldl (fun m b => if (liveWarps b).any (·.gated) then Nat.max m b.prio else m) m) 0
/-- Whether some warp of a course is gated. -/
def anyGated (s : State) (co : Nat) : Bool := (coresOf co).any fun c => (blocksOn s c).any fun b => (liveWarps b).any (·.gated)
/-- Whether a warp placed now starts gated (R333): G applies in a deficit, and after it while a warp is still gated. -/
def startsGated (s : State) (c prio : Nat) : Bool :=
  let co := courseOf c
  (decide ((getCourse s co).pwra < 0) || anyGated s co) && prio ≤ (getCourse s co).gate
/-- A warp's initial state (R60). -/
def freshWarp (s : State) (g : Grid) (b : Block) (c i : Nat) : Warp :=
  let w : Warp := { idx := i, slot := slotFor s c (i % 4) b, width := g.lpb.width, lmode := g.lpb.lmode, spc := g.kd.sentry,
                    gated := startsGated s c b.prio }
  let w := setS (setS (setS (setS (setS w 2 g.lpb.karg) 3 (BitVec.ofNat 64 b.idx)) 4 (BitVec.ofNat 64 i)) 5 (BitVec.ofNat 64 b.blkw)) 6
    (BitVec.ofNat 64 (totalBlocks g))
  oneSplit w
/-- Takes a save slot for a warp; without a handler there is none (R319). -/
def takeSlotOf (s : State) (g : Grid) (w : Warp) : State × Warp :=
  let q := getQueue s g.part g.queue
  match if q.qtvec = 0 then none else (freeSlots q).head? with
  | some n => (setQueue s g.part g.queue { q with used := n :: q.used },
               { w with tvec := q.qtvec, tframe := q.qtfbase + BitVec.ofNat 64 (1024 * n), poolSlot := some n })
  | none => (s, w)
/-- One warp of a block being placed on a core. -/
def placeWarp (g : Grid) (c : Nat) (p : State × Block) (i : Nat) : State × Block :=
  let t := takeSlotOf p.1 g (freshWarp p.1 g p.2 c i)
  let r := takeRows false t.1 p.2 t.2 0 g.kd.rows
  (r.1, { p.2 with warps := p.2.warps.set none i (some r.2) })
/-- Places the next block of a grid on a core. -/
def placeBlock (g : Grid) (gang : Option Nat) (recs : List (Nat × DSlot)) (p : State × Nat) (c : Nat) : State × Nat :=
  let s := p.1
  let i := g.placed + p.2
  let e := visit g.lpb i
  let ch := chargesOf s c g.lpb.dclass
  let b : Block := { uid := s.nextUid, part := g.part, queue := g.queue, packet := g.packet, idx := e.1 + g.lpb.gx * (e.2.1 + g.lpb.gy * e.2.2),
                     x := e.1, y := e.2.1, z := e.2.2, peer := p.2, gang := gang, core := some c, pasid := g.pasid, blkw := g.lpb.blkw,
                     prio := g.lpb.prio, dclass := g.lpb.dclass, debug := g.debug, hazMode := g.hazMode, kd := g.kd, chg := ch,
                     slots := recs.foldl (fun m r => m.set none r.1 (some r.2)) SMap.empty }
  let s := modCore (charge { s with nextUid := s.nextUid + 1 } c ch) c fun x => { x with l1 := SMap.empty }
  let r := (List.range g.lpb.blkw).foldl (placeWarp g c) (s, b)
  (setBlock r.1 r.2, p.2 + 1)
def placeGrid (s : State) (g : Grid) (cs : List Nat) (recs : List (Nat × DSlot)) : State :=
  let gang := if 1 < g.lpb.courseN then some s.nextUid else none
  let s := match gang with
    | some n => { s with gangs := s.gangs.set {} n { size := g.lpb.courseN, members := (List.range g.lpb.courseN).map fun i => s.nextUid + i } }
    | none => s
  let r := cs.foldl (placeBlock g gang recs) (s, 0)
  modGrid r.1 g.part g.queue g.packet fun x => { x with placed := x.placed + cs.length }

/-- PLACEMENT_DECISION: the next block or gang is placed; a drain record that no longer passes fails its grid (R329). -/
def execPlacementDecision (k : Nat) (s : State) : Host.Outcome State Fault Refusal :=
  .next (match decision s k with
  | .place g cs recs => placeGrid s g cs recs
  | .bad g => stopQueue (modGrid s g.part g.queue g.packet fun x => { x with failed := true }) g.part g.queue 0x0A
  | _ => s)

/-! ### Restoring (R350 to R352) -/

/-- New rows for the saved ones, each of its own quadrant. -/
def mapRows (s : State) (c : Nat) (rows : List (Nat × Row)) : State × List (Nat × Nat) :=
  rows.foldl (fun (p : State × List (Nat × Nat)) e =>
    let f := freeVal p.1
    match pickRows (getCore f.2 c) (e.1 / 2048) f.1.toNat 2048 1 with
    | r :: _ => (modCore f.2 c fun x => setRow x r e.2, p.2 ++ [(e.1, r)])
    | [] => (f.2, p.2)) (s, [])
def newRow (m : List (Nat × Nat)) (r : Nat) : Nat := ((m.find? fun e => e.1 == r).map Prod.snd).getD r
/-- A warp of a restored block: its rows renamed, its last pages forgotten, its lanes to be translated again. -/
def restoredWarp (s : State) (c : Nat) (b : Block) (m : List (Nat × Nat)) (w : Warp) : Warp :=
  let again := fun (a : LaneAcc) => { a with st := .new, loc := match a.loc with | some (.spad u o) => some (.spad u o) | _ => none }
  { w with slot := slotFor s c (quadOf w) { b with warps := ⟨b.warps.cells.filter fun e => e.1 < w.idx⟩ }
           map := ⟨w.map.cells.map fun e => (e.1, e.2.map (newRow m))⟩, lastPage := SMap.empty, gated := startsGated s c b.prio, acqFence := true,
           sAvail := SMap.empty, sNext := 0, splits := ⟨w.splits.cells.map fun e => (e.1, e.2.map fun p => { p with nextCyc := 0 })⟩,
           reqs := w.reqs.map fun r => { r with dest := r.dest.map (newRow m), begun := false, todo := if r.trapped then r.todo else r.todo.map again } }
/-- The lines whose RDC copies a write that has been performed still waits to drop (R100). -/
def owedLines (s : State) : List Nat :=
  (s.transit.filterMap fun t => match t.ent.line with | .dev pa => if t.performed then some (lineNo pa) else none | _ => none)
  ++ s.ops.flatMap fun o => o.lines
/-- A pier's RDC drops lines: a block restored there may have read them newer (R112, R119). -/
def dropRdcLines (s : State) (p : Nat) (ls : List Nat) : State :=
  modPier s p fun x => { x with rdc := ls.foldl (fun m n => m.set none n none) x.rdc }
def fromPrefix (y : Copy) (n : Nat) : Copy := { y with moved := ⟨(List.range n).map fun e => (e, true)⟩ }
/-- Steps 1 to 4 of R351 for one block; the warps do not issue yet. -/
def restoreBlock (s : State) (u c : Nat) : State :=
  match getBlock s u with
  | none => s
  | some b =>
    let ch := chargesOf s c b.dclass
    let s := dropRdcLines (modCore (charge s c ch) c fun x => { x with l1 := SMap.empty }) (pierOf c) (owedLines s)
    let r := mapRows s c b.savedRows.cells
    let b := { b with warps := ⟨b.warps.cells.map fun e => (e.1, e.2.map fun w => { w with slot := 12 })⟩ }
    let b := (liveWarps b).foldl (fun b w => { b with warps := b.warps.set none w.idx (some (restoredWarp r.1 c b r.2 w)) }) b
    let b := { b with core := some c, chg := ch, started := false, resend := true, avoid := none, savedRows := SMap.empty,
                      banker := ⟨b.banker.cells.map fun e => (e.1, e.2.map fun k => { k with row := newRow r.2 k.row })⟩ }
    setBlock (modGridOf r.1 b fun g => { g with saved := g.saved.filter fun v => v != u }) b

/-- Step 5: the oldest store buffer entry of a warp is translated again and leaves; one whose page is refused goes no
further, at once where PRI is off (R413). `none` while the translation is awaited. -/
def resendOne (s : State) (b : Block) (c : Nat) : Option State :=
  (liveWarps b).findSome? fun w => match w.sb with
    | [] => none
    | e :: t => match e.line, xlat (getCore s c).tlb e.pasid (BitVec.ofNat 64 e.vline) true false with
      | .peer _ _, _ => some (sbLeave (setWarp s b.uid { w with sb := t }) b w.idx e)
      | _, .at_ l => some (sbLeave (setWarp s b.uid { w with sb := t }) b w.idx { e with line := l })
      | _, .weak => if (getPart s b.part).priOff then some (refuseSend s b.uid w true) else none
      | _, _ => none

/-- A restored block begins to issue: its saved commands and copies go on; one saved in a debug stop stops its course, and
stays stopped with its own record (R351, R360). -/
def startRestored (s : State) (b : Block) (c : Nat) : State :=
  let cmds := b.savedCmds.map fun m => if unitNo m = 3 then { m with started := false } else m
  let s := modCore s c fun x => { x with cmds := x.cmds ++ cmds, copies := x.copies ++ b.savedCopies }
  let s := modBlock s b.uid fun x => { x with started := true, resend := false, savedCmds := [], savedCopies := [], satAt := 0 }
  if ¬ b.stopSaved then s
  else
    let low := ((liveWarps b).head?.map fun w => w.idx).getD 0
    let s := raiseStop s c { src := 4, core := c, warp := low, atOnce := true }
    modBlock s b.uid fun x => { x with stopSaved := false, warps := ⟨x.warps.cells.map fun e => (e.1, e.2.map fun w =>
      match warpOf b w.idx with | some o => { w with dbg := { o.dbg with stopped := true } } | none => w)⟩ }

/-- Step 5 to 7 of one block that is being restored on a partition. -/
def resendStep (s : State) (k : Nat) : Option State :=
  (allBlocks s).findSome? fun b => if b.part == k && b.resend then
    match b.core with
    | none => none
    | some c => if (liveWarps b).all fun w => w.sb.isEmpty then some (startRestored s b c) else resendOne s b c
    else none

/-- BLOCK_RESTORE: one step of a restore under way, or the restore that the placement decision comes to. -/
def execBlockRestore (k : Nat) (s : State) : Host.Outcome State Fault Refusal :=
  .next (if ¬ answering s then s else match resendStep s k with
  | some s => s
  | none => match decision s k with
    | .restore us cs => (us.zip cs).foldl (fun s e => restoreBlock s e.1 e.2) s
    | _ => s)

end Sys2Proof.Machine
end

