-- ==== Sys2Proof/Machine/Save.lean ====
section
/-! DEFINITION. Pre-emption and the save (R347 to R349), yields, budgets, block events and completion (R324, R325, R334 to
R336). -/

namespace Sys2Proof.Machine

/-! ### Pre-emption -/

/-- A warp stopped at its next issue slots (R347): what waits with no effect is abandoned and issues again after the restore;
an arrival in a bar stays counted, as the restore rebuilds it (R352). -/
def stopWaits (w : Warp) : Warp :=
  let sw := match w.swait with
    | .barIn c n => .barIn c n
    | .peer i => .peer i
    | .got v p => .got v p
    | _ => .run
  let lw := fun (x : LWait) => if x = .lnext ∨ x = .ljoin ∨ x = .park then x else .run
  { w with swait := sw, splits := ⟨w.splits.cells.map fun e => (e.1, e.2.map fun p => { p with wait := lw p.wait })⟩ }

/-- What waits in a stream of a warp is abandoned with no effect (R161, R240). -/
def abandonStream (s : State) (b : Block) (w : Warp) (lane : Bool) (split : Nat) : State :=
  if ¬ lane then modWarp (abandonWait s b w) b.uid w.idx fun x => { x with swait := if asking x then x.swait else .run }
  else
    modWarp (leaveOrders s (coreNo b) b.uid w.idx (· == split)) b.uid w.idx fun x => match getSplit x split with
      | some p => setSplit x split { p with wait := if p.wait = .park then .park else .run }
      | none => x
/-- A step of a warp of the block that waits is cancelled, as DCMD 4 does it (R360). -/
def cancelStepOf (s : State) (b : Block) : State :=
  match b.core with
  | none => s
  | some c =>
    let co := getCourse s (courseOf c)
    match co.step with
    | some (d, slot, lane, split) =>
      match if d = c ∧ ¬ co.stepIssued then atSlot s c slot else none with
      | some (y, w) =>
        if y.uid = b.uid then abandonStream (setCourse s (courseOf c) { co with step := none, stepping := false, stepWait := false }) y w lane split
        else s
      | none => s
    | none => s

/-- The members of a block's gang that are resident and running, the block alone without one. -/
def gangLive (s : State) (b : Block) : List Block :=
  (gangBlocks s b).filter fun x => x.core.isSome && !x.frozen && !x.exited
/-- Step 1 of R348 for a block and its gang. -/
def stopBlock (s : State) (b : Block) : State :=
  (gangLive s b).foldl (fun s x =>
    if x.saving then s else
    let s := cancelStepOf s x
    let s := modBlock s x.uid fun y => { y with saving := true, bankWait := [], warps := ⟨y.warps.cells.map fun e => (e.1, e.2.map stopWaits)⟩ }
    match x.core with
    | some c => modCore s c fun z => { z with acqWait := z.acqWait.filter fun a => a.block != x.uid }
    | none => s) s

/-- The commands that a parked drain holds up, with the parked drains, in arrival order (R262, R298). -/
def stuckCmds (x : Core) : List Cmd :=
  x.cmds.foldl (fun acc m =>
    let conflict := acc.any fun y => y.block == m.block &&
      (touch (cmdWrites m) (cmdReads y ++ cmdWrites y) || touch (cmdReads m) (cmdWrites y))
    let unit := if unitNo m = 3 then !m.started && 2 ≤ (acc.filter fun y => unitNo y == 3 && y.started).length
                else acc.any fun y => unitNo y == unitNo m
    if m.drain.parked || conflict || unit then acc ++ [m] else acc) []
/-- Whether a request may be saved: a load or atomic that has issued completes first, but for lanes parked on PRI or refused. -/
def reqQuiet (r : MemReq) : Bool :=
  r.trapped || r.kind == .store || r.todo.all fun a => match a.st with | .pri | .bad _ _ => true | _ => false
/-- Steps 2 to 4 of R348: nothing of the block is outstanding but parked lanes, parked drains and what they hold up, and entries
still in store buffers. -/
def blockQuiet (s : State) (b : Block) (c : Nat) : Bool :=
  let x := getCore s c
  let stuck := (stuckCmds x).map fun m => m.id
  !(x.flight.any fun f => f.block == b.uid) && !(s.ops.any fun o => o.block == b.uid) && !(s.transit.any fun t => t.block == b.uid)
  && b.takes.isEmpty && (liveWarps b).all (fun w => w.reqs.all reqQuiet && w.sfu.isEmpty && match w.swait with | .peer _ => false | _ => true)
  && x.cmds.all fun m => m.block != b.uid || stuck.contains m.id

/-- Destination rows of parked requests, which no name may map any more. -/
def reqRows (b : Block) : List Nat := (liveWarps b).flatMap fun w => w.reqs.flatMap fun r => r.dest
/-- A store whose checks have all passed is no parked instruction: its lines that wait for an entry are saved after the entries
of its warp, in order (R104, R106, R349). -/
def takeStores (s : State) (b : Block) : State :=
  (liveWarps b).foldl (fun s w => w.reqs.foldl (fun s r =>
    if r.space == .glob && r.kind == .store && r.begun && !r.trapped && r.todo != [] && r.todo.all sendable then
      match getBlock s b.uid, getWarp s b.uid w.idx with
      | some x, some y => reqSettle (sendStores true s x y r) b.uid w.idx r.id false
      | _, _ => s
    else s) s) s

/-- Whether a block is in a debug stop, or was saved in one that its restore has not raised again yet (R360). -/
def debugStopped (b : Block) : Bool := b.stopSaved || (liveWarps b).any fun w => w.dbg.stopped
/-- Steps 5 to 7: a step that has issued is done (R360); the save is written whole, the completion marker last, and the core's resources return. -/
def saveBlock (s : State) (b : Block) (c : Nat) : State :=
  let x := getCore s c
  let rows := (blockRows b ++ reqRows b).eraseDups
  let saved : SMap Row := rows.foldl (fun m r => m.set {} r (getRow x r)) SMap.empty
  let copies := x.copies.filter fun y => y.block == b.uid
  let s := copies.foldl (fun s y => writeProg s c y (progOf s y)) s
  let copies := copies.map fun y => fromPrefix y (progOf s y)
  let cmds := (x.cmds.filter fun m => m.block == b.uid).map fun m => { m with inject := false }
  let s := modCore s c fun z => { z with rows := rows.foldl (fun m r => m.set {} r {}) z.rows }
  let co := getCourse s (courseOf c)
  let s := match co.step with
    | some (d, slot, _, _) => match if d = c then atSlot s c slot else none with
      | some (y, w) =>
        if y.uid = b.uid then
          let s := setCourse s (courseOf c) { co with step := none, stepping := false, stepWait := false, stepIssued := false }
          if co.stepIssued then modWarp s y.uid w.idx fun x => { x with dbg := { x.dbg with reason := 4 } } else s
        else s
      | none => s
    | none => s
  let s := unplace s b
  let b := (getBlock s b.uid).getD b
  let s := modBlock s b.uid fun y => { y with savedRows := saved, savedCmds := b.savedCmds ++ cmds, savedCopies := b.savedCopies ++ copies, resend := false,
                                              stopSaved := debugStopped b }
  modGridOf s b fun g => { g with saved := g.saved ++ [b.uid] }

/-- An emergency ends once every save of the pier has its marker and every sensor reads below 95.0 degrees (R383). -/
def emergEnds (s : State) (p : Nat) : State :=
  let x := getPier s p
  let cool := fun (m : SMap Int) => m.cells.all fun e => decide (e.2 < 1520)
  if x.emerg ∧ cool x.vtemp ∧ cool x.ctemp ∧ ¬ (allBlocks s).any (fun b => b.saving && (b.core.any fun c => pierOf c == p))
  then setPier s p { x with emerg := false } else s

/-- Saves a stopped block and its gang once all of them are quiet; stops them first. -/
def preempt (s : State) (b : Block) : State :=
  let gs := gangLive s b
  if ¬ gs.all fun x => x.saving then stopBlock s b
  else if gs.all fun x => match x.core with | some c => blockQuiet s x c | none => true
    then gs.foldl (fun s x =>
      let s := takeStores s x
      match getBlock s x.uid, x.core with | some y, some c => emergEnds (saveBlock s y c) (pierOf c) | _, _ => s) s
    else s

/-- PREEMPT: the dispatcher stops a block or a gang at an instruction boundary, and saves it once it is quiet. A frozen or
exited block is never saved (R324). -/
def execPreempt (bu : Nat) (s : State) : Host.Outcome State Fault Refusal :=
  .next (match getBlock s bu with
  | some b => if b.core.isNone ∨ b.frozen ∨ b.exited ∨ inError s b.part then s else preempt s b
  | none => s)

/-! ### Yields (R324, R308) -/

/-- The resident blocks of a grid that have not exited. -/
def resident (s : State) (g : Grid) : List Block := (blocksOf s g).filter fun b => b.core.isSome && !b.exited
def blockYields (b : Block) : Bool := (liveWarps b).all fun w => w.swait == .yield
/-- Whether the block of some ready grid with an earlier deadline fits nowhere. -/
def starved (s : State) (g : Grid) : Bool :=
  (readyOrder s g.part).any fun h => h.lpb.deadline.toNat < g.lpb.deadline.toNat && (tryGrid s g.part h).isNone
/-- Each warp of a block goes on past its yield. -/
def pastYield (s : State) (b : Block) : State := (liveWarps b).foldl (fun s w => completeWait s b w.idx) s

/-- GRID_YIELD: a new slice begins; the blocks are pre-empted for a starved grid, else released (R324). At BUDG zero there is none: the
budget is exhausted (R325). A gang of which a block is in a debug stop is not pre-empted (R360). -/
def execGridYield (k n i : Nat) (s : State) : Host.Outcome State Fault Refusal :=
  .next (match getGrid s k n i with
  | none => s
  | some g =>
    let bs := resident s g
    if ¬ gridOpen g ∨ g.failed ∨ g.held ∨ (g.budg = 0 ∧ ¬ orphan s g) ∨ bs.isEmpty ∨ ¬ bs.all blockYields ∨ ¬ allPlaced g ∨ bs.any (fun b => b.saving || !b.started)
    then s
    else
      let starving := starved s g
      let s := modGrid s k n i fun x => { x with budg := fullBudget x.lpb.budget }
      bs.foldl (fun s b =>
        let s' := pastYield s b
        if starving ∧ ¬ (b :: gangBlocks s b).any debugStopped then (match getBlock s' b.uid with | some y => stopBlock s' y | none => s') else s') s)

/-! ### Budgets (R325) -/

/-- A write that the dispatcher makes for itself under the queue's PASID (R428): none while it waits, an error when refused. -/
inductive DWrite where
  | done (s : State) | wait | refused (s : State)
def dWrite (s : State) (k pasid : Nat) (a : DWord) (bs : List Byte) : DWrite :=
  match dXlat s k pasid a true with
  | .at_ l => .done (devWrite s none l bs)
  | .wait => .wait
  | .refused => .refused (forgetD s k)

/-- The supervisor event record. -/
def supRecord (g : Grid) : List Byte :=
  leBytes 2 0x0B ++ leBytes 2 g.queue ++ leBytes 4 0 ++ leBytes 8 (g.packet % 2 ^ 64) ++ leBytes 8 g.exhAt ++ leBytes 8 (totalBlocks g - g.exited)

/-- Step 3 of R325: the record is written and the vector signalled, whether it is refused or not; while its translation is awaited it is
owed. -/
def supEvent (s : State) (k n i : Nat) (g : Grid) : State :=
  let paid := fun (s : State) => modGrid s k n i fun x => { x with owes := false }
  match dWrite s k g.pasid (getQueue s k n).supaddr (supRecord g) with
  | .wait => s
  | .refused t =>
    let u := stopQueue (paid t) k n 0x09
    if (getQueue s k n).state = 2 then signalQueue u k n else u
  | .done s => signalQueue (paid s) k n
/-- BUDGET_EXHAUSTED: the grid's blocks are stopped and saved; then the queue goes to STATE 3 with the grid held, and the record is
written. A queue in STATE 2 stays in it, as a grid it holds stays saved until CTL 2 (R318, R325; assumption 100). -/
def execBudgetExhausted (k n i : Nat) (s : State) : Host.Outcome State Fault Refusal :=
  .next (match getGrid s k n i with
  | none => s
  | some g =>
    if g.owes then supEvent s k n i g
    else if ¬ gridOpen g ∨ g.failed ∨ g.held ∨ g.budg ≠ 0 ∨ orphan s g ∨ inError s k then s
    else match (resident s g).filter fun b => !b.frozen with
      | b :: t => (b :: t).foldl (fun s b => match getBlock s b.uid with | some y => preempt s y | none => s) s
      | [] => supEvent (modQueue (modGrid s k n i fun x => { x with held := true, owes := true }) k n fun q => { q with state := if q.state = 2 then 2 else 3 }) k n i g)

/-! ### Block events and completion (R335, R336) -/

/-- Whether a store, copy or engine write of a block is not acknowledged, or work of it is still in the units. -/
def blockBusy (s : State) (b : Block) : Bool :=
  s.transit.any (fun t => t.block == b.uid) || s.ops.any (fun o => o.block == b.uid)
  || s.cores.cells.any fun e => e.2.cmds.any (fun m => m.block == b.uid) || e.2.copies.any fun y => y.block == b.uid

/-- A block whose event is decided leaves the machine where its grid has completed. -/
def eventDone (s : State) (g : Grid) (b : Block) : State := if g.complete then releaseBlock s false b.uid else s
/-- BLOCK_EVENT. A grid whose event could not be written makes no completion write, as every event comes before it. -/
def execBlockEvent (bu : Nat) (s : State) : Host.Outcome State Fault Refusal :=
  .next (match getBlock s bu with
  | none => s
  | some b => match gridOf s b with
    | none => s
    | some g =>
      if g.lpb.cmode ≠ 1 ∨ ¬ b.exited ∨ b.evented ∨ blockBusy s b ∨ inError s b.part then s
      else
        let s := modBlock s bu fun x => { x with evented := true }
        match dWrite s b.part g.pasid (g.lpb.blkEvt + BitVec.ofNat 64 b.idx) [1] with
        | .done s' => eventDone s' g b
        | .refused s' => eventDone (stopQueue (modGridOf s' b fun x => { x with noCpl := true }) b.part b.queue 0x09) g b
        | .wait => modBlock s bu fun x => { x with evented := false })

/-- The blocks and the gangs of a completed grid leave the machine, but those that still owe a block event (R336). -/
def retireBlocks (s : State) (g : Grid) : State :=
  ((blocksOf s g).filter fun b => g.lpb.cmode != 1 || b.evented).foldl (fun s b => releaseBlock s false b.uid) s
/-- Whether a grid may complete now: its blocks have exited and their writes are acknowledged, and where it makes a completion write every
block event comes before that (R335, R336). -/
def completes (s : State) (g : Grid) : Bool :=
  gridOpen g && !g.failed && !g.lost && totalBlocks g ≤ g.exited && (blocksOf s g).all fun b =>
    !blockBusy s b && (g.lpb.cplAddr == 0 || g.lpb.cmode != 1 || b.evented)
/-- GRID_COMPLETE. -/
def execGridComplete (k n i : Nat) (s : State) : Host.Outcome State Fault Refusal :=
  .next (match getGrid s k n i with
  | none => s
  | some g =>
    if ¬ completes s g ∨ inError s k then s
    else
      let done := fun (s : State) => retireBlocks (modGrid s k n i fun x => { x with complete := true }) g
      if g.lpb.cplAddr = 0 then done s
      else if g.noCpl then s
      else match dWrite s k g.pasid g.lpb.cplAddr (leBytes 8 g.lpb.cplVal.toNat) with
        | .wait => s
        | .refused s' => stopQueue (modGrid s' k n i fun x => { x with noCpl := true }) k n 0x09
        | .done s' => done s')

end Sys2Proof.Machine
end

