-- ==== Sys2Proof/Machine/Thermal.lean ====
section
/-! DEFINITION. Heat, refresh and power (R332, R333, R372 to R384), substitution in service (R399 to R401), and masters
(R403). Temperatures are in sixteenths of a degree. -/

namespace Sys2Proof.Machine

/-! ### Refresh (R373, R374) -/

/-- The highest multiplier whose rising threshold a sample meets. -/
def riseTo (t : Int) : Nat := if 1520 ≤ t then 2 else if 1360 ≤ t then 1 else 0
/-- Whether a sample lies below the falling threshold of a multiplier. -/
def belowFall (m : Nat) (t : Int) : Bool := if m = 2 then decide (t < 1488) else if m = 1 then decide (t < 1328) else false
/-- Multiplier and count of low samples after a sample. -/
def multStep (m n : Nat) (t : Int) : Nat × Nat :=
  if m < riseTo t then (riseTo t, 0)
  else if belowFall m t then (if 16 ≤ n + 1 then (m - 1, 0) else (m, n + 1))
  else (m, 0)
/-- A sample of a vault; in the self-refresh of a hard trip the multiplier stays at ×4 (R384). -/
def sampleVault (cut : Bool) (x : Pier) (v : Nat) (t : Int) : Pier :=
  let r := if cut then (x.mult.get 0 v, 0) else multStep (x.mult.get 0 v) (x.fall.get 0 v) t
  { x with vtemp := x.vtemp.set 0 v t, mult := x.mult.set 0 v r.1, fall := x.fall.set 0 v r.2 }

/-! ### Emergencies and hard trips (R383, R384) -/

/-- Every block resident on a pier is stopped, to be saved. -/
def evacuate (s : State) (p : Nat) : State :=
  (allBlocks s).foldl (fun s b => if b.core.any (fun c => pierOf c == p) && !b.exited && !b.frozen
    then (match getBlock s b.uid with | some y => stopBlock s y | none => s) else s) s
/-- What a core keeps when the logic power is cut: whether its position is mapped, and a frequency that waits. -/
def darkCore (x : Core) : Core := { disabled := x.disabled, wantFreq := x.wantFreq }
/-- The logic power of the package is cut: blocks without a completed save are lost, and nothing that a core, a cache or a link
held survives; memory and saves do, in self-refresh at ×4. -/
def cutPower (s : State) : State :=
  let s := (allBlocks s).foldl (fun s b => if b.core.isSome && !b.exited then modBlock s b.uid fun x => { x with lost := true } else s) s
  let s := (allBlocks s).foldl (fun s b => modBlock s b.uid fun x => { x with core := none, saving := false, chg := [] }) s
  let pier := fun (x : Pier) => { x with rdc := SMap.empty, chg := SMap.empty, emerg := false, fall := SMap.empty,
                                         mult := (List.range 32).foldl (fun m v => m.set 0 v 2) SMap.empty }
  { s with cores := ⟨(s.cores.cells.map fun e => (e.1, darkCore e.2)).filter fun e => decide (e.2 ≠ {})⟩
           piers := (List.range 4).foldl (fun m p => m.set {} p (pier (m.get {} p))) s.piers
           courses := ⟨(s.courses.cells.map fun e => (e.1, { switch := e.2.switch, pendSwitch := e.2.pendSwitch, pwra := e.2.pwra : Course })).filter
                        fun e => decide (e.2 ≠ {})⟩
           parts := ⟨(s.parts.cells.map fun e => (e.1, { e.2 with dtlb := [], noPage := [] })).filter fun e => decide (e.2 ≠ {})⟩
           ops := [], transit := [], scopes := SMap.empty
           dev := { s.dev with tripped := true } }

/-- A sample of pier `p`: its 32 logical vaults and 9 physical cores, with what its readings bring about. -/
def takeSample (s : State) (p : Nat) (vault core : List Int) : State :=
    let s := modPier s p fun x => ((vault.take 32).zipIdx).foldl (fun x e => sampleVault s.dev.tripped x e.2 e.1) { x with samples := x.samples + 1 }
    let s := modPier s p fun x => { x with ctemp := ((core.take 9).zipIdx).foldl (fun m e => m.set 0 e.2 e.1) x.ctemp }
    if (vault.take 32).any (fun t => decide (1760 ≤ t)) || (core.take 9).any (fun t => decide (1840 ≤ t)) then (if s.dev.tripped then s else cutPower s)
    else if s.dev.tripped then s
    else if (vault.take 32).any (fun t => decide (1680 < t)) || (core.take 9).any (fun t => decide (1760 ≤ t))
    then evacuate (modPier s p fun x => { x with emerg := true }) p
    else emergEnds s p
/-- Whether a pier owes a sample: one is taken at each multiple of 1000 ns of GTIME, the first at 0 (R372). -/
def sampleDue (s : State) (p : Nat) : Bool := (getPier s p).samples ≤ s.gtime / 1000
/-- Whether an event gives a sample: a reading of 16 bits of each of the 32 vault sensors and the 9 core sensors (R372). -/
def isSample (vault core : List Int) : Bool :=
  vault.length == 32 && core.length == 9 && (vault ++ core).all fun t => decide (-32768 ≤ t) && decide (t < 32768)
/-- SENSOR_SAMPLE of pier `p`, whose readings are the event's. -/
def execSensorSample (p : Nat) (vault core : List Int) (s : State) : Host.Outcome State Fault Refusal :=
  .next (if 4 ≤ p ∨ ¬ sampleDue s p ∨ ¬ isSample vault core then s else takeSample s p vault core)
/-- A reading of a sensor that the agenda has not given: a free 16-bit number (assumption 91). -/
def freeReading (n : Nat) : Int := ((Config.freeWord n).setWidth 16).toInt
/-- Every sample still owed is taken, with free readings: GTIME does not pass over one (R372). -/
def takeSamples (s : State) : State :=
  (List.range 4).foldl (fun s p => if sampleDue s p then
      takeSample { s with fresh := s.fresh + 41 } p ((List.range 32).map fun v => freeReading (s.fresh + v)) ((List.range 9).map fun c => freeReading (s.fresh + 32 + c))
    else s) s

/-- The oldest record of keystone that waits for a context is written once its slot translates (R390, R428). -/
def flushOne (s : State) (k pasid : Nat) : Option State :=
  let x := getCtx s k pasid
  match x.due with
  | [] => none
  | bs :: t =>
    if eqFull x.errqb x.errqh then some (setCtx s { x with due := t, errqh := x.errqh ||| (1#64 <<< 63) })
    else match dXlat s k pasid (BitVec.ofNat 64 (eqBase x.errqb + 64 * (eqTail x.errqh % eqSize x.errqb))) true with
      | .at_ l => some (setCtx (devWrite s none l bs)
          { x with due := t, errqh := (x.errqh &&& ~~~0x7FFFFFFF00000000#64) ||| (BitVec.ofNat 64 ((eqTail x.errqh + 1) % 2 ^ 31) <<< 32) })
      | .refused => some (setCtx (forgetD s k) { x with due := t, errqh := x.errqh ||| 0x80000000 })
      | .wait => none
def flushCtx (k pasid : Nat) : Nat → State → State
  | 0, s => s
  | n + 1, s => match flushOne s k pasid with | some s => flushCtx k pasid n s | none => s
/-- Every record of keystone that can be written now. -/
def flushAll (s : State) : State := s.ctxs.foldl (fun s x => flushCtx x.part x.pasid x.due.length s) s

/-- A block lost to a hard trip: its context gets a type 4 record, its grid fails, its queue stops. -/
def loseBlock (s : State) (b : Block) : State :=
  let s := ctxRecord s b.part b.pasid { type := 4, sev := 3, unit := 12, pasid := b.pasid, synd := BitVec.ofNat 64 b.idx }
  let s := modGridOf s b fun g => { g with failed := true }
  releaseBlock (stopQueue s b.part b.queue 0x0A) false b.uid
/-- Whether every sensor of the device reads below 85.0 degrees. -/
def allCool (s : State) : Bool :=
  (List.range 4).all fun p => (getPier s p).vtemp.cells.all (fun e => decide (e.2 < 1360)) && (getPier s p).ctemp.cells.all fun e => decide (e.2 < 1360)
/-- HARD_TRIP_RESTART. -/
def execHardTripRestart (s : State) : Host.Outcome State Fault Refusal :=
  .next (if ¬ s.dev.tripped ∨ ¬ allCool s then s
    else ((allBlocks s).filter fun b => b.lost).foldl loseBlock (modDev s fun d => { d with tripped := false }))

/-! ### The allowance (R332, R333, R378) -/

/-- ALW of a regulator in mW. -/
def alwOf (s : State) (r : Nat) : Nat := Nat.min (1000 * Config.rmax r) ((1000 * s.dev.cap - Config.reserve) * s.dev.share.get 0 r / 1000)
/-- The powered courses on a regulator, lowest first. -/
def coursesOn (s : State) (r : Nat) : List Nat := (List.range 8).filter fun co => powered s co && (getCourse s co).switch.toNat % 4 == r
/-- The refill of a course per nanosecond. -/
def refillOf (s : State) (co : Nat) : Nat :=
  if ¬ powered s co then 0 else
  let r := (getCourse s co).switch.toNat % 4
  let cs := coursesOn s r
  alwOf s r / cs.length + (if cs.head? = some co then alwOf s r % cs.length else 0)
/-- One refill of a course. An allowance above the ceiling of a lowered cap keeps its value (R382). -/
def refillCourse (s : State) (co : Nat) : State :=
  let x := getCourse s co
  let n := refillOf s co
  let top : Int := 4096 * n
  let v := if top ≤ x.pwra then x.pwra else if top < x.pwra + n then top else x.pwra + n
  if n = 0 then s else setCourse s co { x with pwra := v, deficit := if 0 ≤ v then 0 else x.deficit }
/-- The refill that one nanosecond owes. -/
def refill (s : State) : State :=
  if s.dev.refilled < s.gtime then (List.range 8).foldl refillCourse (modDev s fun d => { d with refilled := d.refilled + 1 }) else s
/-- POWER_ALLOWANCE_REFILL. -/
def execPowerAllowanceRefill (s : State) : Host.Outcome State Fault Refusal := .next (refill s)

/-- The gate level rises after 64 cycles of a deficit (R333). -/
def escalate (s : State) (co : Nat) : State :=
  let x := getCourse s co
  if 0 ≤ x.pwra ∨ x.deficit < 64 then s
  else gateUpTo (setCourse s co { x with deficit := x.deficit - 64, gate := Nat.min (x.gate + 1) 3 }) co (Nat.min (x.gate + 1) 3)
/-- POWER_GATE_ESCALATE. -/
def execPowerGateEscalate (co : Nat) (s : State) : Host.Outcome State Fault Refusal := .next (escalate s co)

/-- The gated warps of a quadrant of a core that may be released, as warp index and block: a warp gated at a debug stop stays gated at its
end (R366). -/
def gatedIn (s : State) (c q : Nat) : List (Nat × Nat) :=
  (blocksOn s c).flatMap fun b => (liveWarps b).filterMap fun w => if quadOf w = q ∧ w.gated ∧ ¬ w.dbg.stopped then some (w.idx, b.uid) else none
/-- Order by warp index, then by block (assumption 92). -/
def idxLess (a b : Nat × Nat) : Bool := a.1 < b.1 || (a.1 == b.1 && a.2 < b.2)
/-- The release of a quadrant in a cycle with an allowance that is not negative: one gated warp, round robin by warp index after the last
released; G becomes the highest PRIO still gated. One release a quadrant and cycle. -/
def releaseIn (s : State) (c q : Nat) : State :=
  let co := courseOf c
  if (getCourse s co).pwra < 0 ∨ (getCore s c).freed.get 0 q ≠ 0 then s
  else
    let l := sortBy idxLess (gatedIn s c q)
    let s := modCore s c fun x => { x with freed := x.freed.set 0 q 1 }
    let s := match (l.find? fun e => ((getCore s c).lastFreed.get none q).all fun x => idxLess x e).orElse fun _ => l.head? with
      | none => s
      | some e => modCore (modWarp s e.2 e.1 fun w => { w with gated := false }) c fun x => { x with lastFreed := x.lastFreed.set none q (some e) }
    modCourse s co fun x => { x with gate := highestGated s co }
/-- GATE_RELEASE: the releases that the cycles of a course's cores still owe; at the latest the end of the clock makes them. -/
def execGateRelease (co : Nat) (s : State) : Host.Outcome State Fault Refusal :=
  .next ((coresOf co).foldl (fun s c => (List.range 4).foldl (fun s q => releaseIn s c q) s) s)

/-! ### Caps (R382) -/

/-- CAP_MESSAGE. -/
def execCapMessage (seq : DWord) (watts leaseMs : Nat) (s : State) : Host.Outcome State Fault Refusal :=
  .next (if seq.toNat ≤ s.dev.lastSeq.toNat then s
    else modDev s fun d => { d with lastSeq := seq, cap := Nat.min 4400 (Nat.max Config.minCap watts), leased := true, onFloor := false,
                                    expiry := s.gtime + (if leaseMs = 0 then 500 else leaseMs) * 1000000 })
/-- The floor cap comes into force once the expiry of a lease has passed, so not in its own nanosecond, in which a message still comes before
it (R382; assumption 115). -/
def leaseEnds (s : State) : State :=
  if s.dev.leased ∧ s.dev.expiry < s.gtime
  then modDev s fun d => { d with cap := Config.floorCap, onFloor := true, leased := false } else s
/-- CAP_LEASE_EXPIRY: at the latest the end of the nanosecond after the expiry brings it. -/
def execCapLeaseExpiry (s : State) : Host.Outcome State Fault Refusal := .next (leaseEnds s)

/-! ### Frequency and the switch matrix (R378, R381, R411) -/

/-- Whether a core holds a resident block, and whether a course does. -/
def coreBusy (s : State) (c : Nat) : Bool := !(holding s c).isEmpty
def courseBusy (s : State) (co : Nat) : Bool := (coresOf co).any (coreBusy s)
/-- A waiting frequency takes effect once the core holds no block. -/
def applyFreq (s : State) (c : Nat) : State :=
  match (getCore s c).wantFreq with
  | some (f, v) =>
    if coreBusy s c then s
    else modCore (modPier s (pierOf c) fun p => { p with freq := p.freq.set 3600 (physOf s c) f, vscale := p.vscale.set 256 (physOf s c) v }) c
      fun x => { x with wantFreq := none }
  | none => s
/-- Whether VSCALE may be `v` at a frequency: from 1 to 65535, and 256 at the nominal 3600 MHz (R379). -/
def vscaleOk (mhz v : Nat) : Bool := decide (v ≠ 0) && decide (v ≤ 65535) && (mhz != 3600 || v == 256)
/-- A frequency with its VSCALE for a physical core: it waits while a logical core that holds a block runs there, and takes effect at once
where none runs (R379, R381). -/
def freqWrite (s : State) (p ph mhz v : Nat) : State :=
  match (getPier s p).coreMap.get 0 ph with
  | 0 => modPier s p fun x => { x with freq := x.freq.set 3600 ph mhz, vscale := x.vscale.set 256 ph v }
  | n + 1 => applyFreq (modCore s (8 * p + n) fun x => { x with wantFreq := some (mhz, v) }) (8 * p + n)
/-- The frequency and VSCALE of a physical core as last chosen, in force or waiting. -/
def chosenFreq (s : State) (p ph : Nat) : Nat × Nat :=
  let now := ((getPier s p).freq.get 3600 ph, (getPier s p).vscale.get 256 ph)
  match (getPier s p).coreMap.get 0 ph with
  | 0 => now
  | n + 1 => (getCore s (8 * p + n)).wantFreq.getD now
/-- Infill writes VSCALE of a physical core with a frequency change (R379, R381); that a value which R379 excludes is not stored is the
model's choice (assumption 90). -/
def vscaleWrite (s : State) (p ph v : Nat) : State :=
  let f := (chosenFreq s p ph).1
  if vscaleOk f v then freqWrite s p ph f v else s
/-- THP as infill writes it: between 70.0 and 105.0 degrees (R377); that another value is not stored is the model's choice, as for a
VSCALE outside 1 to 65535 (assumption 90). -/
def thpOk (v : Int) : Bool := 1120 ≤ v && v ≤ 1680
/-- The core that FREQUENCY_CHANGE names, as pier and physical core: a number below 32 is a COREID, 32 + 9·p + ph is physical core ph of
pier p, mapped or not. -/
def coreNamed (s : State) (c : Nat) : Nat × Nat := if c < 32 then (pierOf c, physOf s c) else ((c - 32) / 9, (c - 32) % 9)
/-- FREQUENCY_CHANGE: infill chooses a frequency with its VSCALE. -/
def execFrequencyChange (c mhz vscale : Nat) (s : State) : Host.Outcome State Fault Refusal :=
  .next (
    let e := coreNamed s c
    if 68 ≤ c ∨ mhz < 600 ∨ 3600 < mhz ∨ mhz % 50 ≠ 0 ∨ ¬ vscaleOk mhz vscale ∨ masterFrozen s (.infill e.1) then s
    else if c < 32 then applyFreq (modCore s c fun x => { x with wantFreq := some (mhz, vscale) }) c
    else freqWrite s e.1 e.2 mhz vscale)

/-- The change of a course's entry, held pending while a block is resident. -/
def switchWrite (s : State) (co : Nat) (x : DWord) : State :=
  let v := x &&& 0x83
  if courseBusy s co then modCourse s co fun y => { y with pendSwitch := some v } else modCourse s co fun y => { y with switch := v, pendSwitch := none }
/-- SWITCH_MATRIX_APPLY. -/
def execSwitchMatrixApply (co : Nat) (s : State) : Host.Outcome State Fault Refusal :=
  .next (match (getCourse s co).pendSwitch with
  | some v => if courseBusy s co then s else modCourse s co fun y => { y with switch := v, pendSwitch := none }
  | none => s)

/-! ### Substitution (R400, R401) -/

/-- Writes a row or a column of the coupling table. -/
def couplingRow (x : Pier) (ph : Nat) (row : List Nat) : Pier :=
  { x with coup := ((row.take 32).zipIdx).foldl (fun m e => m.set 0 (32 * ph + e.2) (e.1 % 256)) x.coup }
def couplingCol (x : Pier) (v : Nat) (col : List Nat) : Pier :=
  { x with coup := ((col.take 9).zipIdx).foldl (fun m e => m.set 0 (32 * e.2 + v) (e.1 % 256)) x.coup }

/-- A number for a core and for a vault in the count of errors. -/
def coreUnit (c : Nat) : Nat := c
def vaultUnit (p v : Nat) : Nat := 32 + 32 * p + v
/-- Whether a core or vault has reported more than 16 uncorrectable errors in the last hour (R399). -/
def tooManyErrs (s : State) (u : Nat) : Bool :=
  let l := s.dev.errs.get [] u
  decide (17 ≤ l.length) && l.all fun t => decide (s.gtime < t + 3600 * 10 ^ 9)
/-- The records of a retired core for the contexts with a moved block (R392, R400). -/
def retiredRecs (s : State) (c old new : Nat) (moved : List Block) : State :=
  (ctxsOf moved).foldl (fun s e => ctxRecord s e.1 e.2
    { type := 5, sev := 1, unit := 13, place := onCore c 0xFF, pasid := e.2, pa := BitVec.ofNat 64 old, va := BitVec.ofNat 64 new,
      synd := BitVec.ofNat 64 (moved.filter fun b => b.part == e.1 && b.pasid == e.2).length }) s

/-- What infill contributes to a substitution on a pier: nothing while it is frozen (R403). -/
def infillAsks (s : State) (p : Nat) (r : Retire) : Retire := if masterFrozen s (.infill p) then { figures := [], asked := false } else r
/-- CORE_RETIRE: keystone decides it where infill asks, or by itself after too many errors (R399). Nothing more is placed on the position and
its blocks are stopped; once they are saved it is mapped to the spare, or stays disabled where the spare is in use. Infill that is frozen asks for nothing and writes no figures (R403). CYC of the logical core
goes on from its count (assumption 81). -/
def execCoreRetire (c : Nat) (r : Retire) (s : State) : Host.Outcome State Fault Refusal :=
  .next (if 32 ≤ c then s else
    let p := pierOf c
    let r := infillAsks s p r
    let live := (holding s c).filter fun b => !b.frozen
    let x := getCore s c
    let moved := (x.retiring.filterMap (getBlock s)).filter fun b => !b.exited
    if ¬ x.disabled ∧ ¬ r.asked ∧ ¬ tooManyErrs s (coreUnit c) then s
    else if ¬ x.disabled then
      let s := modCore s c fun y => { y with disabled := true, retiring := live.map fun b => b.uid }
      live.foldl (fun s b => match getBlock s b.uid with | some y => stopBlock s y | none => s) s
    else if ¬ live.isEmpty then s
    else
    -- a frequency that waits for the core to be empty takes effect before the position moves (R381)
    let s := applyFreq s c
    if (getPier s p).coreSpareUsed then
      retiredRecs (modCore s c fun y => { y with retiring := [] }) c (physOf s c) (physOf s c) moved
    else
      let old := physOf s c
      match (List.range 9).find? fun ph => (getPier s p).coreMap.get 0 ph == 0 with
      | none => s
      | some new =>
        let s := modPier s p fun y => couplingRow { y with coreMap := (y.coreMap.set 0 old 0).set 0 new (c % 8 + 1), coreSpareUsed := true } new r.figures
        let s := modCore s c fun y => { y with disabled := false, retiring := [] }
        retiredRecs { s with dev := { s.dev with errs := s.dev.errs.set [] (coreUnit c) [] } } c old new moved)

/-- The ranges of a partition that lie on a pier. -/
def hasMemOn (x : Part) (p : Nat) : Bool :=
  (List.range 8).any fun m => x.memSize.get 0 m != 0 && homePier (x.memBase.get 0 m) ≤ p && p ≤ homePier (x.memBase.get 0 m + x.memSize.get 0 m - 1)
/-- The contexts of the partitions with memory on a pier, each with the records kept for it. -/
def ctxsWithMem (s : State) (p : Nat) : List (Nat × Nat) := (s.ctxs.filter fun x => hasMemOn (getPart s x.part) p).map fun x => (x.part, x.pasid)
/-- Pieces of 512 bytes in a vault: a pier's 96 GiB over 32 vaults (R19, R24). -/
def vaultPieces : Nat := 96 * 2 ^ 30 / 32 / 512
/-- VAULT_RETIRE: keystone decides it where infill asks, or by itself after too many errors (R399). Each event copies the next piece to the
spare; while pieces are copied reads are served from the old vault and writes reach both, so the contents of the spare are those of the
vault so far as it is copied. After the last piece the map is switched: contents, order and poison of each location are unchanged (R401). -/
def execVaultRetire (p v : Nat) (r : Retire) (s : State) : Host.Outcome State Fault Refusal :=
  .next (if 4 ≤ p ∨ 32 ≤ v then s else
    let r := infillAsks s p r
    let x := getPier s p
    let g := v / 16
    let at_ : Nat × Nat × Nat × Nat := (p, 2 * p + g, 0xFF, 0xFF)
    let group := (List.range 17).map fun i => 17 * g + i
    match x.vaultMove.get none v with
    | none =>
      if ¬ r.asked ∧ ¬ tooManyErrs s (vaultUnit p v) then s
      else match group.find? (fun ph => x.vaultMap.get 0 ph == v + 1), group.find? fun ph => x.vaultMap.get 0 ph == 0 with
        | some old, some new =>
          let s := { s with dev := { s.dev with errs := s.dev.errs.set [] (vaultUnit p v) [] } }
          if x.vaultSpareUsed.get false g then
            logRec s (recBytes s.gtime { type := 6, sev := 1, unit := 6, place := at_, pasid := 0, pa := BitVec.ofNat 64 v, va := BitVec.ofNat 64 old })
          else setPier s p { x with vaultMove := x.vaultMove.set none v (some (new, 0)), vaultSpareUsed := x.vaultSpareUsed.set false g true }
        | _, _ => s
    | some (new, n) =>
      if n + 1 < vaultPieces then setPier s p { x with vaultMove := x.vaultMove.set none v (some (new, n + 1)) }
      else match group.find? fun ph => x.vaultMap.get 0 ph == v + 1 with
        | some old =>
          let s := setPier s p (couplingCol { x with vaultMap := (x.vaultMap.set 0 old 0).set 0 new (v + 1), vaultMove := x.vaultMove.set none v none } v r.figures)
          (ctxsWithMem s p).foldl (fun s e => ctxRecord s e.1 e.2
            { type := 6, sev := 1, unit := 6, place := at_, pasid := e.2, pa := BitVec.ofNat 64 v, va := BitVec.ofNat 64 new }) s
        | none => s)

/-! ### Masters (R403) -/

/-- MASTER_FREEZE. -/
def execMasterFreeze (m : Master) (pa : Nat) (s : State) : Host.Outcome State Fault Refusal := .next (freezeMaster s m pa)
/-- MASTER_RELEASE. -/
def execMasterRelease (m : Master) (s : State) : Host.Outcome State Fault Refusal :=
  .next (modDev s fun d => { d with frozen := d.frozen.filter fun x => x != m })

end Sys2Proof.Machine
end

