-- ==== Sys2Proof/Machine/Debug.lean ====
section
/-! DEFINITION. The debug BAR, which takes no write while PF0 is frozen (R403): arming watchpoints (R358), instruction breakpoints (R363), DCMD (R369, R370), DWSEL and DWDATA
(R371), and injection (R404). -/

namespace Sys2Proof.Machine

def modDbg (s : State) (c : Nat) (f : DbgCore → DbgCore) : State := modCore s c fun x => { x with dbg := f x.dbg }

/-! ### Watchpoints (R358 to R360) -/

/-- WPnC as written: ERR is read-only, and reserved SPACE values leave KIND 0. -/
def wpcValue (x : DWord) : DWord := let v := x &&& 0x1FFF; if v.getLsbD 9 then v &&& ~~~0xC00#64 else v
/-- Arming fails: ERR set, KIND 0. -/
def wpFails (s : State) (c n : Nat) (v : DWord) : State :=
  modDbg s c fun d => { d with wpC := d.wpC.set 0 n (wpDisarm v), wpLoc := d.wpLoc.set none n none, wpPage := d.wpPage.set none n none }
def wpArms (s : State) (c n : Nat) (v : DWord) (l : Option ALoc) (p : Option Page) : State :=
  modDbg s c fun d => { d with wpC := d.wpC.set 0 n v, wpLoc := d.wpLoc.set none n l, wpPage := d.wpPage.set none n p }
/-- Drops a line from every L1 and RDC. -/
def dropEverywhere (s : State) (line : Nat) : State := (s.cores.keys).foldl (fun s c => dropL1Line s c line) (dropRdcAll s line)

/-- The partition that a core's course belongs to. -/
def partOfCore (s : State) (c : Nat) : Option Nat := (List.range 4).find? fun k => (getPart s k).courses.getLsbD (courseOf c)
/-- A write of WPnC; `a` is what ATS answers for WPnA under a PASID of the core's partition. Every write clears ERR, one with KIND 0 too,
unless arming fails (assumption 80). -/
def armWatch (s : State) (c n : Nat) (x : DWord) (a : Option Page) : State :=
  let v := wpcValue x
  let w := (getCore s c).dbg.wpA.get 0 n
  let w8 := w &&& ~~~7#64
  if wpKind v = 0 then wpArms s c n v none none
  else if v.getLsbD 8 then
    match (blocksOn s c).find? fun b => !b.exited with
    | some b => wpArms s c n v (some (.spad b.uid w8.toNat)) none
    | none => wpFails s c n v
  else match a with
    | none => wpFails s c n v
    | some p =>
      if w.getLsbD 63 ∨ devidOf w ≠ 0 ∨ p.host ∨ ¬ pageHolds p p.pasid (vaOf w8)
          ∨ ¬ (partOfCore s c).any (fun k => inPasids (getPart s k) p.pasid) then wpFails s c n v
      else
        let pa := gAddr (pageLoc p (vaOf w8))
        let s := if 2 ≤ wpKind v then dropEverywhere s (lineNo pa) else s
        wpArms s c n v (some (.g (.dev pa))) (some p)
/-- WATCHPOINT_ARM. -/
def execWatchpointArm (c n : Nat) (x : DWord) (a : Option Page) (s : State) : Host.Outcome State Fault Refusal :=
  .next (if pfLet s ∧ answering s ∧ c < 32 ∧ n < 4 then armWatch s c n x a else s)

/-! ### Instruction breakpoints (R363) -/

/-- Whether breakpoint `n` of a core matches what a stream of a warp would issue next: an instruction that has issued and waits is not it. -/
def ibpMatches (s : State) (c n : Nat) (b : Block) (w : Warp) (split : Option Nat) : Bool :=
  let d := (getCore s c).dbg
  let x := d.ibpC.get 0 n
  let a := d.ibpA.get 0 n
  x.getLsbD 0 && b.debug && (x.getLsbD 9 || fld x.toNat 10 6 == w.idx) &&
  match split with
  | none => !x.getLsbD 8 && w.spc == a && !sIssued w && w.dbg.passBp != some a
  | some k => x.getLsbD 8 && match getSplit w k with | some p => p.lpc == a && p.rep.isNone && p.repStart == 0 && p.wait != .park && !p.passBp | none => false
def ibpOf (s : State) (c : Nat) (b : Block) (w : Warp) (split : Option Nat) : Option Nat :=
  (List.range 8).find? fun n => ibpMatches s c n b w split
/-- The stop of a match: the warp at once, with skids 0 and REASON 6; the word issues once without matching when it goes on. -/
def ibpStop (s : State) (c n : Nat) (b : Block) (w : Warp) (split : Option Nat) : State :=
  let w := match split with
    | none => { w with dbg := { w.dbg with passBp := some w.spc } }
    | some k => match getSplit w k with | some p => setSplit w k { p with passBp := true } | none => w
  raiseStop (setWarp s b.uid w) c { src := 5, core := c, warp := w.idx, ibp := n, own := some (b.uid, w.idx), reason := 6, atOnce := true, noSkid := true }
/-- INSTRUCTION_BREAKPOINT: split 4 stands for the S-stream. -/
def execInstructionBreakpoint (c n bu wi split : Nat) (s : State) : Host.Outcome State Fault Refusal :=
  onWarpEvent s bu wi fun b w =>
    let k := if split < 4 then some split else none
    if b.core = some c ∧ n < 8 ∧ ¬ w.dbg.stopped ∧ ¬ (getCourse s (courseOf c)).stopped ∧ ibpMatches s c n b w k then ibpStop s c n b w k else s

/-! ### DCMD (R369, R370) -/

/-- DCMD 1. -/
def execDcmdStop (c : Nat) (s : State) : Host.Outcome State Fault Refusal :=
  .next (if pfLet s ∧ answering s ∧ c < 32 then raiseStop s c { src := 4, core := c } else s)

/-- DCMD 2. -/
def execDcmdResume (c : Nat) (s : State) : Host.Outcome State Fault Refusal :=
  .next (
    let co := courseOf c
    if ¬ pfLet s ∨ ¬ answering s ∨ ¬ (getCourse s co).stopped then s
    else
      let s := modCourse s co fun x => { x with stopped := false, stepping := false, stepWait := false, step := none, stepIssued := false }
      (coresOf co).foldl (fun s c => modDbgWarps (modCore s c fun x => { x with stopDue := none }) c fun _ w => { w.dbg with stopped := false }) s)

/-- Whether a warp has what a step names: the S-stream, or a live split. -/
def canStep (s : State) (c slot : Nat) (lane : Bool) (split : Nat) : Bool :=
  match atSlot s c slot with
  | some (b, w) => b.debug && w.dbg.stopped && (!lane || (getSplit w split).isSome)
  | none => false
/-- DCMD 3: the named stream or split may issue one instruction. -/
def execDcmdStep (c slot : Nat) (lane : Bool) (split : Nat) (s : State) : Host.Outcome State Fault Refusal :=
  .next (
    let co := getCourse s (courseOf c)
    if ¬ pfLet s ∨ ¬ answering s ∨ ¬ co.stopped ∨ co.stepping ∨ ¬ canStep s c slot lane split then s
    else setCourse s (courseOf c) { co with stepping := true, stepWait := false, stepIssued := false, step := some (c, slot, lane, split) })

/-- DCMD 4. -/
def execDcmdCancelStep (c : Nat) (s : State) : Host.Outcome State Fault Refusal :=
  .next (
    let co := getCourse s (courseOf c)
    match co.step with
    | some (d, slot, lane, split) =>
      if ¬ pfLet s ∨ ¬ answering s ∨ ¬ co.stepWait then s
      else
        let s := setCourse s (courseOf c) { co with stepping := false, stepWait := false, step := none }
        match atSlot s d slot with
        | some (b, w) => abandonStream s b w lane split
        | none => s
    | none => s)

/-- DCMD 5. -/
def execDcmdPreempt (c slot : Nat) (avoid : Option Nat) (s : State) : Host.Outcome State Fault Refusal :=
  .next (match if pfLet s ∧ answering s then atSlot s c slot else none with
  | some (b, _) =>
    if ¬ b.debug ∨ b.frozen then s
    else
      let s := (gangBlocks s b).foldl (fun s x => modBlock s x.uid fun y => { y with avoid := avoid }) s
      match getBlock s b.uid with | some y => stopBlock s y | none => s
  | none => s)

/-- Whether the effects of the instruction that a step of a warp issued, in its S-stream or in split `k`, have landed (R370). A request at which
another split is parked is no part of it. -/
def stepLanded (s : State) (b : Block) (w : Warp) (lane : Bool) (k : Nat) : Bool :=
  w.pending.isNone && !w.held.any (·.first) && (w.handler || w.infill ||
    (!lFlying (getCore s (coreNo b)) b w && w.sload.isEmpty && w.reqs.all (fun r => r.trapped || !lane || r.split != k)
     && s.ops.all fun o => o.block != b.uid || o.warp != w.idx || o.cls != .ld || w.reqs.any fun r => r.id == o.id && (!lane || r.split != k)))
/-- STEP_DONE. -/
def execStepDone (co : Nat) (s : State) : Host.Outcome State Fault Refusal :=
  .next (
    let x := getCourse s co
    match x.step with
    | some (c, slot, lane, k) =>
      let ended := fun (s : State) => setCourse s co { x with stepping := false, stepWait := false, stepIssued := false, step := none }
      if ¬ x.stepIssued then s
      else match atSlot s c slot with
        | some (b, w) => if stepLanded s b w lane k then ended (setWarp s b.uid { w with dbg := { w.dbg with reason := 4 } }) else s
        | none => ended s
    | none => s)

/-- The state after an event that always answers one. -/
def stateOf (s : State) (o : Host.Outcome State Fault Refusal) : State := match o with | .next t => t | _ => s
/-- A write of DCMD of core `c` (R369): a command that it does not define is ignored; one that it defines runs whatever the reserved bits of
the write hold (assumption 112). -/
def dcmdWrite (s : State) (c : Nat) (x : DWord) : State :=
  let slot := fld x.toNat 8 6
  stateOf s (match x.toNat % 8 with
    | 1 => execDcmdStop c s
    | 2 => execDcmdResume c s
    | 3 => execDcmdStep c slot (x.getLsbD 16) (fld x.toNat 17 2) s
    | 4 => execDcmdCancelStep c s
    | 5 => execDcmdPreempt c slot (if x.getLsbD 25 then some (fld x.toNat 20 5) else none) s
    | _ => .next s)

/-! ### DWSEL, DWDATA (R371) and DINJ (R404) -/

def dwSlot (x : DWord) : Nat := fld x.toNat 0 6
def dwSpace (x : DWord) : Nat := fld x.toNat 8 3
def dwIndex (x : DWord) : Nat := fld x.toNat 16 16
def dwLane (x : DWord) : Nat := fld x.toNat 32 6
/-- What DWDATA returns for a stopped warp. -/
def dwValue (s : State) (c : Nat) (b : Block) (w : Warp) (x : DWord) : DWord :=
  let i := dwIndex x
  match dwSpace x with
  | 0 => if i < 64 then sreg w (BitVec.ofNat 6 i) else 0
  | 1 => if i < 4096 && csrExists (BitVec.ofNat 12 i) then csrVal s b w i else 0
  | 2 => match mapOf w i with
    | some r => (laneOf (getRow (getCore s c) r).lanes (dwLane x)).setWidth 64
    | none => 0
  | 3 => if i < 32 then predOf w i else 0
  | 4 => if i < 4 then kreg w i else 0
  | 5 => match getSplit w (i / 4) with
    | some p => (match i % 4 with | 0 => p.lpc | 1 => p.rpc.getD 0 | 2 => p.mask | _ => p.prodLpc)
    | none => 0
  | _ => 0
/-- The state of a stopped warp, and of one that a fatal fault has frozen (R346), is readable. -/
def dwRead (s : State) (c : Nat) : DWord :=
  let x := (getCore s c).dbg.dwsel
  match atSlot s c (dwSlot x) with
  | some (b, w) => if w.dbg.stopped || b.frozen then dwValue s c b w x else 0
  | none => 0
/-- DWDATA_READ: the reply is the value, little-endian. -/
def execDwdataRead (c : Nat) (s : State) : Host.Outcome State Fault Refusal :=
  .next (modDev s fun d => { d with reply := leBytes 8 (if answering s then dwRead s c else 0).toNat })

/-- A write of DWDATA: spaces 0 to 4 of a stopped warp. -/
def dwWrite (s : State) (c : Nat) (b : Block) (w : Warp) (x v : DWord) : State :=
  let i := dwIndex x
  match dwSpace x with
  | 0 => if i < 64 then setWarp s b.uid (setS w (BitVec.ofNat 6 i) v) else s
  | 1 => if i < 4096 && csrExists (BitVec.ofNat 12 i) && !(i == 2 && (v.toNat % 8 == 0 || v.toNat % 8 == 7)) then csrWrite s b w i v else s
  | 2 => match mapOf w i with
    | some r => modCore s c fun y => modRow y r fun row => writeLanes row (1#64 <<< dwLane x) (List.replicate 64 (v.setWidth 32)) 0
    | none => s
  | 3 => if i < 31 then setWarp s b.uid (setPred w i (BitVec.allOnes 64) v) else s
  | 4 => if i < 4 then setWarp s b.uid (setK w i v) else s
  | _ => s
/-- DWDATA_WRITE. -/
def execDwdataWrite (c : Nat) (v : DWord) (s : State) : Host.Outcome State Fault Refusal :=
  .next (
    let x := (getCore s c).dbg.dwsel
    match if pfLet s ∧ answering s then atSlot s c (dwSlot x) else none with
    | some (b, w) => if w.dbg.stopped then dwWrite s c b w x v else s
    | none => s)

/-- DINJ_WRITE: while ARM is set a write changes only ARM and DONE. -/
def execDinjWrite (c : Nat) (x : DWord) (s : State) : Host.Outcome State Fault Refusal :=
  .next (if ¬ pfLet s ∨ ¬ answering s ∨ 32 ≤ c then s else
    -- a write that disarms drops the selection of an mma
    let s := if x.getLsbD 63 then s else modCore s c fun y => { y with cmds := y.cmds.map fun m => { m with inject := false } }
    modDbg s c fun d =>
    let done := d.dinj.getLsbD 62 && !x.getLsbD 62
    let body := if d.dinj.getLsbD 63 then d.dinj &&& 0x3FFFFC001F#64 else x &&& 0x3FFFFC001F#64
    { d with dinj := body ||| (x &&& (1#64 <<< 63)) ||| (BitVec.ofNat 64 done.toNat <<< 62) })

end Sys2Proof.Machine
end

