-- ==== Sys2Proof/Machine/Bar.lean ====
section
/-! DEFINITION. The BARs (R317, R318, R356, R357, R380, R407 to R412, R416): what each register reads as, what a write to it
does, and the items that LOCK_INTERFACE freezes (R421, R422). -/

namespace Sys2Proof.Machine

/-! ### Reads -/

/-- A register as offset, size in bytes and value. -/
abbrev Field := Nat × Nat × Nat
/-- The byte at an offset of a block of fields; what no field covers reads zero. -/
def fieldByte (fs : List Field) (o : Nat) : Byte :=
  match fs.find? fun f => f.1 ≤ o && o < f.1 + f.2.1 with
  | some f => BitVec.ofNat 8 (f.2.2 / 256 ^ (o - f.1))
  | none => 0
/-- A signed register in two's complement. -/
def twos (n : Nat) (v : Int) : Nat := (BitVec.ofInt n v).toNat

/-- A queue register block (R317, R412) and a trap block (R319). -/
def queueFields (q : Queue) : List Field :=
  [(0, 8, q.rbase.toNat), (8, 1, q.rlog), (9, 1, q.state), (0xA, 2, if q.state = 2 ∨ q.state = 0 then q.err else 0), (0x10, 8, q.wridx),
   (0x18, 8, q.rdidx), (0x20, 8, q.supaddr.toNat), (0x38, 8, q.qpasid.toNat)]
def trapFields (q : Queue) : List Field :=
  [(0, 8, q.qtvec.toNat), (8, 8, q.qtfbase.toNat), (0x10, 1, q.qtflog), (0x18, 8, q.qerrqb.toNat)]
/-- A partition entry (R410). -/
def partFields (p : Part) : List Field :=
  [(0, 1, p.courses.toNat), (1, 1, p.en.toNat), (4, 4, p.pbase), (8, 4, p.pcnt), (0x10, 8, p.outmask.toNat)]
  ++ (List.range 8).flatMap fun m => [(0x20 + 16 * m, 8, p.memBase.get 0 m), (0x28 + 16 * m, 8, p.memSize.get 0 m)]
/-- A peer route (R416). -/
def routeFields (s : State) (r : Route) : List Field :=
  [(0, 2, r.valid.toNat + 2 * (decide (r.ports &&& s.dev.ports ≠ 0)).toNat), (2, 2, r.ports.toNat), (4, 2, r.remid.toNat), (8, 1, r.inpart.toNat),
   (9, 1, r.inperm.toNat), (0xC, 4, r.inpasid.toNat)]
/-- A pier's thermal window (R380), with the cap state on pier 0 (R382). -/
def thermalFields (s : State) (p : Nat) : List Field :=
  let x := getPier s p
  ((List.range 9).flatMap fun c => (List.range 32).map fun v => (32 * c + v, 1, x.coup.get 0 (32 * c + v)))
  ++ ((List.range 9).flatMap fun c => [(0x200 + 8 * c, 8, twos 16 (x.ctemp.get 0 c)), (0x280 + 8 * c, 8, twos 64 (x.thp.get 1520 c)),
        (0x300 + 8 * c, 8, x.vscale.get 256 c), (0x380 + 8 * c, 8, x.freq.get 3600 c)])
  ++ [(0x400, 8, x.emerg.toNat)]
  ++ (if p = 0 then [(0x480, 8, s.dev.cap), (0x488, 8, s.dev.lastSeq.toNat), (0x490, 8, s.dev.expiry), (0x498, 8, s.dev.onFloor.toNat)] else [])
/-- A regulator (R409). -/
def regFields (s : State) (r : Nat) : List Field :=
  [(0, 8, s.dev.share.get 0 r + 2 ^ 32 * (Config.rmax r % 2 ^ 16) + 2 ^ 63 * (s.dev.regOn.get false r).toNat)]
/-- The MSI-X pending bits of PF0 (R408). -/
def pfPbaByte (s : State) (o : Nat) : Byte := BitVec.ofNat 8 (((List.range 8).map fun i => 2 ^ i * (s.dev.pfPba.get false (8 * o + i)).toNat).sum)

/-- The management BAR (R409). -/
def mgmtByte (s : State) (o : Nat) : Byte :=
  if o < 0x10000 then fieldByte [(0, 8, s.dev.ready.toNat + 2 * s.dev.keystoneOk.toNat + 256 * s.dev.failStep), (8, 8, Config.devId.toNat),
    (0x10, 8, s.dev.logCnt)] o
  else if o < 0x10400 then fieldByte (partFields (getPart s ((o - 0x10000) / 256))) (o % 256)
  else if 0x20000 ≤ o ∧ o < 0x20040 then
    let c := getCourse s ((o - 0x20000) / 8)
    fieldByte [(0, 8, (c.pendSwitch.getD c.switch).toNat)] (o % 8)
  else if 0x20100 ≤ o ∧ o < 0x20120 then fieldByte (regFields s ((o - 0x20100) / 8)) (o % 8)
  else if 0x30000 ≤ o ∧ o < 0x34000 then fieldByte (thermalFields s ((o - 0x30000) / 4096)) (o % 4096)
  else if 0x40000 ≤ o ∧ o < 0x40024 then BitVec.ofNat 8 ((getPier s ((o - 0x40000) / 9)).coreMap.get 0 ((o - 0x40000) % 9))
  else if 0x40100 ≤ o ∧ o < 0x40188 then BitVec.ofNat 8 ((getPier s ((o - 0x40100) / 34)).vaultMap.get 0 ((o - 0x40100) % 34))
  else if 0x50020 ≤ o ∧ o < 0x507E0 then fieldByte (routeFields s (s.routes.get {} ((o - 0x50000) / 32))) (o % 32)
  else if 0x60000 ≤ o ∧ o < 0x61000 then msixRead s.dev.pfMsix (o - 0x60000)
  else if 0x61000 ≤ o ∧ o < 0x61020 then pfPbaByte s (o - 0x61000)
  else if 0x100000 ≤ o ∧ o < 0x140000 then
    let q := getQueue s ((o - 0x100000) / 0x10000) (o % 0x1000 / 64)
    if o % 0x10000 < 0x1000 then fieldByte (queueFields q) (o % 64) else if o % 0x10000 < 0x2000 then fieldByte (trapFields q) (o % 64) else 0
  else if 0x200000 ≤ o ∧ o < 0x210000 then ((s.dev.log.get [] ((o - 0x200000) / 64)).getD (o % 64) 0) else 0

/-- DWREC (R367) and DSTAT (R368). -/
def dwrec (s : State) (c slot : Nat) : Nat :=
  match atSlot s c slot with
  | some (b, w) => if ¬ b.debug then 0 else
      w.dbg.stopped.toNat + 2 + 2 ^ 8 * w.dbg.reason + 2 ^ 18 * w.idx + 2 ^ 32 * (w.dbg.skidS % 2 ^ 16) + 2 ^ 48 * (w.dbg.skidL % 2 ^ 16)
  | none => 0
def dstat (s : State) (c : Nat) : Nat :=
  let x := getCourse s (courseOf c)
  x.stopped.toNat + 2 * x.stepping.toNat + 4 * x.stepWait.toNat + 2 ^ 4 * x.src + 2 ^ 8 * x.srcWp + 2 ^ 10 * x.srcIbp + 2 ^ 16 * x.srcCore + 2 ^ 24 * x.srcWarp
/-- The registers of one core (R357). -/
def debugFields (s : State) (c : Nat) : List Field :=
  let d := (getCore s c).dbg
  ((List.range 4).flatMap fun n => [(0x20 * n, 8, (d.wpA.get 0 n).toNat), (0x20 * n + 8, 8, (d.wpC.get 0 n).toNat), (0x20 * n + 16, 8, (d.wpHit.get 0 n).toNat),
    (0x20 * n + 24, 8, (d.wpHt.get 0 n).toNat)])
  ++ [(0x80, 8, dstat s c), (0x90, 8, d.dwsel.toNat), (0x98, 8, (dwRead s c).toNat)]
  ++ ((List.range 48).map fun i => (0x100 + 8 * i, 8, dwrec s c i))
  ++ (List.range 8).flatMap fun n => [(0x280 + 16 * n, 8, (d.ibpA.get 0 n).toNat), (0x288 + 16 * n, 8, (d.ibpC.get 0 n).toNat)]
/-- The debug BAR. -/
def debugByte (s : State) (o : Nat) : Byte :=
  if o < 0x20 then fieldByte [(0, 8, (getPart s (o / 8)).dqen.toNat)] (o % 8)
  else if o < 0x40 then fieldByte [(0, 8, (getPart s ((o - 0x20) / 8)).dhzm.toNat)] (o % 8)
  else if 0x1000 ≤ o ∧ o < 0x9000 then fieldByte (debugFields s ((o - 0x1000) / 0x400)) (o % 0x400)
  else if 0xA000 ≤ o ∧ o < 0xA100 then fieldByte [(0, 8, (getCore s ((o - 0xA000) / 8)).dbg.dinj.toNat)] (o % 8)
  else 0
/-- BAR0 of VF k (R407). -/
def vfByte (s : State) (k o : Nat) : Byte :=
  if o < 0x1000 then fieldByte (queueFields (getQueue s k (o / 64))) (o % 64)
  else if o < 0x2000 then fieldByte (trapFields (getQueue s k (o % 0x1000 / 64))) (o % 64)
  else if o < 0x2400 then msixRead (getPart s k).msixTable (o - 0x2000)
  else if 0x3000 ≤ o ∧ o < 0x3008 then BitVec.ofNat 8 ((getPart s k).msixPba.toNat / 256 ^ (o - 0x3000)) else 0
/-- What a byte of a BAR reads as; until READY, zero (R425). -/
def barByte (s : State) (v : BarView) (o : Nat) : Byte :=
  if ¬ answering s then 0 else
  match v with
  | .mgmt => mgmtByte s o
  | .notify => fieldByte [(0, 8, (notifyRead s (o / 0x40000) (o / 0x1000 % 64) (o % 0x1000 / 8 * 8)).toNat)] (o % 8)
  | .debug => debugByte s o
  | .vf k => vfByte s k o
  | .vfNotify k => fieldByte [(0, 8, (notifyRead s k (o / 0x1000 % 64) (o % 0x1000 / 8 * 8)).toNat)] (o % 8)
  | .config _ | .infill _ => 0
/-- The partition whose function a view of a BAR belongs to. -/
def viewPart (v : BarView) (o : Nat) : Option Nat :=
  match v with | .vf k | .vfNotify k => some k | .notify => some (o / 0x40000) | _ => none
/-- A read of `n` bytes: none where it completes with Unsupported Request, outside the IDE stream of a function in RUN (R420). -/
def barRead (s : State) (v : BarView) (o n : Nat) : Option Nat :=
  if (viewPart v o).any fun k => (getPart s k).tdi == .run && s.dev.outside then none
  else some (ofLeBytes ((List.range n).map fun i => barByte s v (o + i)))

/-! ### The frozen items (R421, R422) -/

/-- Whether the interface of a partition is locked, running or in error: its items are frozen. -/
def isLocked (s : State) (k : Nat) : Bool := (getPart s k).tdi != .unlocked
/-- The partition that a course belongs to. -/
def ownerOf (s : State) (co : Nat) : Option Nat := (List.range 4).find? fun k => (getPart s k).courses.getLsbD co
/-- Whether a course's regulator is `r`. -/
def onReg (s : State) (r co : Nat) : Bool := let x := getCourse s co; let v := x.pendSwitch.getD x.switch; v.getLsbD 7 && v.toNat % 4 == r
/-- The partition whose frozen queue item a write at an offset reaches. -/
def queueItem (s : State) (k o size : Nat) : List Nat :=
  let hits := fun (a n : Nat) => a < o % 64 + size && o % 64 < a + n
  if isLocked s k && ((o / 0x1000 % 16 == 0 && (hits 0 8 || hits 0x38 8)) || o / 0x1000 % 16 == 1) then [k] else []
/-- The BAR number of a configuration item of `configWrite`. -/
def barItem (o : Nat) : Option Nat := match o with | 0 => some 0 | 5 => some 2 | 6 => some 4 | _ => none
/-- The partitions whose frozen items a write reaches: more than one where several share a regulator. -/
def frozenAt (s : State) (v : BarView) (o size : Nat) : List Nat :=
  match v with
  | .mgmt =>
    if 0x10000 ≤ o ∧ o < 0x10400 then [(o - 0x10000) / 256].filter (isLocked s)
    else if 0x20000 ≤ o ∧ o < 0x20040 then (ownerOf s ((o - 0x20000) / 8)).toList.filter (isLocked s)
    else if 0x20100 ≤ o ∧ o < 0x20120 then
      (List.range 4).filter fun k => isLocked s k && (List.range 8).any fun co => (getPart s k).courses.getLsbD co && onReg s ((o - 0x20100) / 8) co
    else if 0x50020 ≤ o ∧ o < 0x507E0 then
      [(s.routes.get {} ((o - 0x50000) / 32)).inpart.toNat % 4].filter (isLocked s)
    else if 0x100000 ≤ o ∧ o < 0x140000 then queueItem s ((o - 0x100000) / 0x10000) o size
    else []
  | .vf k => if o < 0x2000 then queueItem s k o size else []
  | .config k => if k < 4 ∧ (barItem o).isSome then [k].filter (isLocked s) else []
  | _ => []
/-- Whether the function that a view belongs to issues requests, or the infill core (R403, R407). -/
def viewLet (s : State) (v : BarView) : Bool :=
  match v with
  | .mgmt | .notify | .debug => pfLet s
  | .vf k | .vfNotify k | .config k => !masterFrozen s (.hostFn k)
  | .infill p => !masterFrozen s (.infill p)

/-- Firmware images that are held are applied once no interface is locked or running (R421). -/
def applyImage (s : State) : State :=
  if (List.range 4).any fun k => (getPart s k).tdi == .locked || (getPart s k).tdi == .run then s
  else modDev s fun d => { d with image := d.pendImage.getD d.image, pendImage := none,
                                  infillImage := d.pendInfill.getD d.infillImage, pendInfill := none }

/-- What a block of a partition in ERROR has not sent yet is never sent, an exited block's too: what its store buffers, its parked requests
and a dead route hold; its engine work and its copies stop, and read data that returns is discarded (R422, R426). -/
def quietBlock (s : State) (b : Block) : State :=
  let s := modBlock s b.uid fun x => { x with warps := ⟨x.warps.cells.map fun e => (e.1, e.2.map fun w => { w with sb := [], reqs := [] })⟩ }
  let s := match b.core with
    | some c => modCore s c fun y => { y with cmds := y.cmds.filter fun m => m.block != b.uid, copies := y.copies.filter fun m => m.block != b.uid }
    | none => s
  let left := fun (o : Op) => { o with todo := o.todo.filter fun a => !(match a.loc with | some (.g l) => held s l | _ => false) }
  { s with
    transit := s.transit.filter fun t => !(t.block == b.uid && !t.performed && held s t.ent.line)
    ops := s.ops.filterMap fun (o : Op) =>
      if o.block ≠ b.uid then some o
      else match o.kind with
        | .load _ _ _ => none
        | .atomic op sc _ => some { left o with kind := .atomic op sc false, result := [], dest := [] }
        | .store => some (left o) }
/-- A block of a partition in ERROR: one that has not exited freezes, and its grid fails (R346, R422). -/
def silence (s : State) (b : Block) : State :=
  quietBlock (if b.exited then s else modBlock (fatalFault s b.uid) b.uid fun x => { x with frozen := true }) b
/-- A write to a frozen item: the TDI goes to ERROR and the partition stops in that cycle. -/
def enterError (s : State) (k : Nat) : State :=
  let sent := s.dev.sentMsix
  let s := modPart s k fun p => { p with tdi := .error }
  let s := ((allBlocks s).filter fun b => b.part == k).foldl silence s
  applyImage (modDev s fun d => { d with sentMsix := sent })
/-- FROZEN_ITEM_WRITE: the write is not performed, and each TDI whose item it reaches goes to ERROR. -/
def execFrozenItemWrite (v : BarView) (off size : Nat) (s : State) : Host.Outcome State Fault Refusal :=
  .next (if answering s ∧ viewLet s v then (frozenAt s v off size).foldl enterError s else s)

/-! ### Writes -/

/-- The value of a field at offset `o`, `z` bytes, after a write of `size` bytes of `x` at `off`. -/
def putField (old o z off size x : Nat) : Nat :=
  ofLeBytes ((List.range z).map fun i =>
    BitVec.ofNat 8 (if off ≤ o + i ∧ o + i < off + size then x / 256 ^ (o + i - off) else old / 256 ^ i))

/-- Writes to a queue block and a trap block take effect only while STATE is 0 (R317, R319, R412). -/
def queueWrite (s : State) (k n o size x : Nat) : State :=
  let q := getQueue s k n
  let f := fun (old : DWord) a => BitVec.ofNat 64 (putField old.toNat a 8 o size x)
  if q.state ≠ 0 then s
  else setQueue s k n { q with rbase := f q.rbase 0, rlog := putField q.rlog 8 1 o size x, supaddr := f q.supaddr 0x20, qpasid := f q.qpasid 0x38 &&& 0xFFFFF }
def trapWrite (s : State) (k n o size x : Nat) : State :=
  let q := getQueue s k n
  let f := fun (old : DWord) a => BitVec.ofNat 64 (putField old.toNat a 8 o size x)
  if q.state ≠ 0 then s
  else setQueue s k n { q with qtvec := f q.qtvec 0, qtfbase := f q.qtfbase 8, qtflog := putField q.qtflog 0x10 1 o size x, qerrqb := f q.qerrqb 0x18 }
/-- A peer route: UP and reserved bits are not written. -/
def routeWrite (s : State) (d o size x : Nat) : State :=
  let r := s.routes.get {} d
  let v : Route :=
    { valid := putField r.valid.toNat 0 2 o size x % 2 = 1, ports := BitVec.ofNat 16 (putField r.ports.toNat 2 2 o size x),
      remid := BitVec.ofNat 16 (putField r.remid.toNat 4 2 o size x), inpart := BitVec.ofNat 8 (putField r.inpart.toNat 8 1 o size x) &&& 0x83,
      inperm := BitVec.ofNat 8 (putField r.inperm.toNat 9 1 o size x) &&& 0xF, inpasid := BitVec.ofNat 32 (putField r.inpasid.toNat 0xC 4 o size x) &&& 0xFFFFF }
  { s with routes := s.routes.set {} d v }
/-- DHZM covers the debug grids of its queues at once (R356). -/
def hazWrite (s : State) (k : Nat) (m : DWord) : State :=
  let s := modPart s k fun p => { p with dhzm := m }
  let s := { s with grids := s.grids.map fun g => if g.part = k then { g with hazMode := g.debug && m.getLsbD g.queue } else g }
  (allBlocks s).foldl (fun s b => if b.part = k then modBlock s b.uid fun x => { x with hazMode := x.debug && m.getLsbD x.queue } else s) s
/-- A write of `size` bytes to the debug registers of a core that have no behaviour of their own. -/
def debugCoreWrite (s : State) (c o size x : Nat) : State :=
  let f := fun (old : DWord) a => BitVec.ofNat 64 (putField old.toNat a 8 o size x)
  modDbg s c fun d =>
    if o < 0x80 then
      let n := o / 32
      if o % 32 < 8 then { d with wpA := d.wpA.set 0 n (f (d.wpA.get 0 n) (32 * n)) }
      else if o % 32 = 16 ∧ x % 2 = 1 then { d with wpHit := d.wpHit.set 0 n (d.wpHit.get 0 n &&& 0xFFFFFFFFFFFE#64) }
      else d
    else if 0x90 ≤ o ∧ o < 0x98 then { d with dwsel := f d.dwsel 0x90 &&& 0x3FFFFF073F#64 }
    else if 0x280 ≤ o ∧ o < 0x300 then
      let n := (o - 0x280) / 16
      if o % 16 < 8 then { d with ibpA := d.ibpA.set 0 n (f (d.ibpA.get 0 n) (0x280 + 16 * n)) }
      else { d with ibpC := d.ibpC.set 0 n (f (d.ibpC.get 0 n) (0x288 + 16 * n) &&& 0xFF01#64) }
    else d
/-- The fields of 8 bytes from `base` on, one for each physical core, that a write reaches. -/
def fieldsHit (base o size : Nat) : List Nat := (List.range 9).filter fun c => decide (o < base + 8 * c + 8) && decide (base + 8 * c < o + size)
/-- THP of a physical core after a write (R377). -/
def thpWrite (s : State) (p c o size x : Nat) : State :=
  let v := (BitVec.ofNat 64 (putField (twos 64 ((getPier s p).thp.get 1520 c)) (0x280 + 8 * c) 8 o size x)).toInt
  if thpOk v then modPier s p fun y => { y with thp := y.thp.set 1520 c v } else s
/-- Infill's writes to its thermal window (R380), of any size: E, THP within its bounds (R377), and VSCALE in [15:0], which waits for the core
as a frequency does (R381). A write elsewhere is an access that its permissions forbid: infill freezes (R402, R403). -/
def infillWrite (s : State) (p o size x : Nat) : State :=
  if o + size ≤ 0x120 then modPier s p fun y => { y with coup := (List.range size).foldl (fun m i => m.set 0 (o + i) (x / 256 ^ i % 256)) y.coup }
  else if 0x280 ≤ o ∧ o + size ≤ 0x2C8 then (fieldsHit 0x280 o size).foldl (fun s c => thpWrite s p c o size x) s
  else if 0x300 ≤ o ∧ o + size ≤ 0x348 then
    (fieldsHit 0x300 o size).foldl (fun s c => vscaleWrite s p c (putField (chosenFreq s p c).2 (0x300 + 8 * c) 8 o size x % 65536)) s
  else freezeMaster s (.infill p) (0x30000 + 0x1000 * p + o)
/-- A BAR register as written: the address bits above the BAR's size (R407), with the type bits of a 64-bit BAR; PCI's form (assumption 114). -/
def barValue (size x : Nat) : Nat := x % 2 ^ 64 / size * size + 4
/-- Sizes of the BARs of a VF and of PF0, in bytes (R407). -/
def vfBarSize (n : Nat) : Nat := if n = 0 then 2 ^ 14 else 2 ^ 18
def pfBarSize (n : Nat) : Nat := if n = 0 then 2 ^ 24 else if n = 2 then 2 ^ 20 else 2 ^ 16
/-- Configuration space, by the model's own item numbers (assumption 72): 1 MSI-X enable, 2 the function mask, and for PF0 (function 4) 3 VF
Enable, 4 NumVFs; 0, 5 and 6 are the registers of BAR0, BAR2 and BAR4. -/
def configWrite (s : State) (f o x : Nat) : State :=
  if f < 4 then modPart s f fun p =>
    if o = 0 ∨ o = 5 then let n := (barItem o).getD 0; { p with bars := p.bars.set 0 n (barValue (vfBarSize n) x) }
    else if o = 1 then { p with msixTable := Memory.write p.msixTable 0x1000 (BitVec.ofNat 8 (x % 2)) }
    else if o = 2 then { p with msixTable := Memory.write p.msixTable 0x1001 (BitVec.ofNat 8 (x % 2)) } else p
  else modDev s fun d =>
    if o = 0 ∨ o = 5 ∨ o = 6 then let n := (barItem o).getD 0; { d with pfBars := d.pfBars.set 0 n (barValue (pfBarSize n) x) }
    else if o = 1 then { d with pfMsix := Memory.write d.pfMsix 0x1000 (BitVec.ofNat 8 (x % 2)) }
    else if o = 2 then { d with pfMsix := Memory.write d.pfMsix 0x1001 (BitVec.ofNat 8 (x % 2)) } else if o = 3 then { d with vfEnable := x % 2 = 1 }
    else if o = 4 then { d with numVfs := Nat.min x 4 } else d

def mgmtWrite (s : State) (o size x : Nat) : State :=
  if 0x20100 ≤ o ∧ o < 0x20120 then
    let r := (o - 0x20100) / 8
    modDev s fun d => { d with share := d.share.set 0 r (putField (d.share.get 0 r) 0 8 (o % 8) size x % 1024) }
  else if 0x50020 ≤ o ∧ o < 0x507E0 then routeWrite s ((o - 0x50000) / 32) (o % 32) size x
  else if 0x60000 ≤ o ∧ o < 0x61000 then sendPending (modDev s fun d => { d with pfMsix := msixWrite d.pfMsix (o - 0x60000) (leBytes size x) })
  else if 0x100000 ≤ o ∧ o < 0x140000 then
    if o % 0x10000 < 0x1000 then queueWrite s ((o - 0x100000) / 0x10000) (o % 0x1000 / 64) (o % 64) size x
    else if o % 0x10000 < 0x2000 then trapWrite s ((o - 0x100000) / 0x10000) (o % 0x1000 / 64) (o % 64) size x else s
  else s
def debugWrite (s : State) (o size x : Nat) : State :=
  let f := fun (old : DWord) => BitVec.ofNat 64 (putField old.toNat 0 8 (o % 8) size x)
  if o < 0x20 then modPart s (o / 8) fun p => { p with dqen := f p.dqen }
  else if o < 0x40 then hazWrite s ((o - 0x20) / 8) (f (getPart s ((o - 0x20) / 8)).dhzm)
  else if 0x1000 ≤ o ∧ o < 0x9000 ∧ o % 0x400 = 0x88 then dcmdWrite s ((o - 0x1000) / 0x400) (BitVec.ofNat 64 (x % 256 ^ size))
  else if 0x1000 ≤ o ∧ o < 0x9000 then debugCoreWrite s ((o - 0x1000) / 0x400) (o % 0x400) size x else s

/-- REGISTER_WRITE, of a function that issues requests (R403): the writable fields of a register with no behaviour of its own (R4); a frozen item sends its TDI to ERROR; registers
that other rows of the table name are not written by this one. -/
def execRegisterWrite (v : BarView) (off size : Nat) (x : DWord) (s : State) : Host.Outcome State Fault Refusal :=
  .next (if ¬ answering s ∨ 8 < size ∨ ¬ viewLet s v then s
    else match frozenAt s v off size with
    | k :: ks => (k :: ks).foldl enterError s
    | [] => match v with
      | .mgmt => mgmtWrite s off size x.toNat
      | .debug => debugWrite s off size x.toNat
      | .vf k => if ¬ fnLet s k k then s
          else if off < 0x1000 then queueWrite s k (off / 64) (off % 64) size x.toNat
          else if off < 0x2000 then trapWrite s k (off % 0x1000 / 64) (off % 64) size x.toNat
          else if off < 0x2400 then sendPending (modPart s k fun p => { p with msixTable := msixWrite p.msixTable (off - 0x2000) (leBytes size x.toNat) }) else s
      | .infill p => infillWrite s p off size x.toNat
      | .config f => sendPending (configWrite s f off x.toNat)
      | .notify | .vfNotify _ => s)

/-- SWITCH_MATRIX_WRITE (R411, R421). -/
def execSwitchMatrixWrite (co : Nat) (x : DWord) (s : State) : Host.Outcome State Fault Refusal :=
  .next (if ¬ answering s ∨ ¬ pfLet s ∨ 8 ≤ co then s
    else match frozenAt s .mgmt (0x20000 + 8 * co) 8 with
    | k :: ks => (k :: ks).foldl enterError s
    | [] => switchWrite s co x)

end Sys2Proof.Machine
end

