-- ==== Sys2Proof/Machine/LaneInt.lean ====
section
/-! DEFINITION. Integer, bit-field and predicate L-instructions (R195 to R201). -/

namespace Sys2Proof.Machine

/-! ### Elements (R64, R128, R195) -/

def iWidth : IType → Nat
  | .i32 => 32 | .w32 => 32 | .i16x2 => 16 | .w16x2 => 16 | .i8x4 => 8 | .w8x4 => 8
def iSigned : IType → Bool
  | .i32 => true | .i16x2 => true | .i8x4 => true | _ => false
/-- Applies `f` to each element of `e` bits of two lanes, element 0 in the low bits. -/
def perElem (e : Nat) (f : Nat → Nat → Nat) (a b : Nat) : Nat :=
  (List.range (32 / e)).foldl (fun r k => r + f (a / 2 ^ (e * k) % 2 ^ e) (b / 2 ^ (e * k) % 2 ^ e) % 2 ^ e * 2 ^ (e * k)) 0
/-- Whether a relation holds for every element (R200). -/
def allElem (e : Nat) (f : Nat → Nat → Bool) (a b : Nat) : Bool :=
  (List.range (32 / e)).all fun k => f (a / 2 ^ (e * k) % 2 ^ e) (b / 2 ^ (e * k) % 2 ^ e)

/-- A result brought back to an element: clamped with `.sat`, else modulo 2^e. -/
def narrowElem (e : Nat) (sg sat : Bool) (v : Int) : Nat := intPat e (if sat then clampInt v (intLo e sg) (intHi e sg) else v)

/-- One element of vialu (R195). -/
def ialuElem (op : IaluOp) (e : Nat) (sg sat : Bool) (a b : Nat) : Nat :=
  let x := intVal e sg a
  let y := intVal e sg b
  match op with
  | .add => narrowElem e sg sat (x + y)
  | .sub => narrowElem e sg sat (x - y)
  | .mul => narrowElem e sg sat (x * y)
  | .mulh => intPat e (x * y / (2 ^ e : Int))
  | .and => a &&& b
  | .or => a ||| b
  | .xor => a ^^^ b
  | .andn => a &&& (2 ^ e - 1 - b)
  | .shl => if e ≤ b then 0 else a * 2 ^ b % 2 ^ e
  | .shr => if e ≤ b then 0 else a / 2 ^ b
  | .sra => intPat e (intVal e true a / (2 ^ Nat.min b e : Int))
  | .min => if x ≤ y then a else b
  | .max => if x ≤ y then b else a
  | .abs => narrowElem e sg sat (if x < 0 then -x else x)
  | .popc => popCount (BitVec.ofNat e a)
  | .clz => leadZeros (BitVec.ofNat e a)

/-- A lane-wise instruction of up to three operands with a fixed latency and no flags. -/
def lanes3 (s : State) (i : Instr) (f : LF) (lat : Nat) (g : Nat → Nat → Nat → Nat) : Host.Outcome State Fault Refusal :=
  onWarp s fun b w => issueL s b w i f false fun s q =>
    flyRows (issued s q) q lat (fun l => g (q.va.val l) (q.vb.val l) (q.vc.val l)) (q.va.pois ||| q.vb.pois ||| q.vc.pois) 0

/-- R195. -/
def execVialu (op : IaluOp) (ty : IType) (f : LF) (s : State) : Host.Outcome State Fault Refusal :=
  lanes3 s (.vialu op ty f) f 4 fun a b _ => perElem (iWidth ty) (ialuElem op (iWidth ty) (iSigned ty) f.xa) a b

/-- R196: both types give the same 32 result bits. -/
def execVmad (wt : Bool) (f : LF) (s : State) : Host.Outcome State Fault Refusal :=
  lanes3 s (.vmad wt f) f 6 fun a b c =>
    intPat 32 (intVal 32 (!wt) a * intVal 32 (!wt) b + intVal 32 (!wt) c)

/-- Position, length and clipped length of a bit field (R197). -/
def bfPos (b : Nat) : Nat := b % 256
def bfLen (b : Nat) : Nat := b / 256 % 256

/-- R197. -/
def execVbfe (sx : Bool) (f : LF) (s : State) : Host.Outcome State Fault Refusal :=
  lanes3 s (.vbfe sx f) f 4 fun a b _ =>
    if bfLen b = 0 ∨ 32 ≤ bfPos b then 0
    else
      let n := Nat.min (bfLen b) (32 - bfPos b)
      intPat 32 (intVal n sx (a / 2 ^ bfPos b % 2 ^ n))

/-- R198. -/
def execVbfi (f : LF) (s : State) : Host.Outcome State Fault Refusal :=
  lanes3 s (.vbfi f) f 4 fun a b c =>
    if bfLen c = 0 ∨ 32 ≤ bfPos c then b
    else
      let n := Nat.min (bfLen c) (32 - bfPos c)
      let m := (2 ^ n - 1) * 2 ^ bfPos c
      (b &&& (2 ^ 32 - 1 - m)) ||| (a * 2 ^ bfPos c % 2 ^ 32 &&& m)

/-- R199: PD is the selector and is read. A poisoned input lane is consumed (R387). -/
def execVsel (f : LF) (s : State) : Host.Outcome State Fault Refusal :=
  onWarp s fun b w => issueL s b w (.vsel f) f false fun s q =>
    let ps := q.va.pois ||| q.vb.pois
    let q := { q with w := consume q.w (q.act &&& ps) 1 }
    let sel := predOf q.w f.pd.toNat
    flyRows (issued s q) q 4 (fun l => if bitOf sel l then q.va.val l else q.vb.val l) ps 0

/-- The conditions of R200. -/
def iCond (c : ICond) (sg : Bool) (e : Nat) (a b : Nat) : Bool :=
  let x := intVal e sg a
  let y := intVal e sg b
  match c with
  | .eq => a == b | .ne => a != b | .lt => x < y | .le => x ≤ y | .gt => y < x | .ge => y ≤ x

/-- A predicate result: bit `l` is `p l`, a free bit where an input lane is poisoned, which is a consumption (R387). -/
def comparePred (s : State) (q : LIn) (lat : Nat) (p : Nat → Bool) (flags : FFlags) : State :=
  let ps := q.act &&& (q.va.pois ||| q.vb.pois)
  let q := { q with w := consume q.w ps 1 }
  let fv := freeLanes (issued s q) ps fun l => (p l).toNat
  flyPred fv.2 q lat (maskOf fun l => fv.1 l % 2 == 1) flags

/-- R200. -/
def execVcmp (c : ICond) (ty : IType) (f : LF) (s : State) : Host.Outcome State Fault Refusal :=
  onWarp s fun b w => issueL s b w (.vcmp c ty f) f false fun s q =>
    comparePred s q 4 (fun l => allElem (iWidth ty) (iCond c (iSigned ty) (iWidth ty)) (q.va.val l) (q.vb.val l)) 0

/-- R201. -/
def plogFn (op : PlogOp) (a b : DWord) : DWord :=
  match op with
  | .and => a &&& b | .or => a ||| b | .xor => a ^^^ b | .andn => a &&& ~~~b | .not => ~~~a | .mov => a
  | .setall => BitVec.allOnes 64
def execPlog (op : PlogOp) (f : LF) (s : State) : Host.Outcome State Fault Refusal :=
  onWarp s fun b w => issueL s b w (.plog op f) f false fun s q =>
    flyPred (issued s q) q 4 (plogFn op (predOf q.w f.va.code) (predOf q.w f.vb.code)) 0

end Sys2Proof.Machine
end

