-- ==== Sys2Proof/Machine/LaneFloat.lean ====
section
/-! DEFINITION. Floating-point and special-function L-instructions (R202 to R210). -/

namespace Sys2Proof.Machine

/-- Elements of a floating-point lane: one, or two of 16 bits (R202). -/
def fElems : FType → Nat
  | .f16x2 => 2 | .b16x2 => 2 | _ => 1
/-- Element `k` of an operand. -/
def fElem (ty : FType) (k x : Nat) : Nat := x / 2 ^ ((ftyFmt ty).width * k) % 2 ^ (ftyFmt ty).width
/-- Computes each element of a lane: the packed results, and the flags of all of them. -/
def fLane (ty : FType) (g : Nat → Nat × FFlags) : Nat × FFlags :=
  (List.range (fElems ty)).foldl (fun r k => let e := g k; (r.1 + e.1 * 2 ^ ((ftyFmt ty).width * k), r.2 ||| e.2)) (0, 0)

/-- A lane-wise floating-point instruction: `g` gives one element from the three operands' elements. A lane with a poisoned source, whose
result R386 leaves unspecified, raises no flag: the spec does not say (assumption 83). -/
def float3 (s : State) (i : Instr) (f : LF) (ty : FType) (lat : Nat) (g : FMode → Nat → Nat → Nat → Nat × FFlags) :
    Host.Outcome State Fault Refusal :=
  onWarp s fun b w => issueL s b w i f false fun s q =>
    let r : Nat → Nat × FFlags := fun l =>
      fLane ty fun k => g (modeOf q.w) (fElem ty k (q.va.val l)) (fElem ty k (q.vb.val l)) (fElem ty k (q.vc.val l))
    let ps := q.va.pois ||| q.vb.pois ||| q.vc.pois
    flyRows (issued s q) q lat (fun l => (r l).1) ps (laneFlags (q.act &&& ~~~ps) fun l => (r l).2)

def isF64 : FType → Bool
  | .f64 => true | _ => false

/-- R203. -/
def execFadd (ty : FType) (rm : RM) (na nb : Bool) (f : LF) (s : State) : Host.Outcome State Fault Refusal :=
  float3 s (.fadd ty rm na nb f) f ty (if isF64 ty then 8 else 6) fun md a b _ =>
    fAdd (ftyFmt ty) rm md (flipIf (ftyFmt ty) na a) (flipIf (ftyFmt ty) nb b)
def execFmul (ty : FType) (rm : RM) (na nb : Bool) (f : LF) (s : State) : Host.Outcome State Fault Refusal :=
  float3 s (.fmul ty rm na nb f) f ty (if isF64 ty then 8 else 6) fun md a b _ =>
    fMul (ftyFmt ty) rm md (flipIf (ftyFmt ty) na a) (flipIf (ftyFmt ty) nb b)
def execFfma (ty : FType) (rm : RM) (na nb nc : Bool) (f : LF) (s : State) : Host.Outcome State Fault Refusal :=
  float3 s (.ffma ty rm na nb nc f) f ty (if isF64 ty then 8 else 6) fun md a b c =>
    fFma (ftyFmt ty) rm md (flipIf (ftyFmt ty) na a) (flipIf (ftyFmt ty) nb b) (flipIf (ftyFmt ty) nc c)
/-- R204. -/
def execFmin (ty : FType) (f : LF) (s : State) : Host.Outcome State Fault Refusal :=
  float3 s (.fmin ty f) f ty 4 fun md a b _ => fMinMax (ftyFmt ty) md false a b
def execFmax (ty : FType) (f : LF) (s : State) : Host.Outcome State Fault Refusal :=
  float3 s (.fmax ty f) f ty 4 fun md a b _ => fMinMax (ftyFmt ty) md true a b
/-- R205: the predicate bit is the AND over the elements. -/
def execFcmp (c : FCond) (ty : FType) (f : LF) (s : State) : Host.Outcome State Fault Refusal :=
  onWarp s fun b w => issueL s b w (.fcmp c ty f) f false fun s q =>
    let r : Nat → Nat → Bool × FFlags := fun l k => fCmp (ftyFmt ty) (modeOf q.w) c (fElem ty k (q.va.val l)) (fElem ty k (q.vb.val l))
    let ks := List.range (fElems ty)
    comparePred s q 4 (fun l => ks.all fun k => (r l k).1)
      (laneFlags (q.act &&& ~~~(q.va.pois ||| q.vb.pois)) fun l => ks.foldl (fun a k => a ||| (r l k).2) 0)
/-- R206: codes of R62; a narrow source stands in the low bits of the lane. -/
def execFcvt (d c : BitVec 4) (f : LF) (s : State) : Host.Outcome State Fault Refusal :=
  onWarp s fun b w => issueL s b w (.fcvt d c f) f false fun s q =>
    let rm := (pick rMs .rn (fld f.imm.toNat 0 2)).1
    let r : Nat → Nat × FFlags := fun l => fConv d.toNat c.toNat rm (modeOf q.w) f.xa (q.va.val l % 2 ^ codeBits c.toNat)
    flyRows (issued s q) q 6 (fun l => (r l).1) q.va.pois (laneFlags (q.act &&& ~~~q.va.pois) fun l => (r l).2)
/-- R207. -/
def execFrnd (ty : FType) (rm : RM) (f : LF) (s : State) : Host.Outcome State Fault Refusal :=
  float3 s (.frnd ty rm f) f ty 6 fun md a _ _ => fRnd (ftyFmt ty) rm md a
/-- R208: the mask of element e stands in bits [16e+9:16e]. -/
def execFclass (ty : FType) (f : LF) (s : State) : Host.Outcome State Fault Refusal :=
  onWarp s fun b w => issueL s b w (.fclass ty f) f false fun s q =>
    flyRows (issued s q) q 4
      (fun l => (List.range (fElems ty)).foldl (fun r k => r + fClass (ftyFmt ty) (fElem ty k (q.va.val l)) * 2 ^ (16 * k)) 0)
      q.va.pois 0

/-- R209, R210: the result is outstanding and interlocked; a ninth vsfu of the warp waits. -/
def execVsfu (op : SfuOp) (f : LF) (s : State) : Host.Outcome State Fault Refusal :=
  onWarp s fun b w => issueL s b w (.vsfu op f) f (8 ≤ w.sfu.length) fun s q =>
    let c := coreNo b
    let occ := if q.far then 16 else 4
    let start := Nat.max q.x.cyc (q.x.sfuFree.get 0 (quadOf q.w))
    let e : SfuOpSt := { id := s.serial, op := op, dest := q.dst.headD 0, mask := q.act, src := laneList fun l => BitVec.ofNat 32 (q.va.val l),
                         pois := q.va.pois, lmode := q.w.lmode, due := start + occ }
    let s := issued s { q with w := { q.w with sfu := q.w.sfu ++ [e] } }
    bump (modCore s c fun x => { pendRow x e.dest with sfuFree := x.sfuFree.set 0 (quadOf q.w) (start + occ) })

/-- VSFU_RESULT: the oldest result of the warp is written, once the unit has taken all of its lanes; its flags accrue and
the pending bit clears (R56, R75, R210). -/
def execVsfuResult (bu wi : Nat) (s : State) : Host.Outcome State Fault Refusal :=
  .next (match getBlock s bu, getWarp s bu wi with
  | some b, some w =>
    match w.sfu with
    | e :: t =>
      if (getCore s (coreNo b)).cyc < e.due ∨ b.core = none then s else
      let md := modeOf { w with lmode := e.lmode }
      let r : Nat → Nat × FFlags := fun l => fSfu e.op md (laneOf e.src l).toNat
      let fv := freeLanes s (e.mask &&& e.pois) fun l => (r l).1
      let s := modCore fv.2 (coreNo b) fun x =>
        unpendRow (modRow x e.dest fun v => writeLanes v e.mask (laneList fun l => BitVec.ofNat 32 (fv.1 l)) e.pois) e.dest
      setWarp s bu (raiseFlags { w with sfu := t } (laneFlags (e.mask &&& ~~~e.pois) fun l => (r l).2))
    | [] => s
  | _, _ => s)

end Sys2Proof.Machine
end

