-- ==== Sys2Proof/Machine/CrossLane.lean ====
section
/-! DEFINITION. Cross-lane instructions and checksum folds (R44, R230 to R239). -/

namespace Sys2Proof.Machine

/-- The tile size PARTN gives (R44). -/
def tileSize (w : Warp) : Nat := 2 ^ w.partn.toNat
/-- Tiles of the 64 lanes. -/
def tileCount (z : Nat) : Nat := 64 / z
def tileOf (z l : Nat) : Nat := l / z
/-- The active lanes of a tile, lowest first. -/
def tileLanes (m : DWord) (z t : Nat) : List Nat := (lanesOf m).filter fun l => tileOf z l == t
/-- Whether a source lane can be read: inside the warp's width (R27). -/
def srcOk (w : Warp) (n : Nat) : Bool := n < 64 && n < w.width

/-- The lane that a vshuf reads: its own where the source lies outside the tile or the width (R231). -/
def shufSrc (md : ShufMode) (w : Warp) (z l b : Nat) : Nat :=
  let t := tileOf z l
  let s : Option Nat := match md with
    | .idx => if b < z then some (t * z + b) else none
    | .up => if b ≤ l then some (l - b) else none
    | .down => some (l + b)
    | .xor => some (l ^^^ b)
  match s with
  | some n => if t * z ≤ n ∧ n < t * z + z ∧ srcOk w n then n else l
  | none => l

/-- R231. -/
def execVshuf (md : ShufMode) (f : LF) (s : State) : Host.Outcome State Fault Refusal :=
  onWarp s fun b w => issueL s b w (.vshuf md f) f false fun s q =>
    let z := tileSize q.w
    let src := fun l => shufSrc md q.w z l (q.vb.val l)
    flyRows (issued s q) q 8 (fun l => q.va.val (src l)) (maskOf fun l => bitOf q.va.pois (src l) || bitOf q.vb.pois l) 0

/-- A result to a V group, or one entry pushed to a queue at the result's latency (R35, R236). A poisoned value pushed is a
consumption (R387); what it leaves is a free value of 32 bits (R35). -/
def toRowsOrQueue (s : State) (q : LIn) (lat : Nat) (v : Nat → Nat) (pois : DWord) (push : Nat) (pushPois : Bool) (flags : FFlags) : State :=
  match q.f.vd with
  | .q k =>
    let w := if pushPois then consumeAt q.w 1 0 0 else q.w
    let fv := if pushPois then ((freeVal s).1.setWidth 32 |>.setWidth 64, (freeVal s).2) else (BitVec.ofNat 64 push, s)
    let s := fv.2
    let q := { q with w := setQ w k (qOf w k ++ [{ seq := s.serial, val := 0, ready := false }]) }
    fly (issued s q) q lat (.queue k s.serial) [] fv.1 0 flags
  | _ => flyRows (issued s q) q lat v pois flags

/-- R232. -/
def execVvote (md : VoteMode) (f : LF) (s : State) : Host.Outcome State Fault Refusal :=
  onWarp s fun b w => issueL s b w (.vvote md f) f false fun s q =>
    let z := tileSize q.w
    let p := predOf q.w f.va.code
    let yes := q.act &&& p
    let all := fun t => (tileLanes q.act z t).all (bitOf p)
    let any := fun t => !(tileLanes yes z t).isEmpty
    let mask := fun t => (maskOf fun l => bitOf yes l && tileOf z l == t).toNat
    let r := fun t => match md with | .all => (all t).toNat | .any => (any t).toNat | .ballot => mask t
    let push := match md with
      | .ballot => yes.toNat
      | _ => ((List.range (tileCount z)).map fun t => r t * 2 ^ t).sum
    toRowsOrQueue s q 6 (fun l => r (tileOf z l)) 0 push false 0

/-- Identity of a reduction (R233). -/
def redIdentity (op : RedOp) (ty : RedType) : Nat :=
  match op, ty with
  | .add, _ => 0
  | .min, .i32 => 0x7FFFFFFF | .min, .w32 => 0xFFFFFFFF | .min, .f32 => 0x7F800000
  | .max, .i32 => 0x80000000 | .max, .w32 => 0 | .max, .f32 => 0xFF800000
  | .and, _ => 0xFFFFFFFF
  | .or, _ | .xor, _ => 0

/-- One step of a reduction, with its flags (R233). -/
def redStep (op : RedOp) (ty : RedType) (md : FMode) (a x : Nat) : Nat × FFlags :=
  match ty with
  | .f32 => match op with
    | .min => fMinMax fmF32 md false a x
    | .max => fMinMax fmF32 md true a x
    | _ => fAdd fmF32 .rn md a x
  | _ =>
    let sg := ty == .i32
    (match op with
     | .add => (a + x) % 2 ^ 32
     | .min => ialuElem .min 32 sg false a x
     | .max => ialuElem .max 32 sg false a x
     | .and => a &&& x
     | .or => a ||| x
     | .xor => a ^^^ x, 0)

/-- The inclusive results over a tile's active lanes, each with its lane, and the flags of each step (R233, R234). -/
def prefixes (op : RedOp) (ty : RedType) (md : FMode) (v : Nat → Nat) (ls : List Nat) : List (Nat × Nat × FFlags) :=
  (ls.foldl (fun (r : List (Nat × Nat × FFlags)) l =>
    match r with
    | [] => [(l, v l, 0)]
    | (_, a, _) :: _ => let e := redStep op ty md a (v l); (l, e.1, e.2) :: r) []).reverse

/-- Whether a queue destination meets a PARTN other than one tile of 64: ILLEGAL, SUBC 0xA, before any pop or push (R236). It is an own
trap of the instruction, made as it would issue: after UNMAPPED, the waits and HAZARD (R59, R132; assumption 78). -/
def queueTile (w : Warp) (f : LF) : Bool := match f.vd with | .q _ => w.partn != 6 | _ => false

/-- R233. -/
def execVredux (op : RedOp) (ty : RedType) (f : LF) (s : State) : Host.Outcome State Fault Refusal :=
  onWarp s fun b w =>
    issueL s b w (.vredux op ty f) f false fun s q =>
      if queueTile w f then trapL s b w .illegal 0xA 0 0 else
      let z := tileSize q.w
      let ps := fun t => prefixes op ty (modeOf q.w) q.va.val (tileLanes q.act z t)
      let res := fun t => match (ps t).getLast? with | some e => e.2.1 | none => redIdentity op ty
      let bad := fun t => (tileLanes q.act z t).any (bitOf q.va.pois)
      let fl := (List.range (tileCount z)).foldl (fun a t => if bad t then a else (ps t).foldl (fun a e => a ||| e.2.2) a) 0
      toRowsOrQueue s q 12 (fun l => res (tileOf z l)) (maskOf fun l => bad (tileOf z l)) (res 0) (bad 0) fl

/-- R234: only the additions whose results some lane receives are made. -/
def execVscan (op : RedOp) (ty : RedType) (excl : Bool) (f : LF) (s : State) : Host.Outcome State Fault Refusal :=
  onWarp s fun b w => issueL s b w (.vscan op ty excl f) f false fun s q =>
    let z := tileSize q.w
    let tile := fun t =>
      let ps := prefixes op ty (modeOf q.w) q.va.val (tileLanes q.act z t)
      if excl then (ps.zip ((0, redIdentity op ty, 0) :: ps)).map fun e => (e.1.1, e.2.2.1, e.2.2.2) else ps
    let all := (List.range (tileCount z)).flatMap tile
    let bad := fun l => (tileLanes q.act z (tileOf z l)).any fun k => bitOf q.va.pois k && (k < l || (k == l && !excl))
    let fl := all.foldl (fun a e => if bad e.1 then a else a ||| e.2.2) 0
    flyRows (issued s q) q 14 (fun l => ((all.find? fun e => e.1 == l).map fun e => e.2.1).getD 0) (maskOf bad) fl

/-- R235. -/
def execVbcast (f : LF) (s : State) : Host.Outcome State Fault Refusal :=
  onWarp s fun b w =>
    issueL s b w (.vbcast f) f false fun s q =>
      if queueTile w f then trapL s b w .illegal 0xA 0 0 else
      let z := tileSize q.w
      let src := fun l t => match (tileLanes q.act z t).head? with
        | none => l
        | some m => let k := if q.vb.val m < z then t * z + q.vb.val m else m
                    if srcOk q.w k then k else l
      let lead := (tileLanes q.act z 0).head?
      let badLead := fun t => ((tileLanes q.act z t).head?).any (bitOf q.vb.pois)
      toRowsOrQueue s q 6 (fun l => q.va.val (src l (tileOf z l)))
        (maskOf fun l => bitOf q.va.pois (src l (tileOf z l)) || badLead (tileOf z l))
        (match lead with | some m => q.va.val (src m 0) | none => 0)
        (match lead with | some m => bitOf q.va.pois (src m 0) || badLead 0 | none => false) 0

/-! ### Checksum folds (R237 to R239) -/

def execCsum (k : BitVec 2) (f : LF) (s : State) : Host.Outcome State Fault Refusal :=
  onWarp s fun b w => issueL s b w (.csum k f) f false fun s q =>
    let ps := q.act &&& q.va.pois
    let q := { q with w := consume q.w ps 1 }
    let fv := freeLanes (issued s q) ps q.va.val
    fly fv.2 q 4 (.kint k.toNat) [] (BitVec.ofNat 64 (((lanesOf q.act).map fun l => fv.1 l % 2 ^ 32).sum)) 0 0

/-- One level of the tree of R238. -/
def combLevel : List (Option Nat) → List (Option Nat)
  | a :: b :: t => (match a, b with
      | none, y => y
      | x, none => x
      | some x, some y => some (add64 x y)) :: combLevel t
  | l => l

def execCsumf (k : BitVec 2) (f : LF) (s : State) : Host.Outcome State Fault Refusal :=
  onWarp s fun b w => issueL s b w (.csumf k f) f false fun s q =>
    let ps := q.act &&& q.va.pois
    let q := { q with w := consume q.w ps 1 }
    let fv := freeLanes (issued s q) ps q.va.val
    let x0 := (List.range 64).map fun l => if bitOf q.act l then some (widen (fv.1 l % 2 ^ 32)) else none
    let r := (List.range 6).foldl (fun x _ => combLevel x) x0
    fly fv.2 q 4 (.kfloat k.toNat) [] (BitVec.ofNat 64 ((r.headD none).getD 0)) 0 0

end Sys2Proof.Machine
end

