-- ==== Sys2Proof/Machine/Pages.lean ====
section
/-! DEFINITION. What the host answers to a core or a dispatcher that asks for a page: Translation Completions and page responses (R89,
R246, R248, R249, R403, R410, R413). -/

namespace Sys2Proof.Machine

/-- Whether a physical range lies in the memory of a partition (R410). -/
def inMem (s : State) (k a n : Nat) : Bool :=
  let x := getPart s k
  (List.range 8).any fun m => x.memSize.get 0 m != 0 && x.memBase.get 0 m ≤ a && a + n ≤ x.memBase.get 0 m + x.memSize.get 0 m
/-- Whether a page answers a request: it holds the address, and its parts are whole 4 KiB units. -/
def answers (p : Page) (pasid va : Nat) : Bool :=
  pageHolds p pasid va && p.vbase % 4096 == 0 && p.pbase % 4096 == 0 && p.size % 4096 == 0
/-- The part of a granted page that the partition may use: all of it, or the 4 KiB asked for; none where that lies outside the
partition's memory, so that the access that needs it is a violation (R403, R410). A MEM range may reach past the 384 GiB of DRAM, and R19
gives no home there: such bytes read and write as memory of a further pier, which is the model's choice (assumption 105). -/
def usable (s : State) (k : Nat) (p : Page) (va : Nat) : Option Page :=
  let q := { p with vbase := va / 4096 * 4096, size := 4096, pbase := p.pbase + (va / 4096 * 4096 - p.vbase) }
  if p.host || inMem s k p.pbase p.size then some p else if inMem s k q.pbase 4096 then some q else none

/-! ### Who asked (R403) -/

/-- Whether an engine's access to an address waits for a page. -/
def waitsFor (s : State) (c : Nat) (b : Block) (va a : Nat) (wr : Bool) : Bool := samePage (a % 2 ^ 57) va && engXlat s c b a wr == .wait
/-- Whether a command of the engine waits for a page. -/
def cmdAsks (s : State) (c pasid va : Nat) (m : Cmd) : Bool :=
  (getBlock s m.block).any fun b => b.pasid == pasid && match m.kind with
    | .tld false _ _ _ _ _ => unitHead (getCore s c) 1 == some m && waitsFor s c b va (nextAddr m) false
    | .tst false _ _ _ _ _ => unitHead (getCore s c) 1 == some m && waitsFor s c b va (nextAddr m) true
    | .drain _ _ _ _ _ _ => m.started && !m.drain.parked && decide (m.drain.row < 128) && (drainCtx c m).any fun k =>
        (drainAct s k).stop.any fun e => waitsFor s c b va e.2.2 (standsAtWrite k e.1)
    | _ => false
/-- Whether a copy waits for a page, at an element that it has not moved. -/
def copyAsks (s : State) (c pasid va : Nat) (y : Copy) : Bool :=
  let d := cdesc y.desc
  (getBlock s y.block).any fun b => b.pasid == pasid && (List.range (cCount d)).any fun e => !y.moved.get false e && !ixPois s y d e &&
    ((srcGlobal y.kind && !zeroRow s y d e && waitsFor s c b va (srcAddr s y d e) false)
     || (dstGlobal y.kind && waitsFor s c b va (dstAddr d e) true))
/-- Whether something of a core other than its copies asks for a page: a waiting S-instruction, lane, fetch, save slot, restored store or
engine command. -/
def coreAsks (s : State) (c pasid va : Nat) : Bool :=
  let hit := fun a => samePage (a % 2 ^ 57) va
  fetchWaits s c pasid va
  || ((blocksOn s c).filter fun b => b.pasid == pasid).any (fun b => (liveWarps b).any fun w =>
    (match w.swait with | .ats v | .pri v => hit v | _ => false)
    || (w.pending.isSome && hit w.tframe.toNat) || (b.resend && w.sb.head?.any fun e => hit e.vline)
    || w.reqs.any fun r => r.todo.any fun a => (a.st == .ats || a.st == .pri) && hit a.ea)
  || (getCore s c).cmds.any (cmdAsks s c pasid va)
/-- A page granted to a core. Where it lies outside the partition's memory, each master that asked for it makes a violating access: the copy
engine for a copy, the core for the rest. -/
def coreGrant (s : State) (c : Nat) (p : Page) (va : Nat) : State :=
  match usable s (partOfPasid s p.pasid) p va with
  | some q => pageArrives s c q
  | none =>
    let pa := p.pbase + (va - p.vbase)
    let copies := (getCore s c).copies.any (copyAsks s c p.pasid va)
    let s := if coreAsks s c p.pasid va ∨ ¬ copies then freezeMaster s (.core c) pa else s
    if copies then freezeMaster s (.copyEngine c) pa else s
/-- A page granted to a dispatcher; one outside the partition counts as refused. -/
def dispGrant (s : State) (k : Nat) (p : Page) (va : Nat) : State :=
  match usable s k p va with
  | some q => modPart s k fun x => { x with dtlb := addPage x.dtlb q, noPage := x.noPage.filter fun e => e != (p.pasid, va / 4096) }
  | none => modPart s k fun x => { x with noPage := (p.pasid, va / 4096) :: x.noPage }

/-- TRANSLATION_COMPLETION: what the host answers to a Translation Request (R89, R246). -/
def execTranslationCompletion (who : Asker) (pasid va : Nat) (a : Option Page) (s : State) : Host.Outcome State Fault Refusal :=
  .next (match who, a with
  | .core c, some p => if answers p pasid va then coreGrant s c p va else s
  | .core c, none => pageMissing s c pasid va
  | .dispatcher k, some p => if answers p pasid va then dispGrant s k p va else s
  | .dispatcher k, none => if (getPart s k).priOff then modPart s k fun x => { x with noPage := (pasid, va / 4096) :: x.noPage } else s)

/-- A Response Failure: every parked instruction of the function fails, and PRI stays off until the function is reset (R413). -/
def priFails (s : State) (k : Nat) : State :=
  (allBlocks s).foldl (fun s b => match b.core with
    | some c => if b.part = k then pagesFail s c b.pasid else s
    | none => s) (modPart s k fun x => { x with priOff := true })

/-- PRI_RESPONSE (R248, R249, R413). -/
def execPriResponse (who : Asker) (pasid va : Nat) (a : PriAnswer) (s : State) : Host.Outcome State Fault Refusal :=
  .next (match who, a with
  | .core c, .success p => if answers p pasid va then coreGrant s c p va else s
  | .core c, .invalid w => pageRefused s c pasid va w
  | .core _, .failure => priFails s (partOfPasid s pasid)
  | .dispatcher k, .success p => if answers p pasid va then dispGrant s k p va else s
  | .dispatcher k, .invalid _ => modPart s k fun x => { x with noPage := (pasid, va / 4096) :: x.noPage }
  | .dispatcher k, .failure => priFails (modPart s k fun x => { x with noPage := (pasid, va / 4096) :: x.noPage }) k)

end Sys2Proof.Machine
end

