-- ==== Sys2Proof/Machine/HostIf.lean ====
section
/-! DEFINITION. Partitions and trusted interfaces (R410, R420 to R424), bring-up and resets (R406, R425), host atomics (R101), peers
(R414 to R419), registrations with infill (R157) and firmware images (R421). -/

namespace Sys2Proof.Machine

/-! ### Partitions (R410) -/

/-- The physical ranges of a partition, as base and size. -/
def rangesOf (x : Part) : List (Nat × Nat) := ((List.range 8).map fun m => (x.memBase.get 0 m, x.memSize.get 0 m)).filter fun e => e.2 != 0
def inRanges (l : List (Nat × Nat)) (a : Nat) : Bool := l.any fun e => e.1 ≤ a && a < e.1 + e.2
/-- Keystone scrubs the memory that `p` picks: every byte zero, no poison, no copy in a cache, no scope record (R95). -/
def scrub (s : State) (p : Nat → Bool) : State :=
  let lines := fun (m : SMap (Option CLine)) => (⟨m.cells.filter fun e => !p (128 * e.1)⟩ : SMap (Option CLine))
  let s := s.cores.keys.foldl (fun s c => modCore s c fun x => { x with l1 := lines x.l1 }) s
  let s := (List.range 4).foldl (fun s k => modPier s k fun x => { x with rdc := lines x.rdc }) s
  { s with mem := ⟨s.mem.cells.filter fun e => !p e.1⟩, memPois := ⟨s.memPois.cells.filter fun e => !p (64 * e.1)⟩, l2Bad := ⟨s.l2Bad.cells.filter fun e => !p (64 * e.1)⟩
           scopes := ⟨s.scopes.cells.filter fun e => !p (128 * e.1)⟩ }
/-- Forgets the translations of the PASIDs that `p` picks. -/
def forgetPages (s : State) (p : Nat → Bool) : State :=
  let keep := fun (t : List Page) => t.filter fun q => !p q.pasid
  let s := s.cores.keys.foldl (fun s c => modCore s c fun x => { x with tlb := keep x.tlb }) s
  (List.range 4).foldl (fun s k => modPart s k fun x => { x with dtlb := keep x.dtlb }) s
/-- Whether a partition holds a resident block. -/
def partBusy (s : State) (k : Nat) : Bool := (allBlocks s).any fun b => b.part == k && b.core.isSome && !b.exited

/-- The entry after a write of `size` bytes at `o`. -/
def partAfter (p : Part) (o size x : Nat) : Part :=
  let mem := fun (m : SMap Nat) a => (List.range 8).foldl (fun m i => m.set 0 i (putField (m.get 0 i) (a + 16 * i) 8 o size x)) m
  { p with courses := BitVec.ofNat 8 (putField p.courses.toNat 0 1 o size x), en := putField p.en.toNat 1 1 o size x % 2 = 1,
           pbase := putField p.pbase 4 4 o size x, pcnt := putField p.pcnt 8 4 o size x,
           outmask := BitVec.ofNat 64 (putField p.outmask.toNat 0x10 8 o size x), memBase := mem p.memBase 0x20, memSize := mem p.memSize 0x28 }
/-- A write that is performed: memory that joins the partition is scrubbed, and no translation of its PASIDs outlives it. -/
def partWrite (s : State) (k o size x : Nat) : State :=
  let old := getPart s k
  let new := partAfter old o size x
  if (List.range 4).any fun j => j != k && ((getPart s j).courses &&& new.courses) != 0 then s
  else
    let s := setPart s k new
    let s := if rangesOf new = rangesOf old then s else scrub s fun a => inRanges (rangesOf new) a && !inRanges (rangesOf old) a
    forgetPages s fun q => inPasids old q || inPasids new q
/-- PARTITION_ENTRY_WRITE. -/
def execPartitionEntryWrite (k off size : Nat) (x : DWord) (s : State) : Host.Outcome State Fault Refusal :=
  .next (if ¬ answering s ∨ ¬ pfLet s ∨ 4 ≤ k ∨ 8 < size then s
    else if isLocked s k then enterError s k
    else if partBusy s k then s else partWrite s k off size x.toNat)

/-! ### TDISP (R420) -/

/-- The reply to a request: 1 granted, 0 refused. -/
def answer (s : State) (b : Bool) : State := modDev s fun d => { d with reply := [BitVec.ofNat 8 b.toNat] }
def allDisabled (s : State) (k : Nat) : Bool := (getPart s k).queues.cells.all fun e => e.2.state == 0
/-- LOCK_INTERFACE. -/
def execLockInterface (k : Nat) (s : State) : Host.Outcome State Fault Refusal :=
  .next (if answering s ∧ k < 4 ∧ (getPart s k).tdi = .unlocked ∧ allDisabled s k ∧ ¬ partBusy s k
    then answer (modPart s k fun p => { p with tdi := .locked }) true else answer s false)
/-- START_INTERFACE. -/
def execStartInterface (k : Nat) (s : State) : Host.Outcome State Fault Refusal :=
  .next (if answering s ∧ (getPart s k).tdi = .locked then answer (modPart s k fun p => { p with tdi := .run }) true else answer s false)

/-- Every grid of the partition is aborted, its queues reset, its memory scrubbed, its routes closed, its TDI unlocked. Writes of its blocks
that are on their way to that memory end with it. -/
def stopTdi (s : State) (k : Nat) : State :=
  let send := (getPart s k).tdi != .error
  let us := ((allBlocks s).filter fun b => b.part == k).map fun b => b.uid
  let s := (s.grids.filter fun g => g.part == k && gridOpen g).foldl (fun s g => abortGrid s g send) s
  let s := us.foldl (fun s u => releaseBlock s send u) s
  let s := { s with transit := s.transit.filter fun t => !(us.contains t.block && match t.ent.line with | .dev _ => true | _ => false) }
  let s := ((getPart s k).queues.keys).foldl (fun s n => resetQueue s k n) s
  let s := scrub s (inRanges (rangesOf (getPart s k)))
  let s := { s with routes := ⟨(s.routes.cells.map fun e => (e.1, if e.2.inpart.toNat % 4 = k then { e.2 with inpart := e.2.inpart &&& 0x7F } else e.2)).filter
    fun e => decide (e.2 ≠ {})⟩ }
  applyImage (modPart s k fun p => { p with tdi := .unlocked })
/-- STOP_INTERFACE. -/
def execStopInterface (k : Nat) (s : State) : Host.Outcome State Fault Refusal :=
  .next (if answering s ∧ k < 4 ∧ (getPart s k).tdi ≠ .unlocked then answer (stopTdi s k) true else answer s false)

/-- VF_FLR acts as the TDISP stop; the function's PRI works again (R406, R413). -/
def execVfFlr (k : Nat) (s : State) : Host.Outcome State Fault Refusal :=
  .next (if 4 ≤ k ∨ ¬ answering s then s
    else modPart (stopTdi s k) k fun p => { p with priOff := false, msixTable := SMap.empty, msixPba := 0 })

/-! ### Bring-up and reset (R406, R425) -/

def table (l : List Nat) (key : Nat → Nat) (d : Nat) (m : SMap Nat) : SMap Nat := (l.zipIdx).foldl (fun m e => m.set d (key e.2) e.1) m
/-- The part of a list that belongs to pier `p`. -/
def slice (l : List Nat) (p n : Nat) : List Nat := (l.drop (p * n)).take n
/-- Whether part of a map table assigns each of the positions `lo + 1` to `lo + n` once and leaves one entry unmapped. -/
def mapsEach (l : List Nat) (lo n : Nat) : Bool :=
  l.length == n + 1 && l.contains 0 && (List.range n).all fun i => l.contains (lo + i + 1)
/-- Whether the lists are map tables that keystone can write (R7, R18): of each pier eight cores are mapped, one to each position, and above
each course sixteen vaults, one to each of its own indices, with the seventeenth its spare. -/
def mapsOk (maps vaults : List Nat) : Bool :=
  (List.range 4).all fun p => mapsEach (slice maps p 9) 0 8 && mapsEach ((slice vaults p 34).take 17) 0 16 && mapsEach ((slice vaults p 34).drop 17) 16 16
/-- Step 2: the map tables; every vault scrubbed. -/
def bringMaps (s : State) (maps vaults : List Nat) : State :=
  let s := (List.range 4).foldl (fun s p => modPier s p fun x =>
    { x with coreMap := table (slice maps p 9) id 0 SMap.empty, vaultMap := table (slice vaults p 34) id 0 SMap.empty }) s
  scrub s fun _ => true
/-- Step 4: infill's calibration; THP and VSCALE stay within their bounds, VSCALE for the frequency in force (R377, R379). -/
def bringTables (s : State) (vra coup thp vscale : List Nat) : State :=
  (List.range 4).foldl (fun s p => modPier s p fun x =>
    { x with vra := table ((slice vra p 32).map fun v => Nat.min v 1000) id 1000 x.vra, coup := table ((slice coup p 288).map fun v => v % 256) id 0 x.coup,
             thp := ((slice thp p 9).zipIdx).foldl (fun m e => if thpOk e.1 then m.set 1520 e.2 (e.1 : Int) else m) x.thp,
             vscale := ((slice vscale p 9).zipIdx).foldl (fun m e => if vscaleOk (x.freq.get 3600 e.2) e.1 then m.set 256 e.2 e.1 else m) x.vscale }) s
/-- POWER_ON, at power-on or after a reset of the PF: the sensors' first samples (R372), then the steps up to the failing one (0: none
fails); the failing step's number stands in DEVSTAT. After a reset of the PF keystone has its maps and the DRAM keeps its contents, so
step 2 changes nothing (assumption 82). Maps that R7 and R18 do not allow are none that keystone writes: the event does nothing. After a hard
trip the logic starts only once every sensor reads below 85.0 degrees (R384). -/
def execPowerOn (failStep : Nat) (maps vaults vra coup thp vscale : List Nat) (regs : BitVec 4) (s : State) : Host.Outcome State Fault Refusal :=
  .next (
    let ok := fun n => decide (failStep = 0 ∨ n < failStep)
    if s.dev.ready ∨ (ok 2 ∧ ¬ s.dev.warm ∧ ¬ mapsOk maps vaults) then s
    else
      let s := takeSamples s
      if s.dev.tripped ∧ ¬ allCool s then s else
      let s := modDev s fun d => { d with tripped := false }
      let s := if ok 1 then modDev s fun d => { d with keystoneOk := true } else s
      let s := if ok 2 ∧ ¬ s.dev.warm then bringMaps s maps vaults else s
      let s := if ok 3 then modDev s fun d => { d with ports := 0xFFFF, regOn := (List.range 4).foldl (fun m r => m.set false r (regs.getLsbD r)) d.regOn } else s
      let s := if ok 4 then bringTables s vra coup thp vscale else s
      modDev s fun d => { d with failStep := failStep, ready := failStep == 0, warm := d.warm && failStep != 0 })

/-- PF_FLR: the whole device is reset but for DRAM and keystone, which keeps its maps, its images and its counts of errors; what lies
outside the device is untouched. READY is clear until the device has been brought up again (R375, R425). After a hard trip the power of the
logic stays cut, and the stacks stay at ×4 (R384). -/
def execPfFlr (s : State) : Host.Outcome State Fault Refusal :=
  .next (
    let keep := fun (x : Pier) => { coreMap := x.coreMap, vaultMap := x.vaultMap, coreSpareUsed := x.coreSpareUsed, vaultSpareUsed := x.vaultSpareUsed,
                                    vaultMove := x.vaultMove, mult := if s.dev.tripped then x.mult else SMap.empty : Pier }
    { State.reset with
      agenda := s.agenda, fresh := s.fresh, serial := s.serial, mem := s.mem, memPois := s.memPois, hostMem := s.hostMem, peerMem := s.peerMem,
      piers := ⟨(s.piers.cells.map fun e => (e.1, keep e.2)).filter fun e => decide (e.2 ≠ {})⟩,
      dev := { warm := true, tripped := s.dev.tripped, keystoneOk := s.dev.keystoneOk, errs := s.dev.errs, image := s.dev.pendImage.getD s.dev.image,
               infillImage := s.dev.pendInfill.getD s.dev.infillImage, sentMsix := s.dev.sentMsix } })

/-! ### Reports and measurements (R423, R424) -/

/-- The items of a partition that a lock freezes, the BAR registers of its function among them (R421). -/
def frozenContent (s : State) (k : Nat) : List Nat :=
  let p := getPart s k
  let cs := (List.range 8).filter fun co => p.courses.getLsbD co
  [p.bars.get 0 0, p.bars.get 0 2] ++ (partFields p).map (fun f => f.2.2) ++ cs.map (fun co => (getCourse s co).switch.toNat) ++ cs.map (fun co => s.dev.share.get 0 ((getCourse s co).switch.toNat % 4))
  ++ (s.routes.cells.filter fun e => e.2.inpart.toNat % 4 == k).flatMap (fun e => e.1 :: (routeFields s e.2).map fun f => f.2.2)
  ++ (List.range 64).flatMap fun n => let q := getQueue s k n; q.qpasid.toNat :: q.rbase.toNat :: (trapFields q).map fun f => f.2.2
def measureContent (s : State) (i : Nat) : List Nat :=
  i :: match i with
  | 2 => [s.dev.image]
  | 3 => [s.dev.infillImage]
  | 4 => s.dev.registered.flatMap fun r => [r.part, r.pasid, r.kdesc, r.lbase, r.size, r.opcodes.toNat]
  | 5 => (List.range 4).flatMap fun p => let x := getPier s p
      (List.range 9).map (fun i => x.coreMap.get 0 i) ++ (List.range 34).map fun i => x.vaultMap.get 0 i
  | _ => frozenContent s (i - 6)
/-- The measurement of an index: a SHA3-384 digest of what it covers. -/
def measure (s : State) (i : Nat) : BitVec 384 := if i = 1 then Config.romDigest else Config.digest (measureContent s i)
/-- A digest padded with 16 zero bytes. -/
def paddedDigest (d : BitVec 384) : List Byte := leBytes 48 d.toNat ++ leBytes 16 0
/-- An MMIO range: offset, size, attributes. -/
def rangeBytes (off size attr : Nat) : List Byte := leBytes 8 off ++ leBytes 4 size ++ leBytes 4 attr
/-- The interface report of a VF. -/
def reportOf (s : State) (k : Nat) : List Byte :=
  let p := getPart s k
  leBytes 2 1 ++ leBytes 2 66 ++ ((List.range 64).flatMap fun n => rangeBytes (0x1000 * n) 0x1000 4) ++ rangeBytes 0 0x2000 8 ++ rangeBytes 0x2000 0x2000 1
  ++ leBytes 4 p.courses.toNat ++ leBytes 4 p.pbase ++ leBytes 4 p.pcnt ++ leBytes 4 (rangesOf p).length
  ++ ((rangesOf p).flatMap fun e => leBytes 8 e.1 ++ leBytes 8 e.2)
  ++ ([1, 2, 3, 4, 5, 6 + k].flatMap fun i => paddedDigest (measure s i))
/-- GET_INTERFACE_REPORT. -/
def execGetInterfaceReport (k : Nat) (s : State) : Host.Outcome State Fault Refusal := .next (modDev s fun d => { d with reply := reportOf s k })
/-- GET_MEASUREMENTS: the digests of indices 1 to 9, and keystone's signature over them, for which a number stands. -/
def execGetMeasurements (s : State) : Host.Outcome State Fault Refusal :=
  .next (
    let ds := (List.range 9).map fun i => measure s (i + 1)
    modDev s fun d => { d with reply := ds.flatMap (fun x => leBytes 48 x.toNat) ++ leBytes 8 (Config.sign (ds.map fun x => x.toNat)).toNat })

/-! ### Host atomics (R101, R406) -/

/-- The new value of a PCIe AtomicOp: FetchAdd adds `b`, Swap stores `b`, CAS stores `c` where the old value is `b`. -/
def pcieNew (op : PcieAtomic) (e old b c : Nat) : Nat :=
  match op with
  | .fetchAdd => (old + b) % 2 ^ e
  | .swap => b % 2 ^ e
  | .cas => if old = b % 2 ^ e then c % 2 ^ e else old
/-- HOST_ATOMICOP at a naturally aligned address of device memory, performed at the home slice; the reply is the old value. A poisoned
granule gives a free value and stays poisoned (R258). -/
def execHostAtomicop (op : PcieAtomic) (wide : Bool) (pa : Nat) (b c : DWord) (s : State) : Host.Outcome State Fault Refusal :=
  .next (
    let n := if wide then 8 else 4
    if ¬ answering s ∨ pa % n ≠ 0 ∨ 384 * 2 ^ 30 ≤ pa then s
    else
      let f := freeVal s
      let pois := gPois s (.dev pa)
      let s := if pois then f.2 else s
      let old := if pois then f.1.toNat % 2 ^ (8 * n) else ofLeBytes (gReadN s (.dev pa) n)
      let s := dropRdcAll (gWriteN s (.dev pa) (leBytes n (pcieNew op (8 * n) old b.toNat c.toNat))) (pa / 128)
      watch (modDev s fun d => { d with reply := leBytes n old }) none (.g (.dev pa)) n 3)

/-! ### Peers (R414 to R419) -/

/-- An incoming request is refused: true PERM, false PAGE. -/
def refusePeer (s : State) (perm : Bool) : State := modDev s fun d => { d with refusal := some perm, reply := [] }
def donePeer (s : State) (bs : List Byte) : State := modDev s fun d => { d with refusal := none, reply := bs }
/-- Whether a VA names a notify page (R419). -/
def isNotify (va : Nat) : Bool := va / 2 ^ 24 == 2 ^ 33 - 1 && va / 2 ^ 18 % 64 == 0
/-- Bytes of a request. -/
def peerBytes : PeerKind → Nat
  | .read n => n
  | .write bs => bs.length
  | .atomic _ wide _ _ => if wide then 8 else 4
def permBit : PeerKind → Nat
  | .read _ => 0 | .write _ => 1 | .atomic _ _ _ _ => 2
/-- Whether a page gives the rights a request needs. -/
def mayDo (p : Page) : PeerKind → Bool
  | .read _ => p.r | .write _ => p.w | .atomic _ _ _ _ => p.r && p.w
/-- A request performed at its location; an atomic at a poisoned granule finds a free value (R258). -/
def performPeer (s : State) (kind : PeerKind) (l : GLoc) : State :=
  match kind with
  | .read n => watch (donePeer s (gReadN s l n)) none (.g l) n 2
  | .write bs => watch (donePeer (devWrite s none l bs) []) none (.g l) bs.length 1
  | .atomic op wide b c =>
    let n := if wide then 8 else 4
    let f := freeVal s
    let s := if gPois s l then gWriteN f.2 l (leBytes n f.1.toNat) else s
    let r := atomStep s l op n (b.toNat % 2 ^ (8 * n)) (c.toNat % 2 ^ (8 * n))
    let s := match l with | .dev pa => dropRdcAll r.2 (pa / 128) | _ => r.2
    watch (donePeer s (leBytes n r.1)) none (.g l) n 3
/-- A write to a notify address of a route's partition. -/
def peerNotify (s : State) (r : Route) (va : Nat) (write : Bool) (size : Nat) (x : DWord) : State :=
  if ¬ r.inpart.getLsbD 7 ∨ ¬ r.inperm.getLsbD 3 ∨ ¬ write then refusePeer s true
  else donePeer (notifyWrite s (r.inpart.toNat % 4) (va / 2 ^ 12 % 64) (va % 4096) size x) []

/-- PEER_REQUEST over route `d`; `a` is what ATS answers under the route's INPASID: PRI is never used. -/
def execPeerRequest (d : Nat) (kind : PeerKind) (va : Nat) (a : Option Page) (s : State) : Host.Outcome State Fault Refusal :=
  .next (
    let r := s.routes.get {} d
    let n := peerBytes kind
    if ¬ answering s ∨ ¬ r.valid then s
    else if isNotify va then
      (match kind with
      | .write bs => peerNotify s r va true n (BitVec.ofNat 64 (ofLeBytes bs))
      | _ => peerNotify s r va false n 0)
    else if ¬ r.inpart.getLsbD 7 ∨ ¬ r.inperm.getLsbD (permBit kind) then refusePeer s true
    else match a with
    | none => refusePeer s false
    | some p =>
      if ¬ (pageHolds p r.inpasid.toNat va ∧ va + n ≤ p.vbase + p.size) then refusePeer s false
      else if ¬ mayDo p kind then refusePeer s true
      else match pageLoc p va with
        | .dev pa => if inMem s (r.inpart.toNat % 4) pa n then performPeer s kind (.dev pa) else refusePeer s false
        | l => performPeer s kind l)
/-- PEER_NOTIFY. -/
def execPeerNotify (d va : Nat) (write : Bool) (size : Nat) (x : DWord) (s : State) : Host.Outcome State Fault Refusal :=
  .next (
    let r := s.routes.get {} d
    if ¬ answering s ∨ ¬ r.valid ∨ ¬ isNotify va then s else peerNotify s r va write size x)

/-- PORT_DOWN: the requests not yet performed stay in transit, each to be performed once over another port (R414). -/
def execPortDown (p : Nat) (s : State) : Host.Outcome State Fault Refusal :=
  .next (modDev s fun d => { d with ports := d.ports &&& ~~~(1#16 <<< p) })
/-- PORT_UP: what a route held goes on, in order (R417). -/
def execPortUp (p : Nat) (s : State) : Host.Outcome State Fault Refusal :=
  .next (modDev s fun d => { d with ports := d.ports ||| (1#16 <<< p) })

/-! ### Infill and firmware (R157, R402, R421) -/

/-- INFILL_REGISTRATION of a kernel, known by its partition, PASID and descriptor address: accepted when infill holds a handler for every opcode of the bitmap; `held` are its handlers. -/
def execInfillRegistration (withdraw : Bool) (k : KernelName) (lbase size : Nat) (opcodes held : BitVec 16) (s : State) : Host.Outcome State Fault Refusal :=
  .next (
    let rest := s.dev.registered.filter fun r => !(r.part == k.part && r.pasid == k.pasid && r.kdesc == k.kdesc)
    if withdraw then modDev s fun d => { d with registered := rest }
    else if opcodes &&& ~~~held = 0
    then answer (modDev s fun d => { d with registered := { part := k.part, pasid := k.pasid, kdesc := k.kdesc, lbase := lbase, size := size, opcodes := opcodes } :: rest }) true
    else answer s false)
/-- FIRMWARE_IMAGE_UPDATE of an image that verified, infill's or keystone's; held while an interface is locked or running. -/
def execFirmwareImageUpdate (img : FwImage) (s : State) : Host.Outcome State Fault Refusal :=
  .next (applyImage (modDev s fun d => match img with
    | .infill n => { d with pendInfill := some n }
    | .keystone n => { d with pendImage := some n }))

end Sys2Proof.Machine
end

