-- ==== Sys2Proof/Machine/Dispatch.lean ====
section
/-! DEFINITION. The one dispatch: every constructor of `Instr` has its own meaning. -/

namespace Sys2Proof.Machine

open Sys2Proof

def exec (i : Instr) (s : State) : Host.Outcome State Fault Refusal :=
  match i with
  | .sysNop => Sys2Proof.Machine.execSysNop s
  | .sysExit => Sys2Proof.Machine.execSysExit s
  | .sysYield => Sys2Proof.Machine.execSysYield s
  | .sysTrig => Sys2Proof.Machine.execSysTrig s
  | .sysEret => Sys2Proof.Machine.execSysEret s
  | .sysBkpt => Sys2Proof.Machine.execSysBkpt s
  | .sysPause x1 => Sys2Proof.Machine.execSysPause x1 s
  | .sysIdem => Sys2Proof.Machine.execSysIdem s
  | .sysCtclose => Sys2Proof.Machine.execSysCtclose s
  | .sysMfence x1 => Sys2Proof.Machine.execSysMfence x1 s
  | .sysKclr x1 => Sys2Proof.Machine.execSysKclr x1 s
  | .salu x1 x2 x3 x4 => Sys2Proof.Machine.execSalu x1 x2 x3 x4 s
  | .saddi x1 x2 x3 => Sys2Proof.Machine.execSaddi x1 x2 x3 s
  | .sandi x1 x2 x3 => Sys2Proof.Machine.execSandi x1 x2 x3 s
  | .sori x1 x2 x3 => Sys2Proof.Machine.execSori x1 x2 x3 s
  | .sxori x1 x2 x3 => Sys2Proof.Machine.execSxori x1 x2 x3 s
  | .sshli x1 x2 x3 => Sys2Proof.Machine.execSshli x1 x2 x3 s
  | .sshri x1 x2 x3 => Sys2Proof.Machine.execSshri x1 x2 x3 s
  | .ssrai x1 x2 x3 => Sys2Proof.Machine.execSsrai x1 x2 x3 s
  | .slui x1 x2 => Sys2Proof.Machine.execSlui x1 x2 s
  | .slit x1 x2 => Sys2Proof.Machine.execSlit x1 x2 s
  | .slith x1 x2 => Sys2Proof.Machine.execSlith x1 x2 s
  | .sbeq x1 x2 x3 => Sys2Proof.Machine.execSbeq x1 x2 x3 s
  | .sbne x1 x2 x3 => Sys2Proof.Machine.execSbne x1 x2 x3 s
  | .sblt x1 x2 x3 => Sys2Proof.Machine.execSblt x1 x2 x3 s
  | .sbge x1 x2 x3 => Sys2Proof.Machine.execSbge x1 x2 x3 s
  | .sbltw x1 x2 x3 => Sys2Proof.Machine.execSbltw x1 x2 x3 s
  | .sbgew x1 x2 x3 => Sys2Proof.Machine.execSbgew x1 x2 x3 s
  | .sbr x1 x2 => Sys2Proof.Machine.execSbr x1 x2 s
  | .sjr x1 x2 => Sys2Proof.Machine.execSjr x1 x2 s
  | .sld x1 x2 x3 x4 => Sys2Proof.Machine.execSld x1 x2 x3 x4 s
  | .sst x1 x2 x3 x4 => Sys2Proof.Machine.execSst x1 x2 x3 x4 s
  | .slds x1 x2 x3 x4 => Sys2Proof.Machine.execSlds x1 x2 x3 x4 s
  | .ssts x1 x2 x3 x4 => Sys2Proof.Machine.execSsts x1 x2 x3 x4 s
  | .pushq x1 x2 => Sys2Proof.Machine.execPushq x1 x2 s
  | .popq x1 x2 => Sys2Proof.Machine.execPopq x1 x2 s
  | .lgo x1 => Sys2Proof.Machine.execLgo x1 s
  | .lgor x1 => Sys2Proof.Machine.execLgor x1 s
  | .cpy x1 x2 => Sys2Proof.Machine.execCpy x1 x2 s
  | .waitc x1 x2 x3 x4 => Sys2Proof.Machine.execWaitc x1 x2 x3 x4 s
  | .fence x1 x2 => Sys2Proof.Machine.execFence x1 x2 s
  | .bar x1 x2 x3 x4 => Sys2Proof.Machine.execBar x1 x2 x3 x4 s
  | .tcfg x1 x2 => Sys2Proof.Machine.execTcfg x1 x2 s
  | .tld x1 x2 x3 x4 => Sys2Proof.Machine.execTld x1 x2 x3 x4 s
  | .tst x1 x2 x3 x4 => Sys2Proof.Machine.execTst x1 x2 x3 x4 s
  | .mma x1 x2 x3 x4 => Sys2Proof.Machine.execMma x1 x2 x3 x4 s
  | .aclr x1 => Sys2Proof.Machine.execAclr x1 s
  | .drain x1 x2 x3 x4 => Sys2Proof.Machine.execDrain x1 x2 x3 x4 s
  | .drld x1 x2 => Sys2Proof.Machine.execDrld x1 x2 s
  | .mwait x1 => Sys2Proof.Machine.execMwait x1 s
  | .csrr x1 x2 => Sys2Proof.Machine.execCsrr x1 x2 s
  | .csrw x1 x2 => Sys2Proof.Machine.execCsrw x1 x2 s
  | .ctopen x1 x2 => Sys2Proof.Machine.execCtopen x1 x2 s
  | .chkEq x1 x2 => Sys2Proof.Machine.execChkEq x1 x2 s
  | .chkRel x1 x2 x3 => Sys2Proof.Machine.execChkRel x1 x2 x3 s
  | .kmovR x1 x2 => Sys2Proof.Machine.execKmovR x1 x2 s
  | .kmovW x1 x2 => Sys2Proof.Machine.execKmovW x1 x2 s
  | .trap x1 => Sys2Proof.Machine.execTrap x1 s
  | .satom x1 x2 x3 x4 x5 x6 => Sys2Proof.Machine.execSatom x1 x2 x3 x4 x5 x6 s
  | .lnop x1 => Sys2Proof.Machine.execLnop x1 s
  | .lnext x1 => Sys2Proof.Machine.execLnext x1 s
  | .lbr x1 => Sys2Proof.Machine.execLbr x1 s
  | .ljoin x1 => Sys2Proof.Machine.execLjoin x1 s
  | .rep x1 => Sys2Proof.Machine.execRep x1 s
  | .lpart x1 => Sys2Proof.Machine.execLpart x1 s
  | .vialu x1 x2 x3 => Sys2Proof.Machine.execVialu x1 x2 x3 s
  | .vmad x1 x2 => Sys2Proof.Machine.execVmad x1 x2 s
  | .vbfe x1 x2 => Sys2Proof.Machine.execVbfe x1 x2 s
  | .vbfi x1 => Sys2Proof.Machine.execVbfi x1 s
  | .vsel x1 => Sys2Proof.Machine.execVsel x1 s
  | .vcmp x1 x2 x3 => Sys2Proof.Machine.execVcmp x1 x2 x3 s
  | .fadd x1 x2 x3 x4 x5 => Sys2Proof.Machine.execFadd x1 x2 x3 x4 x5 s
  | .fmul x1 x2 x3 x4 x5 => Sys2Proof.Machine.execFmul x1 x2 x3 x4 x5 s
  | .ffma x1 x2 x3 x4 x5 x6 => Sys2Proof.Machine.execFfma x1 x2 x3 x4 x5 x6 s
  | .fmin x1 x2 => Sys2Proof.Machine.execFmin x1 x2 s
  | .fmax x1 x2 => Sys2Proof.Machine.execFmax x1 x2 s
  | .fcmp x1 x2 x3 => Sys2Proof.Machine.execFcmp x1 x2 x3 s
  | .fcvt x1 x2 x3 => Sys2Proof.Machine.execFcvt x1 x2 x3 s
  | .frnd x1 x2 x3 => Sys2Proof.Machine.execFrnd x1 x2 x3 s
  | .fclass x1 x2 => Sys2Proof.Machine.execFclass x1 x2 s
  | .vsfu x1 x2 => Sys2Proof.Machine.execVsfu x1 x2 s
  | .plog x1 x2 => Sys2Proof.Machine.execPlog x1 x2 s
  | .vshuf x1 x2 => Sys2Proof.Machine.execVshuf x1 x2 s
  | .vvote x1 x2 => Sys2Proof.Machine.execVvote x1 x2 s
  | .vredux x1 x2 x3 => Sys2Proof.Machine.execVredux x1 x2 x3 s
  | .vscan x1 x2 x3 x4 => Sys2Proof.Machine.execVscan x1 x2 x3 x4 s
  | .vbcast x1 => Sys2Proof.Machine.execVbcast x1 s
  | .acqWait x1 => Sys2Proof.Machine.execAcqWait x1 s
  | .acqTry x1 => Sys2Proof.Machine.execAcqTry x1 s
  | .rel x1 => Sys2Proof.Machine.execRel x1 s
  | .aliasOp x1 => Sys2Proof.Machine.execAliasOp x1 s
  | .rmov x1 => Sys2Proof.Machine.execRmov x1 s
  | .unmap x1 => Sys2Proof.Machine.execUnmap x1 s
  | .give x1 => Sys2Proof.Machine.execGive x1 s
  | .take x1 => Sys2Proof.Machine.execTake x1 s
  | .takeTry x1 => Sys2Proof.Machine.execTakeTry x1 s
  | .copy x1 => Sys2Proof.Machine.execCopy x1 s
  | .mapq x1 => Sys2Proof.Machine.execMapq x1 s
  | .ld x1 x2 x3 x4 x5 => Sys2Proof.Machine.execLd x1 x2 x3 x4 x5 s
  | .st x1 x2 x3 => Sys2Proof.Machine.execSt x1 x2 x3 s
  | .lds x1 x2 x3 => Sys2Proof.Machine.execLds x1 x2 x3 s
  | .sts x1 x2 => Sys2Proof.Machine.execSts x1 x2 s
  | .ldx x1 x2 x3 => Sys2Proof.Machine.execLdx x1 x2 x3 s
  | .stx x1 x2 => Sys2Proof.Machine.execStx x1 x2 s
  | .atom x1 x2 x3 x4 => Sys2Proof.Machine.execAtom x1 x2 x3 x4 s
  | .atoms x1 x2 x3 x4 => Sys2Proof.Machine.execAtoms x1 x2 x3 x4 s
  | .atomx x1 x2 x3 x4 => Sys2Proof.Machine.execAtomx x1 x2 x3 x4 s
  | .red x1 x2 x3 x4 => Sys2Proof.Machine.execRed x1 x2 x3 x4 s
  | .csum x1 x2 => Sys2Proof.Machine.execCsum x1 x2 s
  | .csumf x1 x2 => Sys2Proof.Machine.execCsumf x1 x2 s
  | .retired x1 x2 x3 => Sys2Proof.Machine.execRetired x1 x2 x3 s
  | .tcfgRun x1 => Sys2Proof.Machine.execTcfgRun x1 s
  | .tldRun x1 x2 => Sys2Proof.Machine.execTldRun x1 x2 s
  | .tstRun x1 x2 => Sys2Proof.Machine.execTstRun x1 x2 s
  | .aclrRun x1 => Sys2Proof.Machine.execAclrRun x1 s
  | .drldRun x1 => Sys2Proof.Machine.execDrldRun x1 s
  | .mmaRun x1 => Sys2Proof.Machine.execMmaRun x1 s
  | .drainRun x1 x2 x3 => Sys2Proof.Machine.execDrainRun x1 x2 x3 s
  | .drainComplete x1 x2 => Sys2Proof.Machine.execDrainComplete x1 x2 s
  | .drainPark x1 x2 x3 => Sys2Proof.Machine.execDrainPark x1 x2 x3 s
  | .drainResume x1 x2 => Sys2Proof.Machine.execDrainResume x1 x2 s
  | .engineFault x1 x2 => Sys2Proof.Machine.execEngineFault x1 x2 s
  | .copyComplete x1 x2 => Sys2Proof.Machine.execCopyComplete x1 x2 s
  | .copyFault x1 x2 x3 => Sys2Proof.Machine.execCopyFault x1 x2 x3 s
  | .storeBufferLeave x1 x2 => Sys2Proof.Machine.execStoreBufferLeave x1 x2 s
  | .storeAck x1 => Sys2Proof.Machine.execStoreAck x1 s
  | .loadResponse x1 => Sys2Proof.Machine.execLoadResponse x1 s
  | .vsfuResult x1 x2 => Sys2Proof.Machine.execVsfuResult x1 x2 s
  | .priResponse x1 x2 x3 x4 => Sys2Proof.Machine.execPriResponse x1 x2 x3 x4 s
  | .atsInvalidation x1 x2 x3 => Sys2Proof.Machine.execAtsInvalidation x1 x2 x3 s
  | .barrierPhaseComplete x1 x2 x3 => Sys2Proof.Machine.execBarrierPhaseComplete x1 x2 x3 s
  | .bankerSlotReadable x1 x2 => Sys2Proof.Machine.execBankerSlotReadable x1 x2 s
  | .acqServed x1 x2 => Sys2Proof.Machine.execAcqServed x1 x2 s
  | .splitStackPop x1 x2 => Sys2Proof.Machine.execSplitStackPop x1 x2 s
  | .splitStackExchange x1 x2 => Sys2Proof.Machine.execSplitStackExchange x1 x2 s
  | .qdead x1 x2 => Sys2Proof.Machine.execQdead x1 x2 s
  | .splitDeadlock x1 x2 => Sys2Proof.Machine.execSplitDeadlock x1 x2 s
  | .wtimer x1 x2 => Sys2Proof.Machine.execWtimer x1 x2 s
  | .infillResume x1 x2 x3 x4 x5 x6 => Sys2Proof.Machine.execInfillResume x1 x2 x3 x4 x5 x6 s
  | .consumptionReport x1 x2 => Sys2Proof.Machine.execConsumptionReport x1 x2 s
  | .eccError x1 x2 => Sys2Proof.Machine.execEccError x1 x2 s
  | .scrub x1 x2 => Sys2Proof.Machine.execScrub x1 x2 s
  | .notifyWrite x1 x2 x3 x4 x5 => Sys2Proof.Machine.execNotifyWrite x1 x2 x3 x4 x5 s
  | .queueEnable x1 x2 => Sys2Proof.Machine.execQueueEnable x1 x2 s
  | .queueAbort x1 x2 => Sys2Proof.Machine.execQueueAbort x1 x2 s
  | .queueReset x1 x2 => Sys2Proof.Machine.execQueueReset x1 x2 s
  | .grant x1 x2 x3 => Sys2Proof.Machine.execGrant x1 x2 x3 s
  | .registerWrite x1 x2 x3 x4 => Sys2Proof.Machine.execRegisterWrite x1 x2 x3 x4 s
  | .packetRead x1 x2 => Sys2Proof.Machine.execPacketRead x1 x2 s
  | .placementDecision x1 => Sys2Proof.Machine.execPlacementDecision x1 s
  | .gridYield x1 x2 x3 => Sys2Proof.Machine.execGridYield x1 x2 x3 s
  | .budgetExhausted x1 x2 x3 => Sys2Proof.Machine.execBudgetExhausted x1 x2 x3 s
  | .blockEvent x1 => Sys2Proof.Machine.execBlockEvent x1 s
  | .gridComplete x1 x2 x3 => Sys2Proof.Machine.execGridComplete x1 x2 x3 s
  | .preempt x1 => Sys2Proof.Machine.execPreempt x1 s
  | .blockRestore x1 => Sys2Proof.Machine.execBlockRestore x1 s
  | .powerGateEscalate x1 => Sys2Proof.Machine.execPowerGateEscalate x1 s
  | .gateRelease x1 => Sys2Proof.Machine.execGateRelease x1 s
  | .sensorSample x1 x2 x3 => Sys2Proof.Machine.execSensorSample x1 x2 x3 s
  | .hardTripRestart => Sys2Proof.Machine.execHardTripRestart s
  | .capMessage x1 x2 x3 => Sys2Proof.Machine.execCapMessage x1 x2 x3 s
  | .capLeaseExpiry => Sys2Proof.Machine.execCapLeaseExpiry s
  | .frequencyChange x1 x2 x3 => Sys2Proof.Machine.execFrequencyChange x1 x2 x3 s
  | .switchMatrixWrite x1 x2 => Sys2Proof.Machine.execSwitchMatrixWrite x1 x2 s
  | .switchMatrixApply x1 => Sys2Proof.Machine.execSwitchMatrixApply x1 s
  | .coreRetire x1 x2 => Sys2Proof.Machine.execCoreRetire x1 x2 s
  | .vaultRetire x1 x2 x3 => Sys2Proof.Machine.execVaultRetire x1 x2 x3 s
  | .masterFreeze x1 x2 => Sys2Proof.Machine.execMasterFreeze x1 x2 s
  | .watchpointArm x1 x2 x3 x4 => Sys2Proof.Machine.execWatchpointArm x1 x2 x3 x4 s
  | .instructionBreakpoint x1 x2 x3 x4 x5 => Sys2Proof.Machine.execInstructionBreakpoint x1 x2 x3 x4 x5 s
  | .dcmdStop x1 => Sys2Proof.Machine.execDcmdStop x1 s
  | .dcmdResume x1 => Sys2Proof.Machine.execDcmdResume x1 s
  | .dcmdStep x1 x2 x3 x4 => Sys2Proof.Machine.execDcmdStep x1 x2 x3 x4 s
  | .dcmdCancelStep x1 => Sys2Proof.Machine.execDcmdCancelStep x1 s
  | .dcmdPreempt x1 x2 x3 => Sys2Proof.Machine.execDcmdPreempt x1 x2 x3 s
  | .stepDone x1 => Sys2Proof.Machine.execStepDone x1 s
  | .dwdataRead x1 => Sys2Proof.Machine.execDwdataRead x1 s
  | .dwdataWrite x1 x2 => Sys2Proof.Machine.execDwdataWrite x1 x2 s
  | .dinjWrite x1 x2 => Sys2Proof.Machine.execDinjWrite x1 x2 s
  | .powerOn x1 x2 x3 x4 x5 x6 x7 x8 => Sys2Proof.Machine.execPowerOn x1 x2 x3 x4 x5 x6 x7 x8 s
  | .pfFlr => Sys2Proof.Machine.execPfFlr s
  | .vfFlr x1 => Sys2Proof.Machine.execVfFlr x1 s
  | .partitionEntryWrite x1 x2 x3 x4 => Sys2Proof.Machine.execPartitionEntryWrite x1 x2 x3 x4 s
  | .lockInterface x1 => Sys2Proof.Machine.execLockInterface x1 s
  | .startInterface x1 => Sys2Proof.Machine.execStartInterface x1 s
  | .stopInterface x1 => Sys2Proof.Machine.execStopInterface x1 s
  | .frozenItemWrite x1 x2 x3 => Sys2Proof.Machine.execFrozenItemWrite x1 x2 x3 s
  | .getInterfaceReport x1 => Sys2Proof.Machine.execGetInterfaceReport x1 s
  | .getMeasurements => Sys2Proof.Machine.execGetMeasurements s
  | .hostAtomicop x1 x2 x3 x4 x5 => Sys2Proof.Machine.execHostAtomicop x1 x2 x3 x4 x5 s
  | .peerRequest x1 x2 x3 x4 => Sys2Proof.Machine.execPeerRequest x1 x2 x3 x4 s
  | .peerNotify x1 x2 x3 x4 x5 => Sys2Proof.Machine.execPeerNotify x1 x2 x3 x4 x5 s
  | .peerRefusal x1 x2 => Sys2Proof.Machine.execPeerRefusal x1 x2 s
  | .portDown x1 => Sys2Proof.Machine.execPortDown x1 s
  | .portUp x1 => Sys2Proof.Machine.execPortUp x1 s
  | .translationCompletion x1 x2 x3 x4 => Sys2Proof.Machine.execTranslationCompletion x1 x2 x3 x4 s
  | .powerAllowanceRefill => Sys2Proof.Machine.execPowerAllowanceRefill s
  | .farRowResult x1 x2 => Sys2Proof.Machine.execFarRowResult x1 x2 s
  | .infillRegistration x1 x2 x3 x4 x5 x6 => Sys2Proof.Machine.execInfillRegistration x1 x2 x3 x4 x5 x6 s
  | .firmwareImageUpdate x1 => Sys2Proof.Machine.execFirmwareImageUpdate x1 s
  | .masterRelease x1 => Sys2Proof.Machine.execMasterRelease x1 s

end Sys2Proof.Machine
end

