-- ==== Sys2Proof/Machine/Sched.lean ====
section
/-! DEFINITION. Issue (R11, R131 to R134, R160, R162, R212, R217, R303, R331, R332, R339, R379) and the passage of time (R22, R23, R324,
R333, R353, R364): what each entry of the agenda does. -/

namespace Sys2Proof.Machine

/-! ### Costs (R379) -/

/-- Whether an L-instruction works on F64 values: each takes 2 clocks (R202), frnd.f64 too (R331), though the row of frnd in R211 names no
exception (assumption 110). -/
def onF64 : Instr → Bool
  | .fadd ty _ _ _ _ | .fmul ty _ _ _ _ | .ffma ty _ _ _ _ _ | .fmin ty _ | .fmax ty _ | .fcmp _ ty _ | .frnd ty _ _ | .fclass ty _ => ty == .f64
  | .fcvt d x _ => d == 0xE || x == 0xE
  | _ => false

/-- The energy units of an instruction before VSCALE, of a warp that issues it in a state. -/
def costOf (s : State) (b : Block) (w : Warp) (i : Instr) : Nat :=
  match i with
  | .lnop _ | .lnext _ | .lbr _ | .ljoin _ | .rep _ | .lpart _ | .acqWait _ | .acqTry _ | .rel _ | .aliasOp _ | .rmov _ | .unmap _
  | .give _ | .take _ | .takeTry _ => 10
  | .vialu _ _ _ | .vmad _ _ | .vbfe _ _ | .vbfi _ | .vsel _ | .vcmp _ _ _ | .plog _ _ | .copy _ | .mapq _ | .csum _ _
  | .retired _ _ _ => 150
  | .fadd _ _ _ _ _ | .fmul _ _ _ _ _ | .ffma _ _ _ _ _ _ | .fmin _ _ | .fmax _ _ | .fcmp _ _ _ | .fcvt _ _ _ | .frnd _ _ _
  | .fclass _ _ | .csumf _ _ => if onF64 i then 1100 else 550
  | .vsfu _ _ => 400
  | .vshuf _ _ | .vvote _ _ | .vredux _ _ _ | .vscan _ _ _ _ | .vbcast _ => 300
  | .ld _ _ _ _ _ | .st _ _ _ | .lds _ _ _ | .sts _ _ | .ldx _ _ _ | .stx _ _ | .atom _ _ _ _ | .atoms _ _ _ _ | .atomx _ _ _ _
  | .red _ _ _ _ => 1500
  | .tld _ t _ _ | .tst _ t _ _ => 1250 * ceilDiv (transferLen (tcfOf s b t.toNat)) 2048
  | .mma _ ta _ fs =>
    let f := sreg w fs
    10500 * (kOf (tcfOf s b ta.toNat) (fsA f) / (if codeBits (fsA f) = 16 ∨ codeBits (fsB f) = 16 then 4 else 8))
  | .drain _ p _ _ => 1500 * 128 * Nat.max 1 (ceilDiv (program (slotOf s b p.toNat)).length 4)
  | .cpy _ a => let d := cdesc (spadRead s b.uid (sreg w a).toNat 64); 30 + 40 * ceilDiv (cCount d * cSize d) 64
  | _ => 30

/-- Clocks for which an L-instruction holds 64 of its quadrant's FMA lanes: none for an instruction that only takes an issue slot, or
that another unit executes; four times as many with a far row (R11, R54, R211, R240). -/
def laneClocks (w : Warp) (i : Instr) : Nat :=
  let n := match i with
    | .lnop _ | .lnext _ | .lbr _ | .ljoin _ | .rep _ | .lpart _ | .acqWait _ | .acqTry _ | .rel _ | .aliasOp _ | .rmov _ | .unmap _
    | .give _ | .take _ | .takeTry _ | .vsfu _ _ | .retired _ _ _
    | .ld _ _ _ _ _ | .st _ _ _ | .lds _ _ _ | .sts _ _ | .ldx _ _ _ | .stx _ _ | .atom _ _ _ _ | .atoms _ _ _ _ | .atomx _ _ _ _
    | .red _ _ _ _ => 0
    | _ => if onF64 i then 2 else 1
  match lfmt i, i.lf with
  | some m, some f => if (usedRows w m f).any (isFar w) then 4 * n else n
  | _, _ => n

/-! ### Who may issue -/

/-- Whether a parked request of a split may trap: its instruction has issued, so a debug step that it was the instruction of lets it. -/
def parkedLet (s : State) (b : Block) (w : Warp) (k : Nat) : Bool :=
  (!w.dbg.stopped || stepNames s b w true k) && w.sstep.all fun e => e.1 && (e.2 == k || e.2 == k + 4)
/-- Whether the L-instruction of a single step that was parked has finished. -/
def stepOver (w : Warp) : Option Nat :=
  match w.sstep with
  | some (true, k) => if 4 ≤ k ∧ !(getSplit w (k - 4)).any (fun p => p.wait == .park) then some (k - 4) else none
  | _ => none
/-- Whether a warp has entered a trap. -/
def trapped (s : State) (b w : Nat) (before : Warp) : Bool :=
  (getWarp s b w).any fun x => (x.handler && !before.handler) || x.pending.isSome || x.infill

/-- The first issue after a placement or a restore acts as a FENCE ACQ at SYSTEM (R116, R351). -/
def firstAcquire (s : State) (b : Block) (w : Warp) : State × Warp :=
  if w.acqFence then let w := { w with acqFence := false }; (acqL1 (setWarp s b.uid w) (coreNo b), w) else (s, w)

/-- Whether an instruction issued now, and not before: one that waits for its translation or a peer has issued (R379, R393). -/
def beginsNow (s : State) (b : Block) (before : Warp) (lane : Bool) : Bool :=
  if lane then s.sel.issued
  else !sIssued before && (s.sel.issued || (getWarp s b.uid before.idx).any sIssued)
/-- Ends an issue: what waits is noted for a step; what issues now is counted, charged, and may be a consumption; what has completed may be
a single step. `old` and `before` are as they were, `s` is after the meaning. -/
def afterIssue (old s : State) (b : Block) (before : Warp) (i : Instr) (lane : Bool) (k : Nat) : State :=
  let wi := before.idx
  let fell := trapped s b.uid wi before
  let s := if beginsNow s b before lane then countIssue old (eatBad s b before i) b wi lane (costOf old b before i) else s
  if ¬ s.sel.issued then stepMark s b before lane k fell
  else
    let s := stepMark s b before lane k true
    if before.sstep.isSome ∧ ¬ fell then stepTrap s b.uid wi lane k (splitLanes before k) else s

/-! ### The S-stream -/

/-- A word of the S-stream at an address, or the state in which the fetch waits or traps (R162, R341). -/
def fetchS (s : State) (b : Block) (w : Warp) (va : DWord) : Except State Nat :=
  match fetchBytes s b va 4 with
  | .ok bs => .ok (ofLeBytes bs)
  | .layout => .error (trapS s b w .page 1 va)
  | .refused => .error (trapS s b w .page 0 va)
  | .hold => .error (waitL s)
  | .wait _ pri => .error (
    if w.swait = .refused va.toNat false ∨ w.swait = .refused va.toNat true then trapS s b w .page 0 va
    else waitS s b w (if pri ∨ w.swait = .pri va.toNat then .pri va.toNat else .ats va.toNat))
/-- The word at SPC, with the word after it where it is word 0 of a pair. Word 1 is fetched before word 0 is checked, so its wait or PAGE
comes before an ILLEGAL of word 0 (R132 gives no order; assumption 107). -/
def fetchPair (s : State) (b : Block) (w : Warp) : Except State Nat := do
  let x ← fetchS s b w w.spc
  if isPair (BitVec.ofNat 32 x) then return x + 2 ^ 32 * (← fetchS s b w (w.spc + 4)) else return x
/-- When the instruction that the S-stream stands at issued: now, if it has not (R339). -/
def sStamp (w : Warp) : Nat := if accessing w then w.sAt else w.wtim
/-- The state that an S-instruction leaves, where it may trap now: a trap waits until every earlier sld has brought its value (R160, R161). -/
def afterArrivals (s t : State) (b : Block) (w : Warp) : State := if !w.sload.isEmpty && trapped t b.uid w.idx w then stepHolds s b w false 0 else t
/-- The S-instruction of a word issues, once the values it needs have arrived. -/
def runS (s : State) (b : Block) (w : Warp) (x : Nat) : Host.Outcome State Fault Refusal :=
  let sel : Sel := { block := b.uid, warp := w.idx, word := x % 2 ^ 32 }
  let cyc := (getCore s (coreNo b)).cyc
  match decodeS (BitVec.ofNat 32 x) (BitVec.ofNat 32 (x / 2 ^ 32)) with
  | .refused r => .next (afterArrivals s (afterIssue s (trapS { s with sel := sel } b w .illegal (rejectSubc r) 0) b w .sysNop false 0) b w)
  | .ok i =>
    if (sReads i).any (fun r => !sReady w cyc r) || loadPending w i then .next (stepHolds s b w false 0)
    else
      let v := { w with sWord := x, sAt := sStamp w }
      match exec i { setWarp s b.uid v with sel := sel } with
      | .next t =>
        let begins := beginsNow t b w false
        let t := afterIssue s t b w i false 0
        let t := if t.sel.issued then modWarp t b.uid w.idx fun y => passedBp y w.spc w.handler else t
        .next (afterArrivals s (if begins then modCore t (coreNo b) fun c => { c with sUsed := c.sUsed.set 0 (quadOf w) 1 } else t) b w)
      | e => e
/-- The asynchronous cause that a warp takes at its next S-issue, with those that stay held: none in handler mode, nor while an
S-instruction waits for a peer; a WTIMER cause stays held at an exit (R301, R340). -/
def heldNext (w : Warp) : Option (TrapRec × List TrapRec) :=
  if w.handler || asking w then none
  else (w.held.find? fun t => !(t.cause == .wtimer && w.swait == .exit)).map fun t => (t, w.held.erase t)
/-- An asynchronous trap is entered (R301, R304, R340); the stores it names count as complete (R351). -/
def enterHeld (s : State) (b : Block) (w : Warp) (t : TrapRec) : State :=
  let s := if w.tvec = 0 then fatalFault (setWarp s b.uid w) b.uid else enterTrap s b w { t with asyn := true }
  stepMark (t.ids.foldl (fun s i => settleStore s b.uid w.idx i) s) b w false 0 true
/-- The unwind held in handler mode, once the warp has left it (R301, R394). It is made after every held cause has been taken, an order that
no rule gives (assumption 111). -/
def unwindNext (w : Warp) : Option (Nat × Region) :=
  if w.handler || asking w then none
  else w.unwindHeld.bind fun h => (regionAt w h.1 h.2).map fun r => (h.1, r)

/-- What an S-issue of a warp does, where its quadrant chooses it: a trap that waits for its save slot, the timer, held causes, a held
unwind, a breakpoint, else the word at SPC, in its quadrant's S slot of the clock. -/
def tryS (s : State) (bu wi : Nat) : Host.Outcome State Fault Refusal :=
  match getBlock s bu, getWarp s bu wi with
  | some b, some w =>
    let x := getCore s (coreNo b)
    if ¬ mayIssue s b w then .next (stepHolds s b w false 0)
    else match stepOver w with
    | some k => .next (stepTrap s bu wi true k (splitLanes w k))
    | none =>
      if ¬ streamLet s b w false 0 then .next s
      else match w.pending with
      | some t => .next (enterTrap s b w t)
      | none =>
        if wtimDue w then .next (asyncTrap (setWarp s bu { w with wtimArmed := false }) bu wi { cause := .wtimer })
        else match heldNext w, unwindNext w with
        | some (t, rest), _ => .next (enterHeld s b { w with held := rest } t)
        | none, some (d, r) => .next (unwind s b w d r)
        | none, none =>
          if (x.sUsed.get 0 (quadOf w) ≠ 0 ∧ ¬ sIssued w) ∨ x.cyc < w.sNext then .next (stepHolds s b w false 0)
          else match if (getCourse s (courseOf (coreNo b))).stopped then none else ibpOf s (coreNo b) b w none with
          | some n => .next (ibpStop s (coreNo b) n b w none)
          | none =>
            let a := firstAcquire s b w
            if hasWordS w then runS a.1 b a.2 w.sWord
            else match fetchPair { a.1 with sel := { block := bu, warp := wi } } b a.2 with
              | .ok v => runS a.1 b a.2 v
              | .error t => .next (afterArrivals s (stepMark t b a.2 false 0 (trapped t bu wi w)) b w)
  | _, _ => .next s

/-! ### The L-stream -/

/-- A word of the L-stream at an address, or the state in which the fetch waits or traps (R212, R341). -/
def fetchL (s : State) (b : Block) (w : Warp) (k : Nat) (p : Split) (va : DWord) : Except State Nat :=
  let put := fun (x : LWait) => waitL (setWarp s b.uid (setSplit w k { p with wait := x }))
  match fetchBytes s b va 12 with
  | .ok bs => .ok (ofLeBytes bs)
  | .layout => .error (trapL s b w .page 1 va 0)
  | .refused => .error (trapL s b w .page 0 va 0)
  | .hold => .error (waitL s)
  | .wait g pri => .error (put (.fetch va.toNat g (pri || p.wait == .fetch va.toNat g true)))
/-- The step that a code of rep means (R216). -/
def stepOf (code : Nat) : Nat := match code % 4 with | 0 => 0 | 1 => 1 | 2 => 2 | _ => 4
/-- The fields of a repetition: each name field moves by the index times its step (R217). -/
def steppedRaw (r : RawF) (t : RepSt) : RawF :=
  { r with vd := r.vd + t.next * stepOf t.steps, va := r.va + t.next * stepOf (t.steps / 4), vb := r.vb + t.next * stepOf (t.steps / 16),
           vc := r.vc + t.next * stepOf (t.steps / 64) }
/-- The instruction of a split's word: while it repeats, that of the repetition. -/
def decodeSplit (p : Split) (x : Nat) : Decoded :=
  let v := BitVec.ofNat 96 x
  match p.rep with
  | none => decodeL v
  | some t => decodeRaw (opSubOf v).1 (opSubOf v).2 (steppedRaw (rawOf v) t)
/-- The word with no operand that a split at an LNEXT issues again. -/
def bareLF : LF := ⟨.v 0, .v 0, .v 0, .v 0, ⟨31, false⟩, 0, false, 0⟩

/-- An instruction of a split issues. While an S-instruction of the warp waits for a peer or for a value, an L-instruction that would trap
waits with it, as that S-instruction must complete first (R160, R161, R338). -/
def runL (s : State) (b : Block) (w : Warp) (k : Nat) (p : Split) (x : Nat) (d : Decoded) : Host.Outcome State Fault Refusal :=
  let sel : Sel := { block := b.uid, warp := w.idx, split := k, lane := true, word := x }
  let c := coreNo b
  let core := getCore s c
  let end_ := fun (t : State) (w : Warp) (i : Instr) (n : Nat) =>
    if asking w ∧ trapped t b.uid w.idx w then stepHolds s b w true k
    else
      let u := afterIssue s t b w i true k
      if u.sel.issued then takeSlotL (usedSplit u b.uid w k core.cyc) c (quadOf w) n else u
  match d with
  | .refused r => .next (end_ (trapL { s with sel := sel } b w .illegal (rejectSubc r) 0 0) w (.lnop bareLF) 0)
  | .ok i =>
    let n := laneClocks w i
    if n ≠ 0 ∧ (freeHalf core (quadOf w)).isNone then .next (stepHolds s b w true k)
    else
      let w := setSplit w k { p with word := x }
      match exec i { setWarp s b.uid w with sel := sel } with
      | .next t => .next (end_ t w i n)
      | e => e

/-- The request at which a split is parked, unless it has trapped. -/
def parkedReq (w : Warp) (k : Nat) : Option MemReq :=
  if (getSplit w k).any fun p => p.wait == .park then w.reqs.find? fun r => r.split == k && !r.trapped else none
/-- Whether the outstanding accesses of a block go on: while its warps are gated, in a handler, stopped or frozen too (R333, R342, R346,
R364), but not before the accesses of a restore (R351). -/
def parkLet (s : State) (b : Block) : Bool := b.core.isSome && !s.dev.tripped && !masterFrozen s (.core (coreNo b)) && b.started

/-- What an L-issue of a split does, where its quadrant chooses it: a parked memory instruction moves on without a slot, and once it has
finished its split goes on; else a breakpoint, an LNEXT that waits, or the word at its LPC, in one of its quadrant's two L slots of the
clock. -/
def tryL (s : State) (bu wi k : Nat) : Host.Outcome State Fault Refusal :=
  match getBlock s bu, getWarp s bu wi with
  | some b, some w =>
    let c := coreNo b
    let x := getCore s c
    match parkedReq w k with
    | some r => .next (if parkLet s b then reqAdvance s bu wi r.id (mayIssue s b w && parkedLet s b w k && !trapsFirst w && !asking w) else s)
    | none =>
      if ¬ mayIssue s b w ∨ w.handler ∨ w.pending.isSome ∨ trapsFirst w then .next (stepHolds s b w true k)
      else match stepOver w, getSplit w k with
      | some j, _ => .next (stepTrap s bu wi true j (splitLanes w j))
      | none, none => .next s
      | none, some p =>
        if ¬ streamLet s b w true k then .next s
        else if p.wait = .park then .next (if w.reqs.any (·.split == k) then s else setWarp s bu (advanceL w k))
        else if heldL w k ∨ 2 ≤ x.lUsed.get 0 (quadOf w) ∨ x.cyc < p.nextCyc then .next (stepHolds s b w true k)
        else match if (getCourse s (courseOf c)).stopped then none else ibpOf s c b w (some k) with
        | some n => .next (ibpStop s c n b w (some k))
        | none =>
          let a := firstAcquire s b w
          let w := a.2
          let s := { a.1 with sel := { block := bu, warp := wi, split := k, lane := true } }
          if p.wait = .lnext then runL s b w k p p.word (.ok (.lnext bareLF))
          else
            let va := if p.rep.isSome then p.lpc + 12 else p.lpc
            match p.wait with
            | .run | .fetch _ _ _ =>
              (match p.wait with
               | .fetch v g _ =>
                 if refusedPage x.noPage b.pasid (g % 2 ^ 57)
                 then (let t := trapL (forgetPage s c b.pasid (g % 2 ^ 57)) b w .page 0 (BitVec.ofNat 64 v) 0
                       .next (if asking w ∧ trapped t bu wi w then s else stepMark t b w true k (trapped t bu wi w)))
                 else (match fetchL s b w k p va with
                   | .ok y => runL s b w k p y (decodeSplit p y)
                   | .error t => .next (if asking w ∧ trapped t bu wi w then s else stepMark t b w true k (trapped t bu wi w)))
               | _ => (match fetchL s b w k p va with
                   | .ok y => runL s b w k p y (decodeSplit p y)
                   | .error t => .next (if asking w ∧ trapped t bu wi w then s else stepMark t b w true k (trapped t bu wi w))))
            | _ => runL s b w k p p.word (decodeSplit p p.word)
  | _, _ => .next s

/-! ### The choice of R331 and the order of R339 -/

/-- What the issue of a stream does where it is chosen. -/
def attempt (s : State) (e : Stream) : Host.Outcome State Fault Refusal := if e.2.2 = 4 then tryS s e.1 e.2.1 else tryL s e.1 e.2.1 e.2.2
/-- The streams on a core. -/
def streamsOn (s : State) (c : Nat) : List Stream :=
  (blocksOn s c).flatMap fun b => (liveWarps b).flatMap fun w => (b.uid, w.idx, 4) :: (liveSplits w).map fun e => (b.uid, w.idx, e.1)
/-- Slots of a kind that a quadrant has used in the clock. -/
def slotsUsed (x : Core) (lane : Bool) (q : Nat) : Nat := if lane then x.lUsed.get 0 q else x.sUsed.get 0 q
/-- Whether the next instruction of a stream on core `c` can issue now. -/
def canIssue (s : State) (c : Nat) (e : Stream) : Bool :=
  let n := fun (s : State) => slotsUsed (getCore s c) (e.2.2 != 4) (e.2.1 % 4)
  match attempt s e with | .next t => n s != n t | _ => false
/-- Whether a slot is a stream's: no candidate goes before it (R331). -/
def chosen (s : State) (c : Nat) (e : Stream) : Bool :=
  !(streamsOn s c).any fun d => aheadOf s c d e && canIssue s c d
/-- Whether an attempt of a warp's stream ended in a synchronous trap, or in the fatal fault that stands for one. -/
def raises (s : State) (e : Stream) : Bool :=
  match getBlock s e.1, getWarp s e.1 e.2.1, attempt s e with
  | some b, some w, .next t =>
    !(e.2.2 == 4 && (w.pending.isSome || (heldNext w).isSome || (unwindNext w).isSome || wtimDue w))
    && (trapped t e.1 e.2.1 w || (!b.frozen && (getBlock t e.1).any (·.frozen)))
  | _, _, _ => false
/-- When the instruction of a stream issued, by its warp's resident clocks, and its place among those of one clock (R339). -/
def trapOrder (w : Warp) (k : Nat) : Nat × Nat :=
  if k = 4 then (sStamp w, 0) else (((parkedReq w k).map (·.clk)).getD w.wtim, k + 1)
/-- Whether another stream of the warp traps first (R339): its instruction issued earlier, or it comes first in the clock. -/
def yields (s : State) (e : Stream) : Bool :=
  (getWarp s e.1 e.2.1).any fun w => (4 :: (liveSplits w).map Prod.fst).any fun k =>
    k != e.2.2 && rrLess (trapOrder w k) (trapOrder w e.2.2) && raises s (e.1, e.2.1, k)

/-- Whether the attempt of a stream is one of an instruction that would issue now: it takes a slot, or its issue checks trap, or stop the
course, in the cycle in which it would (R59, R337). The traps of an instruction that has issued are not. -/
def wantsSlot (s : State) (c : Nat) (e : Stream) : Bool :=
  let issues := (getWarp s e.1 e.2.1).any fun w => if e.2.2 = 4 then !sIssued w else (parkedReq w e.2.2).isNone
  let stops := match attempt s e with | .next t => !(getCourse s (courseOf c)).stopped && (getCourse t (courseOf c)).stopped | _ => false
  canIssue s c e || (issues && (raises s e || stops))
/-- THE ISSUE of a stream, S or L: an attempt of an instruction that would issue is made only where the quadrant chooses it, and one that
traps only where no other stream of its warp traps first. -/
def issueStream (s : State) (e : Stream) : Host.Outcome State Fault Refusal :=
  match getBlock s e.1 with
  | none => .next s
  | some b =>
    let c := coreNo b
    if wantsSlot s c e && !chosen s c e then .next s
    else if raises s e && yields s e then .next s
    else match attempt s e with
      | .next t => .next (if canIssue s c e then won t c e else t)
      | o => o
def issueS (s : State) (bu wi : Nat) : Host.Outcome State Fault Refusal := issueStream s (bu, wi, 4)
def issueSplit (s : State) (bu wi k : Nat) : Host.Outcome State Fault Refusal := if k < 4 then issueStream s (bu, wi, k) else .next s

/-! ### Time -/

/-- The ages at the start of a clock, the model's sample of who can issue (assumption 93): a stream
keeps the clock since which its instruction can issue; one that cannot has none (R331). -/
def newAges (s : State) (c : Nat) : State :=
  let es := (streamsOn s c).filter fun e => wantsSlot s c e
  modCore s c fun x => { x with ages := es.foldl (fun a e => a.set 0 (ageKey e) (ageOf s c e)) SMap.empty
                                ageAt := es.foldl (fun a e => a.set 0 (ageKey e) (instrAt s e)) SMap.empty }

/-- The results of a core that are due, oldest first: by landing clock, then by issue (R57, R58). -/
def dueFlights (x : Core) : List Flight :=
  sortBy (fun a b => decide (a.due < b.due) || (a.due == b.due && decide (a.id < b.id))) (x.flight.filter fun t => !t.far && t.due ≤ x.cyc)
/-- Lands them; a fold waits for the older folds of its K register (R239). -/
def landDue (s : State) (c : Nat) : State :=
  (dueFlights (getCore s c)).foldl (fun s t => if foldBlocked (getCore s c) t then s else landFlight s c t) s
/-- A warp's resident clocks (R353): a warp in a debug stop counts only while it is stepped (R366, R370). -/
def tickWarp (s : State) (b : Block) (w : Warp) : Warp :=
  let steps := (getCourse s (courseOf (coreNo b))).stepping && match (getCourse s (courseOf (coreNo b))).step with
    | some (c, slot, _, _) => b.core == some c && 12 * quadOf w + w.slot == slot
    | none => false
  if w.dbg.stopped && !steps then w else { w with wtim := w.wtim + 1 }
/-- The charge of a resident block to its grid's budget (R324, R366). -/
def chargeBudget (s : State) (b : Block) : State :=
  if b.frozen || b.exited || b.saving || (liveWarps b).all (fun w => w.dbg.stopped) then s
  else modGridOf s b fun g => if g.failed || g.budg = BitVec.allOnes 64 || g.budg = 0 then g else { g with budg := g.budg - 1, exhAt := if g.budg = 1 then s.gtime else g.exhAt }
/-- ONE CLOCK of a core: the releases that the clock before still owes, then a new clock. -/
def clockCore (s : State) (c : Nat) : State :=
  if s.dev.tripped then s else
  let s := (List.range 4).foldl (fun s q => releaseIn s c q) s
  let s := modCore s c fun x =>
    let cyc := x.cyc + 1
    { x with cyc := cyc, clkAt := s.gtime, freed := SMap.empty, sUsed := SMap.empty, lUsed := SMap.empty, lHold := ⟨x.lHold.cells.filter fun e => cyc < e.2⟩ }
  let s := landDue s c
  let s := (blocksOn s c).foldl (fun s b =>
    chargeBudget (modBlock s b.uid fun x => { x with warps := ⟨x.warps.cells.map fun e => (e.1, e.2.map (tickWarp s b))⟩ }) b) s
  let co := courseOf c
  let s := if c % 4 = 0 ∧ (getCourse s co).pwra < 0 then escalate (modCourse s co fun x => { x with deficit := x.deficit + 1 }) co else s
  let s := match (getCore s c).stopDue with
    | some t => if t ≤ (getCore s c).cyc then stopCore s c else s
    | none => s
  newAges (applyFreq s c) c
/-- ONE NANOSECOND of the span's count (R23): before it passes, the samples it owes (R372) and the end of a lease (R382); then the refill it
brings (R378), records of keystone that can be written, and frozen blocks that nothing keeps any more (R354). -/
def nanoTick (s : State) : State :=
  let s := leaseEnds (takeSamples s)
  releaseFrozen (flushAll (refill { s with gtime := s.gtime + 1 }))

/-! ### A program from outside -/

/-- Where `placeWord` puts code: a multiple of 12 and of 4, in the first page of an image at base 0x30000 (R155). -/
def codeAt : Nat := 0x30000
/-- The block that `placeWord` places: one warp, in user mode, its S-stream and its one split at the code. -/
def codeBlock (u : Nat) : Block :=
  let p : Split := { lpc := BitVec.ofNat 64 codeAt, mask := BitVec.allOnes 64 }
  let w : Warp := { spc := BitVec.ofNat 64 codeAt, splits := SMap.empty.set none 0 (some p) }
  { uid := u, core := some 0, kd := { lbase := BitVec.ofNat 64 codeAt }, warps := SMap.empty.set none 0 (some w) }
/-- The page that maps the code. -/
def codePage : Page := { pasid := 0, vbase := codeAt, size := 4096, host := false, pbase := codeAt, r := true, w := true, x := true }
/-- A state in which a block of one warp is placed on core 0 with bytes of code in device memory where its S-stream, or its split, issues
next. -/
def placeWord (s : State) (lane : Bool) (bs : List Byte) : State :=
  let u := s.nextUid
  let s := { s with nextUid := u + 1, mem := Memory.writeBytes s.mem codeAt bs, agenda := [if lane then .lIssue u 0 0 else .sIssue u 0] }
  let s := modDev s fun d => { d with tripped := false, frozen := d.frozen.filter fun m => m != .core 0 }
  let s := modCore s 0 fun x => { x with tlb := codePage :: x.tlb, sUsed := SMap.empty, lUsed := SMap.empty, lHold := SMap.empty }
  setBlock s (codeBlock u)

/-! ### The agenda -/

/-- What an agent outside the device writes: host memory or a peer's memory. -/
def outsideWrite (s : State) (l : GLoc) (v : Byte) : State := match l with | .dev _ => s | l => gWrite s l v
/-- Whether a copy engine can move an element (R403). -/
def copyRuns (s : State) (c : Nat) : Bool := !s.dev.tripped && !masterFrozen s (.copyEngine c) && !masterFrozen s (.core c)

/-- Does one entry of the agenda. -/
def runMove (m : Move) (s : State) : Host.Outcome State Fault Refusal :=
  match m with
  | .sIssue b w => issueS s b w
  | .lIssue b w k => issueSplit s b w k
  | .event i => if (encode i).isEmpty then exec i s else .next s
  | .clock c => .next (if c < 32 then clockCore s c else s)
  | .nano => .next (nanoTick s)
  | .stopReach c => .next (stopCore s c)
  | .dropL1 c line => .next (dropL1Line s c line)
  | .dropRdc p line => .next (modPier s p fun x => { x with rdc := x.rdc.set none line none })
  | .dropL2 line => .next (dropL2 s line)
  | .copyElem c k e n => .next (if copyRuns s c then copyElement s c k e n else s)
  | .ideStream b => .next (modDev s fun d => { d with outside := b })
  | .hostVia b => .next (modDev s fun d => { d with viaPf := b })
  | .outside l v => .next (outsideWrite s l v)

end Sys2Proof.Machine
end

