-- ==== Sys2Proof/Machine/Step.lean ====
section
/-! DEFINITION. The step: the head of the agenda acts; with an empty agenda time passes. -/

namespace Sys2Proof.Machine

/-- One step. Which agent acts next, and every input, is the agenda's (assumption 1): the device acts one agent at a time. -/
def step (s : State) : Host.Outcome State Fault Refusal :=
  match s.agenda with
  | [] => .next (nanoTick s)
  | m :: t => runMove m { s with agenda := t }

/-- `s` with an instruction in device memory at the address where a warp, placed for it on core 0, issues next: an L-word at its split's
LPC when the row has 96 bits, else an S-word or pair at its SPC. It stands for the placement of a block whose code is loaded
(assumption 2). -/
def State.withFetchWord (s : State) (nbits w : Nat) : State := placeWord s (nbits == 96) (leBytes 12 w)

end Sys2Proof.Machine
end

