-- ==== Sys2Proof/Safety.lean ====
section
/-! DEFINITION. What a safe step and a sound state are, and the words that statements about steps are written in: what is left
alone, and what taking an exception does. -/

namespace Sys2Proof

open Sys2Proof.Machine

/-- A step that leads on: neither a fault nor a refusal. -/
def Goes (o : Host.Outcome State Fault Refusal) : Prop := ∃ t, o = .next t

/-- A location that exists: a peer's number has six bits (R88). -/
def realLoc : GLoc → Bool
  | .peer d _ => decide (d < 64)
  | _ => true

/-- The memories hold their canonical form: equal memories are equal data (R95). -/
def MemSound (s : State) : Prop := Memory.wf s.mem = true ∧ Memory.wf s.hostMem = true ∧ Memory.wf s.peerMem = true

/-- A state reached by steps from another. -/
inductive Reaches : State → State → Prop where
  | here (s : State) : Reaches s s
  | there {s t u : State} (h : step s = .next t) (k : Reaches t u) : Reaches s u

namespace Claims

/-! ### What a statement says is left alone -/

/-- Every byte of memory reads as before, in device, host and peer memory. -/
def SameMemory (s t : State) : Prop := ∀ l : GLoc, gRead t l = gRead s l

/-- Every byte of memory but `n` from `l` on reads as before. -/
def MemoryBut (s t : State) (l : GLoc) (n : Nat) : Prop :=
  ∀ x : GLoc, realLoc x = true → (∀ i, i < n → x ≠ gAdd l i) → gRead t x = gRead s x

/-- The `n` bytes from `o` bytes past `l` hold the number `v`, least significant byte first (R2). -/
def Holds (t : State) (l : GLoc) (o n v : Nat) : Prop := ∀ i, i < n → (gRead t (gAdd l (o + i))).toNat = v / 256 ^ i % 256

/-- Every other block, every other warp of block `u`, and every other field of the block are as before. -/
structure OtherWarps (s t : State) (u i : Nat) : Prop where
  others : ∀ v, v ≠ u → getBlock t v = getBlock s v
  warps : ∀ j, j ≠ i → getWarp t u j = getWarp s u j
  block : ∀ b c, getBlock s u = some b → getBlock t u = some c → c = { b with warps := c.warps }

/-- Only the warp `i` of block `u` may differ between `s` and `t`: every other field of the machine is as before, so every row, memory
byte, operation and register of the device. -/
structure OnlyWarp (s t : State) (u i : Nat) : Prop extends OtherWarps s t u i where
  rest : t = { s with blocks := t.blocks }
  memory : SameMemory s t

/-! ### S-instructions -/

/-- The S registers of `w'` are those of `w` with S[d] the value `v`; S0 reads zero, and a write to it is discarded. -/
def SWrites (w w' : Warp) (d : SReg) (v : DWord) : Prop := ∀ r : SReg, sreg w' r = if r = 0 then 0 else if r = d then v else sreg w r

/-- Of the warp only S registers and the S-stream's own point, wait and timing may differ. -/
def SPart (w w' : Warp) : Prop :=
  w' = { w with sregs := w'.sregs, badS := w'.badS, spc := w'.spc, swait := w'.swait, sAvail := w'.sAvail, sNext := w'.sNext }

/-- The instruction `i` of the selected warp completes: it answers a next state in which S[d] is `v`, the S-stream stands at
`pc`, and nothing else has changed. -/
def SCompletes (i : Instr) (s : State) (b : Block) (w : Warp) (d : SReg) (v : DWord) (pc : DWord) : Prop :=
  ∃ t w', exec i s = .next t ∧ getWarp t b.uid w.idx = some w' ∧ SWrites w w' d v ∧ w'.spc = pc ∧ w'.swait = .run
    ∧ SPart w w' ∧ OnlyWarp s t b.uid w.idx

/-- The instruction waits with no effect: the warp but for its wait, and the machine but for the note that nothing issued, are as
before. -/
def SWaits (i : Instr) (s : State) (b : Block) (w : Warp) (why : SWait) : Prop :=
  exec i s = .next { setWarp s b.uid { w with swait := why } with sel := { s.sel with issued := false } }

/-! ### Taking an exception (R300 to R304) -/

/-- The warp's save slot is at an address that exists and translates, writable, to a location. -/
def SlotAt (s : State) (b : Block) (w : Warp) (l : GLoc) : Prop := devXlat s (coreNo b) b.part b.pasid w.tframe true = some (.at_ l)

/-- A synchronous trap's frame in memory (R302): the fields that the cause gives, and what the warp `w` was. `k` and `p` are the split
that SPLIT, LPC and REPC describe. -/
structure FrameIs (t : State) (l : GLoc) (w : Warp) (cause subc : Nat) (stream : Bool) (k : Nat) (p : Split) (faddr mask prod : DWord)
    (insn : Nat) : Prop where
  cause : Holds t l 0x00 2 cause
  subc : Holds t l 0x02 2 subc
  stream : Holds t l 0x04 1 stream.toNat
  split : Holds t l 0x05 1 k
  repc : Holds t l 0x06 1 (match p.rep with | some r => r.next | none => p.repStart)
  flags : Holds t l 0x07 1 0
  faddr : Holds t l 0x08 8 faddr.toNat
  mask : Holds t l 0x10 8 mask.toNat
  insn : Holds t l 0x18 12 insn
  sfuout : Holds t l 0x24 4 w.sfu.length
  spc : Holds t l 0x28 8 w.spc.toNat
  lpc : Holds t l 0x30 8 p.lpc.toNat
  prod : Holds t l 0x38 8 prod.toNat
  save : ∀ i, i < 16 → Holds t l (0x40 + 8 * i) 8 (sreg w (BitVec.ofNat 6 (48 + i))).toNat
  s1save : Holds t l 0xC0 8 (sreg w 1).toNat
  zero : Holds t l 0xC8 56 0

/-- The warp enters its handler (R304): S1 := TFRAME, handler mode, SPC := TVEC; every other register, the map, the queues, the splits,
K, the predicates and the control registers are as before. -/
def Entered (w w' : Warp) : Prop :=
  w'.handler = true ∧ w'.spc = w.tvec ∧ w'.swait = .run ∧ (∀ r : SReg, sreg w' r = if r = 1 then w.tframe else sreg w r)
  ∧ w' = { w with sregs := w'.sregs, badS := w'.badS, handler := true, spc := w'.spc, swait := .run, pending := none, entry := w'.entry, sstep := none,
                  sb := w'.sb }

/-- The machine after a trap of the warp: the warp is in its handler; of memory only the first `n` bytes of the save slot, of the
caches only what those bytes touch, and no register, row or result of the device, differ. -/
structure Handles (s t : State) (b : Block) (w : Warp) (l : GLoc) (n : Nat) : Prop where
  warp : ∃ w', getWarp t b.uid w.idx = some w' ∧ Entered w w'
  memory : MemoryBut s t l n
  others : ∀ v, v ≠ b.uid → getBlock t v = getBlock s v
  warps : ∀ j, j ≠ w.idx → getWarp t b.uid j = getWarp s b.uid j
  block : ∀ c, getBlock t b.uid = some c → c = { b with warps := c.warps, bars := c.bars }
  cores : ∀ c, getCore t c = { getCore s c with l1 := (getCore t c).l1 }
  piers : ∀ p, getPier t p = { getPier s p with rdc := (getPier t p).rdc }
  bars : (∀ c m, w.swait ≠ .barIn c m) → t.gangs = s.gangs ∧ ∀ c, getBlock t b.uid = some c → c.bars = b.bars
  rest : t = { s with blocks := t.blocks, cores := t.cores, piers := t.piers, gangs := t.gangs, transit := t.transit, mem := t.mem,
                      hostMem := t.hostMem, peerMem := t.peerMem, memPois := t.memPois, l2Bad := t.l2Bad, sel := t.sel }

/-- In user mode, in a block that has not failed, with a handler and its slot translated, the S-instruction traps: the frame is written and the warp enters its handler. The
frame's split is the live split with the lowest number. -/
def STraps (i : Instr) (s : State) (b : Block) (w : Warp) (cause subc : Nat) (faddr : DWord) : Prop :=
  ∀ (l : GLoc) (k : Nat) (p : Split), b.frozen = false → w.handler = false → w.tvec ≠ 0 → SlotAt s b w l → (liveSplits w).head? = some (k, p) →
    ∃ t, exec i s = .next t ∧ Handles s t b w l 256 ∧ FrameIs t l w cause subc false k p faddr 0 0 s.sel.word

/-- The same for an L-instruction of split `p` that finds `mask` and, for HAZARD, a producer. -/
def LTraps (i : Instr) (s : State) (b : Block) (w : Warp) (p : Split) (cause subc : Nat) (faddr mask prod : DWord) : Prop :=
  ∀ l : GLoc, b.frozen = false → w.handler = false → w.tvec ≠ 0 → SlotAt s b w l →
    ∃ t, exec i s = .next t ∧ Handles s t b w l 256 ∧ FrameIs t l w cause subc true s.sel.split p faddr mask prod s.sel.word

/-- The block has a fatal fault (R301, R346): it is frozen, its grid has failed, and its queue stands in STATE 2 with reason 0x0A; memory, and
every other warp and block, are as before. -/
structure Fatal (s t : State) (b : Block) : Prop where
  frozen : ∃ c, getBlock t b.uid = some c ∧ c = { b with warps := c.warps, frozen := true }
  warps : ∀ j w, getWarp s b.uid j = some w → ∃ w', getWarp t b.uid j = some w' ∧ w' = { w with swait := w'.swait }
  others : ∀ v, v ≠ b.uid → getBlock t v = getBlock s v
  grid : ∀ g, gridOf s b = some g → gridOf t b = some { g with failed := true }
  queue : (getQueue t b.part b.queue).state = 2 ∧ (getQueue t b.part b.queue).err = 0x0A
  memory : SameMemory s t

end Claims

end Sys2Proof
end

