-- ==== Sys2Proof/Certificates/Slice0/Obligations.lean ====
section
/-! DEFINITION. The statements about the model, and the words they are written in. -/

open Sys2Proof Sys2Proof.Machine

namespace Sys2Proof.Claims

/-! ### The scalar functions (R163), as relations between numbers -/

/-- The value `v` is what salu's function gives for `a` and `b`. -/
def SaluIs (f : SaluOp) (a b v : DWord) : Prop :=
  match f with
  | .add => v.toNat = (a.toNat + b.toNat) % 2 ^ 64
  | .sub => (v.toNat + b.toNat) % 2 ^ 64 = a.toNat
  | .and => ∀ k, v.getLsbD k = (a.getLsbD k && b.getLsbD k)
  | .or => ∀ k, v.getLsbD k = (a.getLsbD k || b.getLsbD k)
  | .xor => ∀ k, v.getLsbD k = (a.getLsbD k != b.getLsbD k)
  | .shl => v.toNat = if 64 ≤ b.toNat then 0 else a.toNat * 2 ^ b.toNat % 2 ^ 64
  | .shr => v.toNat = if 64 ≤ b.toNat then 0 else a.toNat / 2 ^ b.toNat
  | .sra => v.toInt = if 64 ≤ b.toNat then (if a.toInt < 0 then -1 else 0) else a.toInt / (2 ^ b.toNat : Int)
  | .mul => v.toNat = a.toNat * b.toNat % 2 ^ 64
  | .mulh => v.toInt = a.toInt * b.toInt / (2 ^ 64 : Int)
  | .mulhw => v.toNat = a.toNat * b.toNat / 2 ^ 64
  | .min => v.toInt = min a.toInt b.toInt
  | .max => v.toInt = max a.toInt b.toInt
  | .minw => v.toNat = min a.toNat b.toNat
  | .maxw => v.toNat = max a.toNat b.toNat
  | .slt => v.toNat = if a.toInt < b.toInt then 1 else 0
  | .sltw => v.toNat = if a.toNat < b.toNat then 1 else 0
  | .seq => v.toNat = if a = b then 1 else 0
  | .clz => v.toNat ≤ 64 ∧ a.toNat < 2 ^ (64 - v.toNat) ∧ (v.toNat < 64 → 2 ^ (63 - v.toNat) ≤ a.toNat)
  | .popc => v.toNat = ((List.range 64).filter fun k => a.getLsbD k).length

/-- The condition of a compare branch (R166), `none` for another instruction; with its operands and offset. -/
def branchOf : Instr → Option (SReg × SReg × BitVec 14 × (DWord → DWord → Prop))
  | .sbeq a b o => some (a, b, o, fun x y => x = y)
  | .sbne a b o => some (a, b, o, fun x y => x ≠ y)
  | .sblt a b o => some (a, b, o, fun x y => x.toInt < y.toInt)
  | .sbge a b o => some (a, b, o, fun x y => x.toInt ≥ y.toInt)
  | .sbltw a b o => some (a, b, o, fun x y => x.toNat < y.toNat)
  | .sbgew a b o => some (a, b, o, fun x y => x.toNat ≥ y.toNat)
  | _ => none

/-! ### The S-stream's memory accesses -/

/-- A waiting access that no answer has come for: no peer asked, no page refused. -/
def Unanswered (w : Warp) : Prop := (∀ v p, w.swait ≠ .got v p) ∧ (∀ k, w.swait ≠ .peer k) ∧ ∀ v p, w.swait ≠ .refused v p

/-- The copy of a line that a core reads: its L1's, or for a line homed at another pier its pier's RDC's (R96, R100). -/
def copyOf (s : State) (c pa : Nat) : Option CLine :=
  match (getCore s c).l1.get none (pa / 128) with
  | some x => some x
  | none => if homePier pa = pierOf c then none else (getPier s (pierOf c)).rdc.get none (pa / 128)
/-- The byte that a load of the warp sees on core `c` (R96, R99 to R101, R105): that of the youngest store buffer entry of the warp's older
stores, else the cached copy's, else memory's. -/
def seenByte (s : State) (c : Nat) (w : Warp) (l : GLoc) : Byte :=
  match sbByte (olderEnts w s.serial) l, l with
  | some x, _ => x
  | none, .dev pa => match copyOf s c pa with | some x => x.data.getD (pa % 128) 0 | none => gRead s l
  | none, _ => gRead s l
/-- Whether the granule that holds it is poisoned where the load reads it (R385). -/
def seenPois (s : State) (c : Nat) (l : GLoc) : Bool :=
  match l with
  | .dev pa => match copyOf s c pa with | some x => x.pois.getLsbD (pa % 128 / 64) | none => gPois s l
  | _ => false

/-- No watchpoint of the device watches any of `n` bytes of an access of kind `k` (R359). -/
def NoWatch (s : State) (l : ALoc) (n k : Nat) : Prop := ∀ e ∈ s.cores.cells, ∀ m, m < 4 → wpMatch e.2.dbg m l n k = false

/-- A load of the warp finds its page (R169, R170): `n` aligned bytes at `l`, which no older lane of the warp has still to be sent to (R259). -/
structure LoadNow (s : State) (b : Block) (w : Warp) (ea : DWord) (l : GLoc) (n : Nat) : Prop where
  fresh : Unanswered w
  aligned : ea.toNat % n = 0
  layout : addrOk s b.part ea = true
  page : xlat (getCore s (coreNo b)).tlb b.pasid ea false false = .at_ l
  older : olderReq w s.serial (.g l) n = false
/-- The request of such a load that the store buffer does not answer: its one lane with the bytes that the buffer forwards (R105), the regions and
the count of its issue (R312, R393), and the register that its value goes to. -/
def loadOp (s : State) (b : Block) (w : Warp) (ea : DWord) (l : GLoc) (n : Nat) (d : Option Nat) : Op :=
  { id := s.serial, cls := .ld, block := b.uid, warp := w.idx, core := coreNo b, kind := .load false false false, bytes := n,
    todo := [{ lane := 0, ea := ea.toNat, loc := some (.g l), fwd := (List.range n).map fun i => sbByte (olderEnts w s.serial) (gAdd l i),
               bPois := forwardPois w s.serial l n, sent := s.serial }],
    counted := false, depth := w.regions.length, regionCount := (w.regions.head?.map fun r => r.count).getD 0, issuedAt := w.issues + 1, ord := s.serial,
    pasid := b.pasid, sdest := d }

/-- L2 slices may have dropped lines to make room: a scope record, and the mark that an error arose in the L2, may be gone, and none is
new (R20, R117); a choice of what to drop has used free values. -/
def MayEvict (s t : State) : Prop :=
  (∀ x, t.scopes.get none x = s.scopes.get none x ∨ t.scopes.get none x = none) ∧ ∀ g, t.l2Bad.get false g = true → s.l2Bad.get false g = true

/-- What one atomic operation makes of an `e`-bit location (R103, R172): `b` is the operand, `c` the value that cas compares. -/
def AtomIs (op : AtomOp) (e old b c new : Nat) : Prop :=
  match op with
  | .add => new = (old + b) % 2 ^ e
  | .min => new = if (BitVec.ofNat e old).toInt ≤ (BitVec.ofNat e b).toInt then old else b
  | .max => new = if (BitVec.ofNat e old).toInt ≤ (BitVec.ofNat e b).toInt then b else old
  | .minw => new = min old b
  | .maxw => new = max old b
  | .and => ∀ k, new.testBit k = (old.testBit k && b.testBit k)
  | .or => ∀ k, new.testBit k = (old.testBit k || b.testBit k)
  | .xor => ∀ k, new.testBit k = (old.testBit k ^^ b.testBit k)
  | .xchg => new = b
  | .cas => new = if old = c then b else old
  | .fadd => new = add32 old b

/-- An S-stream atomic of the warp performs now at a location (R111, R112, R172, R173). -/
structure AtomicNow (s : State) (b : Block) (w : Warp) (ea : DWord) (l : GLoc) (n : Nat) : Prop where
  fresh : Unanswered w
  aligned : ea.toNat % n = 0
  layout : addrOk s b.part ea = true
  page : xlat (getCore s (coreNo b)).tlb b.pasid ea false false = .at_ l ∧ xlat (getCore s (coreNo b)).tlb b.pasid ea true false = .at_ l
  own : sbHolds w s.serial l = false
  path : pathBusy s (coreNo b) s.serial l = false
  drains : drainHolds s b.uid l = false
  older : olderOp s b.uid w.idx s.serial (.g l) n = false ∧ olderReq w s.serial (.g l) n = false

/-- The S-instructions that handler mode excludes (R301). -/
def userOnly : Instr → Bool
  | .sysExit | .sysYield | .pushq _ _ | .popq _ _ | .lgo _ | .lgor _ | .bar _ _ _ _ | .tcfg _ _ | .tld _ _ _ _ | .tst _ _ _ _ | .mma _ _ _ _
  | .aclr _ | .drain _ _ _ _ | .drld _ _ => true
  | _ => false

/-- What a csrr of a CSR gives (R7, R26, R44, R45, R75, R84, R108, R110, R135, R319, R373, R374, R377), `none` for GTIME and for an absent number. -/
def csrIs (s : State) (b : Block) (w : Warp) (n : Nat) : Option DWord :=
  let c := coreNo b
  let p := getPier s (c / 8)
  let nat := fun (x : Nat) => some (BitVec.ofNat 64 x)
  let ctx := (s.ctxs.find? fun x => x.part == b.part && x.pasid == b.pasid).getD { part := b.part, pasid := b.pasid }
  if n = 0x000 then nat w.width
  else if n = 0x001 then nat w.lmode.toNat
  else if n = 0x002 then nat w.partn.toNat
  else if n = 0x003 then nat w.fflags.toNat
  else if n = 0x010 then some w.tvec
  else if n = 0x011 then some w.tframe
  else if n = 0x012 then nat w.regions.length
  else if n = 0x013 then nat w.restarts.toNat
  else if n = 0x014 then nat w.rlimit.toNat
  else if n = 0x020 then nat w.wtim
  else if n = 0x021 then some w.wtimCmp
  else if n = 0x023 then nat (getCore s c).cyc
  else if n = 0x030 then nat b.x
  else if n = 0x031 then nat b.y
  else if n = 0x032 then nat b.z
  else if n = 0x034 then nat w.idx
  else if n = 0x035 then nat c
  else if n = 0x036 then nat (c / 4)
  else if n = 0x037 then nat (c / 8)
  else if n = 0x040 then nat w.batch.toNat
  else if n = 0x041 then nat w.ldq.length
  else if n = 0x042 then nat w.stq.length
  else if n = 0x043 then nat w.cpq.length
  else if n = 0x044 then nat w.tlq.length
  else if n = 0x045 then nat b.accSat.toNat
  else if n = 0x050 then some ctx.errqb
  else if n = 0x051 then some ctx.errqh
  else if n = 0x060 then some (BitVec.ofInt 64 (getCourse s (c / 4)).pwra)
  else if n = 0x061 then some (BitVec.ofInt 64 (p.thp.get 1520 (physOf s c) - p.ctemp.get 0 (physOf s c)))
  else if n = 0x070 then some (match gridOf s b with | some g => g.lpb.deadline | none => 0)
  else if n = 0x071 then some (match gridOf s b with | some g => g.budg | none => 0)
  else if 0x100 ≤ n ∧ n < 0x120 then nat (p.vra.get 1000 (n - 0x100))
  else if 0x140 ≤ n ∧ n < 0x160 then nat (match p.mult.get 0 (n - 0x140) with | 0 => 45 | 1 => 90 | _ => 180)
  else if 0x180 ≤ n ∧ n < 0x1A0 then nat (p.mult.get 0 (n - 0x180) * 65536 + (p.vtemp.get 0 (n - 0x180) % 65536).toNat)
  else none

/-- Whether a csrr or csrw of LMODE, PARTN or FFLAGS need not wait (R46, R76, R345). -/
def settled (s : State) (b : Block) (w : Warp) (n : Nat) : Bool :=
  if n = 3 then lSettled s b w true else if n = 1 ∨ n = 2 then lSettled s b w false else true

/-- The CSRs that a csrw changes nothing of: the read-only ones (R4, R135). -/
def csrReadOnly (n : Nat) : Bool :=
  n == 0x12 || n == 0x20 || (0x22 ≤ n && n ≤ 0x37) || (0x40 ≤ n && n ≤ 0x44) || (0x60 ≤ n && n ≤ 0x71) || 0x140 ≤ n

/-- The `n` bytes of a list from place `o` hold the number `v`, least significant byte first (R2). -/
def BytesAt (bs : List Byte) (o n v : Nat) : Prop := ∀ i, i < n → o + i < bs.length ∧ (bs.getD (o + i) 0).toNat = v / 256 ^ i % 256

/-- The error record that a chk of the warp makes has been written for its context (R389 to R392, R396, R398), or, where the queue is full or disabled, is kept in the
management log alone and sets OVF: the fields of R391, in a slot at the tail. Beside it only the caches differ. -/
structure Recorded (s t : State) (b : Block) (w : Warp) (type sev : Nat) (ka kb : DWord) : Prop where
  rest : t = { s with dev := t.dev, ctxs := t.ctxs, cores := t.cores, piers := t.piers, mem := t.mem, hostMem := t.hostMem, peerMem := t.peerMem, memPois := t.memPois,
                      l2Bad := t.l2Bad }
  log : t.dev = { s.dev with log := t.dev.log, logCnt := s.dev.logCnt + 1 }
  cores : ∀ c, getCore t c = { getCore s c with l1 := (getCore t c).l1 }
  piers : ∀ p, getPier t p = { getPier s p with rdc := (getPier t p).rdc }
  full : eqFull (getCtx s b.part b.pasid).errqb (getCtx s b.part b.pasid).errqh = true →
    SameMemory s t ∧ ∀ k, k < 64 → (getCtx t b.part b.pasid).errqh.getLsbD k = (k == 63 || (getCtx s b.part b.pasid).errqh.getLsbD k)
  written : eqFull (getCtx s b.part b.pasid).errqb (getCtx s b.part b.pasid).errqh = false → ∀ h q l, h = (getCtx s b.part b.pasid).errqh.toNat →
    q = (getCtx s b.part b.pasid).errqb.toNat →
    devXlat s (coreNo b) b.part b.pasid (BitVec.ofNat 64 (q / 4096 * 4096 + 64 * (h / 2 ^ 32 % 2 ^ 31 % 2 ^ (q % 16 + 6)))) true = some (.at_ l) →
      MemoryBut s t l 64
      ∧ (getCtx t b.part b.pasid).errqh.toNat = h / 2 ^ 63 * 2 ^ 63 + (h / 2 ^ 32 % 2 ^ 31 + 1) % 2 ^ 31 * 2 ^ 32 + h % 2 ^ 32
      ∧ Holds t l 0x00 1 type ∧ Holds t l 0x01 1 sev ∧ Holds t l 0x02 2 11 ∧ Holds t l 0x04 1 (coreNo b / 8) ∧ Holds t l 0x05 1 (coreNo b / 4) ∧ Holds t l 0x06 1 (coreNo b)
      ∧ Holds t l 0x07 1 w.idx ∧ Holds t l 0x08 8 (b.pasid % 2 ^ 20) ∧ Holds t l 0x10 8 ka.toNat ∧ Holds t l 0x18 8 kb.toNat ∧ Holds t l 0x20 4 w.spc.toNat
      ∧ Holds t l 0x24 4 0 ∧ Holds t l 0x28 8 (w.regions.length % 16 + (match w.regions with | [] => 0 | r :: _ => r.count) % 2 ^ 24 * 256)
      ∧ Holds t l 0x30 8 s.gtime ∧ Holds t l 0x38 8 s.sel.word
/-- Its slot needs no wait: the queue takes no record, or the slot translates. -/
def RecordGoes (s : State) (b : Block) : Prop :=
  eqFull (getCtx s b.part b.pasid).errqb (getCtx s b.part b.pasid).errqh = true
  ∨ ∃ h q l, h = (getCtx s b.part b.pasid).errqh.toNat ∧ q = (getCtx s b.part b.pasid).errqb.toNat
    ∧ devXlat s (coreNo b) b.part b.pasid (BitVec.ofNat 64 (q / 4096 * 4096 + 64 * (h / 2 ^ 32 % 2 ^ 31 % 2 ^ (q % 16 + 6)))) true = some (.at_ l)
/-- The streams of the warp start anew (R312, R315): its queues are empty, one split of every lane waits at LNEXT. -/
def Emptied (w u : Warp) : Prop :=
  u.swait = .run ∧ u.qs = SMap.empty ∧ u.bq = [] ∧ u.stack = [] ∧ liveSplits u = [(0, { mask := widthMask w, wait := .lnext, lpc := 0 })]
  ∧ u.map = w.map ∧ u.preds = w.preds

/-- The fields of a frame in the save slot, as the handler leaves them for eret to read (R302, R306). -/
structure SlotHolds (bs : List Byte) (spc lpc mask s1 : DWord) (repc flags : Byte) (sv : Nat → DWord) : Prop where
  spc : BytesAt bs 0x28 8 spc.toNat
  lpc : BytesAt bs 0x30 8 lpc.toNat
  repc : BytesAt bs 0x06 1 repc.toNat
  flags : BytesAt bs 0x07 1 flags.toNat
  mask : BytesAt bs 0x10 8 mask.toNat
  s1 : BytesAt bs 0xC0 8 s1.toNat
  save : ∀ i, i < 16 → BytesAt bs (0x40 + 8 * i) 8 (sv i).toNat

/-- Of a warp whose splits leave the orders of acq, give and take (R50, R240): other blocks and warps, and all else of the block and the cores,
are as before. -/
structure SplitsLeave (s t : State) (b : Block) (w : Warp) : Prop where
  others : ∀ v, v ≠ b.uid → getBlock t v = getBlock s v
  warps : ∀ j, j ≠ w.idx → getWarp t b.uid j = getWarp s b.uid j
  block : ∀ c, getBlock t b.uid = some c → c = { b with warps := c.warps, bankWait := c.bankWait }
  cores : ∀ c, getCore t c = { getCore s c with acqWait := (getCore t c).acqWait }

/-- The S-instruction hands a command to the engine of its core (R261 to R264): it stands last in arrival order, holding what it met, and the
warp goes on; nothing else changes. -/
def Accepts (i : Instr) (s : State) (b : Block) (w : Warp) (k : CmdKind) : Prop :=
  ∃ inject, exec i s = .next (setWarp { s with serial := s.serial + 1, cores := s.cores.set {} (coreNo b) { getCore s (coreNo b) with
      cmds := (getCore s (coreNo b)).cmds ++ [
        { id := s.serial, block := b.uid, warp := w.idx, batch := w.batch, kind := k, after := w.sst, inject := inject
          issuedAt := w.issues + 1, depth := w.regions.length, regionCount := (match w.regions with | r :: _ => r.count | [] => 0) }]
      engAt := ((getCore s (coreNo b)).cyc, w.idx % 4 * 64 + w.idx) } }
      b.uid { w with spc := w.spc + 4, swait := .run })

/-! ### The checks of the engine's commands -/

/-- Number `j` of a list of checks, each with the cause and SUBC of its trap, is the first that fails. -/
def FirstOf (ks : List (Prop × Nat × Nat)) (j : Nat) (k : Prop × Nat × Nat) : Prop := ks[j]? = some k ∧ k.1 ∧ ∀ i, i < j → ∀ q, ks[i]? = some q → ¬ q.1
/-- The `n` bits of a number from bit `lo` on. -/
def bitsOf (v lo n : Nat) : Nat := v / 2 ^ lo % 2 ^ n
/-- ROWS + 1, the bytes of a row and PL of a tile configuration (R267), and the elements of a row in a format. -/
def rowsIn (cfg : Word) : Nat := bitsOf cfg.toNat 4 7 + 1
def bytesIn (cfg : Word) : Nat := 16 * (bitsOf cfg.toNat 11 5 + 1)
def elemsIn (cfg : Word) (fmt : Nat) : Nat := 8 * bytesIn cfg / (if fmt = 15 then bitsOf cfg.toNat 19 3 + 1 else codeBits fmt)
/-- The combinations of R82. -/
def Combined (v : Nat) : Prop :=
  let a := bitsOf v 0 4
  let c := bitsOf v 4 4
  let float := [1, 2, 3, 4, 5, 6, 7, 8, 9, 10, 15]
  let mx := [3, 4, 5, 6, 7, 8]
  let int := [8, 9, 10, 11, 15]
  (bitsOf v 17 1 = 0 ∧ bitsOf v 18 1 = 0 ∧ (bitsOf v 8 2 = 0 ∨ bitsOf v 8 2 = 2) ∧ a ∈ float ∧ c ∈ float)
  ∨ (bitsOf v 17 1 = 0 ∧ bitsOf v 18 1 = 0 ∧ bitsOf v 8 2 = 1 ∧ a ∈ mx ∧ c ∈ mx)
  ∨ (bitsOf v 17 1 = 1 ∧ bitsOf v 8 2 = 0 ∧ a ∈ int ∧ c ∈ int)
/-- The checks of an mma in the order of R278, with the format word `v` (R275). -/
def mmaChecks (b : Block) (c ta tb v : Nat) (ca cb : Word) : List (Prop × Nat × Nat) :=
  let fa := bitsOf v 0 4
  let fb := bitsOf v 4 4
  let mode := bitsOf v 8 2
  let scale := if mode = 1 then elemsIn ca fa / 32 else 4
  [(bitsOf v 52 12 ≠ 0 ∨ bitsOf v 19 1 ≠ 0, 0x01, 0x108),
   (b.kd.tiles ≤ ta ∨ b.kd.tiles ≤ tb ∨ b.kd.accs ≤ c, 0x01, 0x103),
   (mode = 3 ∨ mode = 1 ∧ (elemsIn ca fa % 32 ≠ 0 ∨ elemsIn cb fb % 32 ≠ 0), 0x01, 0x106),
   (fa ≠ 15 ∧ bitsOf v 10 3 ≠ 0 ∨ fb ≠ 15 ∧ bitsOf v 13 3 ≠ 0 ∨ fa = 15 ∧ bitsOf ca.toNat 19 3 < bitsOf v 10 3 ∨ fb = 15 ∧ bitsOf cb.toNat 19 3 < bitsOf v 13 3
      ∨ bitsOf v 16 1 = 1 ∧ fa ≠ 15 ∧ fb ≠ 15, 0x01, 0x107),
   (¬ Combined v, 0x01, 0x105),
   (elemsIn ca fa ≠ elemsIn cb fb, 0x01, 0x104),
   ((mode = 1 ∨ mode = 2) ∧ scale ≠ 0 ∧ (b.kd.scratch < 64 * bitsOf v 20 16 + rowsIn ca * scale ∨ b.kd.scratch < 64 * bitsOf v 36 16 + rowsIn cb * scale), 0x05, 2)]

/-- The fields of a drain's descriptor (R284). -/
structure DescIs (bs : List Byte) (d : DDesc) : Prop where
  pbase : BytesAt bs 0x00 8 d.pbase ∧ d.pbase < 2 ^ 64
  ppitch : BytesAt bs 0x08 4 d.ppitch ∧ d.ppitch < 2 ^ 32
  pfmt : BytesAt bs 0x0C 1 d.pfmt ∧ d.pfmt < 256
  flags : BytesAt bs 0x0D 1 d.flags ∧ d.flags < 256
  spare : ∃ x y, BytesAt bs 0x0E 2 x ∧ x < 2 ^ 16 ∧ BytesAt bs 0x1C 4 y ∧ y < 2 ^ 32 ∧ d.spare = x + y
  sbase : BytesAt bs 0x10 8 d.sbase ∧ d.sbase < 2 ^ 64
  spitch : BytesAt bs 0x18 4 d.spitch ∧ d.spitch < 2 ^ 32
  rowt0 : BytesAt bs 0x20 8 d.rowt0 ∧ d.rowt0 < 2 ^ 64
  rowt1 : BytesAt bs 0x28 8 d.rowt1 ∧ d.rowt1 < 2 ^ 64
  colt0 : BytesAt bs 0x30 8 d.colt0 ∧ d.colt0 < 2 ^ 64
  rres : BytesAt bs 0x38 8 d.rres ∧ d.rres < 2 ^ 64
/-- A field of it with a reserved bit, space 3, or space 2 where it may not name a tile. -/
def badField (v : Nat) (tile : Prop) : Prop :=
  (v / 2 ^ 62 = 0 ∧ 2 ^ 57 ≤ v % 2 ^ 62) ∨ (v / 2 ^ 62 = 1 ∧ 2 ^ 22 ≤ v % 2 ^ 62) ∨ (v / 2 ^ 62 = 2 ∧ (¬ tile ∨ 16 ≤ v % 2 ^ 62)) ∨ 3 ≤ v / 2 ^ 62
/-- A tile that a drain cannot write. -/
def badTile (b : Block) (t : Nat) (cfg : Word) : Prop :=
  b.kd.tiles ≤ t ∨ bitsOf cfg.toNat 0 4 = 15 ∨ bitsOf cfg.toNat 0 4 = 14 ∨ rowsIn cfg ≠ 128 ∨ bytesIn cfg < 16 * codeBits (bitsOf cfg.toNat 0 4)
/-- The checks of a drain's descriptor with its program in the order of R286 (4 to 6); `cfg` gives the tile configurations that it meets. -/
def drainChecks (b : Block) (us : List Uop) (d : DDesc) (cfg : Nat → Word) : List (Prop × Nat × Nat) :=
  let holds := fun n => ∃ u ∈ us, u.op = n
  let stores := holds 0x13 ∨ holds 0x14
  let table := fun v => (∃ u ∈ us, u.op = 0x0D ∧ u.x = 0) ∧ v = d.rowt0 ∨ (∃ u ∈ us, u.op = 0x0D ∧ u.x = 1) ∧ v = d.rowt1 ∨ holds 0x0E ∧ v = d.colt0 ∨ holds 0x11 ∧ v = d.rres
  let width := codeBits d.pfmt
  let tile := d.pbase / 2 ^ 62 = 2
  [(d.spare ≠ 0 ∨ 4 ≤ d.flags ∨ stores ∧ badField d.pbase True ∨ holds 0x14 ∧ badField d.sbase False ∨ (∃ v, table v ∧ badField v False) ∨ stores ∧ 13 < d.pfmt, 0x01, 0x118),
   ((∃ u ∈ us, u.op = 0x14 ∧ u.x ≠ d.pfmt)
      ∨ stores ∧ tile ∧ (badTile b (d.pbase % 2 ^ 62) (cfg (d.pbase % 2 ^ 62)) ∨ d.pfmt ≠ bitsOf (cfg (d.pbase % 2 ^ 62)).toNat 0 4)
      ∨ ∃ u ∈ us, u.op = 0x15 ∧ badTile b u.x (cfg u.x), 0x01, 0x119),
   (stores ∧ ¬ tile ∧ 8 ≤ width ∧ (d.pbase % 2 ^ 62 % (width / 8) ≠ 0 ∨ d.ppitch % (width / 8) ≠ 0) ∨ ∃ v, table v ∧ v % 2 ^ 62 % 4 ≠ 0, 0x06, 2),
   (stores ∧ d.pbase / 2 ^ 62 = 1 ∧ b.kd.scratch < d.pbase % 2 ^ 62 + 127 * d.ppitch + 128 * width / 8
      ∨ holds 0x14 ∧ d.sbase / 2 ^ 62 = 1 ∧ b.kd.scratch < d.sbase % 2 ^ 62 + 127 * d.spitch + 4
      ∨ ∃ v, table v ∧ v / 2 ^ 62 = 1 ∧ b.kd.scratch < v % 2 ^ 62 + 512, 0x05, 2)]

/-! ### Traps before any effect -/

/-- The S-instruction finds what makes it trap before any effect or wait of its own (R163 to R178, R187, R189, R281, R300, R308 to R311). -/
def TrapsNow (s : State) (b : Block) (w : Warp) : Instr → Prop
  | .trap _ => True
  | .sysEret => w.handler = false
  | .sjr _ a => (sreg w a).toNat % 4 ≠ 0
  | .sld _ a wd i | .sst _ a wd i => (sreg w a + i.signExtend 64).toNat % 2 ^ wd.toNat ≠ 0
  | .slds _ a wd i | .ssts _ a wd i => (sreg w a + i.signExtend 64).toNat % 2 ^ wd.toNat ≠ 0 ∨ b.kd.scratch < (sreg w a + i.signExtend 64).toNat + 2 ^ wd.toNat
  | .satom _ wide _ _ a _ => (sreg w a).toNat % (if wide then 8 else 4) ≠ 0
  | .csrr _ n => csrIs s b w n.toNat = none ∧ n ≠ 0x022
  | .csrw n a => (csrIs s b w n.toNat = none ∧ n ≠ 0x022) ∨ (csrSup n.toNat = true ∧ w.handler = false) ∨ (n = 2 ∧ ((sreg w a).toNat % 8 = 0 ∨ (sreg w a).toNat % 8 = 7))
  | .ctopen _ _ => 8 ≤ w.regions.length
  | .sysCtclose => w.regions = []
  | .mwait a => (sreg w a).toNat % 65536 = w.batch.toNat
  | .cpy _ a => (sreg w a).toNat % 64 ≠ 0 ∨ b.kd.scratch < (sreg w a).toNat + 64
  | .lgor a => (sreg w a).toNat % 12 ≠ 0
  | .bar course _ _ _ => course = true ∧ b.gang = none
  | .tcfg t _ | .tld _ t _ _ | .tst _ t _ _ => b.kd.tiles ≤ t.toNat
  | .aclr c => b.kd.accs ≤ c.toNat
  | .drld p _ | .drain _ p _ _ => b.kd.drainSet.getLsbD p.toNat = false
  | _ => False

/-! ### L-instructions: their operands, and what an issue does (R33, R54, R56 to R59, R126, R132, R191) -/

/-- An L-instruction that issues now in the selected split `p`: its names are mapped, no row of its waits for a variable result (R54, R56), its
queues have what they need (R32, R33), and where hazards are checked (R59, R304) none is found. -/
structure Ready (s : State) (b : Block) (w : Warp) (i : Instr) (f : LF) (m : LFmt) (p : Split) : Prop where
  me : Sys2Proof.Machine.me s = some (b, w)
  fmt : lfmt i = some m
  fields : i.lf = some f
  split : getSplit w s.sel.split = some p
  mapped : ∀ n ∈ checkedNames m f, (mapOf w n).isSome
  rows : interlocked b (getCore s (coreNo b)) w (usedRows w m f) (predReads i m f ++ predWrites i m f) = false
  pops : shortQueue w (popList m f) = none
  room : ∀ q, pushQueue m f = some q → (w.qs.get [] q).length < 16
  hazard : lmHzf w = true ∨ b.hazMode = true → hazardProducer b (getCore s (coreNo b)) w (usedRows w m f) (predReads i m f ++ predWrites i m f) = none

/-- Lane `l` of a predicate: P31 holds in every lane (R192). -/
def predBit (w : Warp) (n l : Nat) : Bool := if n = 31 then true else (w.preds.get 0 n).getLsbD l
/-- Whether lane `l` is active: in the split's mask and the warp's width, and its guard holds (R27, R38, R126). -/
def isActive (w : Warp) (m : LFmt) (f : LF) (p : Split) (l : Nat) : Bool :=
  p.mask.getLsbD l && decide (l < w.width) && (!m.guarded || (predBit w f.g.p.toNat l != f.g.neg))
/-- The active lanes, lowest first. -/
def activeLanes (w : Warp) (m : LFmt) (f : LF) (p : Split) : List Nat := (List.range 64).filter (isActive w m f p)

/-- Lane `l` of a group of `g` names from V`k` on, lowest name in the low bits (R191). -/
def groupVal (s : State) (b : Block) (w : Warp) (k l : Nat) : Nat → Nat
  | 0 => 0
  | g + 1 => groupVal s b w k l g + (match mapOf w (k + g) with | some r => ((getRow (getCore s (coreNo b)) r).lanes.getD l 0).toNat | none => 0) * 2 ^ (32 * g)
/-- A source operand's lane (R125, R191): rows, the queue's entry number `e`, IMM, LID, ZERO or WID. -/
def srcVal (s : State) (b : Block) (w : Warp) (u : VUse) (n : Name) (imm : Word) (e l : Nat) : Nat :=
  match u with
  | .src g _ => (match n with
      | .v k => groupVal s b w k l g
      | .q k => (match (w.qs.get [] k)[e]? with | some x => if g = 1 then x.val.toNat % 2 ^ 32 else x.val.toNat | none => 0)
      | .imm => if g = 1 then imm.toNat else (imm.signExtend 64).toNat
      | .lid => l
      | .zero => 0
      | .wid => w.idx)
  | .qname => (match n with | .q k => (match (w.qs.get [] k)[e]? with | some x => x.val.toNat | none => 0) | _ => 0)
  | _ => 0
/-- 1 where a source field pops queue `k`. -/
def popsQ (u : VUse) (n : Name) (k : Nat) : Nat := match u, n with | .src _ _, .q j | .qname, .q j => if j = k then 1 else 0 | _, _ => 0
/-- The queue of a name, 8 for none. -/
def queueOf (n : Name) : Nat := match n with | .q k => k | _ => 8
/-- The operands VA, VB and VC in lane `l`; fields that name one queue take its entries in that order (R33). -/
def opA (s : State) (b : Block) (w : Warp) (m : LFmt) (f : LF) (l : Nat) : Nat := srcVal s b w m.va f.va f.imm 0 l
def opB (s : State) (b : Block) (w : Warp) (m : LFmt) (f : LF) (l : Nat) : Nat := srcVal s b w m.vb f.vb f.imm (popsQ m.va f.va (queueOf f.vb)) l
def opC (s : State) (b : Block) (w : Warp) (m : LFmt) (f : LF) (l : Nat) : Nat :=
  srcVal s b w m.vc f.vc f.imm (popsQ m.va f.va (queueOf f.vc) + popsQ m.vb f.vb (queueOf f.vc)) l
/-- Whether a row that a source field reads is poisoned in lane `l` (R385, R386). -/
def srcBad (s : State) (b : Block) (w : Warp) (u : VUse) (n : Name) (l : Nat) : Bool :=
  match u, n with
  | .src g _, .v k => (List.range g).any fun j => (mapOf w (k + j)).any fun r => (getRow (getCore s (coreNo b)) r).poison.getLsbD l
  | _, _ => false
def anyBad (s : State) (b : Block) (w : Warp) (m : LFmt) (f : LF) (l : Nat) : Bool :=
  srcBad s b w m.va f.va l || srcBad s b w m.vb f.vb l || srcBad s b w m.vc f.vc l

/-- Where the split stands after its instruction: at the next word, at the next repetition, or past the word it repeated (R217, R218). -/
def pastSplit (p : Split) : Split :=
  match p.rep with
  | none => { p with lpc := p.lpc + 12, wait := .run, repStart := 0 }
  | some r => if r.next + 1 < r.count then { p with rep := some { r with next := r.next + 1 }, wait := .run }
              else { p with lpc := p.lpc + 24, rep := none, wait := .run }

/-- What an issued L-instruction leaves of the machine: the queues have lost what it popped, and got `pushed`; the split has gone on; `fs` are in
flight; every row keeps its lanes, its poison and its references, and those of interlocked results gain a pending bit (R56); memory and everything else are as before. -/
structure LGoes (s t : State) (b : Block) (w w' : Warp) (m : LFmt) (f : LF) (p : Split) (pushed : List QEnt) (fs : List Flight) : Prop extends
    OtherWarps s t b.uid w.idx where
  warp : getWarp t b.uid w.idx = some w'
  part : w' = { w with qs := w'.qs, splits := w'.splits, cons := w'.cons }
  queues : ∀ q, w'.qs.get [] q = (w.qs.get [] q).drop (popsQ m.va f.va q + popsQ m.vb f.vb q + popsQ m.vc f.vc q) ++ (if pushQueue m f = some q then pushed else [])
  split : getSplit w' s.sel.split = some (pastSplit p)
  splits : ∀ k, k ≠ s.sel.split → getSplit w' k = getSplit w k
  flight : (getCore t (coreNo b)).flight = (getCore s (coreNo b)).flight ++ fs
  core : getCore t (coreNo b) = { getCore s (coreNo b) with flight := (getCore t (coreNo b)).flight, rows := (getCore t (coreNo b)).rows }
  rows : ∀ r, getRow (getCore t (coreNo b)) r = { getRow (getCore s (coreNo b)) r with pend := (getRow (getCore t (coreNo b)) r).pend }
  pends : ∀ r, (getRow (getCore t (coreNo b)) r).pend = (getRow (getCore s (coreNo b)) r).pend + (fs.filter fun x => x.pend && x.tgt == .row r).length
  cores : ∀ c, c ≠ coreNo b → getCore t c = getCore s c
  memory : SameMemory s t
  rest : t = { s with blocks := t.blocks, cores := t.cores, serial := t.serial, fresh := t.fresh }

/-- What every result in flight of an instruction says of it (R57): its landing clock, its writer, its active lanes; a result that touches a
far row lands at FAR_ROW_RESULT (R54), and its row is interlocked until then, as it is where the instruction pops a queue (R56). -/
def Flies (s : State) (b : Block) (w : Warp) (m : LFmt) (f : LF) (p : Split) (lat : Nat) (x : Flight) : Prop :=
  x.due = (getCore s (coreNo b)).cyc + lat ∧ x.block = b.uid ∧ x.warp = w.idx ∧ x.lpc = p.lpc
  ∧ (∀ l, l < 64 → x.mask.getLsbD l = isActive w m f p l) ∧ x.far = (usedRows w m f).any (fun r => r / 2048 != w.idx % 4)
  ∧ x.pend = (x.far || (popList m f).length != 0)
/-- The results into the destination rows, low name first: row number `k` of the group takes bits 32k of each lane's value (R191). -/
def RowFlights (s : State) (b : Block) (w : Warp) (m : LFmt) (f : LF) (p : Split) (lat : Nat) (v : Nat → Nat) (fs : List Flight) : Prop :=
  fs.length = (dstRows w m f).length ∧ ∀ k r, (dstRows w m f)[k]? = some r → ∃ x, fs[k]? = some x ∧ x.id = s.serial + k ∧ x.tgt = .row r
    ∧ Flies s b w m f p lat x ∧ ∀ l, l < 64 → isActive w m f p l = true → (x.vals.getD l 0).toNat = v l / 2 ^ (32 * k) % 2 ^ 32

/-- The lane-wise instruction `i` computes: each active lane whose sources are not poisoned gets a value that `R` relates to its operands, `lat` cycles
after the issue; a poisoned lane's poison goes with its result (R386), and where the instruction only `moves` it, is no consumption (R387); `flags` are the exception flags of the other active lanes. -/
def Computes (i : Instr) (f : LF) (moves : Bool) (lat : Nat) (R : State → Block → Warp → LFmt → Nat → Nat → Prop) (flags : State → Block → Warp → LFmt → Nat → FFlags) : Prop :=
  ∀ (s : State) (b : Block) (w : Warp) (m : LFmt) (p : Split), Ready s b w i f m p →
    ∃ t w' fs v, exec i s = .next t ∧ LGoes s t b w w' m f p [] fs ∧ RowFlights s b w m f p lat v fs
      ∧ (moves = true ∨ (∀ l, l < 64 → isActive w m f p l = true → anyBad s b w m f l = false) → w'.cons = w.cons)
      ∧ (∀ l, l < 64 → isActive w m f p l = true → anyBad s b w m f l = false → R s b w m l (v l))
      ∧ (∀ x ∈ fs, ∀ l, l < 64 → isActive w m f p l = true → x.pois.getLsbD l = anyBad s b w m f l)
      ∧ ∀ x, fs.head? = some x → ∀ k, k < 5 → (x.flags.getLsbD k = true ↔ ∃ l, l < 64 ∧ isActive w m f p l = true ∧ anyBad s b w m f l = false
          ∧ (flags s b w m l).getLsbD k = true)
/-- No flags. -/
def noFlags : State → Block → Warp → LFmt → Nat → FFlags := fun _ _ _ _ _ => 0

/-- The instruction `i` sets a predicate: the active lanes of PD get `R`, `lat` cycles after the issue. -/
def SetsPredicate (i : Instr) (f : LF) (lat : Nat) (R : State → Block → Warp → LFmt → Nat → Prop) (flags : State → Block → Warp → LFmt → Nat → FFlags) : Prop :=
  ∀ (s : State) (b : Block) (w : Warp) (m : LFmt) (p : Split), Ready s b w i f m p →
    ∃ t w' x, exec i s = .next t ∧ LGoes s t b w w' m f p [] [x] ∧ x.id = s.serial ∧ x.tgt = .pred f.pd.toNat ∧ Flies s b w m f p lat x
      ∧ (∀ l, l < 64 → isActive w m f p l = true → anyBad s b w m f l = false → (x.val.getLsbD l = true ↔ R s b w m l))
      ∧ ∀ k, k < 5 → (x.flags.getLsbD k = true ↔ ∃ l, l < 64 ∧ isActive w m f p l = true ∧ anyBad s b w m f l = false ∧ (flags s b w m l).getLsbD k = true)

/-- An instruction across the lanes, its sources not poisoned: to rows, each active lane gets what `R` says; to a queue, one entry is reserved, and
gets what `Q` says when the result lands (R35, R236); without `tiles` only a PARTN of one tile may push. -/
def Crosses (i : Instr) (f : LF) (tiles : Bool) (lat : Nat) (R : State → Block → Warp → LFmt → Split → Nat → Nat → Prop) (Q : State → Block → Warp → LFmt → Split → Nat → Prop) : Prop :=
  ∀ (s : State) (b : Block) (w : Warp) (m : LFmt) (p : Split), Ready s b w i f m p → (∀ l, l < 64 → anyBad s b w m f l = false) →
    ((∀ q, f.vd ≠ .q q) → ∃ t w' fs v, exec i s = .next t ∧ LGoes s t b w w' m f p [] fs ∧ RowFlights s b w m f p lat v fs ∧ w'.cons = w.cons
      ∧ (∀ x ∈ fs, x.pois = 0) ∧ ∀ l, l < 64 → isActive w m f p l = true → R s b w m p l (v l))
    ∧ ∀ q, f.vd = .q q → pushQueue m f = some q → (tiles = true ∨ w.partn = 6) → ∃ t w' x, exec i s = .next t ∧ LGoes s t b w w' m f p [{ seq := s.serial, val := 0, ready := false }] [x]
        ∧ x.id = s.serial ∧ x.tgt = .queue q s.serial ∧ Flies s b w m f p lat x ∧ w'.cons = w.cons ∧ Q s b w m p x.val.toNat

/-! ### Integer elements (R64, R195) -/

/-- Element `k` of `e` bits. -/
def elemOf (e k x : Nat) : Nat := x / 2 ^ (e * k) % 2 ^ e
/-- Its value. -/
def valOf (e : Nat) (sg : Bool) (x : Nat) : Int := if sg = true ∧ 2 ^ (e - 1) ≤ x then (x : Int) - 2 ^ e else x
/-- An exact result brought back to an element: clamped with `.sat`, else modulo 2^e. -/
def Narrows (e : Nat) (sg sat : Bool) (v : Int) (r : Nat) : Prop :=
  r < 2 ^ e ∧ if sat = true then
      valOf e sg r = max (if sg then -(2 ^ (e - 1)) else 0) (min v (if sg then 2 ^ (e - 1) - 1 else 2 ^ e - 1))
    else (v - r) % (2 ^ e : Int) = 0
/-- The elements of each type of R128. -/
def typeBits : IType → Nat
  | .i32 | .w32 => 32 | .i16x2 | .w16x2 => 16 | .i8x4 | .w8x4 => 8
def typeSigned : IType → Bool
  | .i32 | .i16x2 | .i8x4 => true | _ => false

/-- One element of vialu (R195). -/
def IaluIs (op : IaluOp) (e : Nat) (sg sat : Bool) (a b r : Nat) : Prop :=
  let x := valOf e sg a
  let y := valOf e sg b
  match op with
  | .add => Narrows e sg sat (x + y) r
  | .sub => Narrows e sg sat (x - y) r
  | .mul => Narrows e sg sat (x * y) r
  | .mulh => Narrows e sg false (x * y / 2 ^ e) r
  | .and => ∀ k, k < e → r.testBit k = (a.testBit k && b.testBit k)
  | .or => ∀ k, k < e → r.testBit k = (a.testBit k || b.testBit k)
  | .xor => ∀ k, k < e → r.testBit k = (a.testBit k ^^ b.testBit k)
  | .andn => ∀ k, k < e → r.testBit k = (a.testBit k && !b.testBit k)
  | .shl => r = if e ≤ b then 0 else a * 2 ^ b % 2 ^ e
  | .shr => r = if e ≤ b then 0 else a / 2 ^ b
  | .sra => valOf e true r = if e ≤ b then (if valOf e true a < 0 then -1 else 0) else valOf e true a / 2 ^ b
  | .min => r = if x ≤ y then a else b
  | .max => r = if x ≤ y then b else a
  | .abs => Narrows e sg sat (if x < 0 then -x else x) r
  | .popc => r = ((List.range e).filter fun k => a.testBit k).length
  | .clz => r ≤ e ∧ a < 2 ^ (e - r) ∧ (r < e → 2 ^ (e - 1 - r) ≤ a)

/-! ### Floating-point elements (R64, R202) -/

/-- One lane of the elements that `g` gives, and their flags. -/
def Packs (ty : FType) (g : Nat → Nat × FFlags) (r : Nat) : Prop :=
  match ty with | .f32 | .f64 => r = (g 0).1 | .f16x2 | .b16x2 => r = (g 0).1 + (g 1).1 * 2 ^ 16
def packFlags (ty : FType) (g : Nat → Nat × FFlags) : FFlags := match ty with | .f32 | .f64 => (g 0).2 | .f16x2 | .b16x2 => (g 0).2 ||| (g 1).2
/-- The width of an element, and element `k` of a lane's operand. -/
def floatBits : FType → Nat | .f32 => 32 | .f64 => 64 | .f16x2 | .b16x2 => 16
def fIn (ty : FType) (k x : Nat) : Nat := elemOf (floatBits ty) k x
/-- The lane's results and flags of a floating-point function of three elements. -/
def FloatIs (f : LF) (ty : FType) (g : FMode → Nat → Nat → Nat → Nat × FFlags) (s : State) (b : Block) (w : Warp) (m : LFmt) (l r : Nat) : Prop :=
  Packs ty (fun k => g (modeOf w) (fIn ty k (opA s b w m f l)) (fIn ty k (opB s b w m f l)) (fIn ty k (opC s b w m f l))) r
def floatFlags (f : LF) (ty : FType) (g : FMode → Nat → Nat → Nat → Nat × FFlags) (s : State) (b : Block) (w : Warp) (m : LFmt) (l : Nat) : FFlags :=
  packFlags ty fun k => g (modeOf w) (fIn ty k (opA s b w m f l)) (fIn ty k (opB s b w m f l)) (fIn ty k (opC s b w m f l))

/-! ### Tiles (R44, R230 to R238) -/

/-- The size of the warp's tiles, the active lanes of a tile in lane order, and those of them that `P` picks. -/
def tileOfWarp (w : Warp) : Nat := 2 ^ w.partn.toNat
def inTile (w : Warp) (m : LFmt) (f : LF) (p : Split) (t : Nat) : List Nat := (activeLanes w m f p).filter fun l => l / tileOfWarp w == t
/-- A reduction of values in the given order from the identity (R233); its flags. -/
def reduces (op : RedOp) (ty : RedType) (md : FMode) : List Nat → Nat
  | [] => redIdentity op ty
  | x :: xs => xs.foldl (fun a y => (redStep op ty md a y).1) x

/-! ### The issue checks of the L-stream (R48, R59) -/

/-- The operand fields of an L-instruction whose rows the issue checks, and whether it waits for its full class or unit (R107, R210). Of the other L-instructions,
the edits of the map have statements of their own. -/
def rowForm (w : Warp) : Instr → Option (LF × Bool)
  | .lnop f | .lbr f | .ljoin f | .lpart f | .rep f | .vialu _ _ f | .vmad _ f | .vbfe _ f | .vbfi f | .vsel f | .vcmp _ _ f | .fadd _ _ _ _ f | .fmul _ _ _ _ f
  | .ffma _ _ _ _ _ f | .fmin _ f | .fmax _ f | .fcmp _ _ f | .fcvt _ _ f | .frnd _ _ f | .fclass _ f | .plog _ f | .vshuf _ f | .vvote _ f | .vredux _ _ f | .vscan _ _ _ f
  | .vbcast f | .copy f | .mapq f | .csum _ f | .csumf _ f | .retired _ _ f => some (f, false)
  | .vsfu _ f => some (f, decide (8 ≤ w.sfu.length))
  | .ld _ _ _ _ f | .lds _ _ f | .ldx _ _ f | .atom _ _ _ f | .atoms _ _ _ f | .atomx _ _ _ f => some (f, decide (4095 ≤ w.ldq.length))
  | .st _ _ f | .sts _ f | .stx _ f | .red _ _ _ f => some (f, decide (4095 ≤ w.stq.length))
  | _ => none
/-- Its UNMAPPED trap: `n` is the first of its names that is not mapped. -/
def Unmapped (w : Warp) (i : Instr) (n : Nat) : Prop :=
  ∃ f busy m, rowForm w i = some (f, busy) ∧ lfmt i = some m ∧ ∃ k : Nat, (checkedNames m f)[k]? = some n ∧ mapOf w n = none ∧ ∀ j x : Nat, j < k → (checkedNames m f)[j]? = some x → (mapOf w x).isSome
/-- Its HAZARD trap: it would issue, hazards are checked, and the instruction at `d` has a result that has not landed in a row or predicate that it uses. -/
def Hazardous (s : State) (b : Block) (w : Warp) (i : Instr) (d : DWord) : Prop :=
  ∃ f m, rowForm w i = some (f, false) ∧ lfmt i = some m ∧ (∀ n ∈ checkedNames m f, (mapOf w n).isSome)
    ∧ interlocked b (getCore s (coreNo b)) w (usedRows w m f) (predReads i m f ++ predWrites i m f) = false ∧ shortQueue w (popList m f) = none
    ∧ (∀ q, pushQueue m f = some q → (w.qs.get [] q).length < 16) ∧ (lmHzf w = true ∨ b.hazMode = true) ∧ (b.debug = false ∨ b.hazMode = false)
    ∧ hazardProducer b (getCore s (coreNo b)) w (usedRows w m f) (predReads i m f ++ predWrites i m f) = some d
/-- An L-instruction, in a live split, finds one of these traps, or, of an edit of the map, a name without a row. -/
def TrapsNowL (s : State) (b : Block) (w : Warp) (i : Instr) : Prop :=
  (getSplit w s.sel.split).isSome ∧ ((∃ n, Unmapped w i n) ∨ (∃ d, Hazardous s b w i d)
    ∨ ∃ f, ((i = .aliasOp f ∨ i = .rmov f ∨ i = .give f) ∧ mapOf w f.va.code = none) ∨ (i = .unmap f ∧ mapOf w f.vd.code = none))


/-- The lane that a vshuf reads for lane `l` with operand `x` (R231): its own where the source lies outside the tile or the width. -/
def shuffled (md : ShufMode) (w : Warp) (l x : Nat) : Nat :=
  let z := tileOfWarp w
  let t := l / z
  let s : Int := match md with
    | .idx => if x < z then (t * z + x : Nat) else -1
    | .up => (l : Int) - x
    | .down => (l : Int) + x
    | .xor => ((l ^^^ x : Nat) : Int)
  if (t * z : Nat) ≤ s ∧ s < (t * z + z : Nat) ∧ s < 64 ∧ s < w.width then s.toNat else l
/-- The lane that a vbcast reads for lane `l` (R235). -/
def broadcast (s : State) (b : Block) (w : Warp) (m : LFmt) (f : LF) (p : Split) (l : Nat) : Nat :=
  let z := tileOfWarp w
  match (inTile w m f p (l / z)).head? with
  | none => l
  | some k => let x := if opB s b w m f k < z then l / z * z + opB s b w m f k else k
              if x < 64 ∧ x < w.width then x else l
/-- The vote of a tile (R232). -/
def votes (md : VoteMode) (w : Warp) (m : LFmt) (f : LF) (p : Split) (t : Nat) (r : Nat) : Prop :=
  let yes := fun l => predBit w f.va.code l
  match md with
  | .all => r = if ∀ l ∈ inTile w m f p t, yes l = true then 1 else 0
  | .any => r = if ∃ l ∈ inTile w m f p t, yes l = true then 1 else 0
  | .ballot => ∀ l, r.testBit l = (decide (l ∈ inTile w m f p t) && yes l)
/-- The sum tree of csumf over lanes from `i` on (R238): missing lanes add nothing. -/
def sumTree (x : Nat → Option Nat) : Nat → Nat → Option Nat
  | 0, i => x i
  | n + 1, i => match sumTree x n i, sumTree x n (i + 2 ^ n) with
    | none, y => y
    | y, none => y
    | some y, some z => some (add64 y z)

/-- The rows that the names `base` on of a warp hold, as a list with repeats. -/
def rowsOfNames (w : Warp) (base n : Nat) : List Nat := ((List.range n).map fun i => mapOf w (base + i)).filterMap id

/-- A banker operation of the warp has arrived in this clock (R227). -/
def arrived (s : State) (b : Block) (w : Warp) : State :=
  modCore s (coreNo b) fun x => { x with bankAt := (x.cyc, w.idx % 4 * 64 + w.idx) }

/-- What a map edit leaves of the machine (R55, R220): the map and the rows' references are edited as the instruction says, the split has gone on, and
nothing else has changed; `fs` is the predicate of a `.try` form. -/
structure EditGoes (s t : State) (b : Block) (w w' : Warp) (p : Split) (fs : List Flight) : Prop extends OtherWarps s t b.uid w.idx where
  warp : getWarp t b.uid w.idx = some w'
  part : w' = { w with map := w'.map, splits := w'.splits }
  split : getSplit w' s.sel.split = some (pastSplit p)
  splits : ∀ k, k ≠ s.sel.split → getSplit w' k = getSplit w k
  flight : (getCore t (coreNo b)).flight = (getCore s (coreNo b)).flight ++ fs
  core : getCore t (coreNo b) = { getCore s (coreNo b) with flight := (getCore t (coreNo b)).flight, rows := (getCore t (coreNo b)).rows
                                                            acqWait := (getCore t (coreNo b)).acqWait }
  cores : ∀ c, c ≠ coreNo b → getCore t c = getCore s c
  memory : SameMemory s t
  rest : t = { s with blocks := t.blocks, cores := t.cores, serial := t.serial, fresh := t.fresh }

/-- Of a core's rows only reference counts differ, and row `r`'s is `n r`. -/
def Counts (x y : Core) (n : Nat → Nat) : Prop := ∀ r, getRow y r = { getRow x r with count := n r }

/-- The names `base` to `base + n - 1` hold distinct rows that were free in the warp's quadrant, fresh: one reference, every lane zero, no poison (R50); each
is pending at first (R56). -/
def Acquired (s t : State) (b : Block) (w w' : Warp) (base n : Nat) : Prop :=
  (∀ i, i < n → ∃ r, mapOf w' (base + i) = some r ∧ r / 2048 = w.idx % 4 ∧ rowFree (getCore s (coreNo b)) r = true ∧ getRow (getCore t (coreNo b)) r = { count := 1, pend := 1 })
  ∧ (∀ i j, i < n → j < n → mapOf w' (base + i) = mapOf w' (base + j) → i = j)
  ∧ (∀ k, (∀ i, i < n → k ≠ base + i) → mapOf w' k = mapOf w k)
  ∧ ∀ r, (∀ i, i < n → mapOf w' (base + i) ≠ some r) →
      getRow (getCore t (coreNo b)) r = { getRow (getCore s (coreNo b)) r with count := (getRow (getCore s (coreNo b)) r).count - (rowsOfNames w base n).count r }
/-- The results that clear those pending bits: one for each new row, in the order of the names, which writes no lane and lands in some later clock;
which, is free (R56, R427; assumption 94). -/
def FreshRows (s : State) (b : Block) (w' : Warp) (base n : Nat) (fs : List Flight) : Prop :=
  fs.length = n ∧ ∀ i, i < n → ∃ x r, fs[i]? = some x ∧ mapOf w' (base + i) = some r ∧ x.tgt = .row r ∧ x.pend = true ∧ x.far = false ∧ x.mask = 0
    ∧ x.id = s.serial + i ∧ (getCore s (coreNo b)).cyc < x.due
/-- The warp's map and the reference counts agree: a mapped row has a reference (R49). -/
def MapSound (s : State) (b : Block) (w : Warp) : Prop := ∀ n r, mapOf w n = some r → 0 < (getRow (getCore s (coreNo b)) r).count


/-! ### Lane memory (R241 to R260) -/

/-- The numbers of outstanding operations and requests are older than the next one (an invariant of every run: StepsKeepNumbersFresh). -/
def FreshNumbers (s : State) : Prop :=
  (∀ o ∈ s.ops, o.id < s.serial) ∧ (∀ t ∈ s.transit, t.id < s.serial) ∧ (∀ c, ∀ x ∈ (getCore s c).flight, x.id < s.serial)
  ∧ ∀ b ∈ allBlocks s, ∀ w ∈ liveWarps b, (∀ r ∈ w.reqs, r.id < s.serial) ∧ ∀ e ∈ w.sfu, e.id < s.serial

/-- How a lane memory instruction goes: its space, class, access, bytes and `.qb` (R127, R241 to R244). -/
structure MemForm where
  sp : Space
  cls : Cls
  kind : AccKind
  bytes : Nat
  qb : Bool := false
/-- The form of each lane memory instruction (R130, R241 to R244). -/
def memForm : Instr → Option MemForm
  | .ld qb h sx wd _ => some ⟨.glob, .ld, .load sx (h == .ro) (h == .st), wd.bytes, qb⟩
  | .st qb wd _ => some ⟨.glob, .st, .store, wd.bytes, qb⟩
  | .lds sx wd _ => some ⟨.own, .ld, .load sx false false, wd.bytes, false⟩
  | .sts wd _ => some ⟨.own, .st, .store, wd.bytes, false⟩
  | .ldx sx wd _ => some ⟨.peer, .ld, .load sx false false, wd.bytes, false⟩
  | .stx wd _ => some ⟨.peer, .st, .store, wd.bytes, false⟩
  | .atom op wide sc _ => some ⟨.glob, .ld, .atomic op sc true, if wide then 8 else 4, false⟩
  | .atoms op wide sc _ => some ⟨.own, .ld, .atomic op sc true, if wide then 8 else 4, false⟩
  | .atomx op wide sc _ => some ⟨.peer, .ld, .atomic op sc true, if wide then 8 else 4, false⟩
  | .red op wide sc _ => some ⟨.glob, .st, .atomic op sc false, if wide then 8 else 4, false⟩
  | _ => none

/-- The effective address of a lane (R243): the base and the offset, modulo 2^64 in global memory; with `.qb` the base is the popped
value and the lane's operand an unsigned offset. -/
def laneEa (s : State) (b : Block) (w : Warp) (m : LFmt) (f : LF) (x : MemForm) (l : Nat) : Nat :=
  (((if x.qb then opB s b w m f 0 else 0) + opA s b w m f l + f.imm.toInt : Int) % 2 ^ 64).toNat
/-- A store's data, or an atomic's operand and compared value (R127, R241). -/
def laneData (s : State) (b : Block) (w : Warp) (m : LFmt) (f : LF) (x : MemForm) (l : Nat) : Nat :=
  (match x.kind with | .load _ _ _ => 0 | .store => opC s b w m f l | .atomic .cas _ _ => opC s b w m f l | .atomic _ _ _ => opB s b w m f l) % 256 ^ x.bytes
def laneCompared (s : State) (b : Block) (w : Warp) (m : LFmt) (f : LF) (x : MemForm) (l : Nat) : Nat :=
  (match x.kind with | .atomic .cas _ _ => opB s b w m f l | _ => 0) % 256 ^ x.bytes

/-- A lane memory instruction issues now, in user mode: nothing of its operands is poisoned, its class has room, some lane is active. -/
structure MemReady (s : State) (b : Block) (w : Warp) (i : Instr) (f : LF) (m : LFmt) (p : Split) (x : MemForm) : Prop where
  ready : Ready s b w i f m p
  form : memForm i = some x
  user : w.handler = false ∧ w.infill = false
  clean : ∀ l, l < 64 → anyBad s b w m f l = false
  room : countN w x.cls < 4095
  some : ∃ l, l < 64 ∧ isActive w m f p l = true
  numbers : FreshNumbers s

/-- Every active lane's address is aligned, in its layout, and translates, to `loc l` in device or host memory, with the rights the access needs, and no older lane of the warp still waits to reach it (R259)
(R88 to R90, R245, R246): from the lane's last page, or else from the core's translations. -/
def LanesAt (s : State) (b : Block) (w : Warp) (m : LFmt) (f : LF) (p : Split) (x : MemForm) (loc : Nat → GLoc) : Prop :=
  ∀ l, l < 64 → isActive w m f p l = true → laneEa s b w m f x l % x.bytes = 0 ∧ addrOk s b.part (BitVec.ofNat 64 (laneEa s b w m f x l)) = true
    ∧ (∀ d v, loc l ≠ .peer d v) ∧ olderReq w s.serial (.g (loc l)) x.bytes = false
    ∧ ((xlatLaneIn (w.lastPage.get none l).toList b.pasid x.kind (BitVec.ofNat 64 (laneEa s b w m f x l))).1 = .at_ (loc l)
      ∨ (∀ y, (xlatLaneIn (w.lastPage.get none l).toList b.pasid x.kind (BitVec.ofNat 64 (laneEa s b w m f x l))).1 ≠ .at_ y)
        ∧ (xlatLaneIn (getCore s (coreNo b)).tlb b.pasid x.kind (BitVec.ofNat 64 (laneEa s b w m f x l))).1 = .at_ (loc l))

/-- What a core's rows are while the destination rows of one more operation are interlocked (R56): nothing else of the core differs. -/
def Interlocked (x y : Core) (rows : List Nat) : Prop :=
  y = { x with rows := y.rows } ∧ ∀ r, getRow y r = { getRow x r with pend := (getRow x r).pend + rows.count r }

/-- The machine after the issue of a lane memory instruction: its operands popped, its rows interlocked, its class counting it, its split at
`q`; `rs` are the records of lanes that an answer is awaited for. Memory and every other register are as before. -/
structure MemGoes (s t : State) (b : Block) (w w' : Warp) (m : LFmt) (f : LF) (x : MemForm) (q : Split) (rs : List MemReq) : Prop extends
    OtherWarps s t b.uid w.idx where
  warp : getWarp t b.uid w.idx = some w'
  part : w' = { w with qs := w'.qs, splits := w'.splits, lastPage := w'.lastPage, ldq := w'.ldq, stq := w'.stq, sb := w'.sb, reqs := w'.reqs }
  queues : ∀ k, w'.qs.get [] k = (w.qs.get [] k).drop (popsQ m.va f.va k + popsQ m.vb f.vb k + popsQ m.vc f.vc k)
  split : getSplit w' s.sel.split = some q
  splits : ∀ k, k ≠ s.sel.split → getSplit w' k = getSplit w k
  loads : w'.ldq = if x.cls = .ld then w.ldq ++ [(s.serial, false)] else w.ldq
  stores : w'.stq = if x.cls = .st then w.stq ++ [(s.serial, false)] else w.stq
  reqs : w'.reqs = w.reqs ++ rs
  rows : Interlocked (getCore s (coreNo b)) (getCore t (coreNo b)) (dstRows w m f)
  cores : ∀ c, c ≠ coreNo b → getCore t c = getCore s c
  memory : SameMemory s t
  rest : t = { s with blocks := t.blocks, cores := t.cores, ops := t.ops, serial := t.serial }

/-- The operation that an instruction whose lanes are sent leaves outstanding: its access, its lanes, its destination rows, and the regions
and the count of its issue (R252, R312, R393). -/
def opOf (s : State) (b : Block) (w : Warp) (m : LFmt) (f : LF) (x : MemForm) (ls : List LaneAcc) : Op :=
  { id := s.serial, cls := x.cls, block := b.uid, warp := w.idx, core := coreNo b, kind := x.kind, bytes := x.bytes, todo := ls, dest := dstRows w m f,
    depth := w.regions.length, regionCount := (match w.regions with | [] => 0 | g :: _ => g.count), issuedAt := w.issues + 1,
    ord := s.serial, pasid := b.pasid }
/-- Lane `l` of a request that carries data, at a location. -/
def laneWith (s : State) (b : Block) (w : Warp) (m : LFmt) (f : LF) (x : MemForm) (l : Nat) (at_ : ALoc) : LaneAcc :=
  { lane := l, ea := laneEa s b w m f x l, loc := some at_, b := laneData s b w m f x l, c := BitVec.ofNat 64 (laneCompared s b w m f x l) }

/-- The lanes of an operation, in the order given, each performed on what the ones before it left (R254): its location, operand, compared
value and old value. -/
inductive AtomRun (op : AtomOp) (n : Nat) : List (GLoc × Nat × Nat × Nat) → State → State → Prop where
  | done (s : State) : AtomRun op n [] s s
  | next {s t u : State} {l : GLoc} {b c old new : Nat} {ls : List (GLoc × Nat × Nat × Nat)} (h0 : Holds s l 0 n old) (hb : old < 256 ^ n)
      (h1 : AtomIs op (8 * n) old b c new) (h2 : Holds t l 0 n new) (h3 : MemoryBut s t l n) (k : AtomRun op n ls t u) : AtomRun op n ((l, b, c, old) :: ls) s u

/-- A value as a lane's destination rows take it (R244): sign-extended to 32 bits where the load says so. -/
def ExtendsTo (sx : Bool) (n v r : Nat) : Prop :=
  if sx = true ∧ n ≤ 2 then r < 2 ^ 32 ∧ (r : Int) % 2 ^ 32 = (valOf (8 * n) true v) % 2 ^ 32 else r = v

/-! ### Rounding exact values (R63, R71, R72) -/

/-- m · 2^e ≤ n · 2^f. -/
def dyLe (m e n f : Int) : Prop := m * 2 ^ (e - min e f).toNat ≤ n * 2 ^ (f - min e f).toNat
/-- The biased exponent and the fraction of a pattern, and its sign (R63). -/
def expF (f : FFmt) (x : Nat) : Nat := x / 2 ^ f.fw % 2 ^ f.ew
def fracF (f : FFmt) (x : Nat) : Nat := x % 2 ^ f.fw
def negF (f : FFmt) (x : Nat) : Bool := x.testBit (f.ew + f.fw)
/-- A pattern is a NaN, a signalling one, an infinity (R63). -/
def isNanF (f : FFmt) (x : Nat) : Bool :=
  match f.sp with
  | .ieee => expF f x == 2 ^ f.ew - 1 && fracF f x != 0
  | .e4 => expF f x == 2 ^ f.ew - 1 && fracF f x == 2 ^ f.fw - 1
  | .none => false
def isSigF (f : FFmt) (x : Nat) : Bool := f.sp == .ieee && isNanF f x && fracF f x < 2 ^ (f.fw - 1)
def isInfF (f : FFmt) (x : Nat) : Bool := f.sp == .ieee && expF f x == 2 ^ f.ew - 1 && fracF f x == 0
def isFinF (f : FFmt) (x : Nat) : Bool := !isNanF f x && !isInfF f x
/-- A finite pattern's magnitude sig · 2^pow; under `daz` a subnormal reads as zero (R63, R72). -/
def sigF (f : FFmt) (daz : Bool) (x : Nat) : Nat := if expF f x = 0 then (if daz then 0 else fracF f x) else 2 ^ f.fw + fracF f x
def powF (f : FFmt) (x : Nat) : Int := (if expF f x = 0 then 1 else (expF f x : Int)) - f.bias - f.fw
/-- Its signed value is intF · 2^powF. -/
def intF (f : FFmt) (daz : Bool) (x : Nat) : Int := if negF f x then -(sigF f daz x : Int) else sigF f daz x
/-- The largest finite magnitude of a format (R63). -/
def topSig (f : FFmt) : Nat := match f.sp with | .e4 => 2 ^ (f.fw + 1) - 2 | _ => 2 ^ (f.fw + 1) - 1
def topPow (f : FFmt) : Int := (match f.sp with | .ieee => (2 ^ f.ew - 2 : Int) | _ => (2 ^ f.ew - 1 : Int)) - f.bias - f.fw
/-- The pattern `r` has a sign and the magnitude k · 2^q. -/
def PatternOf (f : FFmt) (r : Nat) (neg : Bool) (k : Nat) (q : Int) : Prop :=
  r < 2 ^ (1 + f.ew + f.fw) ∧ negF f r = neg ∧ dyLe (sigF f false r) (powF f r) k q ∧ dyLe k q (sigF f false r) (powF f r)
def zeroF (f : FFmt) (neg : Bool) : Nat := if neg then 2 ^ (f.ew + f.fw) else 0
def infF (f : FFmt) (neg : Bool) : Nat := zeroF f neg + (2 ^ f.ew - 1) * 2 ^ f.fw
def nanF (f : FFmt) : Nat := match f.sp with | .e4 => 0x7F | _ => (2 ^ f.ew - 1) * 2 ^ f.fw + 2 ^ (f.fw - 1)

/-- k · 2^q is an exact magnitude V rounded to a multiple of 2^q (R71). `le k q` says k · 2^q ≤ V, and `ge k q` V ≤ k · 2^q. -/
def RoundsTo (rm : RM) (neg : Bool) (le ge : Nat → Int → Prop) (k : Nat) (q : Int) : Prop :=
  let down := le k q ∧ ¬ le (k + 1) q
  let up := ge k q ∧ (k = 0 ∨ ¬ ge (k - 1) q)
  match rm with
  | .rz => down
  | .ru => if neg then down else up
  | .rd => if neg then up else down
  | .rn => ge (2 * k + 1) (q - 1) ∧ (k = 0 ∨ le (2 * k - 1) (q - 1)) ∧ (le (2 * k + 1) (q - 1) ∨ (k ≠ 0 ∧ ge (2 * k - 1) (q - 1)) → k % 2 = 0)
/-- Whether a rounded magnitude that overflows becomes infinity (R71, IEEE 754). -/
def awayRm (rm : RM) (neg : Bool) : Bool := match rm with | .rn => true | .rz => false | .ru => !neg | .rd => neg
/-- The exact nonzero value of a sign and a magnitude V is rounded once into a format, to `r` with the flags `fl` (R71, R72, R77): first with an unbounded
exponent, which judges overflow and tininess; a tiny value is zero under FTZ, else V rounded at the format's smallest step. -/
def RoundedOnce (f : FFmt) (rm : RM) (ftz sat neg : Bool) (le ge : Nat → Int → Prop) (res : Nat × FFlags) : Prop :=
  let low : Int := 1 - f.bias - f.fw
  ∃ k q, le (2 ^ f.fw) q ∧ ¬ le (2 ^ (f.fw + 1)) q ∧ RoundsTo rm neg le ge k q
    ∧ (¬ dyLe k q (topSig f) (topPow f) → res.2 = flOF ||| flNX ∧
        (if sat || f.sp == .none || !awayRm rm neg then PatternOf f res.1 neg (topSig f) (topPow f)
         else res.1 = match f.sp with | .e4 => zeroF f neg + 0x7F | _ => infF f neg))
    ∧ (dyLe k q (topSig f) (topPow f) → ¬ dyLe (2 ^ f.fw) low k q →
        (ftz = true → res = (zeroF f neg, flUF ||| flNX))
        ∧ (ftz = false → ∃ j, RoundsTo rm neg le ge j low ∧ res.1 = zeroF f neg + j ∧ (le j low ∧ ge j low → res.2 = 0) ∧ (¬ (le j low ∧ ge j low) → res.2 = flUF ||| flNX)))
    ∧ (dyLe k q (topSig f) (topPow f) → dyLe (2 ^ f.fw) low k q →
        PatternOf f res.1 neg k q ∧ (le k q ∧ ge k q → res.2 = 0) ∧ (¬ (le k q ∧ ge k q) → res.2 = flNX))
/-- The same of the exact value v · 2^e: an exact zero takes the sign `zneg` and raises nothing. -/
def RoundedExact (f : FFmt) (rm : RM) (ftz sat : Bool) (v e : Int) (zneg : Bool) (res : Nat × FFlags) : Prop :=
  if v = 0 then res = (zeroF f zneg, 0)
  else RoundedOnce f rm ftz sat (decide (v < 0)) (fun k q => dyLe k q v.natAbs e) (fun k q => dyLe v.natAbs e k q) res
/-- The result of an operation with a NaN among its operands (R73): the first one quieted under LNAN, else the canonical NaN. -/
def NanResult (f : FFmt) (md : FMode) (ops : List Nat) (nv : Prop) (res : Nat × FFlags) : Prop :=
  (md.lnan = false → res.1 = nanF f) ∧ (md.lnan = true → ∃ (i x : Nat), ops[i]? = some x ∧ isNanF f x ∧ (∀ (j y : Nat), j < i → ops[j]? = some y → ¬ isNanF f y) ∧ res.1 = x ||| 2 ^ (f.fw - 1))
  ∧ (nv → res.2 = flNV) ∧ (¬ nv → res.2 = 0)
/-- One number is less than, or not greater than, another: NaN excluded (R74, R205). -/
def leF (f : FFmt) (daz : Bool) (a b : Nat) : Prop :=
  (isInfF f a ∧ negF f a = true) ∨ (isInfF f b ∧ negF f b = false) ∨ (isFinF f a ∧ isFinF f b ∧ dyLe (intF f daz a) (powF f a) (intF f daz b) (powF f b))

/-- One sum with its special operands (R203): two infinities of opposite signs give the canonical NaN with NV. -/
def SumIs (f : FFmt) (rm : RM) (md : FMode) (a b : Nat) (res : Nat × FFlags) : Prop :=
  let e := min (powF f a) (powF f b)
  (isNanF f a ∨ isNanF f b → NanResult f md [a, b] (isSigF f a ∨ isSigF f b) res)
  ∧ (isInfF f a → isInfF f b → negF f a ≠ negF f b → res = (nanF f, flNV))
  ∧ (isInfF f a → (isFinF f b ∨ (isInfF f b ∧ negF f a = negF f b)) → res = (infF f (negF f a), 0))
  ∧ (isFinF f a → isInfF f b → res = (infF f (negF f b), 0))
  ∧ (isFinF f a → isFinF f b → RoundedExact f rm md.ftz false (intF f md.daz a * 2 ^ (powF f a - e).toNat + intF f md.daz b * 2 ^ (powF f b - e).toNat) e
      (if sigF f md.daz a = 0 ∧ sigF f md.daz b = 0 ∧ negF f a = negF f b then negF f a else rm == .rd) res)
/-- One product (R203): 0 × ∞ gives the canonical NaN with NV. -/
def ProductIs (f : FFmt) (rm : RM) (md : FMode) (a b : Nat) (res : Nat × FFlags) : Prop :=
  let s := negF f a != negF f b
  (isNanF f a ∨ isNanF f b → NanResult f md [a, b] (isSigF f a ∨ isSigF f b) res)
  ∧ (¬ isNanF f a → ¬ isNanF f b → isInfF f a ∨ isInfF f b →
      ((isFinF f a ∧ sigF f md.daz a = 0) ∨ (isFinF f b ∧ sigF f md.daz b = 0) → res = (nanF f, flNV))
      ∧ (¬ ((isFinF f a ∧ sigF f md.daz a = 0) ∨ (isFinF f b ∧ sigF f md.daz b = 0)) → res = (infF f s, 0)))
  ∧ (isFinF f a → isFinF f b → RoundedExact f rm md.ftz false (intF f md.daz a * intF f md.daz b) (powF f a + powF f b) s res)
/-- One fused product and sum, rounded once (R203); 0 × ∞ raises NV beside a quiet NaN too. -/
def FusedIs (f : FFmt) (rm : RM) (md : FMode) (a b c : Nat) (res : Nat × FFlags) : Prop :=
  let s := negF f a != negF f b
  let bad := (isInfF f a ∧ isFinF f b ∧ sigF f md.daz b = 0) ∨ (isInfF f b ∧ isFinF f a ∧ sigF f md.daz a = 0)
  let e := min (powF f a + powF f b) (powF f c)
  (isNanF f a ∨ isNanF f b ∨ isNanF f c → NanResult f md [a, b, c] (isSigF f a ∨ isSigF f b ∨ isSigF f c ∨ bad) res)
  ∧ (¬ isNanF f c → bad → res = (nanF f, flNV))
  ∧ (¬ isNanF f a → ¬ isNanF f b → ¬ bad → isInfF f a ∨ isInfF f b →
      (isInfF f c → negF f c ≠ s → res = (nanF f, flNV)) ∧ (isFinF f c ∨ (isInfF f c ∧ negF f c = s) → res = (infF f s, 0)))
  ∧ (isFinF f a → isFinF f b → isInfF f c → res = (infF f (negF f c), 0))
  ∧ (isFinF f a → isFinF f b → isFinF f c →
      RoundedExact f rm md.ftz false (intF f md.daz a * intF f md.daz b * 2 ^ (powF f a + powF f b - e).toNat + intF f md.daz c * 2 ^ (powF f c - e).toNat) e
        (if (sigF f md.daz a = 0 ∨ sigF f md.daz b = 0) ∧ sigF f md.daz c = 0 ∧ s = negF f c then s else rm == .rd) res)


/-! ### Events -/

/-- An event can act on the warp: its block is resident, runs, and is not being saved or restored. -/
def Resident (s : State) (u i : Nat) (b : Block) (w : Warp) : Prop :=
  getBlock s u = some b ∧ getWarp s u i = some w ∧ b.core.isSome ∧ b.frozen = false ∧ b.saving = false ∧ b.started = true

/-- An asynchronous cause reaches the warp `w` (R300, R301, R340): the warp holds it, behind those it holds already, until its next S-issue
(HeldCausesEntered); a block that has failed takes none (R346). Memory is as before. -/
def Interrupts (s t : State) (b : Block) (w : Warp) (r : TrapRec) : Prop :=
  getWarp t b.uid w.idx = some (if b.frozen then w else { w with held := w.held ++ [{ r with asyn := true }] }) ∧ SameMemory s t

/-- Of the units of a core's engine at most `u` is occupied anew, for `n` clocks (R299). -/
def Occupied (x y : Core) (u n : Nat) : Prop := ∀ k, y.engFree.get 0 k = x.engFree.get 0 k ∨ (k = u ∧ y.engFree.get 0 k = x.cyc + n)

/-- A command of core `c` has run, its unit occupied for `n` clocks (R110, R262): it has left the engine, its block is `b'`, and its warp has changed as `P` says; in
class TL the batches that are complete may count as done. Nothing else differs. -/
structure Ran (s t : State) (c n : Nat) (m : Cmd) (b' : Block) (P : Warp → Warp → Prop) : Prop where
  block : ∃ x, getBlock t m.block = some x ∧ x = { b' with warps := x.warps }
  warp : ∀ w, getWarp s m.block m.warp = some w → ∃ v w', P w v ∧ getWarp t m.block m.warp = some w' ∧ w' = { v with tlq := w'.tlq, closed := w'.closed }
  warps : ∀ j, j ≠ m.warp → getWarp t m.block j = getWarp s m.block j
  others : ∀ v, v ≠ m.block → getBlock t v = getBlock s v
  core : getCore t c = { getCore s c with cmds := (getCore s c).cmds.filter fun y => y.id != m.id, engFree := (getCore t c).engFree }
  units : Occupied (getCore s c) (getCore t c) (unitNo m) n
  cores : ∀ k, k ≠ c → getCore t k = getCore s k
  rest : t = { s with blocks := t.blocks, cores := t.cores }

/-- The unsigned number of a tile row's bytes; its element `k` of `e` bits (R64, R268). -/
def rowNum (b : Block) (t y : Nat) : Nat → Nat
  | 0 => 0
  | n + 1 => rowNum b t y n + (tileByte b t y n).toNat * 256 ^ n
/-- The sum of products of integer elements (R81). -/
def dotInt (b : Block) (ta i ea : Nat) (sa : Bool) (na tb j eb : Nat) (sb : Bool) (nb : Nat) : Nat → Int
  | 0 => 0
  | k + 1 => dotInt b ta i ea sa na tb j eb sb nb k + valOf ea sa (elemOf ea k (rowNum b ta i na)) * valOf eb sb (elemOf eb k (rowNum b tb j nb))

/-- What chunk `h` of an mma makes of its block in clock `cyc` (R80, R81, R83, R84, R276, R386): only accumulator `n` within M × N differs. Each element takes the exact sum
of the chunk's products, by AddInt32 or by one rounding to F32 and an F32 addition; plain integers that wrap take the sum of their products modulo 2^32. ACCSAT's bit is set
where an element saturates, and a set bit stays. -/
def ChunkIs (b b' : Block) (cyc n ta tb : Nat) (f : DWord) (ca cb : Word) (tabs : List Byte × List Byte) (h : Nat) : Prop :=
  let kk := kOf ca (fsA f)
  let g := chunkLen (fsA f) (fsB f)
  let row := fun i => expandRow b (mmaOpA ta f ca tabs) (fsMode f) (fsMid f) i
  let col := fun j => expandRow b (mmaOpB tb f cb tabs) (fsMode f) (fsMid f) j
  let sum := fun i j => chunkSum g (row i).vals (col j).vals h
  let exceeds := fun i j => fsInt f = true ∧ fsSat f = true ∧ ((accEl b n i j).toInt + xInt (sum i j) < -(2 ^ 31) ∨ 2 ^ 31 - 1 < (accEl b n i j).toInt + xInt (sum i j))
  b' = { b with accs := b'.accs, accPois := b'.accPois, accSat := b'.accSat, satNew := b'.satNew, satAt := b'.satAt }
  ∧ (∀ k i j, i < 128 → j < 128 → (k ≠ n ∨ tcRows ca ≤ i ∨ tcRows cb ≤ j) → accEl b' k i j = accEl b k i j ∧ accBad b' k i j = accBad b k i j)
  ∧ (∀ k, k < 48 → (b'.accSat.getLsbD k = true ↔ b.accSat.getLsbD k = true ∨ (k = n ∧ ∃ i j, i < tcRows ca ∧ j < tcRows cb ∧ exceeds i j)))
  ∧ ((∃ i j, i < tcRows ca ∧ j < tcRows cb ∧ exceeds i j) → n < 48 → b'.satAt = cyc + 1 ∧ b'.satNew.getLsbD n = true)
  ∧ ∀ i j, i < tcRows ca → j < tcRows cb →
      accBad b' n i j = (accBad b n i j || rowBad b ta i || rowBad b tb j)
      ∧ (∀ wa sa wb sb, fsInt f = true → fsSat f = false → intOfCode (fsA f) = some (wa, sa) → intOfCode (fsB f) = some (wb, sb) → fsMode f = 0 → kOf cb (fsB f) = kk → (h + 1) * g ≤ kk →
          ((accEl b' n i j).toInt - (accEl b n i j).toInt - (dotInt b ta i wa sa (tcBytes ca) tb j wb sb (tcBytes cb) ((h + 1) * g) - dotInt b ta i wa sa (tcBytes ca) tb j wb sb (tcBytes cb) (h * g))) % 2 ^ 32 = 0)
      ∧ (fsInt f = true → fsSat f = true → (accEl b' n i j).toInt = max (-(2 ^ 31)) (min ((accEl b n i j).toInt + xInt (sum i j)) (2 ^ 31 - 1)))
      ∧ (fsInt f = true → fsSat f = false → ((accEl b' n i j).toInt - (accEl b n i j).toInt - xInt (sum i j)) % 2 ^ 32 = 0)
      ∧ (fsInt f = false → (accEl b' n i j).toNat = add32 (accEl b n i j).toNat (xRound (if fsMode f = 2 then xMul (xMul (sum i j) (row i).scale) (col j).scale else sum i j)))

/-- The micro-operations that access no memory and no tile (R131). -/
def regOnly (n : Nat) : Bool := (1 ≤ n && n ≤ 12) || (15 ≤ n && n ≤ 18) || n == 22
/-- One such micro-operation of an element whose accumulator word is `a` (R86, R288 to R291): the registers, the row's reduction and the fold before and after. -/
def UopIs (a : Word) (consts : List Word) (u : Uop) (R R' : Nat → Word) (red red' : Option Word) (fold fold' : DWord) : Prop :=
  let put := fun (v : Nat) => R' = (fun k => if k = u.dd then BitVec.ofNat 32 v else R k) ∧ red' = red ∧ fold' = fold
  let put' := fun (v : Int) => put (v % 2 ^ 32).toNat
  let x := R u.da
  let y := R u.db
  let z := R u.dc
  let int := u.x % 2 = 1
  let fl := fun (hi : Bool) (p q : Nat) => canon (fMinMax fmF32 {} hi p q).1
  match u.op with
  | 0x01 => put a.toNat
  | 0x02 => if int then put (x + y).toNat else put (add32 x.toNat y.toNat)
  | 0x03 => if int then put (x - y).toNat else put (add32 x.toNat (y ^^^ 0x80000000#32).toNat)
  | 0x04 => if int then put (x * y).toNat else put (mul32 x.toNat y.toNat)
  | 0x05 => put (fFma fmF32 .rn {} x.toNat y.toNat z.toNat).1
  | 0x06 => if int then put' (max x.toInt y.toInt) else put (fl true x.toNat y.toNat)
  | 0x07 => if int then put' (min x.toInt y.toInt) else put (fl false x.toNat y.toNat)
  | 0x08 => if int then put' x.toInt.natAbs else put (canon (x.toNat % 2 ^ 31))
  | 0x09 => put (fSfu .exp2 {} x.toNat).1
  | 0x0A => put (fSfu .rcp {} x.toNat).1
  | 0x0B => if int then put' (min (max x.toInt y.toInt) z.toInt) else put (fl false (fl true x.toNat y.toNat) z.toNat)
  | 0x0C => put (consts.getD u.x 0).toNat
  | 0x0F => put (fConv (u.x % 16) (u.x / 16 % 16) .rn {} (u.x / 256 % 2 == 1) x.toNat).1
  | 0x10 => put (fConv 0 (if int then 13 else 12) .rn {} false x.toNat).1
  | 0x11 => R' = R ∧ fold' = fold ∧ red' = some (match red with
      | none => x
      | some v => BitVec.ofNat 32 (if int then fl true v.toNat x.toNat else add32 v.toNat x.toNat))
  | 0x12 => R' = R ∧ red' = red ∧ fold' = BitVec.ofNat 64 (add64 fold.toNat (widen x.toNat))
  | 0x16 => put (if z.toNat < 2 ^ 31 then x else y).toNat
  | _ => False

/-- The drain of engine `e`, alone with its number. -/
structure OnEngine (s : State) (c e : Nat) (m : Cmd) (b : Block) : Prop where
  here : onEngine (getCore s c) e = some m
  only : ∀ y ∈ (getCore s c).cmds, y.id = m.id → y = m
  block : getBlock s m.block = some b
/-- Of the machine only the point of one command of core `c` has moved on: it is `m'` now. -/
structure PointIs (s t : State) (c : Nat) (m m' : Cmd) : Prop where
  same : m' = { m with started := m'.started, drain := m'.drain }
  core : getCore t c = { getCore s c with cmds := (getCore s c).cmds.map fun y => if y.id = m.id then m' else y, engFree := (getCore t c).engFree }
  units : Occupied (getCore s c) (getCore t c) (3 + m'.drain.eng) (engTime m)
  cores : ∀ k, k ≠ c → getCore t k = getCore s k
  rest : t = { s with cores := t.cores }


/-- emax of an MX element type, 0x8 for MXINT8 (R67). -/
def mxTop (code : Nat) : Int := match code with | 3 => 8 | 4 => 15 | 5 => 2 | 6 => 4 | 7 => 2 | _ => 0
/-- The scale byte and the element patterns of an MX block of F32 values (R68). -/
def MxIs (code : Nat) (vs : List Word) (e : Nat) (ps : List Nat) : Prop :=
  let sig := fun (v : Word) => (sigF fmF32 false v.toNat : Int)
  let pow := fun (v : Word) => powF fmF32 v.toNat
  ps.length = vs.length
  ∧ ((∃ v ∈ vs, isFinF fmF32 v.toNat = false) → e = 0xFF ∧ ∀ p ∈ ps, p = 0)
  ∧ ((∀ v ∈ vs, isFinF fmF32 v.toNat = true) → ∃ x : Int, -127 ≤ x ∧ x ≤ 127 ∧ (e : Int) = x + 127
      ∧ ((∀ v ∈ vs, sig v = 0) → x = -127)
      ∧ (∀ top : Int, (∃ v ∈ vs, dyLe 1 top (sig v) (pow v)) → (∀ v ∈ vs, ¬ dyLe 1 (top + 1) (sig v) (pow v)) → x = max (-127) (min (top - mxTop code) 127))
      ∧ ∀ (i : Nat) (v : Word) (p : Nat), vs[i]? = some v → ps[i]? = some p →
        (code = 8 → p < 256 ∧ ∃ k : Nat, RoundsTo .rn (negF fmF32 v.toNat) (fun j q => dyLe j q (sig v) (pow v + 6 - x)) (fun j q => dyLe (sig v) (pow v + 6 - x) j q) k 0
          ∧ valOf 8 true p = max (-128) (min (if negF fmF32 v.toNat then -(k : Int) else k) 127))
        ∧ ∀ g, code ≠ 8 → fmtOfCode code = some g → ∃ fl, RoundedExact g .rn false true (intF fmF32 false v.toNat) (pow v - x) (negF fmF32 v.toNat) (p, fl))
/-- Elements of `w` bits one after another, the first lowest (R64). -/
def bitStream (w : Nat) (ps : List Nat) : Nat := (ps.zipIdx.map fun e => e.1 % 2 ^ w * 2 ^ (w * e.2)).sum


/-! ### Queues, grids and placement -/

/-- Every other launch queue is as before. -/
def QueuesBut (s t : State) (k n : Nat) : Prop := ∀ i j, (i, j) ≠ (k, n) → getQueue t i j = getQueue s i j
/-- A queue of the device that its registers reach (R317, R425). -/
def QueueHere (s : State) (k n : Nat) (q : Queue) : Prop := answering s = true ∧ k < 4 ∧ n < 64 ∧ getQueue s k n = q
/-- No block of the grid `i` of queue `n` is left. -/
def GoneBlocks (t : State) (k n i : Nat) : Prop := ∀ u b, getBlock t u = some b → ¬(b.part = k ∧ b.queue = n ∧ b.packet = i)

/-- Where the dispatcher puts a block (R327): on the fitting core that comes first, those with TALW at or above 0 by COREID, then by falling TALW. -/
def FirstFit (s : State) (k : Nat) (n : Need) (c : Nat) : Prop :=
  c ∈ partCores s k ∧ fits s c n = true ∧ ∀ d, d ∈ partCores s k → d ≠ c → fits s d n = true →
    (0 ≤ talwOf s c ∧ (talwOf s d < 0 ∨ c < d)) ∨ (talwOf s c < 0 ∧ talwOf s d < 0 ∧ (talwOf s d < talwOf s c ∨ talwOf s d = talwOf s c ∧ c < d))
/-- The only ready grid of a partition is `g`. -/
def OnlyReady (s : State) (k : Nat) (g : Grid) : Prop := g ∈ s.grids ∧ g.part = k ∧ readyGrid s g = true ∧ ∀ h ∈ s.grids, h.part = k → readyGrid s h = true → h = g

/-- A warp at its start (R27, R38, R60, R319). -/
structure StartsAs (g : Grid) (b : Block) (i : Nat) (w : Warp) : Prop where
  spc : w.spc = g.kd.sentry
  regs : ∀ r : SReg, sreg w r = if r = 2 then g.lpb.karg else if r = 3 then BitVec.ofNat 64 b.idx else if r = 4 then BitVec.ofNat 64 i
    else if r = 5 then BitVec.ofNat 64 g.lpb.blkw else if r = 6 then BitVec.ofNat 64 (g.lpb.gx * g.lpb.gy * g.lpb.gz) else 0
  mode : w.width = g.lpb.width ∧ w.lmode = g.lpb.lmode ∧ w.partn = 6 ∧ w.handler = false ∧ w.swait = .run
  split : ∀ k, getSplit w k = if k = 0 then some { mask := maskOf fun l => l < g.lpb.width, wait := .lnext } else none
  empty : w.stack = [] ∧ w.bq = [] ∧ w.sb = [] ∧ (∀ q, w.qs.get [] q = []) ∧ (∀ p, w.preds.get 0 p = 0) ∧ ∀ k, w.kregs.get 0 k = 0

/-- The block's save slots, rows and charges are as it ran, but its warps wait for nothing that a restore repeats (R347). -/
def Stopped (s t : State) (u : Nat) (b : Block) : Prop :=
  (∃ c, getBlock t u = some c ∧ c = { b with saving := true, bankWait := [], warps := c.warps })
  ∧ (∀ i w, getWarp s u i = some w → ∃ w', getWarp t u i = some w' ∧ w' = { w with swait := w'.swait, splits := w'.splits }
      ∧ ∀ k p, getSplit w k = some p → ∃ x, getSplit w' k = some { p with wait := x })
  ∧ ∀ v, v ≠ u → getBlock t v = getBlock s v

/-- No live or stacked split can go on (R43): each waits at an LNEXT or at an LJOIN whose address another records, none of two that could fuse, and not all at LNEXT. -/
def Stuck (es : List (DWord × Option DWord × LWait)) : Prop :=
  (∃ e ∈ es, e.2.2 = .ljoin) ∧ ∀ (i : Nat) (e : DWord × Option DWord × LWait), es[i]? = some e → e.2.2 = .lnext ∨ (e.2.2 = .ljoin ∧ e.2.1 = some e.1 ∧ (∃ (j : Nat) (x : DWord × Option DWord × LWait), j ≠ i ∧ es[j]? = some x ∧ x.2.1 = some e.1)
    ∧ ∀ (j : Nat) (x : DWord × Option DWord × LWait), j ≠ i → es[j]? = some x → x.2.1 = some e.1 → x.2.2 = .ljoin → x.1 ≠ e.1)


/-! ### Steps -/

/-- A stream has its turn: no candidate for its slot goes before it (R331), and no other stream of its warp traps first (R339). -/
structure HasTurn (s : State) (c : Nat) (e : Machine.Stream) : Prop where
  first : ∀ d ∈ streamsOn s c, aheadOf s c d e = true → canIssue s c d = false
  alone : yields s e = false
/-- The S-stream of a warp may issue now: its warp may issue, nothing is due before the word at SPC, no load of it is outstanding, its quadrant's slot of the clock is free and its own, and no
breakpoint stands there (R11, R160, R301, R303, R331, R333, R363). -/
structure SIssues (s : State) (b : Block) (w : Warp) : Prop where
  may : mayIssue s b w = true ∧ streamLet s b w false 0 = true ∧ stepOver w = none
  none_due : w.pending = none ∧ wtimDue w = false ∧ heldNext w = none ∧ unwindNext w = none ∧ w.acqFence = false
  run : w.swait = .run ∧ w.sload = []
  slot : (getCore s (coreNo b)).sUsed.get 0 (quadOf w) = 0 ∧ w.sNext ≤ (getCore s (coreNo b)).cyc
  unbroken : ibpOf s (coreNo b) b w none = none
  turn : HasTurn s (coreNo b) (b.uid, w.idx, 4)
/-- The split `k` of a warp may issue now, at its LPC or at the word it repeats (R11, R131, R217, R246, R303, R331, R333, R363). -/
structure LIssues (s : State) (b : Block) (w : Warp) (k : Nat) (p : Split) : Prop where
  may : mayIssue s b w = true ∧ streamLet s b w true k = true ∧ stepOver w = none
  user : w.handler = false ∧ w.pending = none ∧ w.acqFence = false ∧ asking w = false ∧ trapsFirst w = false
  split : k < 4 ∧ getSplit w k = some p ∧ p.wait = .run ∧ heldL w k = false
  slot : (getCore s (coreNo b)).lUsed.get 0 (quadOf w) < 2 ∧ p.nextCyc ≤ (getCore s (coreNo b)).cyc
  unbroken : ibpOf s (coreNo b) b w (some k) = none
  turn : HasTurn s (coreNo b) (b.uid, w.idx, k)

/-- A stream that takes a slot has won it (R331). -/
def winning (s u : State) (c : Nat) (e : Machine.Stream) : State := if canIssue s c e then won u c e else u
/-- What a step adds once an S-instruction has issued: what its issue counts and charges, the breakpoint that it has passed, and its quadrant's slot of the clock (R11, R332, R363, R379). -/
def afterS (s t : State) (b : Block) (w : Warp) (i : Instr) : State :=
  let u := afterIssue s t b w i false 0
  let u := if u.sel.issued then modWarp u b.uid w.idx fun y => passedBp y w.spc w.handler else u
  winning s (if beginsNow t b w false then modCore u (coreNo b) fun c => { c with sUsed := c.sUsed.set 0 (quadOf w) 1 } else u) (coreNo b) (b.uid, w.idx, 4)
/-- The same of an L-instruction, with its quadrant's lanes; `o` is as the step began, `s` with the split selected. -/
def afterL (o s t : State) (b : Block) (w : Warp) (k : Nat) (i : Instr) : State :=
  let u := afterIssue s t b w i true k
  winning o (if u.sel.issued then takeSlotL (usedSplit u b.uid w k (getCore s (coreNo b)).cyc) (coreNo b) (quadOf w) (laneClocks w i) else u) (coreNo b) (b.uid, w.idx, k)

end Sys2Proof.Claims

open Sys2Proof.Claims

/-! ### The scalar stream -/

/-- R163: salu writes S[D] := f(S[A], S[B]) and changes nothing else; a word with an F above 19, or with a B of clz or popc, is none. -/
def Obligations.SaluWritesItsFunction : Prop :=
  (∀ (f : SaluOp) (d a c : SReg) (s : State) (b : Block) (w : Warp), me s = some (b, w) →
    ∃ v, SaluIs f (sreg w a) (sreg w c) v ∧ SCompletes (.salu f d a c) s b w d v (w.spc + 4))
  ∧ ∀ x k : Word, x.toNat / 2 ^ 26 = 0x01 →
      (20 ≤ x.toNat % 2 ^ 8 → decodeS x k = .refused .undefinedSub)
      ∧ (x.toNat % 2 ^ 8 = 18 ∨ x.toNat % 2 ^ 8 = 19 → x.toNat / 2 ^ 8 % 2 ^ 6 ≠ 0 → decodeS x k = .refused .reservedField)

/-- R164: the immediate forms; a shift immediate above 63, and an A of slui, are no such form. -/
def Sys2Proof.Claims.ImmediateForms : Prop :=
  (∀ (d a n : SReg) (i : BitVec 14) (s : State) (b : Block) (w : Warp), me s = some (b, w) →
    ∃ v1 v2 v3 v4 v5 v6 v7 v8 : DWord,
      ((v1.toInt - (sreg w a).toInt - i.toInt) % (2 ^ 64 : Int) = 0 ∧ SCompletes (.saddi d a i) s b w d v1 (w.spc + 4))
      ∧ ((∀ k, k < 64 → v2.getLsbD k = ((sreg w a).getLsbD k && i.getLsbD (min k 13))) ∧ SCompletes (.sandi d a i) s b w d v2 (w.spc + 4))
      ∧ ((∀ k, k < 64 → v3.getLsbD k = ((sreg w a).getLsbD k || i.getLsbD (min k 13))) ∧ SCompletes (.sori d a i) s b w d v3 (w.spc + 4))
      ∧ ((∀ k, k < 64 → v4.getLsbD k = ((sreg w a).getLsbD k != i.getLsbD (min k 13))) ∧ SCompletes (.sxori d a i) s b w d v4 (w.spc + 4))
      ∧ (v5.toNat = (sreg w a).toNat * 2 ^ n.toNat % 2 ^ 64 ∧ SCompletes (.sshli d a n) s b w d v5 (w.spc + 4))
      ∧ (v6.toNat = (sreg w a).toNat / 2 ^ n.toNat ∧ SCompletes (.sshri d a n) s b w d v6 (w.spc + 4))
      ∧ (v7.toInt = (sreg w a).toInt / (2 ^ n.toNat : Int) ∧ SCompletes (.ssrai d a n) s b w d v7 (w.spc + 4))
      ∧ (v8.toInt = i.toInt * 2 ^ 14 ∧ SCompletes (.slui d i) s b w d v8 (w.spc + 4)))
  ∧ ∀ x k : Word, (6 ≤ x.toNat / 2 ^ 26 ∧ x.toNat / 2 ^ 26 ≤ 8 ∧ x.toNat / 2 ^ 6 % 2 ^ 8 ≠ 0) ∨ (x.toNat / 2 ^ 26 = 9 ∧ x.toNat / 2 ^ 14 % 2 ^ 6 ≠ 0) → decodeS x k = .refused .reservedField

/-- R165: a pair is one instruction; slit sets the whole register, slith its high half; an F above 1, and an A, make no pair. -/
def Sys2Proof.Claims.PairForms : Prop :=
  (∀ (d : SReg) (k : Word) (s : State) (b : Block) (w : Warp), me s = some (b, w) →
    ∃ v u : DWord, v.toInt = k.toInt ∧ u.toNat = k.toNat * 2 ^ 32 + (sreg w d).toNat % 2 ^ 32
      ∧ SCompletes (.slit d k) s b w d v (w.spc + 8) ∧ SCompletes (.slith d k) s b w d u (w.spc + 8))
  ∧ ∀ x k : Word, x.toNat / 2 ^ 26 = 0x0A → (2 ≤ x.toNat % 2 ^ 14 → decodeS x k = .refused .undefinedSub)
      ∧ (x.toNat % 2 ^ 14 < 2 → x.toNat / 2 ^ 14 % 2 ^ 6 ≠ 0 → decodeS x k = .refused .reservedField)

/-- `ImmediateForms` and `PairForms` hold. -/
def Obligations.ImmediateAndPairForms : Prop := Sys2Proof.Claims.ImmediateForms ∧ Sys2Proof.Claims.PairForms

/-- R166: a compare branch goes to SPC + 4 × Sext(O, 14) when its condition holds, else on to SPC + 4, and writes no register. -/
def Sys2Proof.Claims.CompareBranches : Prop :=
  ∀ (i : Instr) (a c : SReg) (o : BitVec 14) (p : DWord → DWord → Prop) (s : State) (b : Block) (w : Warp),
    branchOf i = some (a, c, o, p) → me s = some (b, w) →
      (p (sreg w a) (sreg w c) → SCompletes i s b w 0 0 (w.spc + BitVec.ofInt 64 (4 * o.toInt)))
      ∧ (¬ p (sreg w a) (sreg w c) → SCompletes i s b w 0 0 (w.spc + 4))

/-- R167: sbr links and jumps. -/
def Sys2Proof.Claims.BranchAndLink : Prop :=
  ∀ (d : SReg) (o : BitVec 20) (s : State) (b : Block) (w : Warp), me s = some (b, w) →
    SCompletes (.sbr d o) s b w d (w.spc + 4) (w.spc + BitVec.ofInt 64 (4 * o.toInt))


/-- R168: sjr reads its target before it links; an unaligned target traps ALIGN before any effect. Words with a nonzero B or F field are no sjr. -/
def Sys2Proof.Claims.JumpThroughRegister : Prop :=
  (∀ (d a : SReg) (s : State) (b : Block) (w : Warp), me s = some (b, w) →
    ((sreg w a).toNat % 4 = 0 → SCompletes (.sjr d a) s b w d (w.spc + 4) (sreg w a))
    ∧ ((sreg w a).toNat % 4 ≠ 0 → STraps (.sjr d a) s b w 0x06 1 0))
  ∧ ∀ x : Word, x.toNat / 2 ^ 26 = 0x13 →
      decodeTableWord 32 x.toNat = if x.toNat % 2 ^ 14 = 0 then some (.sjr (BitVec.ofNat 6 (x.toNat / 2 ^ 20)) (BitVec.ofNat 6 (x.toNat / 2 ^ 14))) else none

/-- `CompareBranches`, `BranchAndLink` and `JumpThroughRegister` hold.
FADDR 0 in the frame of the ALIGN trap of sjr is the model's choice, as R168 names no address (assumption 89).
Where it goes beyond these rules it is the model's own reading (assumption 89). -/
def Obligations.ScalarBranches : Prop := Sys2Proof.Claims.CompareBranches ∧ Sys2Proof.Claims.BranchAndLink ∧ Sys2Proof.Claims.JumpThroughRegister

/-- R99, R105, R111, R169 to R171: the loads of the S-stream, of `n` bytes, zero-extended. Bytes that the store buffer holds whole arrive at once, unless an
older access of the warp or a drain still has to reach them; a scratchpad load reads its bank. Of a load of device or host memory the request is
sent and the S-stream goes on; at a load of a peer, and in a single step, it waits for the answer. -/
def Sys2Proof.Claims.LoadsIssue : Prop :=
  ∀ (d a : SReg) (wd : BitVec 2) (i : BitVec 12) (s : State) (b : Block) (w : Warp) (ea : DWord) (n : Nat), me s = some (b, w) →
    ea = sreg w a + i.signExtend 64 → n = 2 ^ wd.toNat →
    (∀ l, LoadNow s b w ea l n →
      ((∀ j, j < n → (sbByte (olderEnts w s.serial) (gAdd l j)).isSome) →
        (drainHolds s b.uid l = false → olderOp s b.uid w.idx s.serial (.g l) n = false → forwardPois w s.serial l n = false → NoWatch s (.g l) n 2 →
          ∃ v : DWord, v.toNat < 256 ^ n ∧ (∀ j, j < n → sbByte (olderEnts w s.serial) (gAdd l j) = some (BitVec.ofNat 8 (v.toNat / 256 ^ j)))
            ∧ SCompletes (.sld d a wd i) s b w d v (w.spc + 4))
        ∧ (drainHolds s b.uid l = true ∨ olderOp s b.uid w.idx s.serial (.g l) n = true → SWaits (.sld d a wd i) s b w .retry))
      ∧ ((∃ j, j < n ∧ sbByte (olderEnts w s.serial) (gAdd l j) = none) →
        ((∀ x y, l ≠ .peer x y) → w.sstep = none → exec (.sld d a wd i) s = .next (setWarp
          { s with serial := s.serial + 1, ops := s.ops ++ [loadOp s b w ea l n (some d.toNat)] }
          b.uid { w with spc := w.spc + 4, swait := .run, sload := w.sload ++ [(s.serial, d.toNat)] }))
        ∧ ((∃ x y, l = .peer x y) ∨ w.sstep.isSome →
            exec (.sld d a wd i) s = .next { setWarp { s with serial := s.serial + 1, ops := s.ops ++ [loadOp s b w ea l n none] }
              b.uid { w with swait := .peer s.serial } with sel := { s.sel with issued := false } })))
    ∧ (ea.toNat % n = 0 → ∀ k, w.swait = .peer k → SWaits (.sld d a wd i) s b w (.peer k))
    ∧ (∀ v, ea.toNat % n = 0 → w.swait = .got v false → SCompletes (.sld d a wd i) s b w d (BitVec.ofNat 64 v) (w.spc + 4))
    ∧ ∀ o, o = ea.toNat → o % n = 0 → o + n ≤ b.kd.scratch → olderOp s b.uid w.idx s.serial (.spad b.uid o) n = false →
        b.spadPois.get false (o / 64) = false → NoWatch s (.spad b.uid o) n 2 →
        ∃ v : DWord, v.toNat < 256 ^ n ∧ (∀ j, j < n → v.toNat / 256 ^ j % 256 = (Memory.read b.spad (o + j)).toNat)
          ∧ SCompletes (.slds d a wd i) s b w d v (w.spc + 4)

/-- R160, R170, R417: the response to an sld performs its load, of device, host or peer memory: the bytes are what the core sees, under those that the store buffer
forwarded. They go into its register, whose pending load is over, or to the instruction that waits for the answer; memory is as before. -/
def Sys2Proof.Claims.LoadsAnswered : Prop :=
  ∀ (s : State) (o : Op) (a : LaneAcc) (b : Block) (w : Warp) (l : GLoc), findOp s o.id = some o → (∀ y ∈ s.ops, y.id = o.id → y = o) →
    getBlock s o.block = some b → getWarp s o.block o.warp = some w → (∀ r ∈ w.reqs, r.id ≠ o.id) → o.cls = .ld → o.kind = .load false false false →
    o.counted = false → o.dest = [] → o.result = [] → o.lines = [] → o.todo = [a] → a.loc = some (.g l) → laneFree s o a = true → a.fwd.length = o.bytes →
    a.bPois = false → seenPois s o.core l = false → NoWatch s (.g l) o.bytes 2 → 0 < o.bytes → 128 % o.bytes = 0 → gAddr l % o.bytes = 0 →
    ∃ t w' v, exec (.loadResponse o.id) s = .next t ∧ v < 256 ^ o.bytes
      ∧ (∀ j, j < o.bytes → v / 256 ^ j % 256 = (match a.fwd.getD j none with | some z => z | none => seenByte s o.core { w with sb := [] } (gAdd l j)).toNat)
      ∧ (∀ y ∈ t.ops, y.id ≠ o.id) ∧ OtherWarps s t o.block o.warp ∧ getWarp t o.block o.warp = some w' ∧ SameMemory s t ∧ MayEvict s t
      ∧ (∀ d, o.sdest = some d → d < 64 → w' = { w with sregs := w'.sregs, badS := w'.badS, sload := w.sload.filter fun e => e.1 != o.id }
          ∧ SWrites w w' (BitVec.ofNat 6 d) (BitVec.ofNat 64 v))
      ∧ (o.sdest = none → w' = if w.swait = .peer o.id then { w with swait := .got v false } else w)
      ∧ t = { s with blocks := t.blocks, cores := t.cores, piers := t.piers, ops := t.ops, scopes := t.scopes, l2Bad := t.l2Bad, fresh := t.fresh }
      ∧ (∀ c, getCore t c = { getCore s c with l1 := (getCore t c).l1 }) ∧ ∀ p, getPier t p = { getPier s p with rdc := (getPier t p).rdc }

/-- `LoadsIssue` and `LoadsAnswered` hold.
Where it goes beyond these rules it is the model's own reading (assumption 20). -/
def Obligations.ScalarLoads : Prop := Sys2Proof.Claims.LoadsIssue ∧ Sys2Proof.Claims.LoadsAnswered

/-- R104, R169, R171: the stores of the S-stream. The bytes of a global store stand in the warp's store buffer, the youngest for their
addresses, and memory is as before; a scratchpad store goes to its bank, and its bytes are written at its STORE_ACK. Both count in class ST.
That a store which merges into an entry of a full store buffer completes is the model's choice: R104 says only that it may merge (assumption 74).
Where it goes beyond these rules it is the model's own reading (assumption 74). -/
def Obligations.ScalarStores : Prop :=
  ∀ (d a : SReg) (wd : BitVec 2) (i : BitVec 12) (s : State) (b : Block) (w : Warp) (ea : DWord) (n : Nat), me s = some (b, w) →
    ea = sreg w a + i.signExtend 64 → n = 2 ^ wd.toNat → ea.toNat % n = 0 → countN w .st < 4095 →
    (∀ l, Unanswered w → gAddr l % n = 0 → addrOk s b.part ea = true → xlat (getCore s (coreNo b)).tlb b.pasid ea true false = .at_ l →
      sbRoom (sbMerges s b.uid w s.serial l) w.sb b.pasid l = true → olderReq w s.serial (.g l) n = false →
      ∃ sb, exec (.sst d a wd i) s = .next (setWarp { s with serial := s.serial + 1 } b.uid
          { w with spc := w.spc + 4, swait := .run, sb := sb, sst := w.sst ++ [s.serial], stq := w.stq ++ [(s.serial, false)] })
        ∧ (∀ j, j < n → sbByte sb (gAdd l j) = some (BitVec.ofNat 8 ((sreg w d).toNat / 256 ^ j)))
        ∧ ∀ x, (∀ j, j < n → x ≠ gAdd l j) → sbByte sb x = sbByte w.sb x)
    ∧ (ea.toNat + n ≤ b.kd.scratch →
      exec (.ssts d a wd i) s = .next (setWarp
        { s with serial := s.serial + 1
                 ops := s.ops ++ [{ id := s.serial, cls := .st, block := b.uid, warp := w.idx, core := coreNo b, kind := .store, bytes := n,
                                    todo := [{ lane := 0, ea := ea.toNat, loc := some (.spad b.uid ea.toNat), b := (sreg w d).toNat % 256 ^ n }], depth := w.regions.length,
                                    regionCount := (w.regions.head?.map fun r => r.count).getD 0, issuedAt := w.issues + 1, ord := s.serial }] }
        b.uid { w with spc := w.spc + 4, swait := .run, sst := w.sst ++ [s.serial], stq := w.stq ++ [(s.serial, false)] }))

/-- R103, R117, R172, R173: satom on device memory gives the old value and leaves the new one, in one step, and records its scope on the line;
on host memory, with scope SYSTEM, it does the same without a record. An answer from a peer goes into S[D].
Where it goes beyond these rules it is the model's own reading (assumptions 20 and 32). -/
def Obligations.ScalarAtomics : Prop :=
  ∀ (op : AtomOp) (wide : Bool) (sc : Scope) (d a c : SReg) (s : State) (b : Block) (w : Warp) (n : Nat) (l : GLoc), me s = some (b, w) →
    n = (if wide then 8 else 4) →
    (AtomicNow s b w (sreg w a) l n → (match l with
        | .dev pa => gPois s l = false ∧ NoWatch s (.g l) n 3 ∧ ∀ r, s.scopes.get none (pa / 128) = some r → insideScope sc r (coreNo b) = true
        | .host _ => sc = .system
        | .peer _ _ => False) →
      ∃ (t : State) (w' : Warp) (old new : Nat), exec (.satom op wide sc d a c) s = .next t ∧ Holds s l 0 n old ∧ old < 256 ^ n
        ∧ AtomIs op (8 * n) old ((sreg w c).toNat % 256 ^ n) ((sreg w d).toNat % 256 ^ n) new ∧ Holds t l 0 n new ∧ MemoryBut s t l n
        ∧ getWarp t b.uid w.idx = some w' ∧ SWrites w w' d (BitVec.ofNat 64 old) ∧ w'.spc = w.spc + 4 ∧ w'.swait = .run ∧ SPart w w'
        ∧ OtherWarps s t b.uid w.idx ∧ (∀ k, getCore t k = { getCore s k with l1 := (getCore t k).l1 })
        ∧ (∀ k, getPier t k = { getPier s k with rdc := (getPier t k).rdc })
        ∧ t = { s with blocks := t.blocks, cores := t.cores, piers := t.piers, scopes := t.scopes, l2Bad := t.l2Bad, fresh := t.fresh, mem := t.mem,
                         hostMem := t.hostMem }
        ∧ (∀ g, t.l2Bad.get false g = true → s.l2Bad.get false g = true)
        ∧ (match l with
            | .dev pa => t.scopes.get none (pa / 128) = some ⟨sc, pierOf (coreNo b), courseOf (coreNo b), coreNo b⟩
                ∧ ∀ x, x ≠ pa / 128 → t.scopes.get none x = s.scopes.get none x ∨ t.scopes.get none x = none
            | _ => t.scopes = s.scopes)
        ∧ ∀ pa, l = .dev pa → (getCore t (coreNo b)).l1.get none (pa / 128) = none ∧ ∀ p, p < 4 → (getPier t p).rdc.get none (pa / 128) = none)
    ∧ ∀ v, (sreg w a).toNat % n = 0 → w.swait = .got v false → SCompletes (.satom op wide sc d a c) s b w d (BitVec.ofNat 64 v) (w.spc + 4)

/-- The traps of the S-stream's memory instructions: ALIGN (R169, R172), PERM beyond SCRATCH (R169), PAGE for an address that the layout or the
routes forbid (R88, R415), PAGE and PERM for a page that the host refused (R89, R170), SCOPE (R117, R118), PERM for an atomic of narrower scope
than SYSTEM in host memory (R103, R172). -/
def Obligations.ScalarMemoryTraps : Prop :=
  ∀ (d a c : SReg) (wd : BitVec 2) (i : BitVec 12) (op : AtomOp) (wide : Bool) (sc : Scope) (s : State) (b : Block) (w : Warp) (ea : DWord) (n m : Nat),
    me s = some (b, w) → ea = sreg w a + i.signExtend 64 → n = 2 ^ wd.toNat → m = (if wide then 8 else 4) →
    (∀ x, x = .sld d a wd i ∨ x = .sst d a wd i ∨ x = .slds d a wd i ∨ x = .ssts d a wd i → ea.toNat % n ≠ 0 → STraps x s b w 0x06 2 ea)
    ∧ ((sreg w a).toNat % m ≠ 0 → STraps (.satom op wide sc d a c) s b w 0x06 2 (sreg w a))
    ∧ (∀ x, x = .slds d a wd i ∨ x = .ssts d a wd i → ea.toNat % n = 0 → b.kd.scratch < ea.toNat + n → STraps x s b w 0x05 2 ea)
    ∧ (∀ x, x = .sld d a wd i ∨ x = .sst d a wd i → ea.toNat % n = 0 → (∀ v p, w.swait ≠ .got v p) → (∀ k, w.swait ≠ .peer k) →
        (addrOk s b.part ea = false → STraps x s b w 0x04 1 ea)
        ∧ (addrOk s b.part ea = true → w.swait = .refused ea.toNat false → STraps x s b w 0x04 0 ea)
        ∧ (addrOk s b.part ea = true → w.swait = .refused ea.toNat true → STraps x s b w 0x05 0 ea))
    ∧ ((sreg w a).toNat % m = 0 → (∀ v p, w.swait ≠ .got v p) → (∀ k, w.swait ≠ .peer k) → addrOk s b.part (sreg w a) = false →
        STraps (.satom op wide sc d a c) s b w 0x04 1 (sreg w a))
    ∧ ((sreg w a).toNat % m = 0 → addrOk s b.part (sreg w a) = true →
        (w.swait = .refused (sreg w a).toNat false → STraps (.satom op wide sc d a c) s b w 0x04 0 (sreg w a))
        ∧ (w.swait = .refused (sreg w a).toNat true → STraps (.satom op wide sc d a c) s b w 0x05 0 (sreg w a)))
    ∧ (∀ pa r, AtomicNow s b w (sreg w a) (.dev pa) m → s.scopes.get none (pa / 128) = some r → insideScope sc r (coreNo b) = false →
        STraps (.satom op wide sc d a c) s b w 0x07 (scopeCode r.scope + 8 * scopeCode sc) (sreg w a))
    ∧ ∀ h, AtomicNow s b w (sreg w a) (.host h) m → sc ≠ .system → STraps (.satom op wide sc d a c) s b w 0x05 4 (sreg w a)

/-- R32, R174, R175: the S-stream's queues. A push or pop that finds no room or no entry waits with no effect; an L-code address that is no
multiple of 12 traps ALIGN. -/
def Sys2Proof.Claims.ScalarQueues : Prop :=
  ∀ (q : BitVec 2) (d a : SReg) (o : BitVec 20) (s : State) (b : Block) (w : Warp), me s = some (b, w) → w.handler = false →
    ((w.qs.get [] q.toNat).length < 16 →
      exec (.pushq q a) s = .next (setWarp { s with serial := s.serial + 1 } b.uid
        { w with qs := w.qs.set [] q.toNat (w.qs.get [] q.toNat ++ [{ seq := s.serial, val := sreg w a }]), spc := w.spc + 4, swait := .run }))
    ∧ (16 ≤ (w.qs.get [] q.toNat).length → SWaits (.pushq q a) s b w (.queue q.toNat))
    ∧ (∀ e t, w.qs.get [] (4 + q.toNat) = e :: t → e.ready = true →
        ∃ w', exec (.popq d q) s = .next (setWarp s b.uid w') ∧ SWrites w w' d e.val ∧ w'.spc = w.spc + 4 ∧ w'.swait = .run
          ∧ SPart { w with qs := w.qs.set [] (4 + q.toNat) t } w')
    ∧ (∀ e t, w.qs.get [] (4 + q.toNat) = e :: t → e.ready = false → SWaits (.popq d q) s b w .retry)
    ∧ (w.qs.get [] (4 + q.toNat) = [] → SWaits (.popq d q) s b w (.queue (4 + q.toNat)))
    ∧ (∀ x t, x = .lgo o ∧ t = b.kd.lbase + 12 * o.setWidth 64 ∨ x = .lgor a ∧ t = sreg w a ∧ (sreg w a).toNat % 12 = 0 →
        (w.bq.length < 16 → exec x s = .next (setWarp s b.uid { w with bq := w.bq ++ [t], spc := w.spc + 4, swait := .run }))
        ∧ (16 ≤ w.bq.length → SWaits x s b w (.queue 8)))
    ∧ ((sreg w a).toNat % 12 ≠ 0 → STraps (.lgor a) s b w 0x06 3 0)

/-- R109, R114, R185, R281, R308: waitc, mwait, pause and the fences go on when their conditions hold and wait until then; an acquire drops
every L1 line of the core that is not marked read-only. -/
def Sys2Proof.Claims.ScalarWaits : Prop :=
  ∀ (l t c m : BitVec 6) (a : SReg) (k : FenceKind) (sc : Scope) (s : State) (b : Block) (w : Warp), me s = some (b, w) →
    let on := setWarp s b.uid { w with spc := w.spc + 4, swait := .run }
    (w.ldq.length ≤ l.toNat ∧ w.stq.length ≤ t.toNat ∧ w.cpq.length ≤ c.toNat ∧ w.tlq.length ≤ m.toNat → exec (.waitc l t c m) s = .next on)
    ∧ (¬(w.ldq.length ≤ l.toNat ∧ w.stq.length ≤ t.toNat ∧ w.cpq.length ≤ c.toNat ∧ w.tlq.length ≤ m.toNat) → SWaits (.waitc l t c m) s b w .retry)
    ∧ (∀ n, n < 65536 → (w.batch.toNat + 65536 - (sreg w a).toNat % 65536) % 65536 = n →
        (n = 0 → STraps (.mwait a) s b w 0x01 0x11A 0)
        ∧ (w.tlq.length < n → exec (.mwait a) s = .next on)
        ∧ (n ≠ 0 → n ≤ w.tlq.length → SWaits (.mwait a) s b w .retry))
    ∧ (∀ n, (getCore s (coreNo b)).cyc = n →
        (∀ e, w.swait = .pause e → (e ≤ n → exec (.sysPause a) s = .next on) ∧ (n < e → SWaits (.sysPause a) s b w (.pause e)))
        ∧ ((∀ e, w.swait ≠ .pause e) → ((sreg w a).toNat = 0 → exec (.sysPause a) s = .next on)
            ∧ (0 < (sreg w a).toNat → SWaits (.sysPause a) s b w (.pause (n + min (sreg w a).toNat 0xFFFFFFFF)))))
    ∧ (∀ ids, ids = (match w.swait with | .fence ids => ids | _ => relIds s b w (sc != .warp && sc != .block)) → k ≠ .acq →
        relDone s w ids = false → ∃ left, SWaits (.fence k sc) s b w (.fence left) ∧ ∀ x, x ∈ left ↔ x ∈ ids ∧ relDone s w [x] = false)
    ∧ (k = .acq ∨ (∃ ids, ids = (match w.swait with | .fence ids => ids | _ => relIds s b w (sc != .warp && sc != .block)) ∧ relDone s w ids = true) →
        ∃ u, exec (.fence k sc) s = .next u ∧ u.blocks = on.blocks ∧ u = { s with blocks := u.blocks, cores := u.cores }
          ∧ (∀ x, getCore u x = { getCore s x with l1 := (getCore u x).l1 })
          ∧ (k = .rel ∨ sc = .warp ∨ sc = .block → u.cores = s.cores)
          ∧ (k ≠ .rel → sc ≠ .warp → sc ≠ .block → ∀ e ∈ (getCore u (coreNo b)).l1.cells, ∃ x, e.2 = some x ∧ x.ro = true))

/-- `ScalarQueues` and `ScalarWaits` hold.
FADDR 0 in the frame of the ALIGN trap of lgor is the model's choice, as no rule names an address (assumption 89).
Where it goes beyond these rules it is the model's own reading (assumption 89). -/
def Obligations.ScalarQueuesAndWaits : Prop := Sys2Proof.Claims.ScalarQueues ∧ Sys2Proof.Claims.ScalarWaits

/-- R53, R114, R187, R188: an arrival at a block or course barrier makes its REL first: it waits until every store that the REL takes in is acknowledged, and then
while the phase is full. It counts once, and records its n; `bar` then waits and `bar.arrive` goes on. An n that differs from the phase's, or is above the
participants, traps ILLEGAL. A phase with all its arrivals, once the row writes that its arrivals follow have landed, releases its waiters, each with the ACQ of its
form, and opens a new one: at a course barrier their cores' L1s keep the read-only lines alone, at a block barrier every L1 is as it was.
Where it goes beyond these rules it is the model's own reading (assumptions 38 and 43). -/
def Obligations.Barriers : Prop :=
  (∀ (course arrive : Bool) (n : BitVec 4) (a : SReg) (s : State) (b : Block) (w : Warp) (x : Barrier) (ids : List Nat), me s = some (b, w) → w.handler = false →
    (course = true → b.gang.isSome) → (course = true → peerFailed s b = false) → x = getBar s b course n.toNat →
    ids = (match w.swait with | .barRel ids => ids | _ => relIds s b w course) →
    (∀ c m, w.swait = .barIn c m → SWaits (.bar course arrive n a) s b w (.barIn c m))
    ∧ ((∀ c m, w.swait ≠ .barIn c m) → relDone s w ids = false →
        ∃ left, SWaits (.bar course arrive n a) s b w (.barRel left) ∧ ∀ i, i ∈ left ↔ i ∈ ids ∧ relDone s w [i] = false)
    ∧ ((∀ c m, w.swait ≠ .barIn c m) → relDone s w ids = true → phaseFull s b course x = true → SWaits (.bar course arrive n a) s b w (.barRel []))
    ∧ ((∀ c m, w.swait ≠ .barIn c m) → relDone s w ids = true → phaseFull s b course x = false →
    (x.n = none ∨ x.n = some (sreg w a).toNat → (sreg w a).toNat ≤ participants s b course →
      ∃ t, exec (.bar course arrive n a) s = .next t
        ∧ getWarp t b.uid w.idx = some (if arrive then { w with spc := w.spc + 4, swait := .run } else { w with swait := .barIn course n.toNat })
        ∧ (∀ c, getBlock t b.uid = some c → getBar t c course n.toNat = 
            { arr := x.arr + 1, n := some (sreg w a).toNat, writes := x.writes ++ rowsOut s b course,
              waiting := if arrive then x.waiting else x.waiting ++ [(b.uid, w.idx)] })
        ∧ (∀ v j, (v, j) ≠ (b.uid, w.idx) → getWarp t v j = getWarp s v j) ∧ (∀ v, v ≠ b.uid → getBlock t v = getBlock s v) ∧ SameMemory s t
        ∧ t = { s with blocks := t.blocks, gangs := t.gangs, sel := t.sel })
    ∧ ((∃ m, x.n = some m ∧ m ≠ (sreg w a).toNat) ∨ participants s b course < (sreg w a).toNat → STraps (.bar course arrive n a) s b w 0x01 9 0)))
  ∧ ∀ (course : Bool) (u n : Nat) (s : State) (b : Block) (x : Barrier), getBlock s u = some b → x = getBar s b course n → b.core.isSome → b.saving = false →
      b.started = true → (course = true → ∃ g, b.gang = some g ∧ (gangBlocks s b).any (·.frozen) = false) →
      (∃ m, x.n = some m ∧ (m ≠ 0 ∧ x.arr = m ∨ m = 0 ∧ 0 < x.arr ∧ participants s b course ≤ x.arr)) →
      (∀ y ∈ gangBlocks s b, ∀ t ∈ (getCore s (coreNo y)).flight, t.id ∉ x.writes) → x.waiting.Nodup →
      (∀ e ∈ x.waiting, ∃ y, getWarp s e.1 e.2 = some y ∧ y.sstep = none) →
      ∃ t, exec (.barrierPhaseComplete course u n) s = .next t ∧ (∀ c, getBlock t u = some c → getBar t c course n = {}) ∧ SameMemory s t
        ∧ (∀ c, (getCore t c).l1.cells = if course = true ∧ ∃ e ∈ x.waiting, ∃ y, getBlock s e.1 = some y ∧ coreNo y = c
            then (getCore s c).l1.cells.filter fun e => e.2.any (·.ro) else (getCore s c).l1.cells)
        ∧ ∀ e ∈ x.waiting, ∀ y, getWarp s e.1 e.2 = some y → ∃ y', getWarp t e.1 e.2 = some y' ∧ y'.spc = y.spc + 4 ∧ y'.swait = .run

/-- R135, R189, R190: csrr. S[D] is the register's value at the issue; an absent number traps ILLEGAL; a csrr of LMODE, PARTN or FFLAGS waits; GTIME
reads within 4 of the span's count (R23), and never below an earlier reading. -/
def Sys2Proof.Claims.ReadsOfControlRegisters : Prop :=
  ∀ (d : SReg) (n : BitVec 12) (s : State) (b : Block) (w : Warp), me s = some (b, w) →
    (∀ v, csrIs s b w n.toNat = some v → settled s b w n.toNat = true → SCompletes (.csrr d n) s b w d v (w.spc + 4))
    ∧ (settled s b w n.toNat = false → SWaits (.csrr d n) s b w .retry)
    ∧ (csrIs s b w n.toNat = none → n ≠ 0x022 → STraps (.csrr d n) s b w 0x01 8 0)
    ∧ ∃ (v : Nat) (w' : Warp), s.gmark ≤ v ∧ s.gtime ≤ v ∧ v ≤ max s.gmark (s.gtime + 4)
        ∧ exec (.csrr d 0x022) s = .next (setWarp { s with gmark := v, fresh := s.fresh + 1 } b.uid w') ∧ SWrites w w' d (BitVec.ofNat 64 v)
        ∧ w'.spc = w.spc + 4 ∧ w'.swait = .run ∧ SPart w w'

/-- R4, R135, R189, R190: csrw. A supervisor register traps PERM in user mode; a bad PARTN and an absent number trap ILLEGAL; a read-only register
ignores the write; each writable one takes its fields; a saturation of the same clock keeps its bit of ACCSAT (R84). -/
def Sys2Proof.Claims.WritesOfControlRegisters : Prop :=
  ∀ (n : BitVec 12) (a : SReg) (s : State) (b : Block) (w : Warp) (v : DWord), me s = some (b, w) → v = sreg w a →
    let on := { w with spc := w.spc + 4, swait := .run }
    let ctx := getCtx s b.part b.pasid
    (csrIs s b w n.toNat = none → n ≠ 0x022 → STraps (.csrw n a) s b w 0x01 8 0)
    ∧ (csrSup n.toNat = true → STraps (.csrw n a) s b w 0x05 6 0)
    ∧ (n = 0x002 → v.toNat % 8 = 0 ∨ v.toNat % 8 = 7 → STraps (.csrw n a) s b w 0x01 2 0)
    ∧ (settled s b w n.toNat = false → ¬(n = 0x002 ∧ (v.toNat % 8 = 0 ∨ v.toNat % 8 = 7)) → SWaits (.csrw n a) s b w .retry)
    ∧ ((csrIs s b w n.toNat).isSome ∨ n = 0x022 → csrReadOnly n.toNat = true → exec (.csrw n a) s = .next (setWarp s b.uid on))
    ∧ (settled s b w 1 = true → exec (.csrw 0x001 a) s = .next (setWarp s b.uid { on with lmode := BitVec.ofNat 5 v.toNat }))
    ∧ (settled s b w 2 = true → v.toNat % 8 ≠ 0 → v.toNat % 8 ≠ 7 → exec (.csrw 0x002 a) s = .next (setWarp s b.uid { on with partn := BitVec.ofNat 3 v.toNat }))
    ∧ (settled s b w 3 = true → exec (.csrw 0x003 a) s = .next (setWarp s b.uid { on with fflags := BitVec.ofNat 5 v.toNat }))
    ∧ exec (.csrw 0x021 a) s = .next (setWarp s b.uid { on with wtimCmp := v, wtimArmed := decide (w.wtim < v.toNat) })
    ∧ (∃ t, exec (.csrw 0x045 a) s = .next t ∧ t = { s with blocks := t.blocks } ∧ (∀ u, u ≠ b.uid → getBlock t u = getBlock s u)
        ∧ ∃ c, getBlock t b.uid = some c ∧ c = { b with warps := c.warps, accSat := c.accSat } ∧ getWarp t b.uid w.idx = some on
          ∧ (∀ j, j ≠ w.idx → getWarp t b.uid j = getWarp s b.uid j) ∧ ∀ k, k < 48 → c.accSat.getLsbD k =
            (b.accSat.getLsbD k && !(v.getLsbD k && !(b.satAt == (getCore s (coreNo b)).cyc + 1 && b.satNew.getLsbD k))))
    ∧ (w.handler = true →
        exec (.csrw 0x010 a) s = .next (setWarp s b.uid { on with tvec := v })
        ∧ exec (.csrw 0x011 a) s = .next (setWarp s b.uid { on with tframe := v })
        ∧ exec (.csrw 0x013 a) s = .next (setWarp s b.uid { on with restarts := BitVec.ofNat 8 v.toNat })
        ∧ exec (.csrw 0x014 a) s = .next (setWarp s b.uid { on with rlimit := BitVec.ofNat 8 v.toNat })
        ∧ exec (.csrw 0x000 a) s = .next (setWarp s b.uid on)
        ∧ (∃ q : DWord, (∀ k, 12 ≤ k → k < 64 → q.getLsbD k = v.getLsbD k) ∧ q.toNat % 4096 = min (v.toNat % 16) 10
            ∧ exec (.csrw 0x050 a) s = .next (setCtx (setWarp s b.uid on) { ctx with errqb := q }))
        ∧ (∃ h : DWord, h.toNat % 2 ^ 31 = v.toNat % 2 ^ 31 ∧ h.toNat / 2 ^ 32 % 2 ^ 31 = ctx.errqh.toNat / 2 ^ 32 % 2 ^ 31
            ∧ h.getLsbD 31 = (ctx.errqh.getLsbD 31 && !v.getLsbD 31) ∧ h.getLsbD 63 = (ctx.errqh.getLsbD 63 && !v.getLsbD 63)
            ∧ exec (.csrw 0x051 a) s = .next (setCtx (setWarp s b.uid on) { ctx with errqh := h }))
        ∧ ∀ k, k < 32 → n.toNat = 0x100 + k →
            (¬((getPart s b.part).courses.getLsbD (2 * pierOf (coreNo b)) && (getPart s b.part).courses.getLsbD (2 * pierOf (coreNo b) + 1)) = true →
              exec (.csrw n a) s = .next (setWarp s b.uid on))
            ∧ ((getPart s b.part).courses.getLsbD (2 * pierOf (coreNo b)) = true → (getPart s b.part).courses.getLsbD (2 * pierOf (coreNo b) + 1) = true →
              ∃ t, exec (.csrw n a) s = .next t ∧ t.blocks = (setWarp s b.uid on).blocks ∧ t = { s with blocks := t.blocks, piers := t.piers }
                ∧ (getPier t (pierOf (coreNo b))).vra.get 1000 k = min (v.toNat % 1024) 1000
                ∧ (∀ j, j ≠ k → (getPier t (pierOf (coreNo b))).vra.get 1000 j = (getPier s (pierOf (coreNo b))).vra.get 1000 j)
                ∧ (getPier t (pierOf (coreNo b))) = { getPier s (pierOf (coreNo b)) with vra := (getPier t (pierOf (coreNo b))).vra }
                ∧ ∀ p, p ≠ pierOf (coreNo b) → getPier t p = getPier s p))

/-- `ReadsOfControlRegisters` and `WritesOfControlRegisters` hold.
That csrr and csrw of FFLAGS, and of LMODE and PARTN in handler mode, wait for no store or red that is not acknowledged is the model's choice (assumption 87).
Where it goes beyond these rules it is the model's own reading (assumptions 42, 44, 45 and 87). -/
def Obligations.ControlRegisters : Prop := Sys2Proof.Claims.ReadsOfControlRegisters ∧ Sys2Proof.Claims.WritesOfControlRegisters

/-- R310, R311: containment regions open to a depth of 8 and close, innermost first, once what they cover has completed. -/
def Sys2Proof.Claims.ContainmentRegions : Prop :=
  ∀ (d : SReg) (o : BitVec 20) (s : State) (b : Block) (w : Warp), me s = some (b, w) →
    (w.regions.length < 8 → ∃ w', exec (.ctopen d o) s = .next (setWarp s b.uid w') ∧ SWrites w w' d (BitVec.ofNat 64 (w.regions.length + 1))
        ∧ w'.spc = w.spc + 4 ∧ w'.swait = .run
        ∧ SPart { w with ctopens := w.ctopens + 1
                         regions := { handler := w.spc + BitVec.ofInt 64 (4 * o.toInt), count := w.ctopens + 1, since := s.serial } :: w.regions } w')
    ∧ (8 ≤ w.regions.length → STraps (.ctopen d o) s b w 0x01 0x0B 0)
    ∧ (w.regions = [] → STraps .sysCtclose s b w 0x01 0x0C 0)
    ∧ ∀ r t, w.regions = r :: t →
        (regionDone s b w r (t.length + 1) = true → exec .sysCtclose s = .next (setWarp s b.uid { w with regions := t, spc := w.spc + 4, swait := .run }))
        ∧ (regionDone s b w r (t.length + 1) = false → SWaits .sysCtclose s b w .retry)

/-- R308, R313 to R316, R390, R396, R398: idem records a restart point; the K registers are read, written and cleared once no fold is in flight; a chk that
passes does nothing more. One that fails restarts at the recorded point while the limit allows, once the record of type 2 is written; without a restart it writes
a record of type 3, and then unwinds the innermost region, or, in none, traps SDC. (With no poison outstanding; with some, assumption 113 holds.) -/
def Sys2Proof.Claims.ChecksAndRestartPoints : Prop :=
  ∀ (d a : SReg) (k : BitVec 2) (m : BitVec 4) (s : State) (b : Block) (w : Warp), me s = some (b, w) →
    let on := { w with spc := w.spc + 4, swait := .run }
    (lIdle w = true → lAllDone s b w = true → exec .sysIdem s = .next (setWarp s b.uid
        { on with restarts := 0, restartPt := some (w.spc + 4, [w.kregs.get 0 0, w.kregs.get 0 1, w.kregs.get 0 2, w.kregs.get 0 3]) }))
    ∧ (lIdle w = false ∨ lAllDone s b w = false → SWaits .sysIdem s b w .retry)
    ∧ (foldFlying (getCore s (coreNo b)) b w = true → ∀ x, x = .kmovR d k ∨ x = .kmovW k a ∨ x = .sysKclr m ∨ x = .chkEq k k ∨ x = .chkRel k k d → SWaits x s b w .retry)
    ∧ (foldFlying (getCore s (coreNo b)) b w = false →
        SCompletes (.kmovR d k) s b w d (w.kregs.get 0 k.toNat) (w.spc + 4)
        ∧ (∃ u, exec (.kmovW k a) s = .next (setWarp s b.uid u) ∧ u = { on with kregs := u.kregs, badK := u.badK }
            ∧ ∀ j, u.kregs.get 0 j = if j = k.toNat then sreg w a else w.kregs.get 0 j)
        ∧ (∃ u, exec (.sysKclr m) s = .next (setWarp s b.uid u) ∧ u = { on with kregs := u.kregs, badK := u.badK }
            ∧ ∀ j, u.kregs.get 0 j = if j < 4 ∧ m.getLsbD j = true then 0 else w.kregs.get 0 j)
        ∧ ∀ (ka kb : BitVec 2) (t : SReg), (∀ x y, w.swait ≠ .restart x y) →
            (w.kregs.get 0 ka.toNat = w.kregs.get 0 kb.toNat →
              exec (.chkEq ka kb) s = .next (setWarp s b.uid on) ∧ exec (.chkRel ka kb t) s = .next (setWarp s b.uid on))
            ∧ (closeTo (w.kregs.get 0 ka.toNat) (w.kregs.get 0 kb.toNat) t.toNat = true → exec (.chkRel ka kb t) s = .next (setWarp s b.uid on))
            ∧ ∀ x va vb, va = w.kregs.get 0 ka.toNat → vb = w.kregs.get 0 kb.toNat → x = .chkEq ka kb ∨ x = .chkRel ka kb t ∧ closeTo va vb t.toNat = false →
                va ≠ vb → w.cons = [] → RecordGoes s b →
                (∀ pt ks, w.restartPt = some (pt, ks) → ks.length = 4 → w.restarts.toNat < w.rlimit.toNat →
                  (lAllDone s b w = false ∨ cmdsSince s b w 0 = true → SWaits x s b w (.restart va vb))
                  ∧ (lAllDone s b w = true → w.reqs = [] → cmdsSince s b w 0 = false →
                    ∃ s' t' u, exec x s = .next t' ∧ Recorded s s' b w 2 1 va vb ∧ getWarp t' b.uid w.idx = some u ∧ Emptied w u ∧ u.spc = pt ∧ u.restarts = w.restarts + 1
                      ∧ (∀ j, j < 4 → u.kregs.get 0 j = ks.getD j 0) ∧ u.sregs = w.sregs ∧ u.regions = w.regions ∧ u.restartPt = w.restartPt
                      ∧ SplitsLeave s' t' b w ∧ SameMemory s' t' ∧ t' = { s' with blocks := t'.blocks, cores := t'.cores }))
                ∧ (w.restartPt = none ∨ w.rlimit.toNat ≤ w.restarts.toNat → (∀ c j, w.swait ≠ .barIn c j) →
                  (∀ r rs, w.regions = r :: rs → w.reqs = [] →
                    ∃ s' t' u, exec x s = .next t' ∧ Recorded s s' b w 3 2 va vb ∧ getWarp t' b.uid w.idx = some u ∧ Emptied w u ∧ u.spc = r.handler ∧ u.regions = rs
                      ∧ u.restartPt = none ∧ u.kregs = w.kregs ∧ (∀ q : SReg, sreg u q = if q = 1 then BitVec.ofNat 64 (rs.length + 1) else sreg w q)
                      ∧ SplitsLeave s' t' b w ∧ SameMemory s' t' ∧ t' = { s' with blocks := t'.blocks, cores := t'.cores })
                  ∧ (w.regions = [] → ∀ (l : GLoc) (j : Nat) (p : Split), b.frozen = false → w.handler = false → w.tvec ≠ 0 → SlotAt s b w l → (liveSplits w).head? = some (j, p) →
                    ∃ s' t', exec x s = .next t' ∧ Recorded s s' b w 3 3 va vb ∧ Handles s' t' b w l 256 ∧ FrameIs t' l w 0x09 0 false j p 0 0 0 s.sel.word)))

/-- `ContainmentRegions` and `ChecksAndRestartPoints` hold.
That a chk with a detected consumption is over, and does not restart, is the model's choice (assumption 113).
Where it goes beyond these rules it is the model's own reading (assumption 113). -/
def Obligations.RegionsChecksAndRestartPoints : Prop := Sys2Proof.Claims.ContainmentRegions ∧ Sys2Proof.Claims.ChecksAndRestartPoints

/-- R308, R309, R304, R364, R368: nop, trig, bkpt, yield, trap. trig releases at SPAN and marks the block triggered once; outside a debug grid bkpt is a
nop; a yield waits; trap takes SOFT with its code. -/
def Sys2Proof.Claims.SystemForms : Prop :=
  ∀ (code : BitVec 16) (s : State) (b : Block) (w : Warp), me s = some (b, w) →
    let on := { w with spc := w.spc + 4, swait := .run }
    exec .sysNop s = .next (setWarp s b.uid on)
    ∧ (b.debug = false → exec .sysBkpt s = .next (setWarp s b.uid on))
    ∧ (b.debug = true → ∃ t u, exec .sysBkpt s = .next t ∧ getWarp t b.uid w.idx = some u ∧ u.spc = w.spc + 4 ∧ (getCourse t (courseOf (coreNo b))).stopped = true
        ∧ SameMemory s t ∧ ((getCourse s (courseOf (coreNo b))).stopped = false → (getCourse t (courseOf (coreNo b))).src = 2
          ∧ (getCourse t (courseOf (coreNo b))).srcCore = coreNo b ∧ (getCourse t (courseOf (coreNo b))).srcWarp = w.idx))
    ∧ (w.handler = false → SWaits .sysYield s b w .yield)
    ∧ (b.triggered = true → exec .sysTrig s = .next (setWarp s b.uid on))
    ∧ (b.triggered = false → relDone s w (match w.swait with | .trigRel ids => ids | _ => relIds s b w true) = true →
        ∃ t, exec .sysTrig s = .next t ∧ t = { s with blocks := t.blocks, grids := t.grids } ∧ getWarp t b.uid w.idx = some on
          ∧ (∃ c, getBlock t b.uid = some c ∧ c = { b with warps := c.warps, triggered := true })
          ∧ (∀ g, gridOf s b = some g → gridOf t b = some { g with triggered := g.triggered + 1 })
          ∧ (∀ u, u ≠ b.uid → getBlock t u = getBlock s u) ∧ (∀ j, j ≠ w.idx → getWarp t b.uid j = getWarp s b.uid j) ∧ SameMemory s t)
    ∧ STraps (.trap code) s b w 0x0E code.toNat 0

/-- R31, R52, R311: exit ends a warp once its L-stream rests, everything it issued is complete and its store buffer is empty; its names lose
their references, and its block counts as exited with its last warp. Until then it waits. -/
def Sys2Proof.Claims.WarpExit : Prop :=
  ∀ (s : State) (b : Block) (w : Warp), me s = some (b, w) → w.handler = false →
    (lIdle w = true → lAllDone s b w = true → w.sb = [] → w.cons = [] → w.regions = [] → s.ops.any (fun o => o.block == b.uid && o.warp == w.idx) = false →
      ∃ t, exec .sysExit s = .next t ∧ getWarp t b.uid w.idx = none ∧ (∀ j, j ≠ w.idx → getWarp t b.uid j = getWarp s b.uid j) ∧ SameMemory s t
        ∧ (∀ v, v ≠ b.uid → getBlock t v = getBlock s v)
        ∧ ((∃ y ∈ liveWarps b, y.idx ≠ w.idx) →
            (∀ r, ((getRow (getCore s (coreNo b)) r).count = (getRow (getCore t (coreNo b)) r).count + ((w.map.cells.filterMap Prod.snd).filter (· == r)).length)
              ∨ (getRow (getCore t (coreNo b)) r).count = 0)
            ∧ t.grids = s.grids ∧ ∃ c, getBlock t b.uid = some c ∧ c = { b with warps := c.warps })
        ∧ ((∀ y ∈ liveWarps b, y.idx = w.idx) → (∀ c, getBlock t b.uid = some c → c.exited = true ∧ liveWarps c = [] ∧ c.banker = SMap.empty ∧ c.chg = [])
            ∧ ∀ g, gridOf s b = some g → gridOf t b = some { g with exited := g.exited + 1, triggered := if b.triggered then g.triggered else g.triggered + 1 }))
    ∧ (lIdle w = false ∨ lAllDone s b w = false ∨ w.sb ≠ [] ∨ w.cons ≠ [] → SWaits .sysExit s b w .exit)

/-- `SystemForms` and `WarpExit` hold.
Where it goes beyond these rules it is the model's own reading (assumption 37). -/
def Obligations.SystemFormsAndExit : Prop := Sys2Proof.Claims.SystemForms ∧ Sys2Proof.Claims.WarpExit

/-- R301, R304, R346: in handler mode, and with no handler, a synchronous trap of either stream is a fatal fault of the block; so is an instruction that handler mode
excludes. (`TrapsNow` and `TrapsNowL` name the traps that other statements give their causes.) -/
def Obligations.FatalFaults : Prop :=
  ∀ (i : Instr) (s : State) (b : Block) (w : Warp), me s = some (b, w) → b.frozen = false →
    (w.handler = true → userOnly i = true → ∃ t, exec i s = .next t ∧ Fatal s t b)
    ∧ (w.handler = true ∨ w.tvec = 0 → TrapsNow s b w i → ∃ t, exec i s = .next t ∧ Fatal s t b)
    ∧ (w.handler = false → w.tvec = 0 → TrapsNowL s b w i → ∃ t, exec i s = .next t ∧ Fatal s t b)

/-- R300, R306: eret restores S1, S48 to S63, SPC and the split's point from the slot, past the instruction after SOFT and SDC, and leaves handler mode; in
user mode it traps PERM. A slot that is refused or poisoned is a fatal fault. The slot is read as a load of the warp would read it, at a peer by a request: memory's bytes where the
buffer holds no store and the caches agree with memory. (The entries of EMUL and the replay records are other statements' subject.)
That only poison in the four granules of the frame ends the return, and that the slot is read after the core's own writes to it, is deduced and no rule's words (assumption 70).
Where it goes beyond these rules it is the model's own reading (assumption 70). -/
def Obligations.ReturnFromTrap : Prop :=
  ∀ (s : State) (b : Block) (w : Warp), me s = some (b, w) →
    STraps .sysEret s b w 0x05 8 0
    ∧ (∀ (l : GLoc) (bs : List Byte) (e : Entry) (spc lpc mask s1 : DWord) (repc flags : Byte) (sv : Nat → DWord),
        w.handler = true → w.entry = some e → e.cause ≠ .emul → e.cause ≠ .drainFault → w.reqs = [] →
        (Unanswered w ∧ (∀ d v, l ≠ .peer d v) ∧ devXlat s (coreNo b) b.part b.pasid w.tframe false = some (.at_ l) ∧ slotWaits s b w l = false
            ∧ ((slotLoad s b w l).2.1.take 4).any id = false ∧ bs = (slotLoad s b w l).1)
          ∨ (∃ v, w.swait = .got v false ∧ bs = leBytes 1024 v) → SlotHolds bs spc lpc mask s1 repc flags sv →
        (spc.toNat % 4 = 0 → lpc.toNat % 12 = 0 → flags.toNat < 32 →
          ∃ t u, exec .sysEret s = .next t ∧ getWarp t b.uid w.idx = some u ∧ u.handler = false ∧ u.entry = none ∧ u.swait = .run
            ∧ u.spc = (if e.cause = .soft ∨ e.cause = .sdc then spc + 4 else spc)
            ∧ (∀ r : SReg, sreg u r = if r = 1 then s1 else if 48 ≤ r.toNat then sv (r.toNat - 48) else sreg w r)
            ∧ (∀ p, getSplit w e.split = some p → p.lpc = e.lpc → ∃ q, getSplit u e.split = some q ∧ q.lpc = lpc ∧ q.mask = p.mask ∧ q.rpc = p.rpc
                ∧ (lpc = e.lpc → ∀ r, p.rep = some r → q.rep = some { r with next := repc.toNat })
                ∧ (lpc ≠ e.lpc → q.rep = none ∧ q.repStart = repc.toNat ∧ q.wait = .run))
            ∧ (∀ k, k ≠ e.split → ∀ p, getSplit w k = some p → ∃ q, getSplit u k = some q ∧ q = { p with wait := q.wait })
            ∧ u.sstep = (if flags.getLsbD 4 then some (e.stream, if e.stream then e.split else 0) else w.sstep)
            ∧ u.kregs = w.kregs ∧ u.preds = w.preds ∧ u.map = w.map ∧ u.qs = w.qs ∧ u.bq = w.bq ∧ u.stack = w.stack ∧ u.fflags = w.fflags ∧ u.lmode = w.lmode
            ∧ (∀ v, v ≠ b.uid → getBlock t v = getBlock s v) ∧ (∀ j, j ≠ w.idx → getWarp t b.uid j = getWarp s b.uid j)
            ∧ (∀ c, getBlock t b.uid = some c → c = { b with warps := c.warps, bankWait := c.bankWait } ∧ (lpc = e.lpc → repc.toNat = e.repc → c.bankWait = b.bankWait))
            ∧ SameMemory s t ∧ MayEvict s t ∧ (∀ p, getPier t p = { getPier s p with rdc := (getPier t p).rdc })
            ∧ (∀ c, getCore t c = { getCore s c with l1 := (getCore t c).l1, acqWait := (getCore t c).acqWait })
            ∧ t = { s with blocks := t.blocks, cores := t.cores, piers := t.piers, scopes := t.scopes, l2Bad := t.l2Bad, fresh := t.fresh })
        ∧ (spc.toNat % 4 ≠ 0 ∨ lpc.toNat % 12 ≠ 0 ∨ 32 ≤ flags.toNat → b.frozen = false → ∃ t, exec .sysEret s = .next t ∧ Fatal s t b))
    ∧ (∀ l e, w.handler = true → w.entry = some e → Unanswered w → devXlat s (coreNo b) b.part b.pasid w.tframe false = some (.at_ l) →
        (∀ d v, l ≠ .peer d v) → slotWaits s b w l = false → ((slotLoad s b w l).2.1.take (slotGrans w)).any id = true → b.frozen = false → ∃ t, exec .sysEret s = .next t ∧ Fatal s t b)
    ∧ (w.handler = true → Unanswered w → devXlat s (coreNo b) b.part b.pasid w.tframe false = none → b.frozen = false →
        ∃ t, exec .sysEret s = .next t ∧ Fatal s t b)
    ∧ (w.handler = true → (∃ v p, w.swait = .refused v p) → b.frozen = false → ∃ t, exec .sysEret s = .next t ∧ Fatal s t b)
    ∧ (∀ d v, w.handler = true → Unanswered w → devXlat s (coreNo b) b.part b.pasid w.tframe false = some (.at_ (.peer d v)) → slotWaits s b w (.peer d v) = false →
        exec .sysEret s = .next { setWarp { s with serial := s.serial + 1, ops := s.ops ++ [loadOp s b w w.tframe (.peer d v) 1024 none] }
          b.uid { w with swait := .peer s.serial } with sel := { s.sel with issued := false } })
    ∧ ∀ l, gAddr l % 64 = 0 → olderEnts w s.serial = [] → (∀ n x, (getCore s (coreNo b)).l1.get none n = some x → x.data = (homeLine s n).data) →
        (∀ p n x, (getPier s p).rdc.get none n = some x → x.data = (homeLine s n).data) → (slotLoad s b w l).1 = gReadN s l 1024

/-- R177, R261 to R264, R269 to R274, R278, R282, R286: what the checks of the matrix and copy commands accept goes to the engine of the core, with the
operands, the tile configurations and the drain program that it meets. In one clock commands arrive by quadrant, then by warp index (R261). -/
def Sys2Proof.Claims.EngineCommandsAccepted : Prop :=
  ∀ (t tb : BitVec 4) (c : BitVec 6) (p : BitVec 5) (sp : Bool) (a q : SReg) (k : Option (BitVec 2)) (s : State) (b : Block) (w : Warp),
    me s = some (b, w) → w.handler = false → ((getCore s (coreNo b)).cmds.filter fun m => !m.started).length < 16 →
    inOrder (getCore s (coreNo b)).engAt (getCore s (coreNo b)).cyc w = true →
    (t.toNat < b.kd.tiles → (sreg w a).toNat < 2 ^ 32 → tcfValid ((sreg w a).setWidth 32) = true →
        Accepts (.tcfg t a) s b w (.tcfg t.toNat ((sreg w a).setWidth 32)))
    ∧ (∀ base pitch ps, base = (sreg w a).toNat → pitch = (sreg w q).toNat % 2 ^ 32 → ps = (sreg w q).toNat / 2 ^ 32 → t.toNat < b.kd.tiles →
        (ps = 0 ∨ tcEfmt (tcfOf s b t.toNat) = 15) → base % 16 = 0 → pitch % 16 = 0 → ps % 16 = 0 →
        (if sp then tileOut b base pitch ps (tcfOf s b t.toNat) = false else base < 2 ^ 57) →
        Accepts (.tld sp t a q) s b w (.tld sp t.toNat base pitch ps (tcfOf s b t.toNat))
        ∧ Accepts (.tst sp t a q) s b w (.tst sp t.toNat base pitch ps (tcfOf s b t.toNat)))
    ∧ (c.toNat < b.kd.accs → Accepts (.aclr c) s b w (.aclr c.toNat))
    ∧ ((∀ k ∈ mmaChecks b c.toNat t.toNat tb.toNat (sreg w a).toNat (tcfOf s b t.toNat) (tcfOf s b tb.toNat), ¬ k.1) →
        Accepts (.mma c t tb a) s b w (.mma c.toNat t.toNat tb.toNat (sreg w a) (tcfOf s b t.toNat) (tcfOf s b tb.toNat)))
    ∧ ∀ at_, at_ = (sreg w a).toNat → at_ % 64 = 0 → b.kd.drainSet.getLsbD p.toNat = true →
        (∀ d, at_ + 192 ≤ b.kd.scratch → olderOp s b.uid w.idx s.serial (.spad b.uid at_) 192 = false → sstsOut s b w = false → NoWatch s (.spad b.uid at_) 192 2 →
            d = slotFrom (Memory.readBytes b.spad at_ 192) → programBad [] (d.words.map uop) = none → Accepts (.drld p a) s b w (.drld p.toNat d))
        ∧ ∀ d desc (x : DDesc), at_ + 64 ≤ b.kd.scratch → olderOp s b.uid w.idx s.serial (.spad b.uid at_) 64 = false → sstsOut s b w = false →
            NoWatch s (.spad b.uid at_) 64 2 →
            c.toNat < b.kd.accs → d = slotOf s b p.toNat → desc = Memory.readBytes b.spad at_ 64 → DescIs desc x →
            (∀ k ∈ drainChecks b (program d) x (tcfOf s b), ¬ k.1) →
            Accepts (.drain c p a k) s b w (.drain c.toNat p.toNat d desc ((List.range 16).map (tcfOf s b)) (k.map (·.toNat)))

/-- R177, R178, R182: cpy reads its 64-byte descriptor at the issue, once the warp's earlier ssts are performed, and a descriptor whose checks hold goes to
the copy engine, counted in class CP; one of no elements is complete at once, in the order of its class. That FADDR of checks 2 to 5 is S[A] is the
model's choice (assumption 85). -/
def Sys2Proof.Claims.CopiesAccepted : Prop :=
  ∀ (k : CopyKind) (a : SReg) (s : State) (b : Block) (w : Warp) (at_ : Nat) (desc : List Byte), me s = some (b, w) → at_ = (sreg w a).toNat →
    (at_ % 64 ≠ 0 → STraps (.cpy k a) s b w 0x06 2 (sreg w a))
    ∧ (at_ % 64 = 0 → b.kd.scratch < at_ + 64 → STraps (.cpy k a) s b w 0x05 2 (sreg w a))
    ∧ (at_ % 64 = 0 → at_ + 64 ≤ b.kd.scratch → olderOp s b.uid w.idx s.serial (.spad b.uid at_) 64 = false →
        sstsOut s b w = false → desc = Memory.readBytes b.spad at_ 64 →
        (∀ e n, copyCheck s b k (cdesc desc) = some (e, n) → e ≠ .peerFail → STraps (.cpy k a) s b w (causeCode e) n (sreg w a))
        ∧ (copyCheck s b k (cdesc desc) = none → (getCore s (coreNo b)).copies.length < 64 → w.cpq.length < 4095 →
            (cCount (cdesc desc) = 0 → NoWatch s (.spad b.uid at_) 64 2 → 
              exec (.cpy k a) s = .next (setWarp { s with serial := s.serial + 1 } b.uid { countDone (countIn w .cp s.serial) .cp s.serial with spc := w.spc + 4, swait := .run }))
            ∧ (cCount (cdesc desc) ≠ 0 → NoWatch s (.spad b.uid at_) 64 2 →
                exec (.cpy k a) s = .next (setWarp { s with serial := s.serial + 1, cores := s.cores.set {} (coreNo b) { getCore s (coreNo b) with
                    copies := (getCore s (coreNo b)).copies ++ [
                      { id := s.serial, block := b.uid, warp := w.idx, kind := k, desc := desc, at_ := at_, depth := w.regions.length
                        regionCount := (match w.regions with | r :: _ => r.count | [] => 0) }] } }
                  b.uid { w with spc := w.spc + 4, swait := .run, cpq := w.cpq ++ [(s.serial, false)] }))))

/-- `EngineCommandsAccepted` and `CopiesAccepted` hold.
Where it goes beyond these rules it is the model's own reading (assumption 27). -/
def Obligations.CommandsAndCopiesAccepted : Prop := Sys2Proof.Claims.EngineCommandsAccepted ∧ Sys2Proof.Claims.CopiesAccepted

/-- R261, R264, R269, R271, R278, R282, R286: the traps of the engine's commands, before any effect: a tile or accumulator the block has not, a bad
configuration, an operand off its alignment, a footprint, record or descriptor beyond SCRATCH, a global base with a DEVID, a drain slot of another, a
drain program that fails its checks; of the checks of mma (R278) and of a drain's descriptor (R286, 4 to 6), the first that fails.
Where several checks of a command fail, the order of SUBC 0x0103 among them, and that a command which fails traps while the queue is full, is the model's choice (assumption 104).
Where it goes beyond these rules it is the model's own reading (assumption 104). -/
def Obligations.EngineCommandTraps : Prop :=
  ∀ (t tb : BitVec 4) (c : BitVec 6) (p : BitVec 5) (sp : Bool) (a q : SReg) (k : Option (BitVec 2)) (s : State) (b : Block) (w : Warp), me s = some (b, w) →
    (b.kd.tiles ≤ t.toNat → ∀ x, x = .tcfg t a ∨ x = .tld sp t a q ∨ x = .tst sp t a q → STraps x s b w 0x01 0x103 0)
    ∧ (b.kd.accs ≤ c.toNat → STraps (.aclr c) s b w 0x01 0x103 0)
    ∧ (t.toNat < b.kd.tiles → 2 ^ 32 ≤ (sreg w a).toNat ∨ tcfValid ((sreg w a).setWidth 32) = false → STraps (.tcfg t a) s b w 0x01 0x101 0)
    ∧ (t.toNat < b.kd.tiles → ∀ x, x = .tld sp t a q ∨ x = .tst sp t a q →
        ((sreg w q).toNat / 2 ^ 32 ≠ 0 → tcEfmt (tcfOf s b t.toNat) ≠ 15 → STraps x s b w 0x01 0x102 0)
        ∧ ((sreg w q).toNat / 2 ^ 32 = 0 → (sreg w a).toNat % 16 ≠ 0 ∨ (sreg w q).toNat % 16 ≠ 0 → STraps x s b w 0x06 2 (sreg w a)))
    ∧ (∀ base pitch ps cfg, base = (sreg w a).toNat → pitch = (sreg w q).toNat % 2 ^ 32 → ps = (sreg w q).toNat / 2 ^ 32 → cfg = tcfOf s b t.toNat →
        t.toNat < b.kd.tiles → (ps = 0 ∨ tcEfmt cfg = 15) → base % 16 = 0 → pitch % 16 = 0 → ps % 16 = 0 → ∀ x, x = .tld sp t a q ∨ x = .tst sp t a q →
        (sp = false → 2 ^ 57 ≤ base → STraps x s b w 0x05 5 (sreg w a))
        ∧ (sp = true → tcEfmt cfg ≠ 15 ∨ tcfValid cfg = true → (∃ y r, y < tcRows cfg ∧ r < tcBytes cfg ∧ b.kd.scratch ≤ tileAddr base pitch ps cfg y r) →
            STraps x s b w 0x05 2 (sreg w a)))
    ∧ (∀ j q e n, FirstOf (mmaChecks b c.toNat t.toNat tb.toNat (sreg w a).toNat (tcfOf s b t.toNat) (tcfOf s b tb.toNat)) j (q, e, n) →
        STraps (.mma c t tb a) s b w e n 0)
    ∧ (b.kd.drainSet.getLsbD p.toNat = false → STraps (.drld p a) s b w 0x05 7 0 ∧ STraps (.drain c p a k) s b w 0x05 7 0)
    ∧ (b.kd.drainSet.getLsbD p.toNat = true → (sreg w a).toNat % 64 ≠ 0 → STraps (.drld p a) s b w 0x06 2 (sreg w a)
        ∧ (c.toNat < b.kd.accs → STraps (.drain c p a k) s b w 0x06 2 (sreg w a)))
    ∧ (∀ at_, at_ = (sreg w a).toNat → at_ % 64 = 0 → b.kd.drainSet.getLsbD p.toNat = true →
        (b.kd.scratch < at_ + 192 → STraps (.drld p a) s b w 0x05 2 (sreg w a))
        ∧ (at_ + 192 ≤ b.kd.scratch → olderOp s b.uid w.idx s.serial (.spad b.uid at_) 192 = false → sstsOut s b w = false →
            ∀ n, programBad [] ((slotFrom (Memory.readBytes b.spad at_ 192)).words.map uop) = some n → STraps (.drld p a) s b w 0x01 n 0)
        ∧ (c.toNat < b.kd.accs → b.kd.scratch < at_ + 64 → STraps (.drain c p a k) s b w 0x05 2 (sreg w a))
        ∧ (c.toNat < b.kd.accs → at_ + 64 ≤ b.kd.scratch → olderOp s b.uid w.idx s.serial (.spad b.uid at_) 64 = false → sstsOut s b w = false →
            ∀ x j r e n, DescIs (Memory.readBytes b.spad at_ 64) x → FirstOf (drainChecks b (program (slotOf s b p.toNat)) x (tcfOf s b)) j (r, e, n) →
              STraps (.drain c p a k) s b w e n 0))
    ∧ (b.kd.drainSet.getLsbD p.toNat = true → b.kd.accs ≤ c.toNat → STraps (.drain c p a k) s b w 0x01 0x103 0)
    ∧ ∀ (us vs : List Uop) (u : Uop), programBad [] us = some 0x112 →
        (0x16 < u.op → programBad [] (us ++ u :: vs) = some 0x110)
        ∧ (u.op ≤ 0x16 → uopSpare u = true → programBad [] (us ++ u :: vs) = some 0x111)
        ∧ (u.op ≤ 0x16 → uopSpare u = false → uopCodeBad u = true → programBad [] (us ++ u :: vs) = some 0x114)

/-- R110, R280: mfence closes the warp's open batch into S[D] and opens the next; the batch counts in class TL until all its commands have
finished. -/
def Obligations.BatchesClose : Prop :=
  ∀ (d : SReg) (s : State) (b : Block) (w : Warp), me s = some (b, w) → w.tlq.length < 4095 → (∀ e ∈ w.closed, batchBusy s b w.idx e.2 = true) →
    ∃ t w', exec (.sysMfence d) s = .next t ∧ getWarp t b.uid w.idx = some w' ∧ SWrites w w' d (BitVec.ofNat 64 w.batch.toNat) ∧ w'.spc = w.spc + 4 ∧ w'.swait = .run
      ∧ w'.batch = w.batch + 1 ∧ OtherWarps s t b.uid w.idx ∧ t = { s with blocks := t.blocks, serial := s.serial + 1 }
      ∧ SPart { w with batch := w'.batch, closed := w'.closed, tlq := w'.tlq } w'
      ∧ (batchBusy s b w.idx w.batch = true → w'.closed = w.closed ++ [(s.serial, w.batch)] ∧ w'.tlq = w.tlq ++ [(s.serial, false)])
      ∧ (batchBusy s b w.idx w.batch = false → w'.closed = w.closed ∧ w'.tlq.length ≤ w.tlq.length + 1 ∧ (w.tlq = [] → w'.tlq = []))


/-! ### The lanes' arithmetic -/

/-- R64, R191, R195: vialu, element by element. -/
def Sys2Proof.Claims.IntegerElements : Prop :=
  ∀ (op : IaluOp) (ty : IType) (f : LF), Computes (.vialu op ty f) f true 4
    (fun s b w m l r => ∀ k, k < 32 / typeBits ty → IaluIs op (typeBits ty) (typeSigned ty) f.xa (elemOf (typeBits ty) k (opA s b w m f l))
      (elemOf (typeBits ty) k (opB s b w m f l)) (elemOf (typeBits ty) k r)) noFlags

/-- R196 to R198, R228: multiply-add, the bit fields, and copy. -/
def Sys2Proof.Claims.BitFieldsAndMultiplyAdd : Prop :=
  ∀ (f : LF) (wt sx : Bool),
    Computes (.vmad wt f) f true 6 (fun s b w m l r => r % 2 ^ 32 = (opA s b w m f l * opB s b w m f l + opC s b w m f l) % 2 ^ 32) noFlags
    ∧ Computes (.vbfe sx f) f true 4 (fun s b w m l r =>
        let pos := opB s b w m f l % 256
        let len := opB s b w m f l / 256 % 256
        let n := min len (32 - pos)
        if len = 0 ∨ 32 ≤ pos then r = 0
        else r < 2 ^ 32 ∧ (valOf n sx (opA s b w m f l / 2 ^ pos % 2 ^ n) - r) % (2 ^ 32 : Int) = 0) noFlags
    ∧ Computes (.vbfi f) f true 4 (fun s b w m l r =>
        let pos := opC s b w m f l % 256
        let len := opC s b w m f l / 256 % 256
        ∀ k, k < 32 → r.testBit k = if pos ≤ k ∧ k < pos + len then (opA s b w m f l).testBit (k - pos) else (opB s b w m f l).testBit k) noFlags
    ∧ Computes (.copy f) f true 4 (fun s b w m l r => r = opA s b w m f l) noFlags

/-- R229: mapq describes the row of the name that each lane gives. -/
def Sys2Proof.Claims.MapQuery : Prop :=
  ∀ f : LF, Computes (.mapq f) f true 4 (fun s b w m l r =>
    let a := opA s b w m f l
    if 384 ≤ a then r = 2 ^ 30
    else match mapOf w a with
      | none => r = 0
      | some x => x < 8192 → r / 2 ^ 31 = 1 ∧ r / 2 ^ 30 % 2 = 0 ∧ r / 2 ^ 28 % 4 = 0 ∧ r / 2 ^ 24 % 16 = (getRow (getCore s (coreNo b)) x).count % 16
          ∧ (r / 2 ^ 23 % 2 = 1 ↔ x / 2048 ≠ w.idx % 4) ∧ r / 2 ^ 11 % 2 ^ 12 = x / 2048 ∧ r % 2 ^ 11 = x % 2048) noFlags

/-- `IntegerElements`, `BitFieldsAndMultiplyAdd` and `MapQuery` hold. -/
def Obligations.IntegerResults : Prop := Sys2Proof.Claims.IntegerElements ∧ Sys2Proof.Claims.BitFieldsAndMultiplyAdd ∧ Sys2Proof.Claims.MapQuery

/-- R202 to R204, R207: the arithmetic of each type, with the mode bits of the warp, and its flags. The negations of fadd, fmul and ffma apply to the
operands before. -/
def Sys2Proof.Claims.FloatArithmetic : Prop :=
  ∀ (ty : FType) (rm : RM) (na nb nc : Bool) (f : LF),
    let x := ftyFmt ty
    let lat := if ty = .f64 then 8 else 6
    let add := fun md a c (_ : Nat) => fAdd x rm md (flipIf x na a) (flipIf x nb c)
    let mul := fun md a c (_ : Nat) => fMul x rm md (flipIf x na a) (flipIf x nb c)
    let fma := fun md a c e => fFma x rm md (flipIf x na a) (flipIf x nb c) (flipIf x nc e)
    let mn := fun md a c (_ : Nat) => fMinMax x md false a c
    let mx := fun md a c (_ : Nat) => fMinMax x md true a c
    let rnd := fun md a (_ _ : Nat) => fRnd x rm md a
    Computes (.fadd ty rm na nb f) f true lat (FloatIs f ty add) (floatFlags f ty add)
    ∧ Computes (.fmul ty rm na nb f) f true lat (FloatIs f ty mul) (floatFlags f ty mul)
    ∧ Computes (.ffma ty rm na nb nc f) f true lat (FloatIs f ty fma) (floatFlags f ty fma)
    ∧ Computes (.fmin ty f) f true 4 (FloatIs f ty mn) (floatFlags f ty mn)
    ∧ Computes (.fmax ty f) f true 4 (FloatIs f ty mx) (floatFlags f ty mx)
    ∧ Computes (.frnd ty rm f) f true 6 (FloatIs f ty rnd) (floatFlags f ty rnd)

/-- R206, R208: conversions between the formats of R62, and the class masks. -/
def Sys2Proof.Claims.FloatConversions : Prop :=
  ∀ (d c : BitVec 4) (ty : FType) (f : LF),
    let rm := match f.imm.toNat % 4 with | 0 => RM.rn | 1 => .rz | 2 => .ru | _ => .rd
    let conv := fun s b w m l => fConv d.toNat c.toNat rm (modeOf w) f.xa (opA s b w m f l % 2 ^ codeBits c.toNat)
    Computes (.fcvt d c f) f true 6 (fun s b w m l r => r = (conv s b w m l).1) (fun s b w m l => (conv s b w m l).2)
    ∧ Computes (.fclass ty f) f true 4 (fun s b w m l r => r = match ty with
        | .f32 | .f64 => fClass (ftyFmt ty) (fIn ty 0 (opA s b w m f l))
        | _ => fClass (ftyFmt ty) (fIn ty 0 (opA s b w m f l)) + fClass (ftyFmt ty) (fIn ty 1 (opA s b w m f l)) * 2 ^ 16) noFlags

/-- R71: rounding an exact magnitude m · 2^e to a multiple k · 2^q of 2^q. Toward zero the multiple is the next one below; to nearest it is at
most half a step away, and of two at that distance the even one; the directed modes go down or up by the sign. It is inexact exactly when it differs. -/
def Sys2Proof.Claims.RoundingModes : Prop :=
  ∀ (rm : RM) (neg : Bool) (m n k : Nat) (e : Int) (x : Bool), roundAt rm neg m e (e + n) false = (k, x) →
    (x = true ↔ k * 2 ^ n ≠ m)
    ∧ (rm = .rz ∨ (rm = .rd ∧ neg = false) ∨ (rm = .ru ∧ neg = true) → k * 2 ^ n ≤ m ∧ m < (k + 1) * 2 ^ n)
    ∧ ((rm = .ru ∧ neg = false) ∨ (rm = .rd ∧ neg = true) → m ≤ k * 2 ^ n ∧ (k * 2 ^ n < m + 2 ^ n))
    ∧ (rm = .rn → 2 * (k * 2 ^ n) ≤ 2 * m + 2 ^ n ∧ 2 * m ≤ 2 * (k * 2 ^ n) + 2 ^ n
        ∧ (2 * (k * 2 ^ n) = 2 * m + 2 ^ n ∨ 2 * m = 2 * (k * 2 ^ n) + 2 ^ n → n ≠ 0 → k % 2 = 0))

/-- `FloatArithmetic`, `FloatConversions` and `RoundingModes` hold.
That a poisoned lane raises no flag is the model's choice, as R386 is silent (assumption 83).
Where it goes beyond these rules it is the model's own reading (assumption 83). -/
def Obligations.FloatResults : Prop := Sys2Proof.Claims.FloatArithmetic ∧ Sys2Proof.Claims.FloatConversions ∧ Sys2Proof.Claims.RoundingModes

/-- R192, R199 to R201, R205: vsel picks by PD; the compares and plog set PD, each lane by itself; a compare holds when every element's does. -/
def Sys2Proof.Claims.SelectionAndPredicates : Prop :=
  ∀ (f : LF) (c : ICond) (ty : IType) (fc : FCond) (ft : FType) (op : PlogOp),
    Computes (.vsel f) f false 4 (fun s b w m l r => r = if predBit w f.pd.toNat l then opA s b w m f l else opB s b w m f l) noFlags
    ∧ SetsPredicate (.vcmp c ty f) f 4 (fun s b w m l => ∀ k, k < 32 / typeBits ty →
        let x := valOf (typeBits ty) (typeSigned ty) (elemOf (typeBits ty) k (opA s b w m f l))
        let y := valOf (typeBits ty) (typeSigned ty) (elemOf (typeBits ty) k (opB s b w m f l))
        match c with | .eq => x = y | .ne => x ≠ y | .lt => x < y | .le => x ≤ y | .gt => x > y | .ge => x ≥ y) noFlags
    ∧ SetsPredicate (.fcmp fc ft f) f 4
        (fun s b w m l => ∀ k, k < (match ft with | .f32 | .f64 => 1 | _ => 2) →
          (fCmp (ftyFmt ft) (modeOf w) fc (fIn ft k (opA s b w m f l)) (fIn ft k (opB s b w m f l))).1 = true)
        (fun s b w m l => packFlags ft fun k => (0, (fCmp (ftyFmt ft) (modeOf w) fc (fIn ft k (opA s b w m f l)) (fIn ft k (opB s b w m f l))).2))
    ∧ SetsPredicate (.plog op f) f 4 (fun _ _ w _ l =>
        let x := predBit w f.va.code l
        let y := predBit w f.vb.code l
        (match op with | .and => x && y | .or => x || y | .xor => x != y | .andn => x && !y | .not => !x | .mov => x | .setall => true) = true) noFlags

/-- R209, R210: a vsfu is outstanding, its row interlocked, until VSFU_RESULT writes the results of the warp's oldest one, with their flags, and clears
the interlock. A ninth waits. -/
def Sys2Proof.Claims.SpecialFunctions : Prop :=
  (∀ (op : SfuOp) (f : LF) (s : State) (b : Block) (w : Warp) (m : LFmt) (p : Split) (r : Nat), Ready s b w (.vsfu op f) f m p → dstRows w m f = [r] →
    (w.sfu.length < 8 → ∃ t w' x, exec (.vsfu op f) s = .next t ∧ getWarp t b.uid w.idx = some w' ∧ w'.sfu = w.sfu ++ [x] ∧ x.id = s.serial ∧ x.op = op ∧ x.dest = r
        ∧ (∀ l, l < 64 → x.mask.getLsbD l = isActive w m f p l ∧ (x.src.getD l 0).toNat = opA s b w m f l % 2 ^ 32 ∧ x.pois.getLsbD l = srcBad s b w m.va f.va l)
        ∧ x.lmode = w.lmode ∧ w' = { w with qs := w'.qs, splits := w'.splits, sfu := w'.sfu }
        ∧ (∀ q, w'.qs.get [] q = (w.qs.get [] q).drop (popsQ m.va f.va q)) ∧ getSplit w' s.sel.split = some (pastSplit p)
        ∧ (∀ k, k ≠ s.sel.split → getSplit w' k = getSplit w k)
        ∧ (∀ j, getRow (getCore t (coreNo b)) j = if j = r then { getRow (getCore s (coreNo b)) j with pend := (getRow (getCore s (coreNo b)) j).pend + 1 } else getRow (getCore s (coreNo b)) j)
        ∧ (getCore t (coreNo b)).flight = (getCore s (coreNo b)).flight ∧ OtherWarps s t b.uid w.idx ∧ SameMemory s t
        ∧ t = { s with blocks := t.blocks, cores := t.cores, serial := s.serial + 1 })
    ∧ (8 ≤ w.sfu.length → ∃ t, exec (.vsfu op f) s = .next t ∧ t.sel.issued = false ∧ t.cores = s.cores ∧ SameMemory s t
        ∧ ∃ w', getWarp t b.uid w.idx = some w' ∧ w' = { w with splits := w'.splits } ∧ getSplit w' s.sel.split = some { p with wait := .retry }))
  ∧ ∀ (s : State) (u i : Nat) (b : Block) (w : Warp) (x : SfuOpSt) (rest : List SfuOpSt), getBlock s u = some b → getWarp s u i = some w → b.core.isSome →
      w.sfu = x :: rest → x.due ≤ (getCore s (coreNo b)).cyc →
      ∃ t w', exec (.vsfuResult u i) s = .next t ∧ getWarp t u i = some w' ∧ w' = { w with sfu := rest, fflags := w'.fflags }
        ∧ (∀ j, getRow (getCore t (coreNo b)) j = if j = x.dest
            then { getRow (getCore s (coreNo b)) j with pend := (getRow (getCore s (coreNo b)) j).pend - 1, lanes := (getRow (getCore t (coreNo b)) j).lanes
                                                        poison := (getRow (getCore t (coreNo b)) j).poison }
            else getRow (getCore s (coreNo b)) j)
        ∧ (∀ l, l < 64 → (getRow (getCore t (coreNo b)) x.dest).poison.getLsbD l
            = (if x.mask.getLsbD l then x.pois.getLsbD l else (getRow (getCore s (coreNo b)) x.dest).poison.getLsbD l)
            ∧ (x.mask.getLsbD l = false → (getRow (getCore t (coreNo b)) x.dest).lanes.getD l 0 = (getRow (getCore s (coreNo b)) x.dest).lanes.getD l 0)
            ∧ (x.mask.getLsbD l = true → x.pois.getLsbD l = false → (getRow (getCore t (coreNo b)) x.dest).lanes.getD l 0
                = BitVec.ofNat 32 (fSfu x.op (modeOf { w with lmode := x.lmode }) (x.src.getD l 0).toNat).1))
        ∧ (∀ k, k < 5 → (w'.fflags.getLsbD k = true ↔ w.fflags.getLsbD k = true ∨ ∃ l, l < 64 ∧ x.mask.getLsbD l = true ∧ x.pois.getLsbD l = false
            ∧ (fSfu x.op (modeOf { w with lmode := x.lmode }) (x.src.getD l 0).toNat).2.getLsbD k = true))
        ∧ OtherWarps s t u i ∧ SameMemory s t ∧ t = { s with blocks := t.blocks, cores := t.cores, fresh := t.fresh }

/-- `SelectionAndPredicates` and `SpecialFunctions` hold.
That a poisoned lane raises no flag is the model's choice, as R386 is silent (assumption 83).
Where it goes beyond these rules it is the model's own reading (assumptions 15 and 83). -/
def Obligations.SelectionsPredicatesAndSpecialFunctions : Prop := Sys2Proof.Claims.SelectionAndPredicates ∧ Sys2Proof.Claims.SpecialFunctions

/-- R230 to R236: the cross-lane instructions work in tiles of 2^PARTN lanes: the shuffles, votes, reductions, scans and broadcasts, to rows or to a
queue entry that is reserved at the issue. -/
def Sys2Proof.Claims.CrossLane : Prop :=
  ∀ (f : LF) (sm : ShufMode) (vm : VoteMode) (op : RedOp) (ty : RedType) (excl : Bool),
    Crosses (.vshuf sm f) f false 8 (fun s b w m _ l r => r = opA s b w m f (shuffled sm w l (opB s b w m f l))) (fun _ _ _ _ _ _ => True)
    ∧ Crosses (.vvote vm f) f true 6 (fun _ _ w m p l r => votes vm w m f p (l / tileOfWarp w) r)
        (fun _ _ w m p v => match vm with
          | .ballot => ∀ l, v.testBit l = (decide (l ∈ activeLanes w m f p) && predBit w f.va.code l)
          | _ => ∀ t, ∃ r, votes vm w m f p t r ∧ v.testBit t = (decide (t < 64 / tileOfWarp w) && decide (r = 1)))
    ∧ Crosses (.vredux op ty f) f false 12
        (fun s b w m p l r => r = reduces op ty (modeOf w) ((inTile w m f p (l / tileOfWarp w)).map (opA s b w m f)))
        (fun s b w m p v => v = reduces op ty (modeOf w) ((inTile w m f p 0).map (opA s b w m f)) % 2 ^ 64)
    ∧ Crosses (.vscan op ty excl f) f false 14
        (fun s b w m p l r => r = reduces op ty (modeOf w) (((inTile w m f p (l / tileOfWarp w)).filter fun k => k < l || (k == l && !excl)).map (opA s b w m f)))
        (fun _ _ _ _ _ _ => True)
    ∧ Crosses (.vbcast f) f false 6 (fun s b w m p l r => r = opA s b w m f (broadcast s b w m f p l))
        (fun s b w m p v => match (inTile w m f p 0).head? with | none => v = 0 | some k => v = opA s b w m f (broadcast s b w m f p k) % 2 ^ 64)
    ∧ ∀ (i : Instr) (s : State) (b : Block) (w : Warp) (m : LFmt) (p : Split) (q : Nat), i = .vredux op ty f ∨ i = .vbcast f → Ready s b w i f m p →
        f.vd = .q q → w.partn ≠ 6 → LTraps i s b w p 0x01 0x0A 0 0 0

/-- R237 to R239: the checksum folds put the sum over the active lanes in flight to their K register; landed in order, each adds to it. -/
def Sys2Proof.Claims.ChecksumFolds : Prop :=
  ∀ (k : BitVec 2) (f : LF) (s : State) (b : Block) (w : Warp) (m : LFmt) (p : Split),
    (Ready s b w (.csum k f) f m p → (∀ l, l < 64 → isActive w m f p l = true → anyBad s b w m f l = false) →
      ∃ t w' x, exec (.csum k f) s = .next t ∧ LGoes s t b w w' m f p [] [x] ∧ x.tgt = .kint k.toNat ∧ Flies s b w m f p 4 x ∧ w'.cons = w.cons
        ∧ x.val.toNat = ((activeLanes w m f p).map fun l => opA s b w m f l % 2 ^ 32).sum % 2 ^ 64)
    ∧ (Ready s b w (.csumf k f) f m p → (∀ l, l < 64 → isActive w m f p l = true → anyBad s b w m f l = false) →
      ∃ t w' x, exec (.csumf k f) s = .next t ∧ LGoes s t b w w' m f p [] [x] ∧ x.tgt = .kfloat k.toNat ∧ Flies s b w m f p 4 x ∧ w'.cons = w.cons
        ∧ x.val = BitVec.ofNat 64 ((sumTree (fun l => if isActive w m f p l then some (widen (opA s b w m f l % 2 ^ 32)) else none) 6 0).getD 0))

/-- `CrossLane` and `ChecksumFolds` hold.
That the ILLEGAL, SUBC 0x000A, of vredux and vbcast comes after UNMAPPED, HAZARD and the waits is deduced from R132 and R337 (assumption 78).
Where it goes beyond these rules it is the model's own reading (assumption 78). -/
def Obligations.CrossLaneResultsAndFolds : Prop := Sys2Proof.Claims.CrossLane ∧ Sys2Proof.Claims.ChecksumFolds


/-! ### Control of the L-stream -/

/-- R215 to R218, R212: lnop only goes on; lpart sets the tile size; rep sets its split to repeat the next word, which must be a guarded instruction
other than lbr and the retired ones, IMM + 1 times. -/
def Sys2Proof.Claims.SimpleControl : Prop :=
  ∀ (f : LF) (s : State) (b : Block) (w : Warp) (m : LFmt) (p : Split),
    (Ready s b w (.lnop f) f m p → ∃ t w', exec (.lnop f) s = .next t ∧ LGoes s t b w w' m f p [] [] ∧ w'.cons = w.cons)
    ∧ (Ready s b w (.lpart f) f m p → ∃ t w', exec (.lpart f) s = .next t ∧ LGoes s t b { w with partn := BitVec.ofNat 3 f.imm.toNat } w' m f p [] [] ∧ w'.cons = w.cons)
    ∧ (Ready s b w (.rep f) f m p → ∀ bs, fetchBytes s b (p.lpc + 12) 12 = .ok bs →
        (repTargetOk (BitVec.ofNat 96 (ofLeBytes bs)) = true →
          exec (.rep f) s = .next (setWarp s b.uid { w with splits := w.splits.set none s.sel.split (some
            { p with wait := .run, repStart := 0
                     rep := some { count := f.imm.toNat % 64 + 1, next := p.repStart, steps := f.imm.toNat / 64 % 256 } }) }))
        ∧ (repTargetOk (BitVec.ofNat 96 (ofLeBytes bs)) = false → p.repStart = 0 → LTraps (.rep f) s b w p 0x01 1 0 0 0))

/-- R38, R39, R213, R429: lbr. Lanes where the guard holds go to the target and record the reconvergence address; when both sides hold lanes, the
taken lanes get the lowest free split, or without one the others go to the overflow stack; at its end the branch traps SPLIT. -/
def Sys2Proof.Claims.Branching : Prop :=
  ∀ (f : LF) (s : State) (b : Block) (w : Warp) (m : LFmt) (p : Split), Ready s b w (.lbr f) f m p →
    let k := s.sel.split
    let join := some (p.lpc + BitVec.ofInt 64 (12 * (BitVec.ofNat 16 f.imm.toNat).toInt))
    let target := p.lpc + BitVec.ofInt 64 (12 * (BitVec.ofNat 16 (f.imm.toNat / 65536)).toInt)
    let goes := fun (q : Split) => exec (.lbr f) s = .next (setWarp s b.uid { w with splits := w.splits.set none k (some { q with rpc := join, wait := .run, repStart := 0 }) })
    let some1 := ∃ l, l < 64 ∧ isActive w m f p l = true
    let some0 := ∃ l, l < 64 ∧ p.mask.getLsbD l = true ∧ l < w.width ∧ isActive w m f p l = false
    (¬some1 → goes { p with lpc := p.lpc + 12 })
    ∧ (some1 → ¬some0 → goes { p with lpc := target })
    ∧ (some1 → some0 → ∃ taken left : DWord, (∀ l, l < 64 → taken.getLsbD l = isActive w m f p l)
        ∧ (∀ l, l < 64 → left.getLsbD l = (p.mask.getLsbD l && decide (l < w.width) && !isActive w m f p l))
        ∧ (∀ j, j < 4 → getSplit w j = none → (∀ i, i < j → (getSplit w i).isSome) →
            exec (.lbr f) s = .next (setWarp s b.uid { w with
              splits := (w.splits.set none j (some { lpc := target, mask := taken, rpc := join })).set none k
                (some { p with lpc := p.lpc + 12, mask := left, rpc := join, wait := .run, repStart := 0 }) }))
        ∧ ((∀ i, i < 4 → (getSplit w i).isSome) → w.stack.length < 16 →
            exec (.lbr f) s = .next (setWarp s b.uid { w with
              stack := { lpc := p.lpc + 12, mask := left, rpc := join } :: w.stack
              splits := w.splits.set none k (some { p with lpc := target, mask := taken, rpc := join, wait := .run, repStart := 0 }) }))
        ∧ ((∀ i, i < 4 → (getSplit w i).isSome) → 16 ≤ w.stack.length → LTraps (.lbr f) s b w p 0x13 0 0 0 0))

/-- `SimpleControl` and `Branching` hold. -/
def Obligations.SplitControl : Prop := Sys2Proof.Claims.SimpleControl ∧ Sys2Proof.Claims.Branching

/-- R40, R214: ljoin passes a split that does not record its address; one that does fuses with a split waiting there, waits while another records
the address, else goes on, recording the outer address. -/
def Sys2Proof.Claims.Joining : Prop :=
  ∀ (f : LF) (s : State) (b : Block) (w : Warp) (m : LFmt) (p : Split), Ready s b w (.ljoin f) f m p →
    let k := s.sel.split
    let outer := if f.imm.getLsbD 16 then none else some (p.lpc + BitVec.ofInt 64 (12 * (BitVec.ofNat 16 f.imm.toNat).toInt))
    let past := fun (mask : DWord) => some { p with lpc := p.lpc + 12, rpc := outer, wait := .run, repStart := 0, mask := mask }
    (p.rpc ≠ some p.lpc → ∃ t w', exec (.ljoin f) s = .next t ∧ LGoes s t b w w' m f p [] [] ∧ w'.cons = w.cons)
    ∧ (p.rpc = some p.lpc →
        (∀ e, joinPartner w k p.lpc = some e → exec (.ljoin f) s = .next (setWarp s b.uid
          { w with splits := ((w.splits.set none k none).set none e.1 none).set none (min k e.1) (past (p.mask ||| e.2.mask)) }))
        ∧ (joinPartner w k p.lpc = none → recordsRpc w k p.lpc = false →
            exec (.ljoin f) s = .next (setWarp s b.uid { w with splits := w.splits.set none k (past p.mask) }))
        ∧ (joinPartner w k p.lpc = none → recordsRpc w k p.lpc = true → p.wait ≠ .ljoin →
            ∃ t, exec (.ljoin f) s = .next t ∧ t.sel.issued = false ∧ SameMemory s t
              ∧ t.blocks = (setWarp s b.uid { w with splits := w.splits.set none k (some { p with wait := .ljoin, since := s.serial }) }).blocks))

/-- R36, R42: once every live split and every stacked one waits at an LNEXT, they fuse under the lowest number, and with an entry on BQ the fused split
goes to the address it pops; else it waits. -/
def Sys2Proof.Claims.NextFromQueue : Prop :=
  ∀ (f : LF) (s : State) (b : Block) (w : Warp) (p : Split), me s = some (b, w) → getSplit w s.sel.split = some p →
    (∀ e ∈ liveSplits w, e.1 ≠ s.sel.split → e.2.wait = .lnext) → (∀ e ∈ w.stack, e.wait = .lnext) →
    ∃ (k : Nat) (mask : DWord), k ≤ s.sel.split ∧ (∀ e ∈ liveSplits w, k ≤ e.1) ∧ (k = s.sel.split ∨ ∃ e ∈ liveSplits w, e.1 = k)
      ∧ (∀ l, l < 64 → mask.getLsbD l = (p.mask.getLsbD l || (liveSplits w).any (fun e => e.1 != s.sel.split && e.2.mask.getLsbD l) || w.stack.any fun e => e.mask.getLsbD l))
      ∧ (∀ a q, w.bq = a :: q → exec (.lnext f) s = .next (setWarp s b.uid
          { w with bq := q, bqBad := (w.bqBad.filter (0 < ·)).map (· - 1), stack := [], splits := SMap.empty.set none k (some { lpc := a, mask := mask }) }))
      ∧ (w.bq = [] → ∃ t w' x, exec (.lnext f) s = .next t ∧ t.sel.issued = false ∧ getWarp t b.uid w.idx = some w' ∧ w' = { w with splits := w'.splits, stack := [] }
          ∧ liveSplits w' = [(k, x)] ∧ x.mask = mask ∧ x.wait = .lnext ∧ x.lpc = p.lpc ∧ SameMemory s t)

/-- `Joining` and `NextFromQueue` hold. -/
def Obligations.JoinsAndQueuedEntries : Prop := Sys2Proof.Claims.Joining ∧ Sys2Proof.Claims.NextFromQueue

/-- R134, R305, R307: a retired opcode with no active lane only goes on; else it traps EMUL, with its operands in the frame; an eret from EMUL with FLAGS bit 0
takes its results from ROWA into the lanes of MASK. -/
def Sys2Proof.Claims.RetiredOpcodes : Prop :=
  (∀ (op : BitVec 4) (sub : Byte) (f : LF) (s : State) (b : Block) (w : Warp) (m : LFmt) (p : Split), Ready s b w (.retired op sub f) f m p →
    ((∀ l, l < 64 → isActive w m f p l = false) → ∃ t w', exec (.retired op sub f) s = .next t ∧ LGoes s t b w w' m f p [] [] ∧ w'.cons = w.cons)
    ∧ ((∃ l, l < 64 ∧ isActive w m f p l = true) → (∀ l, l < 64 → anyBad s b w m f l = false) → infillTakes s b op = false → ∀ l, b.frozen = false → w.handler = false →
        w.tvec ≠ 0 → SlotAt s b w l →
        ∃ t w1 mask, exec (.retired op sub f) s = .next t ∧ (∀ j, j < 64 → mask.getLsbD j = isActive w m f p j) ∧ w1 = { w with qs := w1.qs }
          ∧ (∀ q, w1.qs.get [] q = (w.qs.get [] q).drop (popsQ m.va f.va q + popsQ m.vb f.vb q + popsQ m.vc f.vc q))
          ∧ FrameIs t l w1 0x02 0 true s.sel.split p 0 mask 0 s.sel.word
          ∧ (∀ j, j < 64 → Holds t l (0x100 + 4 * j) 4 (opA s b w m f j % 2 ^ 32) ∧ Holds t l (0x200 + 4 * j) 4 (opB s b w m f j % 2 ^ 32)
              ∧ Holds t l (0x300 + 4 * j) 4 (opC s b w m f j % 2 ^ 32))
          ∧ (∃ w', getWarp t b.uid w.idx = some w' ∧ Entered w1 w') ∧ MemoryBut s t l 1024))
  ∧ ∀ (s : State) (b : Block) (w : Warp) (l : GLoc) (e : Entry) (spc lpc mask s1 : DWord) (repc flags : Byte) (sv : Nat → DWord) (rowA : Nat → Word) (p : Split) (r : Nat),
      me s = some (b, w) → w.handler = true → w.entry = some e → e.cause = .emul → w.reqs = [] → Unanswered w → (∀ d v, l ≠ .peer d v) →
      devXlat s (coreNo b) b.part b.pasid w.tframe false = some (.at_ l) → slotWaits s b w l = false → ((slotLoad s b w l).2.1.take 12).any id = false →
      SlotHolds (slotLoad s b w l).1 spc lpc mask s1 repc flags sv →
      spc.toNat % 4 = 0 → lpc.toNat % 12 = 0 → flags = 1 → (∀ j, j < 64 → BytesAt (slotLoad s b w l).1 (0x100 + 4 * j) 4 (rowA j).toNat) → getSplit w e.split = some p →
      mapOf w (e.insn / 2 ^ 71 % 512) = some r →
      ∃ t u, exec .sysEret s = .next t ∧ getWarp t b.uid w.idx = some u ∧ u.handler = false ∧ u.spc = spc
        ∧ (∃ q, getSplit u e.split = some q ∧ q.lpc = lpc + 12 ∧ q.rep = none)
        ∧ (∀ j, j < 64 → (getRow (getCore t (coreNo b)) r).lanes.getD j 0
            = if mask.getLsbD j && e.splitMask.getLsbD j && decide (j < w.width) then rowA j else (getRow (getCore s (coreNo b)) r).lanes.getD j 0)
        ∧ (∀ j, j ≠ r → getRow (getCore t (coreNo b)) j = getRow (getCore s (coreNo b)) j) ∧ SameMemory s t

/-- R48, R59, R132, R304, R305: every L-instruction with row operands traps UNMAPPED with the first name that is not mapped; one that would issue, where hazards are
checked, and that uses the row or predicate of an unlanded result of its warp, traps HAZARD with the producer. The edits of the map trap UNMAPPED and MAPFULL. -/
def Sys2Proof.Claims.RowTraps : Prop :=
  ∀ (g : LF) (s : State) (b : Block) (w : Warp) (p : Split), me s = some (b, w) → getSplit w s.sel.split = some p →
    (∀ i n, Unmapped w i n → LTraps i s b w p 0x03 n 0 0 0)
    ∧ (∀ i d, Hazardous s b w i d → LTraps i s b w p 0x14 0 0 0 d)
    ∧ (∀ i, (i = .aliasOp g ∨ i = .rmov g ∨ i = .give g) → mapOf w g.va.code = none → LTraps i s b w p 0x03 g.va.code 0 0 0)
    ∧ (mapOf w g.vd.code = none → LTraps (.unmap g) s b w p 0x03 g.vd.code 0 0 0)
    ∧ ∀ r, mapOf w g.va.code = some r → mapOf w g.vd.code ≠ some r → 15 ≤ (getRow (getCore s (coreNo b)) r).count → LTraps (.aliasOp g) s b w p 0x12 g.vd.code 0 0 0

/-- `RetiredOpcodes` and `RowTraps` hold.
Where it goes beyond these rules it is the model's own reading (assumptions 34 and 35). -/
def Obligations.EmulatedOpcodesAndRowTraps : Prop := Sys2Proof.Claims.RetiredOpcodes ∧ Sys2Proof.Claims.RowTraps


/-! ### The map, the free pools and the banker -/

/-- R49, R50, R222, R223: acq takes fresh rows of the warp's own quadrant for its names, once enough are free and no older acq of the quadrant waits;
the names' old rows lose a reference. Without enough, the try form says so in its predicate, and the waiting form joins the order. rel unmaps its names. -/
def Sys2Proof.Claims.AcquireAndRelease : Prop :=
  ∀ (f : LF) (s : State) (b : Block) (w : Warp) (p : Split) (base n : Nat), me s = some (b, w) → getSplit w s.sel.split = some p → base = f.vd.code → n = f.imm.toNat →
    (MapSound s b w → acqQueue s (coreNo b) (w.idx % 4) = [] → n ≤ freeRows (getCore s (coreNo b)) (w.idx % 4) →
      (∃ t w' fs, exec (.acqWait f) s = .next t ∧ EditGoes s t b w w' p fs ∧ FreshRows s b w' base n fs ∧ Acquired s t b w w' base n)
      ∧ (interlocked b (getCore s (coreNo b)) w [] [f.pd.toNat] = false →
          ∃ t w' fs x, exec (.acqTry f) s = .next t ∧ EditGoes s t b w w' p (fs ++ [x]) ∧ FreshRows s b w' base n fs ∧ Acquired s t b w w' base n ∧ x.tgt = .pred f.pd.toNat ∧ x.val = BitVec.allOnes 64
            ∧ x.mask = widthMask w ∧ x.due = (getCore s (coreNo b)).cyc + 4))
    ∧ (acqQueue s (coreNo b) (w.idx % 4) ≠ [] ∨ freeRows (getCore s (coreNo b)) (w.idx % 4) < n → interlocked b (getCore s (coreNo b)) w [] [f.pd.toNat] = false →
        ∃ t w' x, exec (.acqTry f) s = .next t ∧ EditGoes s t b w w' p [x] ∧ w'.map = w.map ∧ Counts (getCore s (coreNo b)) (getCore t (coreNo b)) (fun r => (getRow (getCore s (coreNo b)) r).count)
          ∧ x.tgt = .pred f.pd.toNat ∧ x.val = 0)
    ∧ (freeRows (getCore s (coreNo b)) (w.idx % 4) < n → ∃ t w', exec (.acqWait f) s = .next t ∧ t.sel.issued = false ∧ getWarp t b.uid w.idx = some w'
        ∧ w' = { w with splits := w'.splits } ∧ getSplit w' s.sel.split = some { p with wait := .acq } ∧ SameMemory s t
        ∧ (getCore t (coreNo b)).acqWait.contains { quad := w.idx % 4, block := b.uid, warp := w.idx, split := s.sel.split, base := base, count := n } = true)
    ∧ ∃ t w', exec (.rel f) s = .next t ∧ EditGoes s t b w w' p []
        ∧ (∀ k, mapOf w' k = if base ≤ k ∧ k < base + n then none else mapOf w k)
        ∧ Counts (getCore s (coreNo b)) (getCore t (coreNo b)) (fun r => (getRow (getCore s (coreNo b)) r).count - (rowsOfNames w base n).count r)

/-- R11, R50, R240, R331, R427: ACQ_SERVED gives the oldest waiter of a quadrant its rows, as an issue in one of the quadrant's two L slots of the clock: its split goes on, and issues
nothing more in the clock. -/
def Sys2Proof.Claims.AcquireServed : Prop :=
  ∀ (s : State) (c q : Nat) (e : AcqWait) (l : List AcqWait) (b : Block) (w : Warp) (p : Split), acqQueue s c q = e :: l → getBlock s e.block = some b →
    getWarp s e.block e.warp = some w → e.split < 4 → getSplit w e.split = some p → MapSound s b w → e.count ≤ freeRows (getCore s c) (w.idx % 4) →
    e.count ≤ freeRows (getCore s c) q → slotLets s c b w e.split = true → w.dbg.stopped = false → w.sstep = none →
    let used := fun (x : Split) => if x.mask &&& p.mask = 0 then x else { x with nextCyc := (getCore s c).cyc + 1, passBp := false }
    ∃ t w', exec (.acqServed c q) s = .next t ∧ getWarp t e.block e.warp = some w' ∧ getSplit w' e.split = some (used (pastSplit p)) ∧ Acquired s t b w w' e.base e.count
      ∧ (getCore t c).lUsed.get 0 q = (getCore s c).lUsed.get 0 q + 1
      ∧ (∀ k, k < 4 → k ≠ e.split → getSplit w' k = (getSplit w k).map used) ∧ e ∉ (getCore t c).acqWait ∧ SameMemory s t

/-- `AcquireAndRelease` and `AcquireServed` hold.
Where it goes beyond these rules it is the model's own reading (assumptions 5, 40 and 94). -/
def Obligations.AcquiresReleasesAndServing : Prop := Sys2Proof.Claims.AcquireAndRelease ∧ Sys2Proof.Claims.AcquireServed

/-- R220, R224: alias adds a reference to its source's row, rmov moves the name, unmap takes it away; the old row of a name that is mapped anew loses a
reference, and every other name and count stays. -/
def Obligations.MapEdits : Prop :=
  ∀ (f : LF) (s : State) (b : Block) (w : Warp) (p : Split) (r d a : Nat), me s = some (b, w) → getSplit w s.sel.split = some p → d = f.vd.code → a = f.va.code →
    let x := getCore s (coreNo b)
    let old := fun k => if mapOf w d = some k then 1 else 0
    (mapOf w a = some r → mapOf w d ≠ some r →
      ((getRow x r).count < 15 → ∃ t w', exec (.aliasOp f) s = .next t ∧ EditGoes s t b w w' p [] ∧ (∀ k, mapOf w' k = if k = d then some r else mapOf w k)
          ∧ Counts x (getCore t (coreNo b)) (fun k => (getRow x k).count - old k + if k = r then 1 else 0))
      ∧ ∃ t w', exec (.rmov f) s = .next t ∧ EditGoes s t b w w' p [] ∧ (∀ k, mapOf w' k = if k = a then none else if k = d then some r else mapOf w k)
          ∧ Counts x (getCore t (coreNo b)) (fun k => (getRow x k).count - old k))
    ∧ (mapOf w a = some r → mapOf w d = some r → ∀ i, i = .aliasOp f ∨ i = .rmov f → ∃ t w', exec i s = .next t ∧ EditGoes s t b w w' p [] ∧ w'.map = w.map
        ∧ Counts x (getCore t (coreNo b)) fun k => (getRow x k).count)
    ∧ (mapOf w d = some r → ∃ t w', exec (.unmap f) s = .next t ∧ EditGoes s t b w w' p [] ∧ (∀ k, mapOf w' k = if k = d then none else mapOf w k)
        ∧ Counts x (getCore t (coreNo b)) (fun k => (getRow x k).count - old k))

/-- R51, R225 to R227: give moves the row of its name, with its reference, to an empty banker slot; take moves it to its name, pending until the giver's
writes have landed; the try form says in its predicate whether it took. A full or an empty slot is waited for. In one clock the operations arrive by
quadrant, then by warp index; one that comes too late for its place tries again. -/
def Sys2Proof.Claims.Banker : Prop :=
  ∀ (f : LF) (s : State) (b : Block) (w : Warp) (p : Split) (slot : Nat), me s = some (b, w) → getSplit w s.sel.split = some p → slot = f.imm.toNat →
    let x := getCore s (coreNo b)
    (inOrder x.bankAt x.cyc w = false → (∀ r, mapOf w f.va.code = some r → b.banker.get none slot = none → bankAhead b slot w.idx s.sel.split true = [] →
        exec (.give f) s = .next { s with sel := { s.sel with issued := false } })
      ∧ (interlocked b x w [] [f.pd.toNat] = false → exec (.takeTry f) s = .next { s with sel := { s.sel with issued := false } }))
    ∧ (inOrder x.bankAt x.cyc w = true →
    (∀ r, mapOf w f.va.code = some r → b.banker.get none slot = none → bankAhead b slot w.idx s.sel.split true = [] →
      ∃ t w' c, exec (.give f) s = .next t ∧ getWarp t b.uid w.idx = some w' ∧ w' = { w with map := w'.map, splits := w'.splits }
        ∧ (∀ k, mapOf w' k = if k = f.va.code then none else mapOf w k) ∧ getSplit w' s.sel.split = some (pastSplit p)
        ∧ getBlock t b.uid = some c ∧ c = { b with warps := c.warps, banker := c.banker, bankWait := c.bankWait }
        ∧ (∃ e, c.banker.get none slot = some e ∧ e.row = r ∧ e.ids = rowWrites s x b w r) ∧ (∀ k, k ≠ slot → c.banker.get none k = b.banker.get none k)
        ∧ (∀ v, v ≠ b.uid → getBlock t v = getBlock s v) ∧ SameMemory s t ∧ t = { arrived s b w with blocks := t.blocks })
    ∧ (∀ r, mapOf w f.va.code = some r → (b.banker.get none slot).isSome →
      ∃ t w', exec (.give f) s = .next t ∧ t.sel.issued = false ∧ getWarp t b.uid w.idx = some w' ∧ getSplit w' s.sel.split = some { p with wait := .bank } ∧ w'.map = w.map)
    ∧ (∀ e i, b.banker.get none slot = some e → (i = .take f ∧ bankAhead b slot w.idx s.sel.split false = []
          ∨ i = .takeTry f ∧ (b.bankWait.any fun u => u.1 == slot && !u.2.2.2 && u.2.1 != w.idx && bankLive b u) = false ∧ interlocked b x w [] [f.pd.toNat] = false) →
      ∃ t w' c, exec i s = .next t ∧ getWarp t b.uid w.idx = some w' ∧ w' = { w with map := w'.map, splits := w'.splits }
        ∧ (∀ k, mapOf w' k = if k = f.vd.code then some e.row else mapOf w k) ∧ getSplit w' s.sel.split = some (pastSplit p)
        ∧ getBlock t b.uid = some c ∧ c.banker.get none slot = none ∧ (∀ k, k ≠ slot → c.banker.get none k = b.banker.get none k)
        ∧ (∀ k, getRow (getCore t (coreNo b)) k = { getRow x k with
            count := (getRow x k).count - (if mapOf w f.vd.code = some k then 1 else 0)
            pend := (getRow x k).pend + (if k = e.row ∧ slotReadable s b e = false then 1 else 0) })
        ∧ (∀ v, v ≠ b.uid → getBlock t v = getBlock s v) ∧ SameMemory s t
        ∧ (i = .takeTry f → ∃ y, (getCore t (coreNo b)).flight = x.flight ++ [y] ∧ y.tgt = .pred f.pd.toNat ∧ y.val = BitVec.allOnes 64))
    ∧ (b.banker.get none slot = none →
        (∃ t w', exec (.take f) s = .next t ∧ t.sel.issued = false ∧ getWarp t b.uid w.idx = some w' ∧ getSplit w' s.sel.split = some { p with wait := .bank } ∧ w'.map = w.map)
        ∧ (interlocked b x w [] [f.pd.toNat] = false → ∃ t w' y, exec (.takeTry f) s = .next t ∧ EditGoes (arrived s b w) t b w w' p [y] ∧ w'.map = w.map
          ∧ y.tgt = .pred f.pd.toNat ∧ y.val = 0)))

/-- R225, R226: once the writes of its giver have landed a banker slot is readable, and a row already taken loses its interlock. -/
def Sys2Proof.Claims.BankerReadable : Prop :=
  ∀ (s : State) (u slot : Nat) (b : Block), getBlock s u = some b →
    ∃ t, exec (.bankerSlotReadable u slot) s = .next t ∧ SameMemory s t
      ∧ (∀ r, getRow (getCore t (coreNo b)) r = { getRow (getCore s (coreNo b)) r with
          pend := (getRow (getCore s (coreNo b)) r).pend - (b.takes.filter fun e => e.1 == slot && slotReadable s b e.2 && e.2.row == r).length })
      ∧ ∃ c, getBlock t u = some c ∧ c = { b with banker := c.banker, takes := b.takes.filter fun e => !(e.1 == slot && slotReadable s b e.2) }
        ∧ (∀ k, k ≠ slot → c.banker.get none k = b.banker.get none k)
        ∧ ∀ e, b.banker.get none slot = some e → c.banker.get none slot = some (if slotReadable s b e then { e with ids := [] } else e)

/-- `Banker` and `BankerReadable` hold.
That each block has its own banker, so that the other blocks stay as they were, is deduced and no rule's words (assumption 98).
Where it goes beyond these rules it is the model's own reading (assumption 98). -/
def Obligations.BankerAndItsReads : Prop := Sys2Proof.Claims.Banker ∧ Sys2Proof.Claims.BankerReadable


/-! ### Lane memory -/

/-- R241 to R245, R250, R252, R253: a load whose lanes all translate, and every access to a scratchpad that passes its checks, is sent at its issue: one
outstanding operation with an address, and its operands, for each active lane; its rows are interlocked and its class counts it.
Where it goes beyond these rules it is the model's own reading (assumptions 21, 25 and 33). -/
def Obligations.LaneRequestsSent : Prop :=
  ∀ (i : Instr) (f : LF) (s : State) (b : Block) (w : Warp) (m : LFmt) (p : Split) (x : MemForm), MemReady s b w i f m p x →
    let ea := laneEa s b w m f x
    let sends := fun ls : List LaneAcc => ∃ t w', exec i s = .next t ∧ MemGoes s t b w w' m f x (pastSplit p) [] ∧ w'.sb = w.sb
      ∧ t.ops = s.ops ++ [opOf s b w m f x (ls.map fun a => { a with sent := s.serial + 1 })] ∧ t.serial = s.serial + 2
    (x.sp = .glob ∧ (∃ sx ro st, x.kind = .load sx ro st) → ∀ loc, LanesAt s b w m f p x loc →
      sends ((activeLanes w m f p).map fun l => { lane := l, ea := ea l, loc := some (.g (loc l)), fwd := forwards w s.serial (loc l) x.bytes,
                                                  bPois := forwardPois w s.serial (loc l) x.bytes }))
    ∧ (x.sp = .own → (∀ l, l < 64 → isActive w m f p l = true → ea l % x.bytes = 0 ∧ ea l + x.bytes ≤ b.kd.scratch) →
      sends ((activeLanes w m f p).map fun l => laneWith s b w m f x l (.spad b.uid (ea l))))
    ∧ ∀ tgt : Nat → Block, x.sp = .peer → b.pfail = false → (∀ l, l < 64 → isActive w m f p l = true → ea l % x.bytes = 0 ∧ ea l < 2 ^ 24 ∧ peerTarget s b (ea l) = some (tgt l)
        ∧ (tgt l).frozen = false ∧ ea l % 2 ^ 22 + x.bytes ≤ (tgt l).kd.scratch) →
      sends ((activeLanes w m f p).map fun l => laneWith s b w m f x l (.spad (tgt l).uid (ea l % 2 ^ 22)))

/-- R104, R105, R251: a store whose lanes all translate, with entries enough for its lines, stands in the store buffer at its issue; where lanes meet, the
highest one's byte stands; memory is as before. -/
def Sys2Proof.Claims.LaneStoresBuffered : Prop :=
  ∀ (qb : Bool) (wd : MemW) (f : LF) (s : State) (b : Block) (w : Warp) (m : LFmt) (p : Split) (x : MemForm) (loc : Nat → GLoc), MemReady s b w (.st qb wd f) f m p x →
    LanesAt s b w m f p x loc → (∀ l, l < 64 → isActive w m f p l = true → gAddr (loc l) % x.bytes = 0) →
    (((activeLanes w m f p).map fun l => lineOf (loc l)).eraseDups).length + w.sb.length ≤ 32 →
    ∃ t w', exec (.st qb wd f) s = .next t ∧ MemGoes s t b w w' m f x (pastSplit p) [] ∧ t.ops = s.ops ∧ t.serial = s.serial + 1
      ∧ (∀ l j, l < 64 → isActive w m f p l = true → j < x.bytes →
          (∀ k i, l < k → k < 64 → isActive w m f p k = true → i < x.bytes → gAdd (loc k) i ≠ gAdd (loc l) j) →
          sbByte w'.sb (gAdd (loc l) j) = some (BitVec.ofNat 8 (laneData s b w m f x l / 256 ^ j)))
      ∧ ∀ y, (∀ l j, l < 64 → isActive w m f p l = true → j < x.bytes → y ≠ gAdd (loc l) j) → sbByte w'.sb y = sbByte w.sb y

/-- R103, R117, R254 to R256: an atomic or red whose lanes all translate is sent at its issue, once no byte of its lines is buffered and no drain of the block holds
them: to device memory its split waits for the answers, to host memory it goes on. At its LOAD_RESPONSE or STORE_ACK the lanes of one device location are
performed in lane order, each in one step, with the scope recorded; the old values land at once where no RDC holds a copy of the line, else they are kept.
Where it goes beyond these rules it is the model's own reading (assumptions 19 and 25). -/
def Obligations.LaneAtomicsPerformed : Prop :=
  (∀ (i : Instr) (op : AtomOp) (wide : Bool) (sc : Scope) (f : LF) (s : State) (b : Block) (w : Warp) (m : LFmt) (p : Split) (x : MemForm) (loc : Nat → GLoc),
    (i = .atom op wide sc f ∨ i = .red op wide sc f) → MemReady s b w i f m p x → LanesAt s b w m f p x loc →
    (∀ l, l < 64 → isActive w m f p l = true → sbHolds w s.serial (loc l) = false ∧ drainHolds s b.uid (loc l) = false) →
    let ls := (activeLanes w m f p).map fun l => laneWith s b w m f x l (.g (loc l))
    let sends := fun (t : State) (w' : Warp) => exec i s = .next t ∧ w'.sb = w.sb ∧ t.serial = s.serial + 2
      ∧ t.ops = s.ops ++ [opOf s b w m f x (ls.map fun a => { a with sent := s.serial + 1 })]
    ((∀ l, l < 64 → isActive w m f p l = true → ∃ pa, loc l = .dev pa) → ∃ t w' r, sends t w' ∧ MemGoes s t b w w' m f x { p with wait := .park } [r]
      ∧ r.id = s.serial ∧ r.split = s.sel.split ∧ r.trapped = false ∧ r.cls = x.cls ∧ r.dest = dstRows w m f ∧ r.todo = ls.map fun a => { a with st := .sent })
    ∧ ((∀ l, l < 64 → isActive w m f p l = true → ∃ a, loc l = .host a) → sc = .system → ∃ t w', sends t w' ∧ MemGoes s t b w w' m f x (pastSplit p) []))
  ∧ ∀ (s : State) (o : Op) (op : AtomOp) (sc : Scope) (res : Bool) (b : Block) (w : Warp) (r : MemReq) (p : Split) (pa : Nat),
    findOp s o.id = some o → (∀ y ∈ s.ops, y.id = o.id → y = o) → (∀ x ∈ s.transit, x.id ≠ o.id) → o.kind = .atomic op sc res → o.counted = true → (o.cls = .ld ∨ o.cls = .st) →
    getBlock s o.block = some b → getWarp s o.block o.warp = some w → o.core = coreNo b → o.dest.Nodup → o.result = [] → o.lines = [] → o.todo ≠ [] → (o.todo.map (·.lane)).Nodup →
    (∀ a ∈ o.todo, a.lane < 64 ∧ a.loc = some (.g (.dev pa)) ∧ a.bPois = false ∧ a.b < 256 ^ o.bytes ∧ laneFree s o a = true) → gPois s (.dev pa) = false
    → NoWatch s (.g (.dev pa)) o.bytes 3 → (∀ k, s.scopes.get none (pa / 128) = some k → insideScope sc k o.core = true) →
    r ∈ w.reqs → (∀ y ∈ w.reqs, y.id = o.id → y = r) → r.id = o.id → r.cls = o.cls → r.dest = o.dest → (r.todo.map fun a => (a.lane, a.st)) = o.todo.map (fun a => (a.lane, .sent)) →
    w.handler = false → w.infill = false → getSplit w r.split = some p →
    ∃ (t : State) (w' : Warp) (old : Nat → Nat), exec (if o.cls = .ld then .loadResponse o.id else .storeAck o.id) s = .next t
      ∧ AtomRun op o.bytes (o.todo.map fun a => (.dev pa, a.b, a.c.toNat, old a.lane)) s t
      ∧ t.scopes.get none (pa / 128) = some ⟨sc, pierOf o.core, courseOf o.core, o.core⟩ ∧ OtherWarps s t o.block o.warp ∧ getWarp t o.block o.warp = some w'
      ∧ w' = { w with reqs := w.reqs.filter (fun y => y.id != o.id), splits := w'.splits, ldq := w'.ldq, stq := w'.stq, sst := w'.sst }
      ∧ getSplit w' r.split = some (pastSplit p) ∧ (∀ k, k ≠ r.split → getSplit w' k = getSplit w k)
      ∧ (∀ c, getCore t c = { getCore s c with rows := (getCore t c).rows, l1 := (getCore t c).l1 }) ∧ (∀ c, c ≠ o.core → (getCore t c).rows = (getCore s c).rows)
      ∧ t = { s with blocks := t.blocks, cores := t.cores, piers := t.piers, ops := t.ops, mem := t.mem, scopes := t.scopes, l2Bad := t.l2Bad, fresh := t.fresh }
      ∧ (hasSharer s (pa / 128) = true → (∃ y ∈ t.ops, y.id = o.id ∧ y.todo = [] ∧ y.result = o.todo.map (fun a => (a.lane, old a.lane)) ∧ y.lines ≠ [])
          ∧ (∀ k, getRow (getCore t o.core) k = getRow (getCore s o.core) k) ∧ w'.ldq = w.ldq ∧ w'.stq = w.stq)
      ∧ (hasSharer s (pa / 128) = false → (∀ y ∈ t.ops, y.id ≠ o.id)
          ∧ (∀ k d, o.dest[k]? = some d → ∀ a ∈ o.todo, (getRow (getCore t o.core) d).lanes.getD a.lane 0 = BitVec.ofNat 32 (old a.lane / 2 ^ (32 * k)))
          ∧ (∀ d l, l < 64 → (d ∉ o.dest ∨ ∀ a ∈ o.todo, a.lane ≠ l) → (getRow (getCore t o.core) d).lanes.getD l 0 = (getRow (getCore s o.core) d).lanes.getD l 0)
          ∧ (∀ d, (getRow (getCore t o.core) d).pend = (getRow (getCore s o.core) d).pend - o.dest.count d) ∧ (o.cls = .ld → w'.ldq = (countDone w .ld o.id).ldq))

/-- R56, R244, R250, R252, R254: a response writes the lanes it brings into the destination rows and, with the last of them, ends the interlock and the
operation's count. Here the operation's lanes are one line or granule. -/
def Sys2Proof.Claims.LoadResponses : Prop :=
  ∀ (s : State) (id : Nat) (o : Op) (b : Block) (w : Warp) (v : Nat → Nat) (g : Nat × Nat × Nat), findOp s id = some o → o.cls = .ld → o.counted = true → o.id = id →
    (∀ y ∈ s.ops, y.id = id → y = o) → getBlock s o.block = some b → getWarp s o.block o.warp = some w → (∀ r ∈ w.reqs, r.id ≠ id) → o.dest.Nodup → o.result = [] → o.lines = [] →
    128 % o.bytes = 0 → o.todo ≠ [] → (o.todo.map (·.lane)).Nodup →
    (∀ a ∈ o.todo, a.lane < 64 ∧ laneFree s o a = true ∧ a.bPois = false ∧ (∃ l, a.loc = some l ∧ groupOf o.kind o.bytes l = g ∧ NoWatch s l o.bytes 2)) →
    (∃ sx ro st, o.kind = .load sx ro st ∧ ∀ a ∈ o.todo,
      (∀ l, a.loc = some (.g l) → gAddr l % o.bytes = 0 ∧ a.fwd.length = o.bytes ∧ seenPois s o.core l = false
        ∧ ∃ y, y < 256 ^ o.bytes ∧ ExtendsTo sx o.bytes y (v a.lane) ∧ ∀ j, j < o.bytes → y / 256 ^ j % 256 = (match a.fwd.getD j none with | some z => z | none => seenByte s o.core { w with sb := [] } (gAdd l j)).toNat)
      ∧ (∀ k off, a.loc = some (.spad k off) → spadPois s k off = false
        ∧ ∃ c y, getBlock s k = some c ∧ y < 256 ^ o.bytes ∧ ExtendsTo sx o.bytes y (v a.lane) ∧ ∀ j, j < o.bytes → y / 256 ^ j % 256 = (Memory.read c.spad (off + j)).toNat)) →
    ∃ t w', exec (.loadResponse id) s = .next t ∧ (∀ y ∈ t.ops, y.id ≠ id) ∧ OtherWarps s t o.block o.warp ∧ getWarp t o.block o.warp = some w' ∧ w' = { w with ldq := w'.ldq }
      ∧ w'.ldq = (countDone w .ld id).ldq ∧ SameMemory s t ∧ MayEvict s t
      ∧ t = { s with blocks := t.blocks, cores := t.cores, piers := t.piers, ops := t.ops, scopes := t.scopes, l2Bad := t.l2Bad, fresh := t.fresh }
      ∧ (∀ c, getCore t c = { getCore s c with rows := (getCore t c).rows, l1 := (getCore t c).l1 }) ∧ (∀ c, c ≠ o.core → (getCore t c).rows = (getCore s c).rows)
      ∧ (∀ k r, o.dest[k]? = some r → ∀ l, l < 64 → (getRow (getCore t o.core) r).lanes.getD l 0
          = if (o.todo.any fun a => a.lane == l) then BitVec.ofNat 32 (v l / 2 ^ (32 * k)) else (getRow (getCore s o.core) r).lanes.getD l 0)
      ∧ (∀ r, (getRow (getCore t o.core) r).pend = (getRow (getCore s o.core) r).pend - o.dest.count r)
      ∧ ∀ r, r ∉ o.dest → getRow (getCore t o.core) r = getRow (getCore s o.core) r

/-- R56, R100, R254: the old values of an atomic that its acknowledgement kept land in its rows, once the copies of the lines it wrote are gone. -/
def Sys2Proof.Claims.AtomicResults : Prop :=
  ∀ (s : State) (id : Nat) (o : Op) (b : Block) (w : Warp), findOp s id = some o → o.cls = .ld → o.counted = true → o.id = id → (∀ y ∈ s.ops, y.id = id → y = o) →
    getBlock s o.block = some b → getWarp s o.block o.warp = some w → (∀ r ∈ w.reqs, r.id ≠ id) → o.dest.Nodup → o.todo = [] → o.result ≠ [] → o.resPois = 0 →
    (o.result.map Prod.fst).Nodup → (∀ e ∈ o.result, e.1 < 64) →
    ∃ t w', exec (.loadResponse id) s = .next t ∧ (∀ y ∈ t.ops, y.id ≠ id) ∧ OtherWarps s t o.block o.warp ∧ getWarp t o.block o.warp = some w'
      ∧ w' = { w with ldq := (countDone w .ld id).ldq } ∧ SameMemory s t ∧ (∀ n ∈ o.lines, hasSharer t n = false)
      ∧ (∀ k r e, o.dest[k]? = some r → e ∈ o.result → (getRow (getCore t o.core) r).lanes.getD e.1 0 = BitVec.ofNat 32 (e.2 / 2 ^ (32 * k)))
      ∧ (∀ r l, l < 64 → (∀ e ∈ o.result, e.1 ≠ l) → (getRow (getCore t o.core) r).lanes.getD l 0 = (getRow (getCore s o.core) r).lanes.getD l 0)
      ∧ ∀ r, (getRow (getCore t o.core) r).pend = (getRow (getCore s o.core) r).pend - o.dest.count r

/-- `LoadResponses` and `AtomicResults` hold.
Where it goes beyond these rules it is the model's own reading (assumption 21). -/
def Obligations.ResponsesGiveResults : Prop := Sys2Proof.Claims.LoadResponses ∧ Sys2Proof.Claims.AtomicResults

/-- R96, R99, R100, R105: the oldest store buffer entry leaves and is in transit; a core's L1 line of it has its bytes at once; at its STORE_ACK its bytes are in
memory, and no other byte differs. The lanes of a scratchpad store that lie in one granule are written at a STORE_ACK, the highest lane's byte where they meet. -/
def Sys2Proof.Claims.StoresPerformed : Prop :=
  (∀ (s : State) (u i : Nat) (b : Block) (w : Warp) (e : SbEnt) (l : List SbEnt), getBlock s u = some b → getWarp s u i = some w → b.core.isSome → w.sb = e :: l →
    entryBlocked s u w e = false →
    ∃ t, exec (.storeBufferLeave u i) s = .next t ∧ SameMemory s t ∧ t.transit = s.transit ++ [{ id := s.serial, core := coreNo b, block := u, warp := i, ent := e }]
      ∧ (w.reqs = [] → getWarp t u i = some { w with sb := l } ∧ OtherWarps s t u i ∧ (∀ c, getCore t c = { getCore s c with l1 := (getCore t c).l1 })
        ∧ t = { s with blocks := t.blocks, cores := t.cores, transit := t.transit, serial := s.serial + 1 })
      ∧ (∀ c, c ≠ coreNo b → (getCore t c).l1 = (getCore s c).l1)
      ∧ (∀ pa k, e.line = .dev pa → k ≠ pa / 128 → (getCore t (coreNo b)).l1.get none k = (getCore s (coreNo b)).l1.get none k)
      ∧ ∀ pa x, e.line = .dev pa → (getCore s (coreNo b)).l1.get none (pa / 128) = some x → ∃ y, (getCore t (coreNo b)).l1.get none (pa / 128) = some y
        ∧ ∀ o, o < x.data.length → y.data.getD o 0 = (match e.bytes.get none o with | some z => z | none => x.data.getD o 0))
  ∧ (∀ (s : State) (t : Transit) (pa : Nat), s.transit.find? (fun x => x.id == t.id) = some t → t.ent.line = .dev pa → pa % 128 = 0 → t.performed = false → behind s t = false →
    t.copyEng = false → t.engine = false → (∀ e ∈ t.ent.bytes.cells, e.1 < 128 ∧ e.2.isSome) → (t.ent.bytes.cells.map Prod.fst).Nodup →
    (∀ o, o < 128 → (t.ent.bytes.get none o).isSome → NoWatch s (.g (.dev (pa + o))) 1 1) →
    ∃ y, exec (.storeAck t.id) s = .next y
      ∧ (∀ o z, t.ent.bytes.get none o = some z → gRead y (.dev (pa + o)) = z)
      ∧ (∀ l, realLoc l = true → (∀ o, (t.ent.bytes.get none o).isSome → l ≠ .dev (pa + o)) → gRead y l = gRead s l)
      ∧ (hasSharer s (pa / 128) = false → ∀ x ∈ y.transit, x.id ≠ t.id)
      ∧ (hasSharer s (pa / 128) = true → ∃ x ∈ y.transit, x = { t with performed := true }))
  ∧ ∀ (s : State) (o : Op) (b c : Block) (w : Warp) (k g : Nat), findOp s o.id = some o → (∀ x ∈ s.transit, x.id ≠ o.id) → (∀ y ∈ s.ops, y.id = o.id → y = o) → o.cls = .st →
      o.kind = .store → o.counted = true → o.result = [] → o.lines = [] → o.todo ≠ [] → (o.todo.map (·.lane)).Nodup → getBlock s k = some c → (c.frozen = true → k = o.block) →
      (∀ a ∈ o.todo, ∃ off, a.loc = some (.spad k off) ∧ off / 64 = g ∧ off % 64 + o.bytes ≤ 64 ∧ a.bPois = false ∧ laneFree s o a = true ∧ NoWatch s (.spad k off) o.bytes 1) →
      getBlock s o.block = some b → getWarp s o.block o.warp = some w → (∀ r ∈ w.reqs, r.id ≠ o.id) →
      let at_ := fun (j : Nat) (a : LaneAcc) => match a.loc with | some (.spad _ off) => if off ≤ j ∧ j < off + o.bytes then some (BitVec.ofNat 8 (a.b / 256 ^ (j - off))) else none | _ => none
      ∃ t c', exec (.storeAck o.id) s = .next t ∧ getBlock t k = some c' ∧ (∀ x ∈ t.ops, x.id ≠ o.id) ∧ SameMemory s t
        ∧ (∀ j, Memory.read c'.spad j = (o.todo.reverse.findSome? (at_ j)).getD (Memory.read c.spad j))
        ∧ ((∀ j, j / 64 = g → (o.todo.findSome? (at_ j)).isSome) → c'.spadPois.get false g = false)
        ∧ ((∃ j, j / 64 = g ∧ o.todo.findSome? (at_ j) = none) → c'.spadPois.get false g = c.spadPois.get false g)
        ∧ ∀ j, j ≠ g → c'.spadPois.get false j = c.spadPois.get false j

/-- `LaneStoresBuffered` and `StoresPerformed` hold.
Where it goes beyond these rules it is the model's own reading (assumptions 21 and 33). -/
def Obligations.StoresBufferedAndPerformed : Prop := Sys2Proof.Claims.LaneStoresBuffered ∧ Sys2Proof.Claims.StoresPerformed

/-- R245, R305: a lane memory instruction with a misaligned lane traps ALIGN; with lanes outside the address layout PAGE; with scratchpad bytes beyond SCRATCH, or
of no peer, PERM. MASK holds the failing lanes and FADDR the address of the lowest; the instruction keeps its operands for a re-issue.
Where it goes beyond these rules it is the model's own reading (assumptions 18 and 22). -/
def Obligations.LaneMemoryTraps : Prop :=
  ∀ (i : Instr) (f : LF) (s : State) (b : Block) (w : Warp) (m : LFmt) (p : Split) (x : MemForm) (k : Nat) (l : GLoc), MemReady s b w i f m p x → k < 64 → isActive w m f p k = true →
    b.frozen = false → w.pending = none → w.tvec ≠ 0 → SlotAt s b w l →
    ((∃ op sc r, x.kind = .atomic op sc r) → w.sb = [] ∧ w.reqs = [] ∧ ∀ y ∈ s.transit, y.engine = false ∨ y.block ≠ b.uid) →
    let ea := laneEa s b w m f x
    let traps := fun (cause subc : Nat) (bad : Nat → Prop) => bad k → (∀ j, j < k → isActive w m f p j = true → ¬bad j) →
      ∃ t w1 w' mask, exec i s = .next t ∧ (∀ j, j < 64 → ((mask : DWord).getLsbD j = true ↔ isActive w m f p j = true ∧ bad j))
        ∧ w1 = { w with qs := w1.qs, reqs := w1.reqs, ldq := w1.ldq, stq := w1.stq, splits := w1.splits, lastPage := w1.lastPage }
        ∧ FrameIs t l w1 cause subc true s.sel.split { p with wait := .park } (BitVec.ofNat 64 (ea k)) mask 0 s.sel.word
        ∧ getWarp t b.uid w.idx = some w' ∧ Entered w1 w' ∧ MemoryBut s t l 256
        ∧ ∃ r ∈ w'.reqs, r.id = s.serial ∧ r.trapped = true ∧ r.split = s.sel.split ∧ r.todo.map (fun a => (a.lane, a.ea)) = (activeLanes w m f p).map fun j => (j, ea j)
    traps 0x06 2 (fun j => ea j % x.bytes ≠ 0)
    ∧ ((∀ j, j < 64 → isActive w m f p j = true → ea j % x.bytes = 0) →
        (x.sp = .glob → traps 0x04 1 (fun j => addrOk s b.part (BitVec.ofNat 64 (ea j)) = false))
        ∧ (x.sp = .own → traps 0x05 2 (fun j => b.kd.scratch < ea j + x.bytes))
        ∧ (x.sp = .peer → b.gang = none → (∀ j, j < 64 → isActive w m f p j = true → ea j < 2 ^ 24) → traps 0x05 3 (fun _ => True))
        ∧ ∀ op sc r loc, x.sp = .glob → x.kind = .atomic op sc r → sc ≠ .system → LanesAt s b w m f p x loc → traps 0x05 4 (fun j => ∃ a, loc j = .host a))


/-! ### The matrix engine and the copy engine at work -/

/-- R262, R263, R269, R274, R276, R282, R299: the oldest command of its unit, when no older command of the block holds its storage and the unit is free, runs: tcfg sets its tile's
configuration, drld its slot's program, aclr clears its accumulator, and the command leaves the engine; an mma adds its next chunk in a clock, with the scale tables that it read as it
started, and leaves with its last one. -/
def Sys2Proof.Claims.EngineCommandsRun : Prop :=
  ∀ (s : State) (c : Nat) (m : Cmd) (b : Block), getBlock s m.block = some b → unitHead (getCore s c) (unitNo m) = some m → cmdBlocked (getCore s c) m = false →
    engBusy (getCore s c) (unitNo m) = false → cmdEarly s m = false →
    (∀ n x, m.kind = .tcfg n x → ∃ t b', exec (.tcfgRun c) s = .next t ∧ Ran s t c (engTime m) m b' (fun w v => v = w) ∧ b' = { b with tcf := b'.tcf }
      ∧ ∀ k, b'.tcf.get 0 k = if k = n then x else b.tcf.get 0 k)
    ∧ (∀ n d, m.kind = .drld n d → ∃ t b', exec (.drldRun c) s = .next t ∧ Ran s t c (engTime m) m b' (fun w v => v = w) ∧ b' = { b with slots := b'.slots }
      ∧ ∀ k, b'.slots.get none k = if k = n then some d else b.slots.get none k)
    ∧ (∀ n, m.kind = .aclr n → ∃ t b', exec (.aclrRun c) s = .next t ∧ Ran s t c (engTime m) m b' (fun w v => v = w)
      ∧ b' = { b with accs := b'.accs, accPois := b'.accPois, accSat := b'.accSat }
      ∧ (∀ k i j, i < 128 → j < 128 → accEl b' k i j = (if k = n then 0 else accEl b k i j) ∧ accBad b' k i j = (k != n && accBad b k i j))
      ∧ ∀ k, k < 48 → b'.accSat.getLsbD k = (b.accSat.getLsbD k && (k != n || (b.satAt == (getCore s c).cyc + 1 && b.satNew.getLsbD k))))
    ∧ ∀ n ta tb f ca cb, m.kind = .mma n ta tb f ca cb → m.inject = false → (∀ y ∈ (getCore s c).cmds, y.id = m.id → y = m) →
      let tabs := if m.started then m.tabs else scaleTabs b f ca cb
      ∃ t b', exec (.mmaRun c) s = .next t ∧ ChunkIs b b' (getCore s c).cyc n ta tb f ca cb tabs m.pos ∧ (getCore t c).engFree.get 0 2 = (getCore s c).cyc + 1
        ∧ (mmaChunks f ca ≤ m.pos + 1 → Ran s t c 1 m b' (fun w v => v = w))
        ∧ (m.pos + 1 < mmaChunks f ca → getBlock t m.block = some b' ∧ (∀ v, v ≠ m.block → getBlock t v = getBlock s v) ∧ (∀ k, k ≠ c → getCore t k = getCore s k)
          ∧ getCore t c = { getCore s c with cmds := (getCore s c).cmds.map (fun y => if y.id = m.id then { m with started := true, pos := m.pos + 1, tabs := tabs } else y), engFree := (getCore t c).engFree }
          ∧ Occupied (getCore s c) (getCore t c) 2 1 ∧ t = { s with blocks := t.blocks, cores := t.cores })

/-- An access of an engine or a copy cannot be made, with its subcause (R183, R295): 1 an address that R88 or R415 forbids, 0 a page that the host refuses, 2 a peer that
refuses a read. -/
def Sys2Proof.Claims.EngineFails (s : State) (c : Nat) (b : Block) (a : Nat) (wr : Bool) (n : Nat) : Prop :=
  match n with
  | 0 => addrOk s b.part (BitVec.ofNat 64 a) = true ∧ ∀ l, engXlat s c b a wr ≠ .ok l
  | 1 => addrOk s b.part (BitVec.ofNat 64 a) = false
  | 2 => wr = false ∧ ∃ d v, engXlat s c b a wr = .ok (.peer d v) ∧ peerBusy s (.peer d v) = false
  | _ => False

/-- R262, R270, R272, R273, R295: the transfer path makes the next access of its oldest transfer between its tile and the scratchpad or global memory: a tld of a byte, a tst
of bytes at consecutive addresses of one granule, as many as stand there; with the last byte, and no write unacknowledged, the transfer ends. An access that cannot be made ends it
there, and its warp traps. -/
def Sys2Proof.Claims.TileTransfers : Prop :=
  ∀ (s : State) (c : Nat) (m : Cmd) (b : Block) (st sp : Bool) (n base pitch ps a y r : Nat) (cfg : Word), getBlock s m.block = some b → unitHead (getCore s c) 1 = some m →
    (∀ z ∈ (getCore s c).cmds, z.id = m.id → z = m) → m.kind = (if st then .tst sp n base pitch ps cfg else .tld sp n base pitch ps cfg) → cmdOut s m = false → m.pos < tcRows cfg * tcBytes cfg →
    masterFrozen s (.core c) = false →
    (m.started = true ∨ cmdBlocked (getCore s c) m = false ∧ cmdEarly s m = false ∧ engBusy (getCore s c) 1 = false) → y = m.pos / tcBytes cfg → r = m.pos % tcBytes cfg →
    let at_ := fun q => if sp then tileAddr base pitch ps cfg (q / tcBytes cfg) (q % tcBytes cfg) else tileAddr base pitch ps cfg (q / tcBytes cfg) (q % tcBytes cfg) % 2 ^ 64
    a = at_ m.pos →
    let moves := fun (t : State) (k : Nat) => (m.pos + k < tcRows cfg * tcBytes cfg → { m with pos := m.pos + k, started := true } ∈ (getCore t c).cmds)
      ∧ (m.pos + k = tcRows cfg * tcBytes cfg → (∀ x ∈ t.transit, x ∈ s.transit) → ∀ z ∈ (getCore t c).cmds, z.id ≠ m.id) ∧ SameMemory s t
    let tile := fun (t : State) (v : Byte) => ∃ b', getBlock t m.block = some b' ∧ (∀ k i, i < 128 → rowValid b' k i = (rowValid b k i || (k == n && i == y)))
      ∧ ∀ k i j, i < 128 → j < 512 → tileByte b' k i j = if k = n ∧ i = y ∧ j = r then v else tileByte b k i j
    let follows := fun k => m.pos + k < tcRows cfg * tcBytes cfg ∧ at_ (m.pos + k) = a + k ∧ (a + k) / 64 = a / 64
    let run := fun k => 1 ≤ k ∧ k ≤ 64 ∧ (∀ i, 1 ≤ i → i < k → follows i) ∧ (k < 64 → ¬ follows k)
    let from_ := fun i => tileByte b n ((m.pos + i) / tcBytes cfg) ((m.pos + i) % tcBytes cfg)
    (st = false → sp = true → NoWatch s (.spad m.block a) 1 2 → ∃ t, exec (.tldRun c 1) s = .next t ∧ moves t 1 ∧ tile t (Memory.read b.spad a))
    ∧ (st = false → sp = false → ∀ l, engXlat s c b a false = .ok l → peerBusy s l = false → (∀ t ∈ s.transit, t.engine = true → t.core = c → t.ent.line ≠ lineOf l) → NoWatch s (.g l) 1 2 →
        ∃ t, exec (.tldRun c 1) s = .next t ∧ moves t 1
          ∧ tile t (match l with | .dev pa => (match (getCore s c).l1.get none (pa / 128) with | some x => x.data.getD (pa % 128) 0 | none => gRead s l) | _ => gRead s l))
    ∧ (st = true → sp = true → (∀ k, k ≤ 64 → NoWatch s (.spad m.block a) k 1) → ∃ t b' k, exec (.tstRun c 1) s = .next t ∧ run k ∧ moves t k ∧ getBlock t m.block = some b'
        ∧ ∀ j, Memory.read b'.spad j = if a ≤ j ∧ j < a + k then from_ (j - a) else Memory.read b.spad j)
    ∧ (st = true → sp = false → ∀ l, engXlat s c b a true = .ok l → ∃ t x k, exec (.tstRun c 1) s = .next t ∧ run k ∧ moves t k ∧ t.transit = s.transit ++ [x]
        ∧ x.engine = true ∧ x.performed = false ∧ x.block = m.block ∧ x.batch = m.batch ∧ x.ent.line = lineOf l ∧ x.ent.ids = [m.id]
        ∧ (∀ i, i < k → x.ent.bytes.get none ((gAddr l + i) % 128) = some (from_ i)) ∧ ∀ o, (∀ i, i < k → o ≠ (gAddr l + i) % 128) → x.ent.bytes.get none o = none)
    ∧ ∀ perm w k, sp = false → EngineFails s c b a st k → getWarp s m.block m.warp = some w →
        ∃ t w1, exec (.engineFault c perm) s = .next t ∧ (∀ z ∈ (getCore t c).cmds, z.id ≠ m.id) ∧ w1 = { w with tlq := w1.tlq, closed := w1.closed }
          ∧ Interrupts s t b w1 { cause := if perm && k != 1 then .perm else .page, subc := 0x100 + k, faddr := BitVec.ofNat 64 a }

/-- A drain that adds its fold to a K register whose value has an error consumes it, once for the drain (R291, R388, R393): the record of its region and its
skid; a drain that adds to no such register consumes nothing. -/
def Sys2Proof.Claims.FoldReads (w v : Warp) (m : Cmd) (kn : Option Nat) : Prop :=
  (∀ n, kn = some n → w.badK.getLsbD n = true → m.drain.reported = false → ∃ x, v.cons = w.cons ++ [x] ∧ x.depth = m.depth ∧ x.regionCount = m.regionCount ∧ x.unit = 10
    ∧ x.pa = 0 ∧ x.va = 0 ∧ x.skid = min 256 (w.issues - m.issuedAt))
  ∧ ((∀ n, kn = some n → w.badK.getLsbD n = false ∨ m.drain.reported = true) → v.cons = w.cons)

/-- `EngineCommandsRun` and `TileTransfers` hold.
Where it goes beyond these rules it is the model's own reading (assumptions 15, 28 and 30). -/
def Obligations.EngineCommandsAndTiles : Prop := Sys2Proof.Claims.EngineCommandsRun ∧ Sys2Proof.Claims.TileTransfers

/-- R287 to R297, R299, R388: a free drain engine takes the oldest drain that can start; it goes through the rows and columns of its accumulator, an element's
micro-operations in order; after row 127, with every write acknowledged, the fold goes into K and CLR clears the accumulator. A page that the host refuses parks
the drain, and its warp takes DRAINFAULT; a return from that trap lets it start again at its restart point. -/
def Sys2Proof.Claims.Drains : Prop :=
  (∀ (s : State) (c e : Nat) (m : Cmd), e < 2 → onEngine (getCore s c) e = none → engBusy (getCore s c) (3 + e) = false → masterFrozen s (.core c) = false → (∀ y ∈ (getCore s c).cmds, y.id = m.id → y = m) →
    (getCore s c).cmds.find? (fun y => unitNo y == 3 && !y.started && !cmdBlocked (getCore s c) y) = some m →
    ∃ t, exec (.drainRun c e 0) s = .next t ∧ PointIs s t c m { m with started := true, drain := { m.drain with eng := e } }
      ∧ (getCore t c).engFree.get 0 (3 + e) = (getCore s c).cyc + engTime m)
  ∧ ∀ (s : State) (c e : Nat) (m : Cmd) (b : Block) (w : Warp) (acc slot : Nat) (d : DSlot) (desc : List Byte) (cfg : List Word) (kn : Option Nat), e < 2 → OnEngine s c e m b →
    m.kind = .drain acc slot d desc cfg kn → getWarp s m.block m.warp = some w → masterFrozen s (.core c) = false →
    (m.drain.parked = false → m.drain.row < 128 →
      (m.drain.began = false → (holds (program d) 0x11 && (ddesc desc).flags / 2 % 2 == 1) = false →
        ∃ t m', exec (.drainRun c e 1) s = .next t ∧ PointIs s t c m m' ∧ m'.drain.began = true ∧ m'.drain.red = none ∧ m'.drain.row = m.drain.row ∧ m'.drain.col = m.drain.col
          ∧ m'.drain.fold = m.drain.fold)
      ∧ (m.drain.began = true → m.drain.col < 128 → (∀ u ∈ program d, regOnly u.op = true) → accBad b acc m.drain.row m.drain.col = false →
          ∃ t m', ∃ R : Nat → Nat → Word, ∃ red : Nat → Option Word, ∃ fold : Nat → DWord, exec (.drainRun c e 1) s = .next t ∧ PointIs s t c m m'
            ∧ (R 0 = fun _ => 0) ∧ red 0 = m.drain.red ∧ fold 0 = m.drain.fold
            ∧ (∀ i u, (program d)[i]? = some u → UopIs (accEl b acc m.drain.row m.drain.col) d.consts u (R i) (R (i + 1)) (red i) (red (i + 1)) (fold i) (fold (i + 1)))
            ∧ m'.drain.red = red (program d).length ∧ m'.drain.fold = fold (program d).length ∧ m'.drain.row = m.drain.row ∧ m'.drain.col = m.drain.col + 1 ∧ m'.drain.began = true)
      ∧ (m.drain.began = true → 128 ≤ m.drain.col → holds (program d) 0x11 = false →
          ∃ t m', exec (.drainRun c e 1) s = .next t ∧ PointIs s t c m m' ∧ m'.drain.row = m.drain.row + 1 ∧ m'.drain.col = 0 ∧ m'.drain.began = false ∧ m'.drain.fold = m.drain.fold)
      ∧ (m.drain.began = false → holds (program d) 0x11 = true → (ddesc desc).flags / 2 % 2 = 1 → spaceOf (ddesc desc).rres ≠ 1 → cmdOut s m = false → b.frozen = false →
          ∀ perm a, a = addrOf (ddesc desc).rres + 4 * m.drain.row → (∀ l, engXlat s c b a false ≠ .ok l) →
            ∃ t m' x, exec (.drainPark c e perm) s = .next t ∧ m' ∈ (getCore t c).cmds ∧ m' = { m with drain := m'.drain } ∧ m'.drain.parked = true ∧ m'.drain.armed = false
              ∧ m'.drain.faddr = BitVec.ofNat 64 a ∧ m'.drain.row = m.drain.row ∧ Interrupts s t b w x ∧ x.cause = .drainFault ∧ x.subc = (if perm && addrOk s b.part (BitVec.ofNat 64 a) then 0x105 else 0x104) + 0x200 * e
              ∧ x.faddr = BitVec.ofNat 64 a ∧ x.tag = m.id))
    ∧ (128 ≤ m.drain.row → cmdOut s m = false →
        ∃ t b', exec (.drainComplete c e) s = .next t
          ∧ Ran s t c 0 m b' (fun w v => v = { w with kregs := v.kregs, badK := v.badK, cons := v.cons } ∧ FoldReads w v m (if holds (program d) 0x12 then kn else none) ∧ ∀ n, v.kregs.get 0 n = if kn = some n ∧ holds (program d) 0x12 = true
              then BitVec.ofNat 64 (add64 (w.kregs.get 0 n).toNat m.drain.fold.toNat) else w.kregs.get 0 n)
          ∧ b' = { b with accs := b'.accs, accPois := b'.accPois, accSat := b'.accSat }
          ∧ ∀ k i j, i < 128 → j < 128 → accEl b' k i j = if (ddesc desc).flags % 2 = 1 ∧ k = acc then 0 else accEl b k i j)
    ∧ (m.drain.parked = true → m.drain.armed = true →
        ∃ t m', exec (.drainResume c e) s = .next t ∧ PointIs s t c m m' ∧ m'.drain.parked = false ∧ m'.drain.row = m.drain.row ∧ m'.drain.fold = m.drain.rfold
          ∧ m'.drain.red = m.drain.rred
          ∧ m'.drain.col = (if m.drain.began then (if holds (program d) 0x14 then min m.drain.col 127 / 32 * 32 else min m.drain.col 127) else 0))

/-- R64, R68, R131, R268, R287, R288, R292, R293: an element whose program holds one micro-operation that reads a table or stores: drow and dcol read a word of their table; dst stores
the low bits of its register into the primary bit stream or a tile, dstt into a tile; dmx gathers, and at every 32nd column stores its block and the scale. Its other
micro-operations act as Drains says. -/
def Sys2Proof.Claims.DrainAccesses : Prop :=
  ∀ (s : State) (c e : Nat) (m : Cmd) (b : Block) (acc slot : Nat) (d : DSlot) (desc : List Byte) (cfg : List Word) (kn : Option Nat) (pre post : List Uop) (v : Uop), e < 2 → OnEngine s c e m b →
    masterFrozen s (.core c) = false → m.kind = .drain acc slot d desc cfg kn → m.drain.parked = false → m.drain.row < 128 → m.drain.began = true → m.drain.col < 128 →
    m.drain.skip ≤ m.drain.wc → accBad b acc m.drain.row m.drain.col = false → program d = pre ++ v :: post → (∀ u ∈ pre ++ post, regOnly u.op = true) →
    (∀ a n k, NoWatch s (.spad m.block a) n k) →
    let D := ddesc desc
    let i := m.drain.row
    let j := m.drain.col
    let goes := fun (t : State) (m' : Cmd) (P : Word → (Nat → Word) → (Nat → Word) → Prop) => exec (.drainRun c e 1) s = .next t ∧ ∃ R : Nat → Nat → Word, ∃ red : Nat → Option Word, ∃ fold : Nat → DWord,
      R 0 = (fun _ => 0) ∧ red 0 = m.drain.red ∧ fold 0 = m.drain.fold
      ∧ (∀ k u, (program d)[k]? = some u → k ≠ pre.length → UopIs (accEl b acc i j) d.consts u (R k) (R (k + 1)) (red k) (red (k + 1)) (fold k) (fold (k + 1)))
      ∧ red (pre.length + 1) = red pre.length ∧ fold (pre.length + 1) = fold pre.length ∧ P (R pre.length v.da) (R pre.length) (R (pre.length + 1))
      ∧ (getCore t c).cmds = (getCore s c).cmds.map (fun y => if y.id = m.id then m' else y) ∧ m' = { m with drain := m'.drain } ∧ m'.drain.row = i ∧ m'.drain.col = j + 1
      ∧ m'.drain.red = red (program d).length ∧ m'.drain.fold = fold (program d).length
    let spad := fun (t : State) (P : Block → Prop) => ∃ b', getBlock t m.block = some b' ∧ b' = { b with spad := b'.spad, spadPois := b'.spadPois } ∧ P b'
    let tile := fun (t : State) (T w : Nat) (x : Word) => ∃ b', getBlock t m.block = some b' ∧ b' = { b with tiles := b'.tiles, tileValid := b'.tileValid } ∧ rowValid b' T i = true
      ∧ (∀ k y, y < 128 → (k ≠ T ∨ y ≠ i) → rowValid b' k y = rowValid b k y ∧ ∀ r, r < 512 → tileByte b' k y r = tileByte b k y r)
      ∧ ∀ k, k < 4096 → (rowNum b' T i 512).testBit k = if w * j ≤ k ∧ k < w * j + w then x.toNat.testBit (k - w * j) else (rowNum b T i 512).testBit k
    (∀ F I a, (v.op = 0x0D ∧ F = (if v.x = 1 then D.rowt1 else D.rowt0) ∧ I = i) ∨ (v.op = 0x0E ∧ F = D.colt0 ∧ I = j) → a = F % 2 ^ 62 + 4 * I →
      (F / 2 ^ 62 = 1 → ∃ t m', goes t m' (fun _ R R' => ∃ x : Word, R' = (fun k => if k = v.dd then x else R k) ∧ ∀ k, k < 4 → x.toNat / 256 ^ k % 256 = (Memory.read b.spad (a + k)).toNat) ∧ PointIs s t c m m')
      ∧ ∀ l, F / 2 ^ 62 ≠ 1 → engXlat s c b a false = .ok l → peerBusy s l = false → NoWatch s (.g l) 4 2 →
        ∃ t m', goes t m' (fun _ R R' => ∃ x : Word, R' = (fun k => if k = v.dd then x else R k) ∧ ∀ k, k < 4 → x.toNat / 256 ^ k % 256 = (gRead s (gAdd l k)).toNat) ∧ PointIs s t c m m')
    ∧ (v.op = 0x13 → let w := codeBits D.pfmt
        let bits := fun (x : Word) => m.drain.carry.1 + x.toNat % 2 ^ w * 2 ^ m.drain.carry.2.1
        let n := m.drain.carry.2.1 + w
        let a := D.pbase % 2 ^ 62 + i * D.ppitch + w * j / 8
        (D.pbase / 2 ^ 62 = 1 → ∃ t m' x, goes t m' (fun y R R' => R' = R ∧ x = y) ∧ m'.drain.carry.1 = bits x / 2 ^ (8 * (n / 8)) ∧ m'.drain.carry.2.1 = n % 8 ∧ SameMemory s t
          ∧ spad t fun b' => ∀ y, Memory.read b'.spad y = if a ≤ y ∧ y < a + n / 8 then BitVec.ofNat 8 (bits x / 256 ^ (y - a)) else Memory.read b.spad y)
        ∧ (∀ l, D.pbase / 2 ^ 62 = 0 → m.drain.carry.2.1 = 0 → m.drain.carry.1 = 0 → w % 8 = 0 → engXlat s c b a true = .ok l → (∀ k z, l ≠ .peer k z) →
          ∃ t m' x y, goes t m' (fun z R R' => R' = R ∧ x = z) ∧ SameMemory s t ∧ t.transit = s.transit ++ [y] ∧ y.engine = true ∧ y.performed = false ∧ y.block = m.block ∧ y.batch = m.batch
            ∧ y.ent.line = lineOf l ∧ y.ent.ids = [m.id] ∧ (∀ k, k < w / 8 → y.ent.bytes.get none ((gAddr l + k) % 128) = some (BitVec.ofNat 8 (x.toNat / 256 ^ k)))
            ∧ ∀ o, (∀ k, k < w / 8 → o ≠ (gAddr l + k) % 128) → y.ent.bytes.get none o = none)
        ∧ (D.pbase / 2 ^ 62 = 2 → w ≤ 32 → ∃ t m' x, goes t m' (fun y R R' => R' = R ∧ x = y) ∧ SameMemory s t ∧ tile t (D.pbase % 2 ^ 62) w x))
    ∧ (v.op = 0x15 → codeBits (tcEfmt (cfg.getD v.x 0)) ≤ 32 → ∃ t m' x, goes t m' (fun y R R' => R' = R ∧ x = y) ∧ SameMemory s t ∧ tile t v.x (codeBits (tcEfmt (cfg.getD v.x 0))) x)
    ∧ (v.op = 0x14 → let gathered := if j % 32 = 0 then [] else m.drain.gather
        (j % 32 ≠ 31 → ∃ t m', goes t m' (fun x R R' => R' = R ∧ m'.drain.gather = gathered ++ [x]) ∧ PointIs s t c m m')
        ∧ (j % 32 = 31 → m.drain.gather.length = 31 → v.x = D.pfmt → 3 ≤ v.x → v.x ≤ 8 → D.pbase / 2 ^ 62 = 1 → D.sbase / 2 ^ 62 = 1 →
          let w := codeBits D.pfmt
          let a := D.pbase % 2 ^ 62 + i * D.ppitch + w * (j - 31) / 8
          let sa := D.sbase % 2 ^ 62 + i * D.spitch + j / 32
          ∃ t m' x ev ps, goes t m' (fun y R R' => R' = R ∧ x = y) ∧ MxIs v.x (m.drain.gather ++ [x]) ev ps ∧ SameMemory s t
            ∧ spad t fun b' => ∀ y, Memory.read b'.spad y = if y = sa then BitVec.ofNat 8 ev else if a ≤ y ∧ y < a + 4 * w then BitVec.ofNat 8 (bitStream w ps / 256 ^ (y - a))
                else Memory.read b.spad y))

/-- R183: a copy whose elements are all moved and acknowledged ends: its count goes into PROG and class CP counts it complete. An element that cannot be read ends it
there, PROG holding the number of elements before it, and its warp traps with the subcause of the failure. -/
def Sys2Proof.Claims.CopiesEnd : Prop :=
  ∀ (s : State) (c k : Nat) (y : Copy) (b : Block) (w : Warp), findCopy (getCore s c) k = some y → getBlock s y.block = some b → getWarp s y.block y.warp = some w → copyOut s k = false →
    NoWatch s (.spad y.block (y.at_ + 0x38)) 8 1 →
    let ends := fun (t : State) (n : Nat) => (∀ z ∈ (getCore t c).copies, z.id ≠ k) ∧ ∃ b', getBlock t y.block = some b'
      ∧ ∀ j, Memory.read b'.spad j = if y.at_ + 0x38 ≤ j ∧ j < y.at_ + 0x40 then BitVec.ofNat 8 (n / 256 ^ (j - (y.at_ + 0x38))) else Memory.read b.spad j
    (y.moved.cells.length = cCount (cdesc y.desc) →
      ∃ t, exec (.copyComplete c k) s = .next t ∧ ends t (cCount (cdesc y.desc)) ∧ getWarp t y.block y.warp = some { w with cpq := (countDone w .cp k).cpq } ∧ SameMemory s t)
    ∧ ∀ e perm a n, y.kind = .g2s → e < cCount (cdesc y.desc) → (∀ i, i < e → y.moved.get false i = true) → y.moved.get false e = false →
        a = srcAddr s y (cdesc y.desc) e → EngineFails s c b a false n →
        ∃ t, exec (.copyFault c k perm) s = .next t ∧ ends t e
          ∧ Interrupts s t b { w with cpq := (countDone w .cp k).cpq } { cause := if perm && n != 1 then .perm else .page, subc := 0x100 + n, faddr := BitVec.ofNat 64 a }

/-- `Drains`, `DrainAccesses` and `CopiesEnd` hold.
Where it goes beyond these rules it is the model's own reading (assumptions 15, 27, 29, 30, 86, 102 and 103). -/
def Obligations.DrainsAndCopies : Prop := Sys2Proof.Claims.Drains ∧ Sys2Proof.Claims.DrainAccesses ∧ Sys2Proof.Claims.CopiesEnd


/-! ### The dispatcher -/

/-- R317 to R319, R325: a notify page takes an 8-byte write that moves WRIDX up to the ring's room; more stops the queue with ERR 0x08. CTL 1 enables a queue whose
registers are good, else ERR 0x02; CTL 2 aborts a held grid and stops the queue; CTL 3 resets it; GRANT gives a held grid a budget. -/
def Sys2Proof.Claims.QueueRegisters : Prop :=
  ∀ (s : State) (k n : Nat) (q : Queue), QueueHere s k n q → hostLet s k = true →
    (∀ off size v, inError s k = false →
      (off = 0 → size = 8 → q.state ≠ 0 → q.state ≠ 2 → q.wridx ≤ v.toNat →
        (v.toNat ≤ q.rdidx + 2 ^ q.rlog → ∃ t, exec (.notifyWrite k n off size v) s = .next t ∧ getQueue t k n = { q with wridx := v.toNat } ∧ QueuesBut s t k n ∧ t = { s with parts := t.parts })
        ∧ (q.rdidx + 2 ^ q.rlog < v.toNat → ∃ t, exec (.notifyWrite k n off size v) s = .next t ∧ getQueue t k n = { q with state := 2, err := 8 } ∧ QueuesBut s t k n))
      ∧ (off ≠ 0 ∨ size ≠ 8 ∨ q.state = 0 ∨ q.state = 2 ∨ v.toNat < q.wridx → exec (.notifyWrite k n off size v) s = .next s))
    ∧ (q.state = 0 → (getPart s k).tdi = .unlocked ∨ (getPart s k).tdi = .run → ∀ pid, pid = q.qpasid.toNat % 2 ^ 20 →
        let good := 4 ≤ q.rlog ∧ q.rlog ≤ 16 ∧ q.rbase.toNat % 128 = 0 ∧ q.supaddr.toNat % 32 = 0 ∧ (getPart s k).pbase ≤ pid ∧ pid < (getPart s k).pbase + (getPart s k).pcnt
        ∃ t, exec (.queueEnable k n) s = .next t ∧ QueuesBut s t k n ∧ (¬good → getQueue t k n = { q with err := 2 } ∧ t.ctxs = s.ctxs)
          ∧ (good → getQueue t k n = { q with state := 1, err := 0 }
              ∧ ((∀ e ∈ (getPart s k).queues.cells, e.1 ≠ n → e.2.state ≠ 0 → e.2.qpasid.toNat % 2 ^ 20 ≠ pid) →
                  ∃ x, t.ctxs.find? (fun y => y.part == k && y.pasid == pid) = some x ∧ x.errqh = 0 ∧ x.errqb.toNat / 4096 = q.qerrqb.toNat / 4096 ∧ x.errqb.toNat % 4096 = min (q.qerrqb.toNat % 16) 10)))
    ∧ ((∃ g ∈ s.grids, g.part = k ∧ g.queue = n ∧ gridOpen g = true ∧ g.held = true) →
        ∃ t, exec (.queueAbort k n) s = .next t ∧ (getQueue t k n).state = 2 ∧ (getQueue t k n).err = 0x0B
          ∧ ∀ g ∈ s.grids, g.part = k → g.queue = n → gridOpen g = true → g.held = true →
              (∀ h ∈ t.grids, gridIs k n g.packet h = true → h.aborted = true ∧ h.held = false) ∧ GoneBlocks t k n g.packet)
    ∧ (∃ t, exec (.queueReset k n) s = .next t
        ∧ getQueue t k n = { q with wridx := 0, rdidx := 0, state := 0, err := 0, used := (getQueue t k n).used, epoch := q.epoch + 1 }
        ∧ ∀ g ∈ s.grids, g.part = k → g.queue = n → gridOpen g = true → g.placed = 0 → ∀ h ∈ t.grids, gridIs k n g.packet h = true → h.aborted = true)
    ∧ ∀ v, q.state = 3 → v ≠ 0 → ∃ t, exec (.grant k n v) s = .next t ∧ getQueue t k n = { q with state := 1 } ∧ QueuesBut s t k n
        ∧ t.grids = s.grids.map (fun g => if g.part = k ∧ g.queue = n ∧ g.held = true ∧ gridOpen g = true then { g with held := false, budg := v } else g)
        ∧ t = { s with parts := t.parts, grids := t.grids }

/-- R320 to R322: the dispatcher reads the 128 bytes of the packet at RDIDX. A packet of an unknown kind stops the queue with ERR 1, a bad field with 2, an unreadable one
with 3; what passes its checks is admitted: RDIDX moves on, and a grid of its fields stands last. -/
def Sys2Proof.Claims.PacketsAdmitted : Prop :=
  ∀ (s : State) (k n : Nat) (q : Queue) (x : DRead), QueueHere s k n q → q.state = 1 → q.rdidx < q.wridx → inError s k = false →
    x = dRead s k (q.qpasid.toNat % 2 ^ 20) (q.rbase + BitVec.ofNat 64 (128 * (q.rdidx % 2 ^ q.rlog))) 128 →
    let stops := fun (e : Nat) => ∃ t, exec (.packetRead k n) s = .next t ∧ getQueue t k n = { q with state := 2, err := e } ∧ t.grids = s.grids ∧ QueuesBut s t k n
    (x = .bad → stops 3)
    ∧ ∀ bs, x = .ok bs →
      (1 < fieldOf bs 0 1 → stops 1)
      ∧ (fieldOf bs 0 1 ≤ 1 → lpbBad q bs = true → stops 2)
      ∧ (lpbBad q bs = false → fieldOf bs 0 1 = 1 → ∀ c, checkLaunch s k n q.rdidx q bs = .err c → stops c)
      ∧ (lpbBad q bs = false → (fieldOf bs 0 1 = 0 ∨ ∃ d, fieldOf bs 0 1 = 1 ∧ checkLaunch s k n q.rdidx q bs = .takeIn d) →
          ∃ t g, exec (.packetRead k n) s = .next t ∧ getQueue t k n = { q with rdidx := q.rdidx + 1 } ∧ t.grids = s.grids ++ [g] ∧ QueuesBut s t k n
            ∧ t = { s with parts := t.parts, grids := t.grids } ∧ g.part = k ∧ g.queue = n ∧ g.packet = q.rdidx + 2 ^ 64 * q.epoch ∧ g.pasid = q.qpasid.toNat % 2 ^ 20
            ∧ g.noop = (fieldOf bs 0 1 == 0) ∧ g.placed = 0 ∧ gridOpen g = (fieldOf bs 0 1 == 1)
            ∧ (fieldOf bs 0 1 = 1 → g.lpb.gx = fieldOf bs 0x18 4 ∧ g.lpb.gy = fieldOf bs 0x1C 4 ∧ g.lpb.gz = fieldOf bs 0x20 4 ∧ g.lpb.blkw = fieldOf bs 0x24 2
                ∧ g.lpb.karg.toNat = fieldOf bs 0x10 8 ∧ g.lpb.width = fieldOf bs 0x2C 1 ∧ g.lpb.deadline.toNat = fieldOf bs 0x30 8
                ∧ g.budg.toNat = (if fieldOf bs 0x38 8 = 0 then 2 ^ 64 - 1 else fieldOf bs 0x38 8) ∧ g.kd.addr = fieldOf bs 8 8
                ∧ g.debug = (getPart s k).dqen.getLsbD n))

/-- `QueueRegisters` and `PacketsAdmitted` hold.
Where it goes beyond these rules it is the model's own reading (assumptions 50 and 51). -/
def Obligations.QueuesAndPackets : Prop := Sys2Proof.Claims.QueueRegisters ∧ Sys2Proof.Claims.PacketsAdmitted

/-- R60, R319, R326 to R329: the dispatcher places the next block of the ready grid, here the only one, on the first core that fits it: its warps start at SENTRY with
their registers, their first names fresh rows of their quadrant, their save slots from the queue's pool; in ORDER 0 without swizzle blocks go by rows.
Where it goes beyond these rules it is the model's own reading (assumption 5). -/
def Obligations.BlocksPlaced : Prop :=
  ∀ (s : State) (k : Nat) (g : Grid) (q : Queue) (recs : List (Nat × DSlot)), answering s = true → inError s k = false → OnlyReady s k g → g.saved = [] → g.lpb.courseN = 1 →
    q = getQueue s g.part g.queue → poolFits s g = true → recordsOf s k g.pasid g.kd = .ok recs → (∃ c ∈ partCores s k, fits s c (needOf g) = true) →
    ∃ t b c, exec (.placementDecision k) s = .next t ∧ FirstFit s k (needOf g) c ∧ getBlock t s.nextUid = some b ∧ b.core = some c ∧ b.part = k ∧ b.queue = g.queue ∧ b.packet = g.packet
      ∧ b.kd = g.kd ∧ b.started = true ∧ b.idx = b.x + g.lpb.gx * (b.y + g.lpb.gy * b.z) ∧ (b.x, b.y, b.z) = visit g.lpb g.placed
      ∧ (g.lpb.order = 0 → g.lpb.swz = 0 → g.placed < g.lpb.gx * g.lpb.gy * g.lpb.gz → b.idx = g.placed)
      ∧ (∀ i, warpOf b i = none ↔ g.lpb.blkw ≤ i)
      ∧ (∀ i w, warpOf b i = some w → StartsAs g b i w
          ∧ (q.qtvec = 0 → w.tvec = 0 ∧ w.tframe = 0)
          ∧ (q.qtvec ≠ 0 → w.tvec = q.qtvec ∧ ∃ j, j < 2 ^ q.qtflog ∧ j ∉ q.used ∧ w.tframe = q.qtfbase + BitVec.ofNat 64 (1024 * j))
          ∧ ∀ j, j < g.kd.rows → ∃ r, mapOf w j = some r ∧ r / 2048 = i % 4 ∧ rowFree (getCore s c) r = true ∧ getRow (getCore t c) r = { count := 1 })
      ∧ (∀ v, v ≠ s.nextUid → getBlock t v = getBlock s v) ∧ SameMemory s t ∧ t.nextUid = s.nextUid + 1
      ∧ ∀ h, getGrid s k g.queue g.packet = some h → getGrid t k g.queue g.packet = some { h with placed := h.placed + 1 }

/-- R324, R325, R335, R336: a grid whose blocks all wait at sys.yield, with no other before it, begins a new slice and its warps go on; a grid whose budget is spent is held
once its blocks are saved, with a record for its supervisor that holds the GTIME at which the budget ran out, and that may wait for its page; a block event writes its byte; a grid completes when its blocks have exited and their writes are acknowledged: it writes its completion value, after every block event where it has one to write, and its blocks leave but for those whose event is still to come.
That a queue in STATE 2 stays in it as a budget ends is deduced (assumption 100).
Where it goes beyond these rules it is the model's own reading (assumptions 52 and 100). -/
def Obligations.GridEvents : Prop :=
  ∀ (s : State) (k n i : Nat) (g : Grid), getGrid s k n i = some g →
    (gridOpen g = true → g.failed = false → g.held = false → g.budg ≠ 0 → (s.blocks.cells.map Prod.fst).Nodup → resident s g ≠ [] → allPlaced g = true → (∀ h ∈ s.grids, h.part = k → g.lpb.deadline.toNat ≤ h.lpb.deadline.toNat) →
      (∀ b ∈ resident s g, b.saving = false ∧ b.started = true ∧ (b.warps.cells.map Prod.fst).Nodup ∧ ∀ w ∈ liveWarps b, w.swait = .yield ∧ w.sstep = none) →
      ∃ t, exec (.gridYield k n i) s = .next t ∧ SameMemory s t ∧ getGrid t k n i = some { g with budg := if g.lpb.budget = 0 then BitVec.allOnes 64 else g.lpb.budget }
        ∧ ∀ b ∈ resident s g, ∀ w ∈ liveWarps b, ∃ w', getWarp t b.uid w.idx = some w' ∧ w'.spc = w.spc + 4 ∧ w'.swait = .run ∧ w'.sregs = w.sregs ∧ w'.splits = w.splits)
    ∧ (gridOpen g = true → g.failed = false → g.held = false → g.budg = 0 → g.owes = false → i / 2 ^ 64 = (getQueue s k n).epoch → inError s k = false → (∀ b ∈ resident s g, b.frozen = true) →
        let at' := dXlat s k g.pasid (getQueue s k n).supaddr true
        (at' = .wait → ∃ t, exec (.budgetExhausted k n i) s = .next t ∧ getGrid t k n i = some { g with held := true, owes := true } ∧ (getQueue t k n).state = (if (getQueue s k n).state = 2 then 2 else 3) ∧ SameMemory s t)
        ∧ ∀ l, at' = .at_ l → ∃ t, exec (.budgetExhausted k n i) s = .next t ∧ getGrid t k n i = some { g with held := true, owes := false } ∧ (getQueue t k n).state = (if (getQueue s k n).state = 2 then 2 else 3)
          ∧ MemoryBut s t l 32 ∧ Holds t l 0 2 0x0B ∧ Holds t l 2 2 n ∧ Holds t l 4 4 0 ∧ Holds t l 8 8 i ∧ Holds t l 16 8 g.exhAt ∧ Holds t l 24 8 (g.lpb.gx * g.lpb.gy * g.lpb.gz - g.exited))
    ∧ (∀ u b l, getBlock s u = some b → b.part = k → b.queue = n → b.packet = i → g.lpb.cmode = 1 → b.exited = true → b.evented = false → blockBusy s b = false → inError s k = false →
        dXlat s k g.pasid (g.lpb.blkEvt + BitVec.ofNat 64 b.idx) true = .at_ l →
        ∃ t, exec (.blockEvent u) s = .next t ∧ Holds t l 0 1 1 ∧ MemoryBut s t l 1 ∧ getBlock t u = (if g.complete then none else some { b with evented := true }) ∧ ∀ v, v ≠ u → getBlock t v = getBlock s v)
    ∧ (gridOpen g = true → g.failed = false → g.lost = false → g.lpb.gx * g.lpb.gy * g.lpb.gz ≤ g.exited → inError s k = false → (∀ b ∈ blocksOf s g, blockBusy s b = false ∧ (g.lpb.cplAddr ≠ 0 → g.lpb.cmode = 1 → b.evented = true)) →
        let done := fun (t : State) => getGrid t k n i = some { g with complete := true } ∧ ∀ u b, getBlock t u = some b → b.part = k → b.queue = n → b.packet = i → g.lpb.cmode = 1 ∧ b.evented = false
        (g.lpb.cplAddr = 0 → ∃ t, exec (.gridComplete k n i) s = .next t ∧ done t ∧ SameMemory s t)
        ∧ ∀ l, g.lpb.cplAddr ≠ 0 → g.noCpl = false → dXlat s k g.pasid g.lpb.cplAddr true = .at_ l →
            ∃ t, exec (.gridComplete k n i) s = .next t ∧ done t ∧ Holds t l 0 8 g.lpb.cplVal.toNat ∧ MemoryBut s t l 8)

/-- R347 to R352: pre-emption stops a block at its next issue slots, and, when nothing of it is outstanding, saves it: its rows are kept and free their core. A restore places
it as a new block is placed, with its rows renamed; its buffered stores leave, and then its warps and commands go on.
Where it goes beyond these rules it is the model's own reading (assumptions 39 and 53). -/
def Obligations.SaveAndRestore : Prop :=
  ∀ (s : State) (u : Nat) (b : Block), getBlock s u = some b → b.gang = none → inError s b.part = false →
    (∀ c, b.core = some c → b.frozen = false → b.exited = false →
      (b.saving = false → (getCourse s (courseOf c)).step = none ∨ (getCourse s (courseOf c)).stepIssued = true → ∃ t, exec (.preempt u) s = .next t ∧ Stopped s t u b ∧ SameMemory s t)
      ∧ (b.saving = true → blockQuiet s b c = true → (∀ w ∈ liveWarps b, w.reqs = []) →
          ((∀ y ∈ (getCore s c).copies, y.block ≠ u) ∨ ∀ e ∈ s.cores.cells, ∀ m, e.2.dbg.wpLoc.get none m = none) →
          ∃ t b', exec (.preempt u) s = .next t ∧ getBlock t u = some b' ∧ b'.core = none ∧ b'.saving = false ∧ (∀ i, (warpOf b' i).map (fun w => { w with dbg := {} }) = (warpOf b i).map fun w => { w with dbg := {} }) ∧ SameMemory s t
            ∧ (∀ i w j r, warpOf b i = some w → mapOf w j = some r → b'.savedRows.get {} r = getRow (getCore s c) r ∧ getRow (getCore t c) r = {})
            ∧ (∀ v, v ≠ u → getBlock t v = getBlock s v) ∧ ∀ g, gridOf s b = some g → gridOf t b = some { g with saved := g.saved ++ [u] }))
    ∧ (∀ k g, answering s = true → b.part = k → (∀ e ∈ allBlocks s, e.part = k → e.resend = false) → OnlyReady s k g → g.saved.head? = some u → b.savedRows.wf {} = true →
        (b.warps.cells.map Prod.fst).Nodup → (∀ e ∈ b.savedRows.cells, e.1 < 8192 ∧ (e.2.count ≠ 0 ∨ e.2.pend ≠ 0)) → (∃ c ∈ partCores s k, fits s c (needSaved b) = true) →
        ∃ t b' c, exec (.blockRestore k) s = .next t ∧ FirstFit s k (needSaved b) c ∧ getBlock t u = some b' ∧ b'.core = some c ∧ b'.started = false ∧ b'.resend = true
          ∧ (∀ v, v ≠ u → getBlock t v = getBlock s v) ∧ SameMemory s t
          ∧ ∀ i w, warpOf b i = some w → ∃ w', warpOf b' i = some w' ∧ w'.sregs = w.sregs ∧ w'.spc = w.spc ∧ w'.qs = w.qs ∧ w'.sb = w.sb
              ∧ ∀ j r, mapOf w j = some r → b.savedRows.get {} r ≠ {} → ∃ r', mapOf w' j = some r' ∧ r' / 2048 = r / 2048 ∧ getRow (getCore t c) r' = b.savedRows.get {} r)
    ∧ ∀ c, answering s = true → b.core = some c → b.resend = true → (∀ e ∈ allBlocks s, e.part = b.part → e.resend = true → e = b) →
        (∀ i w e l x, warpOf b i = some w → (∀ w' ∈ liveWarps b, w'.sb ≠ [] → w' = w) → w.sb = e :: l → (∀ d v, e.line ≠ .peer d v) → xlat (getCore s c).tlb e.pasid (BitVec.ofNat 64 e.vline) true false = .at_ x →
          ∃ t y, exec (.blockRestore b.part) s = .next t ∧ getWarp t u i = some { w with sb := l } ∧ t.transit = s.transit ++ [y] ∧ y.ent = { e with line := x } ∧ y.block = u ∧ y.warp = i
            ∧ y.performed = false ∧ SameMemory s t)
        ∧ (b.stopSaved = false → (∀ w ∈ liveWarps b, w.sb = []) →
            ∃ t b', exec (.blockRestore b.part) s = .next t ∧ getBlock t u = some b' ∧ b' = { b with started := true, resend := false, savedCmds := [], savedCopies := [], satAt := 0 } ∧ SameMemory s t
              ∧ (getCore t c).copies = (getCore s c).copies ++ b.savedCopies ∧ (getCore t c).cmds.map (·.id) = (getCore s c).cmds.map (·.id) ++ b.savedCmds.map (·.id))


/-! ### Translations, peers and the warps' own events -/

/-- R88, R89, R91, R246, R413: a granted page stands first among the core's, or the dispatcher's, translations, in place of what overlapped it, and what waited for it goes on; with
no translation the wait becomes a page request; a refusal is kept for the access that asked. An invalidation removes what it names, and answers once no access under it is left. -/
def Sys2Proof.Claims.Translations : Prop :=
  ∀ (s : State) (c k pasid va : Nat),
    (∀ p x, answers p pasid va = true → p.host = true ∨ inMem s (partOfPasid s pasid) p.pbase p.size = true →
      x = .translationCompletion (.core c) pasid va (some p) ∨ x = .priResponse (.core c) pasid va (.success p) →
        ∃ t, exec x s = .next t ∧ (getCore t c).tlb = p :: (getCore s c).tlb.filter (fun q => !overlaps q pasid p.vbase p.size)
          ∧ ∀ u i b w v, getBlock s u = some b → b.core = some c → b.pasid = pasid → getWarp s u i = some w → w.reqs = [] → w.pending = none →
              (w.swait = .ats v ∨ w.swait = .pri v) → pageHolds p pasid (v % 2 ^ 57) = true → ∃ w', getWarp t u i = some w' ∧ w' = { w with swait := .run, splits := w'.splits, dbg := w'.dbg })
    ∧ (∀ p x, answers p pasid va = true → p.host = true ∨ inMem s k p.pbase p.size = true →
        x = .translationCompletion (.dispatcher k) pasid va (some p) ∨ x = .priResponse (.dispatcher k) pasid va (.success p) →
        ∃ t, exec x s = .next t ∧ t = { s with parts := t.parts }
          ∧ getPart t k = { getPart s k with dtlb := p :: (getPart s k).dtlb.filter (fun q => !overlaps q pasid p.vbase p.size)
                                             noPage := (getPart s k).noPage.filter fun e => e != (pasid, va / 4096) })
    ∧ (∀ u i b w v, getBlock s u = some b → b.core = some c → b.pasid = pasid → getWarp s u i = some w → w.reqs = [] → v % 2 ^ 57 / 4096 = va / 4096 →
        (w.swait = .ats v → (getPart s (partOfPasid s pasid)).priOff = false →
          ∃ t w', exec (.translationCompletion (.core c) pasid va none) s = .next t ∧ getWarp t u i = some w' ∧ w' = { w with swait := .pri v, splits := w'.splits, dbg := w'.dbg })
        ∧ (w.swait = .pri v → w.pending = none → b.resend = false → ∀ perm,
            ∃ t w', exec (.priResponse (.core c) pasid va (.invalid perm)) s = .next t ∧ getWarp t u i = some w' ∧ w' = { w with swait := .refused v perm, splits := w'.splits, dbg := w'.dbg }))
    ∧ (∃ t, exec (.priResponse (.core c) pasid va .failure) s = .next t ∧ (getPart t (partOfPasid s pasid)).priOff = true)
    ∧ (∀ w, ∃ t, exec (.priResponse (.dispatcher k) pasid va (.invalid w)) s = .next t ∧ (pasid, va / 4096) ∈ (getPart t k).noPage ∧ (getPart t k).dtlb = (getPart s k).dtlb)
    ∧ ∀ base size, ∃ t, exec (.atsInvalidation pasid base size) s = .next t ∧ t.dev.reply = (if oldAccess s pasid base size then [0] else [1]) ∧ SameMemory s t
        ∧ (∀ x, (getCore t x).tlb = (getCore s x).tlb.filter fun p => !overlaps p pasid base size)
        ∧ (∀ x, x < 4 → (getPart t x).dtlb = (getPart s x).dtlb.filter fun p => !overlaps p pasid base size)
        ∧ ∀ u i b w, getBlock s u = some b → b.pasid = pasid → getWarp s u i = some w → ∃ w', getWarp t u i = some w' ∧ w' = { w with lastPage := w'.lastPage }
            ∧ ∀ l p, w'.lastPage.get none l = some p → overlaps p pasid base size = false

/-- R183, R295, R417: a peer refuses a request. A write is not performed and counts as acknowledged, and its warp takes an asynchronous PAGE or PERM trap; a copy of whose writes one is
refused ends there, PROG holding the number of elements before it; so does a tst. A scalar access that asked finds the refusal. -/
def Sys2Proof.Claims.PeerRefusals : Prop :=
  ∀ (s : State) (perm : Bool) (b : Block) (c : Nat),
    (∀ t d a w, s.transit.find? (fun x => x.id == t.id) = some t → t.ent.line = .peer d a → routeUp s d = true → getBlock s t.block = some b → getWarp s t.block t.warp = some w → t.core = c →
      let refused : TrapRec := { cause := if perm then .perm else .page, subc := 0x102, faddr := BitVec.ofNat 64 t.ent.vline }
      let gone := fun (y : State) => ∀ x ∈ y.transit, x.id ≠ t.id
      (t.copyEng = false → t.engine = false →
        ∃ y w1, exec (.peerRefusal t.id perm) s = .next y ∧ gone y ∧ w1 = { w with stq := w1.stq, sst := w1.sst, tlq := w1.tlq, closed := w1.closed } ∧ Interrupts s y b w1 refused)
      ∧ (∀ k es z n, t.copyEng = true → t.ent.ids = k :: es → findCopy (getCore s c) k = some z → z.block = t.block → z.warp = t.warp → n ∈ es →
          (∀ i, i < n → z.moved.get false i = true ∧ i ∉ es ∧ ∀ x ∈ s.transit, x.id ≠ t.id → x.copyEng = true → ∀ js, x.ent.ids = k :: js → i ∉ js) →
          NoWatch s (.spad z.block (z.at_ + 0x38)) 8 1 →
          ∃ y, exec (.peerRefusal t.id perm) s = .next y ∧ gone y ∧ (∀ x ∈ (getCore y c).copies, x.id ≠ k) ∧ Interrupts s y b { w with cpq := (countDone w .cp k).cpq } refused
            ∧ ∃ b', getBlock y t.block = some b' ∧ ∀ j, Memory.read b'.spad j = if z.at_ + 0x38 ≤ j ∧ j < z.at_ + 0x40 then BitVec.ofNat 8 (n / 256 ^ (j - (z.at_ + 0x38))) else Memory.read b.spad j)
      ∧ (∀ m sp n base pitch ps cfg, t.copyEng = false → t.engine = true → m ∈ (getCore s c).cmds → (∀ x ∈ (getCore s c).cmds, t.ent.ids = [x.id] → x = m) → t.ent.ids = [m.id] → m.kind = .tst sp n base pitch ps cfg →
          m.block = t.block → m.warp = t.warp → m.moved = false → (∀ x ∈ s.transit, x.id ≠ t.id → x.ent.ids ≠ [m.id]) →
          ∃ y w1, exec (.peerRefusal t.id perm) s = .next y ∧ gone y ∧ (∀ x ∈ (getCore y c).cmds, x.id ≠ m.id) ∧ w1 = { w with tlq := w1.tlq, closed := w1.closed } ∧ Interrupts s y b w1 refused))
    ∧ ∀ o a d x w, findOp s o.id = some o → (∀ y ∈ s.transit, y.id ≠ o.id) → o.counted = false → o.todo = [a] → a.loc = some (.g (.peer d x)) → routeUp s d = true →
        getWarp s o.block o.warp = some w → w.swait = .peer o.id →
        ∃ y, exec (.peerRefusal o.id perm) s = .next y ∧ (∀ z ∈ y.ops, z.id ≠ o.id) ∧ getWarp y o.block o.warp = some { w with swait := .refused a.ea perm } ∧ SameMemory s y

/-- `Translations` and `PeerRefusals` hold.
Where it goes beyond these rules it is the model's own reading (assumptions 1 and 71). -/
def Obligations.TranslationsAndRefusals : Prop := Sys2Proof.Claims.Translations ∧ Sys2Proof.Claims.PeerRefusals

/-- R37, R41, R43, R305, R343: the events of a resident warp. A stacked split enters a free slot, or, where every live split waits, the place of the one that began to wait first; a
deadlock of the queues traps QDEAD, one of the splits SPLIT; the timer traps WTIMER once; infill resumes the warp whose word it has emulated, or leaves it to its own handler. -/
def Sys2Proof.Claims.TimersAndResumes : Prop :=
  ∀ (s : State) (u i : Nat) (b : Block) (w : Warp), Resident s u i b w →
    (∀ k e l, k < 4 → getSplit w k = none → (∀ j, j < k → (getSplit w j).isSome) → w.stack = e :: l → w.handler = false → w.infill = false → w.pending = none →
      ∃ t w', exec (.splitStackPop u i) s = .next t ∧ getWarp t u i = some w' ∧ w' = { w with stack := l, splits := w'.splits } ∧ OnlyWarp s t u i
        ∧ ∀ j, getSplit w' j = if j = k then some { lpc := e.lpc, mask := e.mask, rpc := e.rpc } else getSplit w j)
    ∧ (∀ k p e l, w.stack = e :: l → w.handler = false → w.infill = false → w.pending = none → (∀ x ∈ liveSplits w, atWait x.2.wait = true) → (∃ x ∈ liveSplits w, x.2.wait = .ljoin) → (k, p) ∈ liveSplits w →
        (∀ x ∈ liveSplits w, x ≠ (k, p) → p.since < x.2.since) →
        ∃ t w', exec (.splitStackExchange u i) s = .next t ∧ getWarp t u i = some w' ∧ OnlyWarp s t u i
          ∧ w' = { w with stack := l ++ [{ lpc := p.lpc, mask := p.mask, rpc := p.rpc, wait := p.wait }], splits := w'.splits }
          ∧ ∀ j, getSplit w' j = if j = k then some { lpc := e.lpc, mask := e.mask, rpc := e.rpc } else getSplit w j)
    ∧ (∀ q k p l, w.handler = false → w.infill = false → w.pending = none → w.tvec ≠ 0 → SlotAt s b w l → (liveSplits w).head? = some (k, p) → w.sload = [] → w.swait = .queue q →
        (if q = 8 then 16 ≤ w.bq.length else if q < 4 then 16 ≤ (w.qs.get [] q).length else w.qs.get [] q = []) →
        (∀ x ∈ liveSplits w, (∃ j n, x.2.wait = .pop j n ∧ (w.qs.get [] j).length < n) ∨ (∃ j, x.2.wait = .push j ∧ 16 ≤ (w.qs.get [] j).length) ∨ (x.2.wait = .lnext ∧ w.bq = [])) →
        ((∀ x ∈ w.stack, x.wait = .lnext) ∨ ((∀ j, j < 4 → (getSplit w j).isSome) ∧ ∃ x ∈ liveSplits w, x.2.wait ≠ .lnext)) →
        ∃ t, exec (.qdead u i) s = .next t ∧ Handles s t b w l 256 ∧ FrameIs t l w 0x08 q false k p 0 0 0 (wordAt s b w.spc 4))
    ∧ (∀ k p l, w.handler = false → w.infill = false → w.pending = none → asking w = false → w.tvec ≠ 0 → SlotAt s b w l → (liveSplits w).head? = some (k, p) → getSplit w k = some p →
        Stuck ((liveSplits w).map (fun e => (e.2.lpc, e.2.rpc, e.2.wait)) ++ w.stack.map fun e => (e.lpc, e.rpc, e.wait)) →
        ∃ t, exec (.splitDeadlock u i) s = .next t ∧ Handles s t b w l 256 ∧ FrameIs t l w 0x13 1 true k p 0 0 0 (wordAt s b p.lpc 12))
    ∧ (w.wtimArmed = true → w.wtimCmp.toNat ≤ w.wtim → w.swait ≠ .exit →
        ∃ t, exec (.wtimer u i) s = .next t ∧ Interrupts s t b { w with wtimArmed := false } { cause := .wtimer })
    ∧ ∀ l, w.infill = true → masterFrozen s (.infill (pierOf (coreNo b))) = false → SlotAt s b w l → slotWaits s b w l = false →
        (∀ flags rowA rowB, w.tvec ≠ 0 → ∃ t w', exec (.infillResume u i false flags rowA rowB) s = .next t ∧ getWarp t u i = some w' ∧ w'.infill = false ∧ w'.handler = true ∧ w'.spc = w.tvec
            ∧ w'.swait = .run ∧ (∀ r : SReg, sreg w' r = if r = 1 then w.tframe else sreg w r) ∧ Holds t l 2 2 1 ∧ MemoryBut s t (gAdd l 2) 2)
        ∧ ∀ (e : Entry) (p : Split) (spc lpc mask s1 : DWord) (repc flags : Byte) (sv : Nat → DWord) (rowA rowB : List Word) (r : Nat) (x : State) (v : Nat → Word),
            x = devWrite (devWrite s (some (coreNo b)) (gAdd l 0x100) (rowBytes rowA ++ rowBytes rowB)) (some (coreNo b)) (gAdd l 7) [flags] →
            (gAddr l % 64 = 0 → olderEnts w s.serial = [] → ∀ j, j < 64 → BytesAt (slotLoad x b w l).1 (0x100 + 4 * j) 4 (rowA.getD j 0).toNat)
            ∧ (w.entry = some e → e.cause = .emul → w.reqs = [] → ((slotLoad x b w l).2.1.take 12).any id = false → SlotHolds (slotLoad x b w l).1 spc lpc mask s1 repc flags sv →
              (∀ j, j < 64 → BytesAt (slotLoad x b w l).1 (0x100 + 4 * j) 4 (v j).toNat) → spc.toNat % 4 = 0 → lpc.toNat % 12 = 0 → flags = 1 → getSplit w e.split = some p →
              mapOf w (e.insn / 2 ^ 71 % 512) = some r →
              ∃ t w' q, exec (.infillResume u i true flags rowA rowB) s = .next t ∧ getWarp t u i = some w' ∧ w'.infill = false ∧ w'.handler = false ∧ w'.entry = none ∧ w'.spc = spc
                ∧ getSplit w' e.split = some q ∧ q.lpc = lpc + 12 ∧ q.rep = none ∧ q.mask = p.mask ∧ MemoryBut s t l 1024
                ∧ (∀ j, j < 64 → (getRow (getCore t (coreNo b)) r).lanes.getD j 0 = if mask.getLsbD j && e.splitMask.getLsbD j && decide (j < w.width) then v j
                                                                               else (getRow (getCore s (coreNo b)) r).lanes.getD j 0)
                ∧ ∀ y, y ≠ r → getRow (getCore t (coreNo b)) y = getRow (getCore s (coreNo b)) y)

/-- R300 to R304, R340, R346, R394: at a warp's S-issue, when nothing of higher rank is due, the first cause it holds is taken: the frame says so (FLAGS.ASYNC, no word, no
mask), and the handler is entered; with no handler the block has a fatal fault. An unwind held in handler mode comes after every held cause. -/
def Sys2Proof.Claims.HeldCausesEntered : Prop :=
  ∀ (s : State) (u i : Nat) (b : Block) (w : Warp) (rest : List Move), s.agenda = .sIssue u i :: rest → getBlock s u = some b → getWarp s u i = some w →
    mayIssue { s with agenda := rest } b w = true → streamLet { s with agenda := rest } b w false 0 = true → stepOver w = none → w.pending = none → wtimDue w = false →
    (∀ (r : TrapRec) (hs : List TrapRec), heldNext w = some (r, hs) → r.toInfill = false → r.ids = [] → r.cause ≠ .emul →
      (∀ l k p, w.tvec ≠ 0 → SlotAt s b w l → (r.stream = false → (liveSplits w).head? = some (k, p)) → (r.stream = true → k = r.split ∧ getSplit w k = some p) →
        ∃ t w', step s = .next t ∧ getWarp t u i = some w' ∧ Entered { w with held := hs } w' ∧ MemoryBut s t l (256 + r.drr.length)
          ∧ Holds t l 0x00 2 (causeCode r.cause) ∧ Holds t l 0x02 2 r.subc ∧ Holds t l 0x04 1 r.stream.toNat ∧ Holds t l 0x05 1 k ∧ Holds t l 0x07 1 8 ∧ Holds t l 0x08 8 r.faddr.toNat
          ∧ Holds t l 0x10 8 r.mask.toNat ∧ Holds t l 0x18 12 0 ∧ Holds t l 0x28 8 w.spc.toNat ∧ Holds t l 0x30 8 p.lpc.toNat ∧ Holds t l 0xC0 8 (sreg w 1).toNat
          ∧ (∀ j, j < 16 → Holds t l (0x40 + 8 * j) 8 (sreg w (BitVec.ofNat 6 (48 + j))).toNat) ∧ ∀ j, j < r.drr.length → gRead t (gAdd l (0x100 + j)) = r.drr.getD j 0)
      ∧ (w.tvec = 0 → ∃ t c, step s = .next t ∧ getBlock t u = some c ∧ c.frozen = true ∧ (getQueue t b.part b.queue).state = 2 ∧ (getQueue t b.part b.queue).err = 0x0A ∧ SameMemory s t))
    ∧ ∀ d r, heldNext w = none → unwindNext w = some (d, r) → (∀ c n, w.swait ≠ .barIn c n) → (∀ z ∈ w.reqs, z.trapped = false ∧ z.again = false) →
        ∃ t w', step s = .next t ∧ getWarp t u i = some w' ∧ w'.spc = r.handler ∧ w'.swait = .run ∧ w'.unwindHeld = none ∧ (∀ y : SReg, sreg w' y = if y = 1 then BitVec.ofNat 64 d else sreg w y)
          ∧ w'.regions = w.regions.drop (w.regions.length - d + 1) ∧ SameMemory s t

/-- `TimersAndResumes` and `HeldCausesEntered` hold.
That the unwind held in handler mode comes after every held cause is the model's choice (assumption 111).
Where it goes beyond these rules it is the model's own reading (assumptions 41 and 111). -/
def Obligations.WarpEvents : Prop := Sys2Proof.Claims.TimersAndResumes ∧ Sys2Proof.Claims.HeldCausesEntered

/-- R312, R389 to R394: the oldest consumption of a warp reports, and with it any of those after it. Their records go to the error queue of its context, or, where that is disabled or full, set
OVF, and to the management log; a page that is refused sets XLF. Then the consumption's region unwinds, or, in no region, the warp takes POISON; in handler mode the unwind is held. -/
def Sys2Proof.Claims.ConsumptionsReport : Prop :=
  ∀ (s : State) (u i : Nat) (b : Block) (w : Warp) (x : Consumption) (l : List Consumption) (q : Ctx) (a : DWord), getBlock s u = some b → b.core.isSome → getWarp s u i = some w → w.cons = x :: l →
    q = getCtx s b.part b.pasid → a = BitVec.ofNat 64 (eqBase q.errqb + 64 * (eqTail q.errqh % eqSize q.errqb)) →
    (q.errqb.toNat / 4096 = 0 →
      (∃ t w' n, exec (.consumptionReport u i) s = .next t ∧ n ≤ l.length ∧ getWarp t u i = some w' ∧ w'.cons = l.drop n ∧ t.dev.logCnt = s.dev.logCnt + 1 + n
        ∧ (getCtx t b.part b.pasid).errqh = q.errqh ||| 0x8000000000000000#64 ∧ SameMemory s t)
      ∧ (x.depth = 0 → l = [] → ∃ t, exec (.consumptionReport u i) s = .next t ∧ Interrupts s t b { w with cons := [] } { cause := .poison, subc := x.subc, faddr := x.va })
      ∧ ∀ r, l = [] → 0 < x.depth → x.depth ≤ w.regions.length → w.regions[w.regions.length - x.depth]? = some r → r.count = x.regionCount →
          (w.handler = false → w.pending = none → w.infill = false → asking w = false → (∀ t ∈ w.held, t.cause ≠ .poison) → (∀ c n, w.swait ≠ .barIn c n) → (∀ z ∈ w.reqs, z.trapped = false ∧ z.again = false) →
            ∃ t w', exec (.consumptionReport u i) s = .next t ∧ getWarp t u i = some w' ∧ w'.spc = r.handler ∧ w'.swait = .run ∧ (∀ y : SReg, sreg w' y = if y = 1 then BitVec.ofNat 64 x.depth else sreg w y)
              ∧ w'.regions = w.regions.drop (w.regions.length - x.depth + 1) ∧ w'.restartPt = none ∧ w'.unwindHeld = none ∧ w'.cons = [] ∧ (∀ k, w'.qs.get [] k = []) ∧ w'.bq = [] ∧ w'.stack = []
              ∧ (∀ k, getSplit w' k = if k = 0 then some { mask := maskOf fun j => j < w.width, wait := .lnext } else none) ∧ w'.reqs = w.reqs.map (fun z => { z with split := 4 })
              ∧ w'.map = w.map ∧ w'.preds = w.preds ∧ w'.kregs = w.kregs ∧ w'.sb = w.sb ∧ w'.sfu = w.sfu ∧ SplitsLeave s t b w ∧ SameMemory s t)
          ∧ (w.handler = true → w.unwindHeld = none → ∃ t, exec (.consumptionReport u i) s = .next t ∧ getWarp t u i = some { w with cons := [], unwindHeld := some (x.depth, x.regionCount) }))
    ∧ (eqFull q.errqb q.errqh = false → l = [] → x.depth = 0 →
        (∀ at_, devXlat s (coreNo b) b.part b.pasid a true = some (.at_ at_) →
          ∃ t, exec (.consumptionReport u i) s = .next t ∧ Holds t at_ 0 1 1 ∧ Holds t at_ 1 1 3 ∧ Holds t at_ 2 2 x.unit ∧ Holds t at_ 4 1 (coreNo b / 8) ∧ Holds t at_ 5 1 (coreNo b / 4) ∧ Holds t at_ 6 1 (coreNo b)
            ∧ Holds t at_ 7 1 i ∧ Holds t at_ 8 8 (b.pasid % 2 ^ 20) ∧ Holds t at_ 16 8 x.pa.toNat ∧ Holds t at_ 24 8 x.va.toNat ∧ Holds t at_ 32 4 w.spc.toNat ∧ Holds t at_ 36 4 x.skid
            ∧ Holds t at_ 40 8 (x.regionCount % 2 ^ 24 * 256) ∧ Holds t at_ 48 8 s.gtime ∧ MemoryBut s t at_ 64
            ∧ (getCtx t b.part b.pasid).errqh = (q.errqh &&& 0x80000000FFFFFFFF#64) ||| (BitVec.ofNat 64 ((eqTail q.errqh + 1) % 2 ^ 31) <<< 32)
            ∧ getWarp t u i = some (if b.frozen then { w with cons := [] } else { w with cons := [], held := w.held ++ [{ cause := .poison, subc := x.subc, faddr := x.va, asyn := true }] }))
        ∧ (devXlat s (coreNo b) b.part b.pasid a true = none →
          ∃ t, exec (.consumptionReport u i) s = .next t ∧ (getCtx t b.part b.pasid).errqh = q.errqh ||| 0x80000000#64 ∧ t.dev.logCnt = s.dev.logCnt + 1 ∧ SameMemory s t))

/-- Only the poison of one granule, row or element of a map of marks is set (R385). -/
def Sys2Proof.Claims.Marked (x y : SMap Bool) (n : Nat) : Prop := ∀ k, y.get false k = (k == n || x.get false k)
/-- The core or vault, as a number, that an error of a unit counts for (R399): 32 and up are the vaults. -/
def Sys2Proof.Claims.CountsFor (s : State) (y : EccUnit) (n : Nat) : Prop :=
  let core := fun u => ∃ b, getBlock s u = some b ∧ b.core = some n
  let vault := fun pa => n = 32 + 32 * (pa / (96 * 2 ^ 30)) + pa % (96 * 2 ^ 30) / 512 % 32
  match y with
  | .row c _ _ _ | .l1 c _ _ => n = c
  | .dram g | .l2 g => vault (64 * g)
  | .rdc _ l _ => vault (128 * l)
  | .scratch u _ | .tile u _ _ | .acc u _ _ _ | .sreg u _ _ | .queue u _ _ _ | .kreg u _ _ | .pred u _ _ => core u
/-- A cached line's granule is marked where the line is there (R385). -/
def Sys2Proof.Claims.LineMarked (x y : Option CLine) (g : Nat) : Prop := y = x.map fun l => { l with pois := l.pois ||| (1#2 <<< g) }

/-- R54, R385, R388, R399: a far result lands; an uncorrectable error poisons its lane, granule, row or element, or spoils the entry for the instruction that reads it, and counts for its core or vault; a
correctable one is counted and changes nothing; a scrub corrects what it can and poisons what it cannot. -/
def Sys2Proof.Claims.LandingsAndErrors : Prop :=
  ∀ (s : State),
    (∀ c r x, (getCore s c).flight.find? (fun y => y.id == x.id) = some x → x.far = true → x.tgt = .row r →
      ∃ t, exec (.farRowResult c x.id) s = .next t ∧ (∀ y ∈ (getCore t c).flight, y.id ≠ x.id) ∧ SameMemory s t
        ∧ (∀ l, l < 64 → (getRow (getCore t c) r).lanes.getD l 0 = if x.mask.getLsbD l then x.vals.getD l 0 else (getRow (getCore s c) r).lanes.getD l 0)
        ∧ (∀ l, l < 64 → (getRow (getCore t c) r).poison.getLsbD l = if x.mask.getLsbD l then x.pois.getLsbD l else (getRow (getCore s c) r).poison.getLsbD l)
        ∧ (getRow (getCore t c) r).pend = (getRow (getCore s c) r).pend - (if x.pend then 1 else 0) ∧ (getRow (getCore t c) r).count = (getRow (getCore s c) r).count
        ∧ (∀ y, y ≠ r → getRow (getCore t c) y = getRow (getCore s c) y)
        ∧ ∀ w, getWarp s x.block x.warp = some w → getWarp t x.block x.warp = some { w with fflags := w.fflags ||| x.flags })
    ∧ (∀ y, ∃ t, exec (.eccError y true) s = .next t ∧ t = { s with dev := { s.dev with corrected := s.dev.corrected + 1 } })
    ∧ (∀ g, exec (.scrub g none) s = .next s ∧ exec (.scrub g (some true)) s = exec (.eccError (.dram g) true) s ∧ exec (.scrub g (some false)) s = exec (.eccError (.dram g) false) s)
    ∧ ∀ (y : EccUnit), ∃ t, exec (.eccError y false) s = .next t ∧ t.dev = { s.dev with errs := t.dev.errs } ∧ SameMemory s t
      ∧ (∀ n, CountsFor s y n → t.dev.errs.get [] n = (s.gtime :: s.dev.errs.get [] n).take 17 ∧ ∀ k, k ≠ n → t.dev.errs.get [] k = s.dev.errs.get [] k)
      ∧ (∀ c q n lane, y = .row c q n lane → lane < 64 → t = { s with cores := t.cores, dev := t.dev } ∧ (∀ k, k ≠ c → getCore t k = getCore s k)
        ∧ getCore t c = { getCore s c with rows := (getCore t c).rows } ∧ (∀ r, r ≠ 2048 * q + n → getRow (getCore t c) r = getRow (getCore s c) r)
        ∧ getRow (getCore t c) (2048 * q + n) = { getRow (getCore s c) (2048 * q + n) with poison := (getRow (getCore s c) (2048 * q + n)).poison ||| (1#64 <<< lane) })
      ∧ (∀ c n g, y = .l1 c n g → t = { s with cores := t.cores, dev := t.dev } ∧ (∀ k, k ≠ c → getCore t k = getCore s k) ∧ getCore t c = { getCore s c with l1 := (getCore t c).l1 }
        ∧ ∀ k, if k = n then LineMarked ((getCore s c).l1.get none k) ((getCore t c).l1.get none k) g else (getCore t c).l1.get none k = (getCore s c).l1.get none k)
      ∧ (∀ p n g, y = .rdc p n g → t = { s with piers := t.piers, dev := t.dev } ∧ (∀ k, k ≠ p → getPier t k = getPier s k) ∧ getPier t p = { getPier s p with rdc := (getPier t p).rdc }
        ∧ ∀ k, if k = n then LineMarked ((getPier s p).rdc.get none k) ((getPier t p).rdc.get none k) g else (getPier t p).rdc.get none k = (getPier s p).rdc.get none k)
      ∧ (∀ g, y = .dram g → t = { s with memPois := t.memPois, dev := t.dev } ∧ Marked s.memPois t.memPois g)
      ∧ (∀ g, y = .l2 g → t = { s with memPois := t.memPois, l2Bad := t.l2Bad, dev := t.dev } ∧ Marked s.memPois t.memPois g ∧ Marked s.l2Bad t.l2Bad g)
      ∧ (∀ u b, getBlock s u = some b → ∃ b', getBlock t u = some b' ∧ (∀ v, v ≠ u → (∃ g, y = .scratch u g) ∨ (∃ k r, y = .tile u k r) ∨ (∃ k i j, y = .acc u k i j) → getBlock t v = getBlock s v)
        ∧ (∀ g, y = .scratch u g → b' = { b with spadPois := b'.spadPois } ∧ Marked b.spadPois b'.spadPois g)
        ∧ (∀ k r, y = .tile u k r → r < 128 → b' = { b with tilePois := b'.tilePois } ∧ ∀ h i, i < 128 → rowBad b' h i = ((h == k && i == r) || rowBad b h i))
        ∧ (∀ k i j, y = .acc u k i j → i < 128 → j < 128 → b' = { b with accPois := b'.accPois }
            ∧ ∀ h x z, x < 128 → z < 128 → accBad b' h x z = ((h == k && x == i && z == j) || accBad b h x z)))
      ∧ ∀ u i w, getWarp s u i = some w → ∃ w', getWarp t u i = some w'
        ∧ ((∃ n, y = .sreg u i n) ∨ (∃ q n, y = .queue u i q n) ∨ (∃ n, y = .kreg u i n) ∨ (∃ n, y = .pred u i n) → OtherWarps s t u i)
        ∧ (∀ n, y = .sreg u i n → 0 < n → n < 64 → w'.badS = w.badS ||| (1#64 <<< n) ∧ w' = { w with sregs := w'.sregs, badS := w'.badS } ∧ ∀ r : SReg, r.toNat ≠ n → sreg w' r = sreg w r)
        ∧ (∀ n, y = .kreg u i n → n < 4 → w'.badK = w.badK ||| (1#4 <<< n) ∧ w' = { w with kregs := w'.kregs, badK := w'.badK } ∧ ∀ r, r ≠ n → w'.kregs.get 0 r = w.kregs.get 0 r)
        ∧ (∀ n, y = .pred u i n → n < 31 → w'.badP = w.badP ||| (1#32 <<< n) ∧ w' = { w with preds := w'.preds, badP := w'.badP } ∧ ∀ r, r ≠ n → w'.preds.get 0 r = w.preds.get 0 r)
        ∧ (∀ q n, y = .queue u i q n → q < 8 → w' = { w with qs := w'.qs } ∧ (∀ k, k ≠ q → w'.qs.get [] k = w.qs.get [] k) ∧ (w'.qs.get [] q).length = (w.qs.get [] q).length
            ∧ ∀ (j : Nat) (e : QEnt), (w.qs.get [] q)[j]? = some e → if j = n then ∃ v, (w'.qs.get [] q)[j]? = some { e with val := v, bad := true } else (w'.qs.get [] q)[j]? = some e)
        ∧ (∀ n, y = .queue u i 8 n → n < w.bq.length → w' = { w with bq := w'.bq, bqBad := n :: w.bqBad } ∧ w'.bq.length = w.bq.length ∧ ∀ j, j ≠ n → w'.bq[j]? = w.bq[j]?)

/-- `ConsumptionsReport` and `LandingsAndErrors` hold.
Where an error is counted, and that the latest 17 times are kept, is deduced and no rule's words (assumption 97).
Where it goes beyond these rules it is the model's own reading (assumptions 47, 57 and 97). -/
def Obligations.ReportsOfErrors : Prop := Sys2Proof.Claims.ConsumptionsReport ∧ Sys2Proof.Claims.LandingsAndErrors


/-! ### Power, heat and substitution -/

/-- R332, R333, R378: each nanosecond refills a powered course by its share of its regulator's allowance, to a ceiling of 4096 refills; 64 clocks of deficit gate one more class of
PRIO; with no deficit each quadrant releases one gated warp a clock, in turn by warp index after the last. -/
def Sys2Proof.Claims.AllowancesAndGates : Prop :=
  (∀ s : State, s.dev.refilled < s.gtime → ∃ t, exec .powerAllowanceRefill s = .next t ∧ t.dev = { s.dev with refilled := s.dev.refilled + 1 } ∧ SameMemory s t ∧ ∀ co, co < 8 →
    (powered s co = false → getCourse t co = getCourse s co)
    ∧ ∀ r cs alw n, powered s co = true → r = (getCourse s co).switch.toNat % 4 → cs = (List.range 8).filter (fun k => powered s k && (getCourse s k).switch.toNat % 4 == r) →
        alw = min (1000 * Config.rmax r) ((1000 * s.dev.cap - Config.reserve) * s.dev.share.get 0 r / 1000) →
        n = alw / cs.length + (if cs.head? = some co then alw % cs.length else 0) →
        (getCourse t co).pwra = if ((4096 * n : Nat) : Int) ≤ (getCourse s co).pwra then (getCourse s co).pwra else min ((4096 * n : Nat) : Int) ((getCourse s co).pwra + n))
  ∧ (∀ s : State, s.gtime ≤ s.dev.refilled → exec .powerAllowanceRefill s = .next s)
  ∧ ∀ (s : State) (co : Nat) (x : Course), x = getCourse s co →
    (x.pwra < 0 → 64 ≤ x.deficit → ∃ t, exec (.powerGateEscalate co) s = .next t ∧ getCourse t co = { x with deficit := x.deficit - 64, gate := min (x.gate + 1) 3 } ∧ SameMemory s t
      ∧ ∀ u i b w, getBlock s u = some b → getWarp s u i = some w → ∃ w', getWarp t u i = some w' ∧ w' = { w with gated := w'.gated }
          ∧ (b.core.any (fun c => courseOf c == co) = true → b.prio ≤ min (x.gate + 1) 3 → w'.gated = true))
    ∧ (0 ≤ x.pwra → ∃ t, exec (.gateRelease co) s = .next t ∧ SameMemory s t ∧ ∀ c q last, c / 4 = co → q < 4 → last = (getCore s c).lastFreed.get none q →
        let less := fun (a b : Nat × Nat) => a.1 < b.1 ∨ (a.1 = b.1 ∧ a.2 < b.2)
        let past := fun (a : Nat × Nat) => ∀ l, last = some l → less l a
        (gatedIn s c q = [] ∨ (getCore s c).freed.get 0 q ≠ 0 → (getCore t c).lastFreed.get none q = last)
        ∧ ((getCore s c).freed.get 0 q = 0 → gatedIn s c q ≠ [] → (∀ y ∈ gatedIn s c q, (getWarp s y.2 y.1).isSome) →
            ∃ e ∈ gatedIn s c q, (getWarp t e.2 e.1).map (·.gated) = some false ∧ (getCore t c).lastFreed.get none q = some e
              ∧ ∀ y ∈ gatedIn s c q, y ≠ e → if past e then past y → less e y else ¬ past y ∧ less e y))

/-- R378, R381, R382, R411: a cap message newer than the last sets the cap, within its bounds, and its lease; once a lease's expiry has passed the floor is in force. A frequency of a core, 32 + 9·p + ph standing for an unmapped physical core, or an entry of the switch matrix,
takes effect at once where no block is resident, and waits until then otherwise. -/
def Sys2Proof.Claims.CapsAndFrequencies : Prop :=
  (∀ (s : State) (seq : DWord) (watts lease : Nat),
    (s.dev.lastSeq.toNat < seq.toNat → ∃ t, exec (.capMessage seq watts lease) s = .next t ∧ t = { s with dev := t.dev } ∧ t.dev = { s.dev with lastSeq := seq, cap := min 4400 (max Config.minCap watts), leased := true, onFloor := false, expiry := t.dev.expiry }
      ∧ t.dev.expiry = s.gtime + (if lease = 0 then 500000000 else lease * 1000000))
    ∧ (seq.toNat ≤ s.dev.lastSeq.toNat → exec (.capMessage seq watts lease) s = .next s)
    ∧ (s.dev.leased = true → s.dev.expiry < s.gtime → ∃ t, exec .capLeaseExpiry s = .next t ∧ t = { s with dev := { s.dev with cap := Config.floorCap, onFloor := true, leased := false } })
    ∧ (s.dev.leased = false ∨ s.gtime ≤ s.dev.expiry → exec .capLeaseExpiry s = .next s))
  ∧ (∀ (s : State) (c f v : Nat), c < 32 → 600 ≤ f → f ≤ 3600 → f % 50 = 0 → 1 ≤ v → v ≤ 65535 → (f = 3600 → v = 256) → masterFrozen s (.infill (c / 8)) = false →
      ∃ t, exec (.frequencyChange c f v) s = .next t ∧ SameMemory s t
        ∧ (coreBusy s c = false → freqOf t c = f ∧ vscaleOf t c = v ∧ (getCore t c).wantFreq = none)
        ∧ (coreBusy s c = true → freqOf t c = freqOf s c ∧ vscaleOf t c = vscaleOf s c ∧ (getCore t c).wantFreq = some (f, v)))
  ∧ (∀ (s : State) (p ph f v : Nat), p < 4 → ph < 9 → 600 ≤ f → f ≤ 3600 → f % 50 = 0 → 1 ≤ v → v ≤ 65535 → (f = 3600 → v = 256) → masterFrozen s (.infill p) = false → (getPier s p).coreMap.get 0 ph = 0 →
      ∃ t, exec (.frequencyChange (32 + 9 * p + ph) f v) s = .next t ∧ t = { s with piers := t.piers } ∧ ∀ j i, (getPier t j).freq.get 3600 i = (if j = p ∧ i = ph then f else (getPier s j).freq.get 3600 i)
        ∧ (getPier t j).vscale.get 256 i = if j = p ∧ i = ph then v else (getPier s j).vscale.get 256 i)
  ∧ ∀ (s : State) (co : Nat), co < 8 →
    (∀ x, answering s = true → pfLet s = true → (∀ k, k < 4 → (getPart s k).courses.getLsbD co = true → (getPart s k).tdi = .unlocked) →
      ∃ t, exec (.switchMatrixWrite co x) s = .next t ∧ t = { s with courses := t.courses }
        ∧ (courseBusy s co = false → getCourse t co = { getCourse s co with switch := x &&& 0x83, pendSwitch := none })
        ∧ (courseBusy s co = true → getCourse t co = { getCourse s co with pendSwitch := some (x &&& 0x83) }) ∧ ∀ k, k ≠ co → getCourse t k = getCourse s k)
    ∧ ∀ v, (getCourse s co).pendSwitch = some v →
        (courseBusy s co = false → ∃ t, exec (.switchMatrixApply co) s = .next t ∧ t = { s with courses := t.courses } ∧ getCourse t co = { getCourse s co with switch := v, pendSwitch := none }
          ∧ ∀ k, k ≠ co → getCourse t k = getCourse s k)
        ∧ (courseBusy s co = true → exec (.switchMatrixApply co) s = .next s)

/-- `AllowancesAndGates` and `CapsAndFrequencies` hold.
That the floor is in force only once the expiry's own nanosecond is over is deduced (assumption 115).
Where it goes beyond these rules it is the model's own reading (assumptions 6, 54, 90 and 115). -/
def Obligations.PowerAndFrequency : Prop := Sys2Proof.Claims.AllowancesAndGates ∧ Sys2Proof.Claims.CapsAndFrequencies

/-- R372 to R374, R383, R384: a sample of a pier is taken once for each multiple of 1000 ns of GTIME, the first at 0, and the count does not pass over one; it is one reading of 16 bits of each sensor, which stands in that sensor's register, and moves each vault's refresh multiplier, up at 85 and 95 degrees at once, down after 16 samples below 83 or 93.
Above 105 degrees in a vault or 110 in a core the pier's blocks are stopped to be saved; at 110 or 115 the logic power is cut, the stacks at ×4. The restart gives up what had no save.
Where it goes beyond these rules it is the model's own reading (assumptions 7, 55, 56 and 91). -/
def Obligations.SensorSamples : Prop :=
  (∀ (s : State) (p : Nat) (vault core : List Int), p < 4 → s.dev.tripped = false → vault.length = 32 → core.length = 9 → (∀ x ∈ vault ++ core, -32768 ≤ x ∧ x < 32768) →
    let hot := (∃ x ∈ vault, x ≥ 1760) ∨ ∃ x ∈ core, x ≥ 1840
    (s.gtime / 1000 < (getPier s p).samples → exec (.sensorSample p vault core) s = .next s)
    ∧ ((getPier s p).samples ≤ s.gtime / 1000 → ¬hot → ∃ t, exec (.sensorSample p vault core) s = .next t ∧ SameMemory s t ∧ (getPier t p).samples = (getPier s p).samples + 1
      ∧ (∀ c x, core[c]? = some x → (getPier t p).ctemp.get 0 c = x)
      ∧ (∀ v x m n, vault[v]? = some x → m = (getPier s p).mult.get 0 v → n = (getPier s p).fall.get 0 v → m ≤ 2 →
          (getPier t p).vtemp.get 0 v = x
          ∧ ((getPier t p).mult.get 0 v, (getPier t p).fall.get 0 v) =
              (if x ≥ 1520 ∧ m < 2 then (2, 0) else if x ≥ 1360 ∧ m = 0 then (1, 0)
               else if (m = 2 ∧ x < 1488) ∨ (m = 1 ∧ x < 1328) then (if n + 1 ≥ 16 then (m - 1, 0) else (m, n + 1)) else (m, 0)))
      ∧ ((∃ x ∈ vault, x > 1680) ∨ (∃ x ∈ core, x > 1760) → (getPier t p).emerg = true
          ∧ ∀ u b c, getBlock s u = some b → b.core = some c → pierOf c = p → b.exited = false → b.frozen = false → b.gang = none → ∃ b', getBlock t u = some b' ∧ b'.saving = true))
    ∧ ((getPier s p).samples ≤ s.gtime / 1000 → hot → (s.blocks.cells.map Prod.fst).Nodup → ∃ t, exec (.sensorSample p vault core) s = .next t ∧ t.dev.tripped = true ∧ (∀ q v, q < 4 → v < 32 → (getPier t q).mult.get 0 v = 2) ∧ t.ops = [] ∧ t.transit = [] ∧ SameMemory s t
        ∧ (∀ u b, getBlock t u = some b → b.core = none) ∧ (∀ c, (getCore t c).rows = SMap.empty)
        ∧ ∀ u b, getBlock s u = some b → ∃ b', getBlock t u = some b' ∧ b'.spad = b.spad ∧ b'.savedRows = b.savedRows ∧ (b.core.isSome → b.exited = false → b'.lost = true) ∧ (b.core = none → b'.lost = b.lost)))
  ∧ (∀ (s : State) (p : Nat) (vault core : List Int), vault.length ≠ 32 ∨ core.length ≠ 9 ∨ (∃ x ∈ vault ++ core, x < -32768 ∨ 32768 ≤ x) → exec (.sensorSample p vault core) s = .next s)
  ∧ (∀ (s : State) (rest : List Move), s.agenda = .nano :: rest → ∃ t, step s = .next t ∧ t.gtime = s.gtime + 1
      ∧ ∀ p, p < 4 → (getPier t p).samples = (getPier s p).samples + if (getPier s p).samples ≤ s.gtime / 1000 then 1 else 0)
  ∧ ∀ s : State, s.dev.tripped = true → (∀ p, p < 4 → (∀ e ∈ (getPier s p).vtemp.cells, e.2 < 1360) ∧ ∀ e ∈ (getPier s p).ctemp.cells, e.2 < 1360) →
      ∃ t, exec .hardTripRestart s = .next t ∧ t.dev.tripped = false ∧ SameMemory s t ∧ ∀ u b, getBlock s u = some b → b.lost = true →
        getBlock t u = none ∧ (getQueue t b.part b.queue).state = 2 ∧ (getQueue t b.part b.queue).err = 0x0A ∧ ∀ g, gridOf s b = some g → ∃ g', gridOf t b = some g' ∧ g'.failed = true

/-- R399 to R403: keystone retires a core or a vault where infill asks, or after more than 16 uncorrectable errors in an hour. A retiring position takes no block, and its blocks are stopped; once they are gone
the spare takes its place, or it stays disabled where the spare is in use, and each context with a moved block gets a record. A retiring vault is copied in pieces of 512 bytes to its group's spare, which then takes its
place, its contents unchanged. A frozen master is a fatal fault of each block on a frozen core.
Where it goes beyond these rules it is the model's own reading (assumption 73). -/
def Obligations.Substitutions : Prop :=
  (∀ (s : State) (c : Nat) (row : List Nat) (asked : Bool), c < 32 → row.length = 32 → masterFrozen s (.infill (c / 8)) = false →
    let many := 17 ≤ (s.dev.errs.get [] c).length ∧ ∀ t ∈ s.dev.errs.get [] c, s.gtime < t + 3600 * 10 ^ 9
    ((getCore s c).disabled = false → asked = false → ¬many → exec (.coreRetire c ⟨row, asked⟩) s = .next s)
    ∧ ((getCore s c).disabled = false → asked = true ∨ many → ∃ t, exec (.coreRetire c ⟨row, asked⟩) s = .next t ∧ (getCore t c).disabled = true ∧ SameMemory s t ∧ (∀ n, fits t c n = false)
      ∧ (∀ u, u ∈ (getCore t c).retiring ↔ ∃ b ∈ holding s c, b.uid = u ∧ b.frozen = false)
      ∧ ∀ u b, getBlock s u = some b → b.core = some c → b.exited = false → b.frozen = false → b.gang = none → ∃ b', getBlock t u = some b' ∧ b'.saving = true)
    ∧ ((getCore s c).disabled = true → (∀ b ∈ holding s c, b.frozen = true) →
      let moved := fun (t : State) => ∀ u b, u ∈ (getCore s c).retiring → getBlock s u = some b → b.exited = false → (getCtx t b.part b.pasid).due.length = (getCtx s b.part b.pasid).due.length + 1
      (∀ old new, (getPier s (c / 8)).coreSpareUsed = false → old < 9 → new < 9 →
        (∀ i, i < 9 → ((getPier s (c / 8)).coreMap.get 0 i = c % 8 + 1 ↔ i = old)) → (∀ i, i < 9 → ((getPier s (c / 8)).coreMap.get 0 i = 0 ↔ i = new)) →
        ∃ t, exec (.coreRetire c ⟨row, asked⟩) s = .next t ∧ physOf t c = new ∧ (getCore t c).disabled = false ∧ (getPier t (c / 8)).coreSpareUsed = true ∧ SameMemory s t ∧ moved t
          ∧ (∀ v x, row[v]? = some x → couplingOf t c v = x % 256) ∧ (∀ d, d < 32 → d ≠ c → physOf t d = physOf s d)
          ∧ ∀ f v, (getCore s c).wantFreq = some (f, v) → coreBusy s c = false → (getPier t (c / 8)).freq.get 3600 (physOf s c) = f ∧ (getPier t (c / 8)).vscale.get 256 (physOf s c) = v)
      ∧ ((getPier s (c / 8)).coreSpareUsed = true → ∃ t, exec (.coreRetire c ⟨row, asked⟩) s = .next t ∧ (getCore t c).disabled = true ∧ ((getCore s c).wantFreq = none → t.piers = s.piers) ∧ (getPier t (c / 8)).coreMap = (getPier s (c / 8)).coreMap ∧ SameMemory s t ∧ moved t)))
  ∧ (∀ (s : State) (p v old new : Nat) (col : List Nat) (asked : Bool), p < 4 → v < 32 → old / 17 = v / 16 → new / 17 = v / 16 → col.length = 9 → masterFrozen s (.infill p) = false →
      (∀ i, i / 17 = v / 16 → ((getPier s p).vaultMap.get 0 i = v + 1 ↔ i = old)) → (∀ i, i / 17 = v / 16 → ((getPier s p).vaultMap.get 0 i = 0 ↔ i = new)) →
      let many := 17 ≤ (s.dev.errs.get [] (32 + 32 * p + v)).length ∧ ∀ t ∈ s.dev.errs.get [] (32 + 32 * p + v), s.gtime < t + 3600 * 10 ^ 9
      ((getPier s p).vaultMove.get none v = none → asked = false → ¬many → exec (.vaultRetire p v ⟨col, asked⟩) s = .next s)
      ∧ ∃ t, exec (.vaultRetire p v ⟨col, asked⟩) s = .next t ∧ SameMemory s t ∧ t.memPois = s.memPois
        ∧ ((getPier s p).vaultMove.get none v = none → asked = true ∨ many →
          ((getPier s p).vaultSpareUsed.get false (v / 16) = false → (getPier t p).vaultMap = (getPier s p).vaultMap ∧ (getPier t p).vaultMove.get none v = some (new, 0) ∧ (getPier t p).vaultSpareUsed.get false (v / 16) = true)
          ∧ ((getPier s p).vaultSpareUsed.get false (v / 16) = true → getPier t p = getPier s p ∧ t.dev.logCnt = s.dev.logCnt + 1))
        ∧ ∀ n, (getPier s p).vaultMove.get none v = some (new, n) →
          (n + 1 < 6291456 → (getPier t p).vaultMap = (getPier s p).vaultMap ∧ (getPier t p).vaultMove.get none v = some (new, n + 1))
          ∧ (6291456 ≤ n + 1 → (getPier t p).vaultMove.get none v = none ∧ (getPier t p).vaultMap.get 0 new = v + 1 ∧ (getPier t p).vaultMap.get 0 old = 0
            ∧ (∀ i, i ≠ new → i ≠ old → (getPier t p).vaultMap.get 0 i = (getPier s p).vaultMap.get 0 i) ∧ ∀ c x, col[c]? = some x → (getPier t p).coup.get 0 (32 * c + v) = x % 256))
  ∧ ∀ (s : State) (m : Master) (pa : Nat), (∃ t, exec (.masterFreeze m pa) s = .next t ∧ masterFrozen t m = true ∧ SameMemory s t
        ∧ (masterFrozen s m = false → ∀ c u b, m = .core c → getBlock s u = some b → b.core = some c → b.exited = false → ∃ b', getBlock t u = some b' ∧ b'.frozen = true))
      ∧ ∃ t, exec (.masterRelease m) s = .next t ∧ masterFrozen t m = false ∧ (∀ x, x ≠ m → masterFrozen t x = masterFrozen s x) ∧ t = { s with dev := { s.dev with frozen := t.dev.frozen } }


/-! ### The debug BAR -/

/-- R358 to R360, R363, R369, R370: arming a watchpoint on global memory translates its address, and takes reads' lines from the caches; without a translation it fails with ERR. A breakpoint stops the
course; DCMD stops, resumes, steps, cancels a step, and has a block saved. -/
def Sys2Proof.Claims.DebugCommands : Prop :=
  (∀ (s : State) (c n : Nat) (x a : DWord), answering s = true → pfLet s = true → c < 32 → n < 4 → x.toNat < 2 ^ 13 → x.getLsbD 9 = false → x.toNat / 2 ^ 10 % 4 ≠ 0 → x.getLsbD 8 = false → a = (getCore s c).dbg.wpA.get 0 n →
    (∀ p pa k, a.toNat < 2 ^ 57 → p.host = false → k < 4 → (∀ j, j < 4 → ((getPart s j).courses.getLsbD (c / 4) = true ↔ j = k)) → (getPart s k).pbase ≤ p.pasid → p.pasid < (getPart s k).pbase + (getPart s k).pcnt → pageHolds p p.pasid (a.toNat / 8 * 8) = true → pa = p.pbase + (a.toNat / 8 * 8 - p.vbase) →
      ∃ t, exec (.watchpointArm c n x (some p)) s = .next t ∧ (getCore t c).dbg.wpC.get 0 n = x ∧ (getCore t c).dbg.wpLoc.get none n = some (.g (.dev pa)) ∧ (getCore t c).dbg.wpPage.get none n = some p ∧ SameMemory s t
        ∧ (2 ≤ x.toNat / 2 ^ 10 % 4 → (∀ k, (getCore t k).l1.get none (pa / 128) = none) ∧ ∀ k, k < 4 → (getPier t k).rdc.get none (pa / 128) = none))
    ∧ ∃ t, exec (.watchpointArm c n x none) s = .next t ∧ (getCore t c).dbg.wpC.get 0 n = ((x &&& 0x13FF#64) ||| 0x2000#64) ∧ (getCore t c).dbg.wpLoc.get none n = none ∧ t = { s with cores := t.cores })
  ∧ (∀ (s : State) (c n u i : Nat) (b : Block) (w : Warp), Resident s u i b w → b.core = some c → b.stopSaved = false → n < 8 → w.dbg.stopped = false → (getCourse s (courseOf c)).stopped = false → ibpMatches s c n b w none = true →
      ∃ t w', exec (.instructionBreakpoint c n u i 4) s = .next t ∧ (getCourse t (courseOf c)).stopped = true ∧ (getCourse t (courseOf c)).src = 5 ∧ (getCourse t (courseOf c)).srcCore = c
        ∧ (getCourse t (courseOf c)).srcWarp = i ∧ (getCourse t (courseOf c)).srcIbp = n ∧ getWarp t u i = some w' ∧ w' = { w with dbg := { stopped := true, reason := 6, skidS := 0, skidL := 0, passBp := some w.spc } } ∧ SameMemory s t)
  ∧ ∀ (s : State) (c slot : Nat) (x : Course), answering s = true → pfLet s = true → c < 32 → x = getCourse s (c / 4) →
    (∀ v : DWord, exec (.registerWrite .debug (0x1088 + 0x400 * c) 8 v) s =
      if v.toNat % 8 = 1 then exec (.dcmdStop c) s else if v.toNat % 8 = 2 then exec (.dcmdResume c) s
      else if v.toNat % 8 = 3 then exec (.dcmdStep c (v.toNat / 2 ^ 8 % 64) (v.getLsbD 16) (v.toNat / 2 ^ 17 % 4)) s else if v.toNat % 8 = 4 then exec (.dcmdCancelStep c) s
      else if v.toNat % 8 = 5 then exec (.dcmdPreempt c (v.toNat / 2 ^ 8 % 64) (if v.getLsbD 25 then some (v.toNat / 2 ^ 20 % 32) else none)) s else .next s)
    ∧ (x.stopped = false → ∃ t, exec (.dcmdStop c) s = .next t ∧ (getCourse t (c / 4)).stopped = true ∧ (getCourse t (c / 4)).src = 4 ∧ (getCourse t (c / 4)).srcCore = c ∧ SameMemory s t
      ∧ ∀ k, k / 4 = c / 4 → (getCore t k).stopDue = some ((getCore s k).cyc + 32))
    ∧ (x.stopped = true → ∃ t, exec (.dcmdResume c) s = .next t ∧ (getCourse t (c / 4)).stopped = false ∧ SameMemory s t ∧ (∀ k, k / 4 = c / 4 → (getCore t k).stopDue = none)
        ∧ ∀ u i b w k, getBlock s u = some b → b.core = some k → k / 4 = c / 4 → b.debug = true → b.stopSaved = false → getWarp s u i = some w → getWarp t u i = some { w with dbg := { w.dbg with stopped := false } })
    ∧ ∀ b w lane split, atSlot s c slot = some (b, w) → b.debug = true →
      (w.dbg.stopped = true → x.stopped = true → x.stepping = false → (lane = true → (getSplit w split).isSome) →
        ∃ t, exec (.dcmdStep c slot lane split) s = .next t ∧ t = { s with courses := t.courses } ∧ getCourse t (c / 4) = { x with stepping := true, stepWait := false, stepIssued := false, step := some (c, slot, lane, split) })
      ∧ (x.step = some (c, slot, false, split) → x.stepWait = true → asking w = false → (∀ k n, w.swait ≠ .barIn k n) → getBlock s b.uid = some b → warpOf b w.idx = some w →
          ∃ t, exec (.dcmdCancelStep c) s = .next t ∧ getCourse t (c / 4) = { x with stepping := false, stepWait := false, step := none } ∧ getWarp t b.uid w.idx = some { w with swait := .run } ∧ SameMemory s t)
      ∧ (∀ avoid, b.gang = none → b.core = some c → b.frozen = false → b.exited = false → b.saving = false → getBlock s b.uid = some b →
          ∃ t b', exec (.dcmdPreempt c slot avoid) s = .next t ∧ getBlock t b.uid = some b' ∧ b'.saving = true ∧ b'.avoid = avoid ∧ SameMemory s t)
      ∧ (x.step = some (c, slot, lane, split) → x.stepIssued = true → stepLanded s b w lane split = true → getBlock s b.uid = some b → warpOf b w.idx = some w →
          ∃ t, exec (.stepDone (c / 4)) s = .next t ∧ getCourse t (c / 4) = { x with stepping := false, stepWait := false, stepIssued := false, step := none }
            ∧ getWarp t b.uid w.idx = some { w with dbg := { w.dbg with reason := 4 } } ∧ SameMemory s t)

/-- R371, R404, R405: DWDATA reads and writes what DWSEL names of a stopped warp; a write of DINJ sets its fields while it is not armed; an mma chosen by an armed DINJ flips the bit it names of its
result as it finishes, once. -/
def Sys2Proof.Claims.DebugData : Prop :=
  (∀ (s : State) (c : Nat) (b : Block) (w : Warp) (x : DWord) (n : Nat), answering s = true → pfLet s = true → x = (getCore s c).dbg.dwsel → atSlot s c (x.toNat % 64) = some (b, w) → w.dbg.stopped = true → getBlock s b.uid = some b →
    warpOf b w.idx = some w → n = x.toNat / 2 ^ 16 % 2 ^ 16 →
    (∃ t, exec (.dwdataRead c) s = .next t ∧ t = { s with dev := { s.dev with reply := t.dev.reply } }
      ∧ (x.toNat / 256 % 8 = 0 → n < 64 → fieldOf t.dev.reply 0 8 = (sreg w (BitVec.ofNat 6 n)).toNat)
      ∧ (x.toNat / 256 % 8 = 2 → ∀ r, mapOf w n = some r → fieldOf t.dev.reply 0 8 = ((getRow (getCore s c) r).lanes.getD (x.toNat / 2 ^ 32 % 64) 0).toNat)
      ∧ (x.toNat / 256 % 8 = 4 → n < 4 → fieldOf t.dev.reply 0 8 = (w.kregs.get 0 n).toNat)
      ∧ (x.toNat / 256 % 8 = 5 → ∀ p, getSplit w (n / 4) = some p → fieldOf t.dev.reply 0 8 = (if n % 4 = 0 then p.lpc else if n % 4 = 1 then p.rpc.getD 0 else if n % 4 = 2 then p.mask else p.prodLpc).toNat))
    ∧ ∀ v, (x.toNat / 256 % 8 = 0 → n < 64 → ∃ t w', exec (.dwdataWrite c v) s = .next t ∧ getWarp t b.uid w.idx = some w' ∧ SWrites w w' (BitVec.ofNat 6 n) v ∧ w' = { w with sregs := w'.sregs, badS := w'.badS } ∧ OnlyWarp s t b.uid w.idx)
      ∧ (x.toNat / 256 % 8 = 2 → ∀ r, mapOf w n = some r → ∃ t, exec (.dwdataWrite c v) s = .next t ∧ t = { s with cores := t.cores } ∧ (∀ k, k ≠ r → getRow (getCore t c) k = getRow (getCore s c) k)
          ∧ ∀ l, l < 64 → (getRow (getCore t c) r).lanes.getD l 0 = if l = x.toNat / 2 ^ 32 % 64 then v.setWidth 32 else (getRow (getCore s c) r).lanes.getD l 0)
      ∧ (x.toNat / 256 % 8 = 4 → n < 4 → ∃ t w', exec (.dwdataWrite c v) s = .next t ∧ getWarp t b.uid w.idx = some w' ∧ (∀ k, w'.kregs.get 0 k = if k = n then v else w.kregs.get 0 k)
          ∧ w' = { w with kregs := w'.kregs, badK := w'.badK } ∧ OnlyWarp s t b.uid w.idx))
  ∧ (∀ (s : State) (c : Nat) (x d : DWord), answering s = true → pfLet s = true → c < 32 → d = (getCore s c).dbg.dinj → ∃ t y, exec (.dinjWrite c x) s = .next t ∧ t = { s with cores := t.cores } ∧ y = (getCore t c).dbg.dinj
      ∧ y.getLsbD 63 = x.getLsbD 63 ∧ y.getLsbD 62 = (d.getLsbD 62 && !x.getLsbD 62)
      ∧ ∀ i, i < 62 → y.getLsbD i = ((decide (i < 5) || decide (18 ≤ i ∧ i < 38)) && (if d.getLsbD 63 then d.getLsbD i else x.getLsbD i)))
  ∧ ∀ (s : State) (c : Nat) (m : Cmd) (b : Block) (n ta tb : Nat) (f : DWord) (ca cb : Word), getBlock s m.block = some b → unitHead (getCore s c) 2 = some m → cmdBlocked (getCore s c) m = false → engBusy (getCore s c) 2 = false → cmdEarly s m = false →
      m.kind = .mma n ta tb f ca cb → m.inject = true → mmaChunks f ca ≤ m.pos + 1 → ∀ d row col, d = (getCore s c).dbg.dinj → d.getLsbD 63 = true → d.toNat / 2 ^ 32 % 64 = n → row = d.toNat / 2 ^ 25 % 128 → col = d.toNat / 2 ^ 18 % 128 →
      row < tcRows ca → col < tcRows cb →
      ∃ t b' b'', exec (.mmaRun c) s = .next t ∧ ChunkIs b b' (getCore s c).cyc n ta tb f ca cb (if m.started then m.tabs else scaleTabs b f ca cb) m.pos ∧ getBlock t m.block = some b'' ∧ (getCore t c).dbg.dinj.getLsbD 63 = false ∧ (getCore t c).dbg.dinj.getLsbD 62 = true
        ∧ (∀ y ∈ (getCore t c).cmds, y.id ≠ m.id)
        ∧ ∀ k i j, i < 128 → j < 128 → accEl b'' k i j = if k = n ∧ i = row ∧ j = col then accEl b' k i j ^^^ (1#32 <<< (d.toNat % 32)) else accEl b' k i j

/-! ### The platform, the host and the peers -/

/-- After the samples that bring-up takes the logic has its power: no hard trip, or every sensor below 85.0 degrees since (R384). -/
def PowerIs (s : State) : Prop := (takeSamples s).dev.tripped = false ∨ allCool (takeSamples s) = true
/-- Map tables that keystone writes (R7, R18): of a pier's nine cores eight stand one at each position, and of the seventeen vaults above each course
sixteen one at each index of the course; the entry left over is 0. -/
def MapsValid (maps vaults : List Nat) : Prop := ∀ p, p < 4 → (∀ i, i < 9 → i ∈ (maps.drop (9 * p)).take 9)
  ∧ (∀ i, i < 17 → i ∈ ((vaults.drop (34 * p)).take 34).take 17) ∧ ∀ i, i < 17 → (if i = 0 then 0 else 16 + i) ∈ ((vaults.drop (34 * p)).take 34).drop 17

/-- `DebugCommands` and `DebugData` hold.
What an arming write that fails, or one with KIND 0, leaves in the control register is the model's choice (assumption 80), and so is that DCMD runs its command whatever its reserved bits hold (assumption 112).
Where it goes beyond these rules it is the model's own reading (assumptions 58, 59, 80 and 112). -/
def Obligations.DebugCommandsAndData : Prop := Sys2Proof.Claims.DebugCommands ∧ Sys2Proof.Claims.DebugData

/-- R7, R18, R372, R375, R377, R379, R384, R402, R406, R425: bring-up takes the sensors' first samples, scrubs the memory, takes keystone's maps and infill's tables, and sets READY when no step fails; a step that fails leaves the device not
ready, and so does a hard trip until every sensor reads below 85.0 degrees. A reset of PF0 leaves memory and keystone, and nothing placed or queued, until the device is brought up again, with its memory as it was (assumption 82); a reset of a function stops its interface, and its PRI works again.
PWRA 0 after the function-level reset (assumption 6), the ports' values at bring-up (assumption 9) and the memory after it (assumption 82) are the model's choice.
Where it goes beyond these rules it is the model's own reading (assumptions 6, 9, 10, 61 and 82). -/
def Obligations.ResetsAndBringUp : Prop :=
  (∀ (s : State) (maps vaults vra coup thp vscale : List Nat) (regs : BitVec 4), s.dev.ready = false → maps.length = 36 → vaults.length = 136 → vra.length = 128 → thp.length = 36 → vscale.length = 36 →
    (¬ PowerIs s → ∀ n, s.dev.warm = true ∨ MapsValid maps vaults → ∃ t, exec (.powerOn n maps vaults vra coup thp vscale regs) s = .next t ∧ t.dev.ready = false ∧ t.dev.tripped = true)
    ∧ (s.dev.warm = false → ¬ MapsValid maps vaults → ∀ n, n = 0 ∨ 2 < n → exec (.powerOn n maps vaults vra coup thp vscale regs) s = .next s)
    ∧ (PowerIs s → s.dev.warm = true ∨ MapsValid maps vaults →
    (∃ t, exec (.powerOn 0 maps vaults vra coup thp vscale regs) s = .next t ∧ t.dev.ready = true ∧ t.dev.tripped = false ∧ t.dev.keystoneOk = true ∧ t.dev.failStep = 0 ∧ t.dev.ports = 0xFFFF#16 ∧ t.hostMem = s.hostMem
      ∧ (∀ p, p < 4 → (getPier t p).samples = (getPier s p).samples + if (getPier s p).samples ≤ s.gtime / 1000 then 1 else 0)
      ∧ ((∀ p, p < 4 → s.gtime / 1000 < (getPier s p).samples) → t.blocks = s.blocks)
      ∧ (s.dev.warm = true → SameMemory s t ∧ t.memPois = s.memPois ∧ ∀ p, (getPier t p).coreMap = (getPier s p).coreMap ∧ (getPier t p).vaultMap = (getPier s p).vaultMap)
      ∧ (s.dev.warm = false → (∀ a, gRead t (.dev a) = 0 ∧ gPois t (.dev a) = false) ∧ (∀ l, t.scopes.get none l = none)
        ∧ (∀ p i x, p < 4 → i < 9 → maps[9 * p + i]? = some x → (getPier t p).coreMap.get 0 i = x) ∧ (∀ p i x, p < 4 → i < 34 → vaults[34 * p + i]? = some x → (getPier t p).vaultMap.get 0 i = x))
      ∧ (∀ p v x, p < 4 → v < 32 → vra[32 * p + v]? = some x → (getPier t p).vra.get 1000 v = min x 1000)
      ∧ (∀ (p i x : Nat), p < 4 → i < 9 → thp[9 * p + i]? = some x → 1120 ≤ x → x ≤ 1680 → (getPier t p).thp.get 1520 i = (x : Int))
      ∧ (∀ p i x, p < 4 → i < 9 → vscale[9 * p + i]? = some x → 1 ≤ x → x ≤ 65535 → ((getPier s p).freq.get 3600 i = 3600 → x = 256) → (getPier t p).vscale.get 256 i = x)
      ∧ ∀ r, r < 4 → t.dev.regOn.get false r = regs.getLsbD r)
    ∧ ∀ n, 0 < n → ∃ t, exec (.powerOn n maps vaults vra coup thp vscale regs) s = .next t ∧ t.dev.ready = false ∧ t.dev.failStep = n ∧ t.dev.keystoneOk = (s.dev.keystoneOk || decide (1 < n))))
  ∧ (∀ s : State, s.dev.ready = true → ∀ n a b c d e f r, exec (.powerOn n a b c d e f r) s = .next s)
  ∧ (∀ s : State, ∃ t, exec .pfFlr s = .next t ∧ SameMemory s t ∧ t.memPois = s.memPois ∧ (∀ u, getBlock t u = none) ∧ t.grids = [] ∧ t.ops = [] ∧ t.transit = [] ∧ t.dev.ready = false ∧ t.dev.warm = true ∧ t.dev.tripped = s.dev.tripped ∧ t.dev.keystoneOk = s.dev.keystoneOk
      ∧ (∀ k n, getQueue t k n = {}) ∧ (∀ k, (getPart t k).tdi = .unlocked ∧ (getPart t k).courses = 0) ∧ (∀ c, getCore t c = {}) ∧ (∀ c, (getCourse t c).pwra = 0) ∧ (∀ p v, (getPier t p).vra.get 1000 v = 1000)
      ∧ ((s.piers.cells.map Prod.fst).Nodup → ∀ p, (getPier t p).coreMap = (getPier s p).coreMap ∧ (getPier t p).vaultMap = (getPier s p).vaultMap))
  ∧ ∀ (s : State) (k : Nat), k < 4 → answering s = true → ∃ t, exec (.vfFlr k) s = .next t ∧ (getPart t k).tdi = .unlocked ∧ (getPart t k).priOff = false ∧ (getPart t k).courses = (getPart s k).courses
      ∧ (∀ u b, getBlock t u = some b → b.part ≠ k) ∧ (∀ n, (getQueue t k n).state = 0) ∧ ∀ g ∈ t.grids, g.part = k → gridOpen g = false

/-- R4, R95, R317, R319, R356, R408 to R410, R412, R416, R421, R422: a write of a register with no behaviour of its own sets its writable fields, those of a queue's blocks while its STATE is 0; DHZM covers the debug grids of its
queues at once; a partition entry changes while nothing of it is resident, memory that joins the partition reading zero; a write to a frozen item sends the interface to ERROR and stops its blocks, and is not performed. A function that is frozen writes nothing (R403).
Where it goes beyond these rules it is the model's own reading (assumptions 60 and 72). -/
def Obligations.RegistersWritten : Prop :=
  (∀ (s : State) (k n : Nat) (x : DWord) (q : Queue), QueueHere s k n q → pfLet s = true → (getPart s k).tdi = .unlocked → q.rlog < 256 → q.qtflog < 256 → q.qpasid.toNat < 2 ^ 20 →
    ∀ o, o = 0x100000 + 0x10000 * k + 64 * n →
      let sets := fun (a z : Nat) (q' : Queue) => ∃ t, exec (.registerWrite .mgmt (o + a) z x) s = .next t ∧ getQueue t k n = (if q.state = 0 then q' else q) ∧ QueuesBut s t k n
      sets 0 8 { q with rbase := x } ∧ sets 8 1 { q with rlog := x.toNat % 256 } ∧ sets 0x20 8 { q with supaddr := x } ∧ sets 0x38 8 { q with qpasid := x &&& 0xFFFFF }
      ∧ sets 0x1000 8 { q with qtvec := x } ∧ sets 0x1008 8 { q with qtfbase := x } ∧ sets 0x1010 1 { q with qtflog := x.toNat % 256 } ∧ sets 0x1018 8 { q with qerrqb := x })
  ∧ (∀ (s : State) (d : Nat) (x : DWord) (r : Route), answering s = true → pfLet s = true → 0 < d → d < 63 → r = s.routes.get {} d → (getPart s (r.inpart.toNat % 4)).tdi = .unlocked →
      r.inpart &&& 0x83 = r.inpart → r.inperm &&& 0xF = r.inperm → r.inpasid &&& 0xFFFFF = r.inpasid →
      let sets := fun (a z : Nat) (r' : Route) => ∃ t, exec (.registerWrite .mgmt (0x50000 + 32 * d + a) z x) s = .next t ∧ t = { s with routes := t.routes } ∧ t.routes.get {} d = r'
        ∧ ∀ e, e ≠ d → t.routes.get {} e = s.routes.get {} e
      sets 0 2 { r with valid := x.getLsbD 0 } ∧ sets 2 2 { r with ports := x.setWidth 16 } ∧ sets 4 2 { r with remid := x.setWidth 16 } ∧ sets 8 1 { r with inpart := x.setWidth 8 &&& 0x83 }
      ∧ sets 9 1 { r with inperm := x.setWidth 8 &&& 0xF } ∧ sets 0xC 4 { r with inpasid := x.setWidth 32 &&& 0xFFFFF })
  ∧ (∀ (s : State) (k : Nat) (x : DWord), answering s = true → pfLet s = true → k < 4 →
      (∃ t, exec (.registerWrite .debug (8 * k) 8 x) s = .next t ∧ t = { s with parts := t.parts } ∧ getPart t k = { getPart s k with dqen := x } ∧ ∀ j, j ≠ k → getPart t j = getPart s j)
      ∧ (∃ t, exec (.registerWrite .debug (0x20 + 8 * k) 8 x) s = .next t ∧ t = { s with parts := t.parts, grids := t.grids, blocks := t.blocks } ∧ getPart t k = { getPart s k with dhzm := x }
          ∧ (∀ j, j ≠ k → getPart t j = getPart s j) ∧ t.grids = s.grids.map (fun g => if g.part = k then { g with hazMode := g.debug && x.getLsbD g.queue } else g)
          ∧ ((s.blocks.cells.map Prod.fst).Nodup → ∀ u b, getBlock s u = some b → getBlock t u = some (if b.part = k then { b with hazMode := b.debug && x.getLsbD b.queue } else b)))
      ∧ ((∀ j, j < 4 → (getPart s j).tdi = .unlocked) → ∃ t, exec (.registerWrite .mgmt (0x20100 + 8 * k) 8 x) s = .next t ∧ t = { s with dev := { s.dev with share := t.dev.share } }
          ∧ ∀ r, t.dev.share.get 0 r = if r = k then x.toNat % 1024 else s.dev.share.get 0 r)
      ∧ ∀ (a z : Nat), z ≤ 8 →
        let puts := fun (m m' : Memory) => ∀ i, msixRead m' i = if a ≤ i ∧ i < a + z then BitVec.ofNat 8 (x.toNat / 256 ^ (i - a)) else msixRead m i
        (a + z ≤ 0x1000 → ∃ t, exec (.registerWrite .mgmt (0x60000 + a) z x) s = .next t ∧ puts s.dev.pfMsix t.dev.pfMsix ∧ SameMemory s t)
        ∧ (a + z ≤ 0x400 → fnLet s k k = true → ∃ t, exec (.registerWrite (.vf k) (0x2000 + a) z x) s = .next t ∧ puts (getPart s k).msixTable (getPart t k).msixTable ∧ SameMemory s t))
  ∧ ∀ (s : State) (k : Nat) (x : DWord), answering s = true → pfLet s = true → k < 4 →
    ((getPart s k).tdi = .unlocked → partBusy s k = false → (getPart s k).pbase < 2 ^ 32 → (getPart s k).pcnt < 2 ^ 32 →
      (∀ m, m < 8 → (getPart s k).memBase.get 0 m < 2 ^ 64 ∧ (getPart s k).memSize.get 0 m < 2 ^ 64) →
      ((∀ j, j < 4 → j ≠ k → (getPart s j).courses &&& x.setWidth 8 = 0) → ∃ t, exec (.partitionEntryWrite k 0 1 x) s = .next t ∧ (getPart t k).courses = x.setWidth 8 ∧ (getPart t k).en = (getPart s k).en
          ∧ (getPart t k).pbase = (getPart s k).pbase ∧ SameMemory s t)
      ∧ ((∃ j, j < 4 ∧ j ≠ k ∧ (getPart s j).courses &&& x.setWidth 8 ≠ 0) → exec (.partitionEntryWrite k 0 1 x) s = .next s)
      ∧ ∀ m, m < 8 → (∀ j, j < 4 → j ≠ k → (getPart s j).courses &&& (getPart s k).courses = 0) → (∀ j, j < 8 → j ≠ m → (getPart s k).memSize.get 0 j = 0) → (getPart s k).memSize.get 0 m = 0 →
          ∃ t, exec (.partitionEntryWrite k (0x28 + 16 * m) 8 x) s = .next t ∧ (getPart t k).memSize.get 0 m = x.toNat
            ∧ ∀ a, gRead t (.dev a) = if (getPart s k).memBase.get 0 m ≤ a ∧ a < (getPart s k).memBase.get 0 m + x.toNat then 0 else gRead s (.dev a))
    ∧ ((getPart s k).tdi ≠ .unlocked → ∀ i o size, o < 256 → size ≤ 8 → i = .partitionEntryWrite k o size x ∨ i = .frozenItemWrite .mgmt (0x10000 + 256 * k + o) size →
        ∃ t, exec i s = .next t ∧ (getPart t k).tdi = .error ∧ (getPart t k).courses = (getPart s k).courses ∧ (getPart t k).memSize = (getPart s k).memSize ∧ SameMemory s t
          ∧ ∀ u b, getBlock s u = some b → b.part = k → b.exited = false → ∃ b', getBlock t u = some b' ∧ b'.frozen = true ∧ ∀ j w, warpOf b' j = some w → w.sb = [])

/-- R157, R420, R421, R423, R424: an interface is locked when its queues are disabled and nothing of it is resident, started when locked, and stopped from any other state than unlocked; the reply says whether it
was. A report gives the function's ranges and partition. A firmware image waits while an interface is locked or runs; in RUN requests outside the IDE stream are dropped, and
reads outside it complete with Unsupported Request; infill registers a kernel, by partition, PASID and descriptor, when it has a handler for each of its opcodes.
Where it goes beyond these rules it is the model's own reading (assumptions 62 and 63). -/
def Obligations.TrustedInterfaces : Prop :=
  ∀ (s : State) (k : Nat), answering s = true → k < 4 →
    ((getPart s k).tdi = .unlocked → (∀ e ∈ (getPart s k).queues.cells, e.2.state = 0) → partBusy s k = false →
        ∃ t, exec (.lockInterface k) s = .next t ∧ t.dev.reply = [1] ∧ getPart t k = { getPart s k with tdi := .locked } ∧ SameMemory s t)
    ∧ ((getPart s k).tdi ≠ .unlocked → ∃ t, exec (.lockInterface k) s = .next t ∧ t = { s with dev := { s.dev with reply := [0] } })
    ∧ ((getPart s k).tdi = .locked → ∃ t, exec (.startInterface k) s = .next t ∧ t.dev.reply = [1] ∧ getPart t k = { getPart s k with tdi := .run } ∧ SameMemory s t)
    ∧ ((getPart s k).tdi ≠ .locked → ∃ t, exec (.startInterface k) s = .next t ∧ t = { s with dev := { s.dev with reply := [0] } })
    ∧ ((getPart s k).tdi ≠ .unlocked → ∃ t, exec (.stopInterface k) s = .next t ∧ t.dev.reply = [1] ∧ (getPart t k).tdi = .unlocked ∧ (∀ u b, getBlock t u = some b → b.part ≠ k) ∧ (∀ n, (getQueue t k n).state = 0)
        ∧ ∀ m a, m < 8 → (getPart s k).memBase.get 0 m ≤ a → a < (getPart s k).memBase.get 0 m + (getPart s k).memSize.get 0 m → gRead t (.dev a) = 0)
    ∧ (∃ t, exec (.getInterfaceReport k) s = .next t ∧ t = { s with dev := { s.dev with reply := t.dev.reply } } ∧ fieldOf t.dev.reply 0 2 = 1 ∧ fieldOf t.dev.reply 2 2 = 66
        ∧ (∀ n, n < 64 → fieldOf t.dev.reply (4 + 16 * n) 8 = 0x1000 * n ∧ fieldOf t.dev.reply (12 + 16 * n) 4 = 0x1000) ∧ fieldOf t.dev.reply 1060 4 = (getPart s k).courses.toNat)
    ∧ (∃ t, exec .getMeasurements s = .next t ∧ t = { s with dev := { s.dev with reply := t.dev.reply } } ∧ ∀ i, 1 ≤ i → i ≤ 9 → fieldOf t.dev.reply (48 * (i - 1)) 48 = (measure s i).toNat)
    ∧ (∀ (inf : Bool) (img : Nat), ((∀ j, j < 4 → (getPart s j).tdi ≠ .locked ∧ (getPart s j).tdi ≠ .run) → ∃ t, exec (.firmwareImageUpdate (if inf then .infill img else .keystone img)) s = .next t
          ∧ t = { s with dev := { s.dev with image := if inf then s.dev.pendImage.getD s.dev.image else img, infillImage := if inf then img else s.dev.pendInfill.getD s.dev.infillImage, pendImage := none, pendInfill := none } })
        ∧ ((∃ j, j < 4 ∧ ((getPart s j).tdi = .locked ∨ (getPart s j).tdi = .run)) → ∃ t, exec (.firmwareImageUpdate (if inf then .infill img else .keystone img)) s = .next t
          ∧ t = { s with dev := if inf then { s.dev with pendInfill := some img } else { s.dev with pendImage := some img } }))
    ∧ ((getPart s k).tdi = .run → s.dev.outside = true → ∀ n o z x, n < 64 → 1 ≤ z → z ≤ 8 →
        exec (.notifyWrite k n o z x) s = .next s ∧ exec (.queueEnable k n) s = .next s ∧ exec (.queueReset k n) s = .next s ∧ exec (.registerWrite (.vf k) (0x2000 + o) z x) s = .next s
        ∧ barRead s (.vf k) o z = none ∧ barRead s (.vfNotify k) o z = none)
    ∧ ∀ part pasid kd lb z ops hl, let mine := fun (b : Block) => b.part = part ∧ b.pasid = pasid ∧ b.kd.addr = kd
        ((∀ i, i < 16 → ops.getLsbD i = true → hl.getLsbD i = true) →
          ∃ t, exec (.infillRegistration false ⟨part, pasid, kd⟩ lb z ops hl) s = .next t ∧ t.dev.reply = [1] ∧ ∀ b i, infillTakes t b i = if mine b then ops.getLsbD i.toNat else infillTakes s b i)
        ∧ ((∃ i, i < 16 ∧ ops.getLsbD i = true ∧ hl.getLsbD i = false) →
          ∃ t, exec (.infillRegistration false ⟨part, pasid, kd⟩ lb z ops hl) s = .next t ∧ t.dev.reply = [0] ∧ ∀ b i, infillTakes t b i = infillTakes s b i)
        ∧ ∃ t, exec (.infillRegistration true ⟨part, pasid, kd⟩ lb z ops hl) s = .next t ∧ ∀ b i, infillTakes t b i = if mine b then false else infillTakes s b i

/-- R101, R406: a host atomic on device memory gives the old value and leaves the new one, in one step. -/
def Sys2Proof.Claims.HostAtomics : Prop :=
  ∀ (s : State) (op : PcieAtomic) (wide : Bool) (pa : Nat) (b c : DWord) (n : Nat), answering s = true → n = (if wide then 8 else 4) → pa % n = 0 → pa < 384 * 2 ^ 30 → gPois s (.dev pa) = false → NoWatch s (.g (.dev pa)) n 3 →
    ∃ t old new, exec (.hostAtomicop op wide pa b c) s = .next t ∧ Holds s (.dev pa) 0 n old ∧ old < 256 ^ n ∧ Holds t (.dev pa) 0 n new ∧ MemoryBut s t (.dev pa) n ∧ fieldOf t.dev.reply 0 n = old
      ∧ new = (match op with | .fetchAdd => (old + b.toNat) % 256 ^ n | .swap => b.toNat % 256 ^ n | .cas => if old = b.toNat % 256 ^ n then c.toNat % 256 ^ n else old)
      ∧ (∀ p, p < 4 → (getPier t p).rdc.get none (pa / 128) = none) ∧ t = { s with mem := t.mem, piers := t.piers, dev := { s.dev with reply := t.dev.reply } }

/-- R414 to R419: a request of a peer is refused with PERM where the route does not permit it, with PAGE where no translation gives the whole range in the partition's memory, else performed. A notify page takes a
write that the route permits. Ports going down and up change only what is live. -/
def Sys2Proof.Claims.PeerRequests : Prop :=
  (∀ (s : State) (d va : Nat) (kind : PeerKind) (r : Route), answering s = true → r = s.routes.get {} d → r.valid = true → isNotify va = false →
    (r.inpart.getLsbD 7 = false ∨ r.inperm.getLsbD (match kind with | .read _ => 0 | .write _ => 1 | .atomic _ _ _ _ => 2) = false → ∀ a, ∃ t, exec (.peerRequest d kind va a) s = .next t ∧ t.dev.refusal = some true ∧ SameMemory s t)
    ∧ (r.inpart.getLsbD 7 = true → r.inperm.getLsbD (match kind with | .read _ => 0 | .write _ => 1 | .atomic _ _ _ _ => 2) = true →
        (∃ t, exec (.peerRequest d kind va none) s = .next t ∧ t.dev.refusal = some false ∧ SameMemory s t)
        ∧ ∀ p pa, pageHolds p r.inpasid.toNat va = true → va + peerBytes kind ≤ p.vbase + p.size → p.host = false → pa = p.pbase + (va - p.vbase) → inMem s (r.inpart.toNat % 4) pa (peerBytes kind) = true →
            (∀ n, kind = .read n → p.r = true → NoWatch s (.g (.dev pa)) n 2 → ∃ t, exec (.peerRequest d kind va (some p)) s = .next t ∧ t.dev.refusal = none ∧ t.dev.reply = gReadN s (.dev pa) n ∧ SameMemory s t)
            ∧ (∀ bs, kind = .write bs → p.w = true → NoWatch s (.g (.dev pa)) bs.length 1 → ∃ t, exec (.peerRequest d kind va (some p)) s = .next t ∧ t.dev.refusal = none ∧ MemoryBut s t (.dev pa) bs.length
                ∧ ∀ i x, bs[i]? = some x → gRead t (.dev (pa + i)) = x)
            ∧ (∀ op wide b c n, kind = .atomic op wide b c → n = (if wide then 8 else 4) → p.r = true → p.w = true → gPois s (.dev pa) = false → NoWatch s (.g (.dev pa)) n 3 →
                ∃ t old new, exec (.peerRequest d kind va (some p)) s = .next t ∧ t.dev.refusal = none ∧ Holds s (.dev pa) 0 n old ∧ old < 256 ^ n ∧ fieldOf t.dev.reply 0 n = old
                  ∧ AtomIs op (8 * n) old (b.toNat % 256 ^ n) (c.toNat % 256 ^ n) new ∧ Holds t (.dev pa) 0 n new ∧ MemoryBut s t (.dev pa) n)))
  ∧ (∀ (s : State) (d va size : Nat) (x : DWord) (r : Route) (q : Queue) (k n : Nat), r = s.routes.get {} d → r.valid = true → k = r.inpart.toNat % 4 → n = va / 2 ^ 12 % 64 → isNotify va = true → QueueHere s k n q →
      (r.inpart.getLsbD 7 = true → r.inperm.getLsbD 3 = true → va % 4096 = 0 → size = 8 → q.state = 1 → inError s k = false → q.wridx ≤ x.toNat → x.toNat ≤ q.rdidx + 2 ^ q.rlog →
        ∃ t, exec (.peerNotify d va true size x) s = .next t ∧ t.dev.refusal = none ∧ getQueue t k n = { q with wridx := x.toNat } ∧ QueuesBut s t k n)
      ∧ (r.inpart.getLsbD 7 = false ∨ r.inperm.getLsbD 3 = false → ∃ t, exec (.peerNotify d va true size x) s = .next t ∧ t.dev.refusal = some true ∧ ∀ i j, getQueue t i j = getQueue s i j)
      ∧ ∃ t, exec (.peerNotify d va false size x) s = .next t ∧ t.dev.refusal = some true ∧ ∀ i j, getQueue t i j = getQueue s i j)
  ∧ ∀ (s : State) (p : Nat), p < 16 →
      (∃ t, exec (.portDown p) s = .next t ∧ t = { s with dev := { s.dev with ports := t.dev.ports } } ∧ ∀ i, i < 16 → t.dev.ports.getLsbD i = (i != p && s.dev.ports.getLsbD i))
      ∧ ∃ t, exec (.portUp p) s = .next t ∧ t = { s with dev := { s.dev with ports := t.dev.ports } } ∧ ∀ i, i < 16 → t.dev.ports.getLsbD i = (i == p || s.dev.ports.getLsbD i)

/-- `HostAtomics` and `PeerRequests` hold.
Where it goes beyond these rules it is the model's own reading (assumption 64). -/
def Obligations.PeerAndHostRequests : Prop := Sys2Proof.Claims.HostAtomics ∧ Sys2Proof.Claims.PeerRequests


/-! ### Encodings and steps -/

/-- R121 to R123, R132: decode reads the bytes of every well-formed S-instruction as that instruction, whatever follows them. -/
def Obligations.EncodeThenDecodeS : Prop :=
  ∀ (i : Instr) (x : Word × Option Word) (l : List Byte), WellFormed i = true → encodeS i = some x → decodeBytes false (encode i ++ l) = .ok i

/-- R124 to R132: decode reads the word of every well-formed L-instruction as that instruction. -/
def Obligations.EncodeThenDecodeL : Prop :=
  ∀ (i : Instr) (f : LF) (l : List Byte), WellFormed i = true → i.lf = some f → decodeBytes true (encode i ++ l) = .ok i

/-- R132: an accepted word is the encoding of the well-formed instruction that it is read as, so every word has one meaning. -/
def Obligations.WordsHaveOneMeaning : Prop :=
  (∀ (w k : Word) (i : Instr), decodeS w k = .ok i → WellFormed i = true ∧ encodeS i = some (w, if isPair w then some k else none))
  ∧ ∀ (w : BitVec 96) (i : Instr), decodeL w = .ok i → WellFormed i = true ∧ encodeL i = some w

/-- Words written out from the encodings of R121 to R131. -/
def Obligations.EncodedWords : Prop :=
  decodeS 0x04000000#32 0 = .ok (.salu .add 0 0 0) ∧ decodeS 0x08927FFF#32 0 = .ok (.saddi 9 9 0x3FFF) ∧ decodeS 0x28700000#32 0xC8 = .ok (.slit 7 0xC8)
  ∧ decodeL 0x10100201700001C000000000#96 = .ok (.fadd .f32 .rz false false ⟨.v 4, .v 5, .q 0, .v 0, ⟨3, true⟩, 0, false, 0⟩)
  ∧ decodeL 0x40520400B0200F8000000010#96 = .ok (.ld true .ro false .b32 ⟨.v 8, .v 2, .q 1, .v 0, ⟨31, false⟩, 0, false, 16⟩)
  ∧ decodeL 0#96 = .refused .guardNotAllowed ∧ decodeS 0 0 = .ok .sysNop

/-- R425, R406, R95: at reset nothing is brought up, placed or queued, every memory reads zero, and what every step keeps holds.
That a memory outside the device reads zero is the model's choice (assumption 4); the values of other registers for which the spec gives none (assumptions 6 to 13) are not its subject. -/
def Obligations.ResetValues : Prop :=
  State.reset.dev.ready = false ∧ State.reset.dev.tripped = false ∧ State.reset.gtime = 0 ∧ (∀ l, gRead State.reset l = 0) ∧ (∀ u, getBlock State.reset u = none) ∧ State.reset.grids = []
  ∧ (∀ k n, (getQueue State.reset k n).state = 0 ∧ (getQueue State.reset k n).wridx = 0 ∧ (getQueue State.reset k n).rdidx = 0) ∧ (∀ k, (getPart State.reset k).tdi = .unlocked ∧ (getPart State.reset k).courses = 0)
  ∧ (∀ c r, getRow (getCore State.reset c) r = {}) ∧ MemSound State.reset ∧ FreshNumbers State.reset

/-- R95: every step keeps the three memories in their canonical form. -/
def Obligations.StepsKeepMemoriesSound : Prop := ∀ s t : State, MemSound s → step s = .next t → MemSound t

/-- R108: every step keeps the numbers of what is outstanding below the next one, so that issue order is the order of the numbers.
The numbers are the model's own (assumption 3). -/
def Obligations.StepsKeepNumbersFresh : Prop := ∀ s t : State, FreshNumbers s → step s = .next t → FreshNumbers t

/-- The machine never stops: every step of every state leads to a next state, with no fault and no refusal.
It rests on the model's own reading that the device acts one agent at a time (assumption 1). -/
def Obligations.EveryStepLeadsOn : Prop := ∀ s : State, Goes (step s)

/-- R11, R131, R162, R212: when the next to act is an S-stream that may issue, and the bytes at SPC decode to an instruction whose registers are there, the step is `exec` of that instruction, with the warp selected
and its word noted, and with what an issue adds; so for a split and the bytes at its LPC, or those of the word it repeats. Bytes that decode to no instruction trap
ILLEGAL with the decode's SUBC (R132, R133). A device event is `exec` of it, and with nothing to act a nanosecond passes.
Which agent acts is the model's own agenda (assumption 1). -/
def Obligations.StepRunsTheDecodedInstruction : Prop :=
  ∀ (s : State) (m : Move) (rest : List Move), s.agenda = m :: rest →
    let s0 := { s with agenda := rest }
    (∀ u j b w x y i, m = .sIssue u j → getBlock s u = some b → getWarp s u j = some w → SIssues s0 b w →
      (∃ bs, fetchBytes s0 b w.spc 4 = .ok bs ∧ x = ofLeBytes bs) → (if isPair (BitVec.ofNat 32 x) then ∃ bs, fetchBytes s0 b (w.spc + 4) 4 = .ok bs ∧ y = ofLeBytes bs else y = 0) →
      decodeS (BitVec.ofNat 32 x) (BitVec.ofNat 32 y) = .ok i → (∀ r ∈ sReads i, sReady w (getCore s (coreNo b)).cyc r = true) →
      ∃ t, exec i { setWarp s0 u { w with sWord := x + 2 ^ 32 * y, sAt := w.wtim } with sel := { block := u, warp := j, word := x } } = .next t
        ∧ step s = .next (afterS s0 t b w i))
    ∧ (∀ u j k b w p bs i, m = .lIssue u j k → getBlock s u = some b → getWarp s u j = some w → LIssues s0 b w k p →
      fetchBytes s0 b (if p.rep.isSome then p.lpc + 12 else p.lpc) 12 = .ok bs → decodeSplit p (ofLeBytes bs) = .ok i →
      (laneClocks w i ≠ 0 → (freeHalf (getCore s (coreNo b)) (quadOf w)).isSome = true) →
      ∃ t, exec i { setWarp s0 u (setSplit w k { p with word := ofLeBytes bs }) with sel := { block := u, warp := j, split := k, lane := true, word := ofLeBytes bs } } = .next t
        ∧ step s = .next (afterL s0 { s0 with sel := { block := u, warp := j, split := k, lane := true } } t b (setSplit w k { p with word := ofLeBytes bs }) k i))
    ∧ (∀ u j b w x r, m = .sIssue u j → getBlock s u = some b → getWarp s u j = some w → SIssues s0 b w → (∃ bs, fetchBytes s0 b w.spc 4 = .ok bs ∧ x = ofLeBytes bs) →
      isPair (BitVec.ofNat 32 x) = false → decodeS (BitVec.ofNat 32 x) 0 = .refused r →
      step s = .next (winning s0 (afterIssue s0 (trapS { s0 with sel := { block := u, warp := j, word := x } } b w .illegal (rejectSubc r) 0) b w .sysNop false 0)
        (coreNo b) (u, j, 4)))
    ∧ (∀ u j k b w p bs r, m = .lIssue u j k → getBlock s u = some b → getWarp s u j = some w → LIssues s0 b w k p →
      fetchBytes s0 b (if p.rep.isSome then p.lpc + 12 else p.lpc) 12 = .ok bs → decodeSplit p (ofLeBytes bs) = .refused r →
      step s = .next (afterL s0 { s0 with sel := { block := u, warp := j, split := k, lane := true } }
        (trapL { s0 with sel := { block := u, warp := j, split := k, lane := true, word := ofLeBytes bs } } b w .illegal (rejectSubc r) 0 0) b w k (.lnop bareLF)))
    ∧ (∀ i, m = .event i → encode i = [] → step s = exec i s0)
    ∧ ∀ s : State, s.agenda = [] → step s = .next (nanoTick s)

/-- R22, R57, R58: a clock of a core is counted; a near result whose landing clock it is writes the lanes of its mask into its row, with their poison, and one whose clock has not come
writes nothing.
That a clock is an entry of the agenda is the model's own (assumption 1). -/
def Obligations.ClocksLandResults : Prop :=
  ∀ (s : State) (c : Nat) (rest : List Move), s.agenda = .clock c :: rest → c < 32 → s.dev.tripped = false →
    (∀ y r, (getCore s c).flight = [y] → y.far = false → y.due ≤ (getCore s c).cyc + 1 → y.tgt = .row r →
      ∃ t, step s = .next t ∧ (getCore t c).cyc = (getCore s c).cyc + 1 ∧ (getCore t c).flight = [] ∧ (∀ n, n ≠ r → getRow (getCore t c) n = getRow (getCore s c) n)
        ∧ (getRow (getCore t c) r).count = (getRow (getCore s c) r).count ∧ (getRow (getCore t c) r).pend = (getRow (getCore s c) r).pend - (if y.pend then 1 else 0) ∧ SameMemory s t
        ∧ ∀ l, l < 64 → laneOf (getRow (getCore t c) r).lanes l = (if y.mask.getLsbD l then laneOf y.vals l else laneOf (getRow (getCore s c) r).lanes l)
            ∧ (getRow (getCore t c) r).poison.getLsbD l = if y.mask.getLsbD l then y.pois.getLsbD l else (getRow (getCore s c) r).poison.getLsbD l)
    ∧ ((∀ y ∈ (getCore s c).flight, y.far = true ∨ (getCore s c).cyc + 1 < y.due) →
      ∃ t, step s = .next t ∧ (getCore t c).cyc = (getCore s c).cyc + 1 ∧ (getCore t c).flight = (getCore s c).flight ∧ (∀ n, getRow (getCore t c) n = getRow (getCore s c) n) ∧ SameMemory s t)


/-! ### Exact results rounded once -/

/-- R71 to R73, R203, R207: fadd, fmul and ffma of one element are the exact sum, product or product and sum, rounded once, with their flags, NaNs and
infinities; frnd is the operand rounded to an integer. -/
def Sys2Proof.Claims.SumsAndProductsRound : Prop :=
  ∀ (ty : FType) (rm : RM) (md : FMode) (a b c : Nat), a < 2 ^ floatBits ty → b < 2 ^ floatBits ty → c < 2 ^ floatBits ty →
    let f := ftyFmt ty
    SumIs f rm md a b (fAdd f rm md a b) ∧ ProductIs f rm md a b (fMul f rm md a b) ∧ FusedIs f rm md a b c (fFma f rm md a b c)
    ∧ (isNanF f a → NanResult f md [a] (isSigF f a) (fRnd f rm md a)) ∧ (isInfF f a → fRnd f rm md a = (a, 0))
    ∧ (isFinF f a → ∃ k, RoundsTo rm (negF f a) (fun j q => dyLe j q (sigF f md.daz a) (powF f a)) (fun j q => dyLe (sigF f md.daz a) (powF f a) j q) k 0
        ∧ PatternOf f (fRnd f rm md a).1 (negF f a) k 0
        ∧ (fRnd f rm md a).2 = if sigF f md.daz a * 2 ^ (powF f a).toNat = k * 2 ^ (-powF f a).toNat then 0 else flNX)

/-- R65, R73, R77, R78: a conversion rounds its source's exact value once into the destination: floats with the table's overflow, infinities and NaNs, toward zero
under LRND from F32; integers clamped to their range with NV. -/
def Sys2Proof.Claims.ConversionsRound : Prop :=
  ∀ (d c x : Nat) (rm : RM) (md : FMode) (sat : Bool), d < 15 → c < 15 → d ≠ c → x < 2 ^ codeBits c →
    let r := fConv d c rm md sat x
    let rm' := if md.lrnd = true ∧ c = 0 ∧ (d = 1 ∨ d = 2 ∨ d = 3 ∨ d = 4) then .rz else rm
    (∀ f g, fmtOfCode d = some f → fmtOfCode c = some g →
      (isFinF g x → RoundedExact f rm' md.ftz sat (intF g md.daz x) (powF g x) (negF g x) r)
      ∧ (isInfF g x → (if sat = true ∨ f.sp = .none then PatternOf f r.1 (negF g x) (topSig f) (topPow f) ∧ r.2 = 0
          else if f.sp = .e4 then r = (zeroF f (negF g x) + 0x7F, flNV) else r = (infF f (negF g x), 0)))
      ∧ (isNanF g x → f.sp = .none → r = (0, flNV))
      ∧ (isNanF g x → f.sp ≠ .none → (md.lnan = false → r.1 = nanF f) ∧ (isSigF g x → r.2 = flNV) ∧ (¬ isSigF g x → r.2 = 0)))
    ∧ (∀ w sg g, intOfCode d = some (w, sg) → fmtOfCode c = some g →
      let lo : Int := if sg then -(2 ^ (w - 1)) else 0
      let hi : Int := if sg then 2 ^ (w - 1) - 1 else 2 ^ w - 1
      r.1 < 2 ^ w ∧ (isNanF g x → r = (0, flNV)) ∧ (isInfF g x → valOf w sg r.1 = (if negF g x then lo else hi) ∧ r.2 = flNV)
      ∧ (isFinF g x → ∃ k : Nat, ∃ v : Int, RoundsTo rm (negF g x) (fun j q => dyLe j q (sigF g md.daz x) (powF g x)) (fun j q => dyLe (sigF g md.daz x) (powF g x) j q) k 0
          ∧ v = (if negF g x then -(k : Int) else k) ∧ valOf w sg r.1 = max lo (min v hi)
          ∧ r.2 = if v < lo ∨ hi < v then flNV else if sigF g md.daz x * 2 ^ (powF g x).toNat = k * 2 ^ (-powF g x).toNat then 0 else flNX))
    ∧ (∀ f w sg, fmtOfCode d = some f → intOfCode c = some (w, sg) → RoundedExact f rm md.ftz sat (valOf w sg x) 0 false r)
    ∧ ∀ w sg w' sg', intOfCode d = some (w, sg) → intOfCode c = some (w', sg') → Narrows w sg sat (valOf w' sg' x) r.1 ∧ r.2 = 0

/-- R74, R79, R204, R205: fcmp compares exact values, a NaN being unordered; fmin and fmax give the lesser or the greater number, −0 below +0; rcp, rsq and sqrt
are correctly rounded, exp2 of an integer and log2 of a power of two too, with the special values and flags of R79. -/
def Sys2Proof.Claims.ComparesAndFunctionsRound : Prop :=
  (∀ (ty : FType) (md : FMode) (cd : FCond) (a b : Nat), a < 2 ^ floatBits ty → b < 2 ^ floatBits ty →
    let f := ftyFmt ty
    let un := isNanF f a ∨ isNanF f b
    let le := leF f md.daz a b
    let ge := leF f md.daz b a
    let flush := fun x => if isFinF f x = true ∧ sigF f md.daz x = 0 then zeroF f (negF f x) else x
    ((fCmp f md cd a b).1 = true ↔ match cd with
      | .eq => ¬ un ∧ le ∧ ge | .ne => un ∨ ¬ (le ∧ ge) | .lt => ¬ un ∧ le ∧ ¬ ge | .le => ¬ un ∧ le | .gt => ¬ un ∧ ge ∧ ¬ le | .ge => ¬ un ∧ ge | .un => un | .ord => ¬ un)
    ∧ ((match cd with | .lt | .le | .gt | .ge => un | _ => isSigF f a ∨ isSigF f b) → (fCmp f md cd a b).2 = flNV)
    ∧ (¬ (match cd with | .lt | .le | .gt | .ge => un | _ => isSigF f a ∨ isSigF f b) → (fCmp f md cd a b).2 = 0)
    ∧ ∀ mx : Bool, let r := fMinMax f md mx a b
      (isNanF f a → isNanF f b → NanResult f md [a, b] (isSigF f a ∨ isSigF f b) r)
      ∧ (¬ (isNanF f a ∧ isNanF f b) → (isSigF f a ∨ isSigF f b → r.2 = flNV) ∧ (¬ (isSigF f a ∨ isSigF f b) → r.2 = 0)
        ∧ (isNanF f a → r.1 = flush b) ∧ (isNanF f b → r.1 = flush a)
        ∧ (¬ un → le → ¬ ge → r.1 = if mx then flush b else flush a) ∧ (¬ un → ge → ¬ le → r.1 = if mx then flush a else flush b)
        ∧ (¬ un → le → ge → negF f a ≠ negF f b → negF f r.1 = !mx ∧ (r.1 = flush a ∨ r.1 = flush b))))
  ∧ ∀ (op : SfuOp) (md : FMode) (x : Nat), x < 2 ^ 32 →
    let f := fmF32
    let r := fSfu op md x
    let m : Int := sigF f md.daz x
    let e := powF f x
    let neg := negF f x
    (isNanF f x → NanResult f md [x] (isSigF f x) r)
    ∧ (isInfF f x → r = match op with
        | .rcp => (zeroF f neg, 0) | .tanh => (zeroF f neg + 0x3F800000, 0)
        | .exp2 => (if neg then 0 else infF f false, 0)
        | .rsq => if neg then (nanF f, flNV) else (0, 0)
        | .sqrt | .log2 => if neg then (nanF f, flNV) else (infF f false, 0))
    ∧ (isFinF f x → m = 0 → r = match op with
        | .rcp | .rsq => (infF f neg, flDZ) | .sqrt | .tanh => (zeroF f neg, 0) | .log2 => (infF f true, flDZ) | .exp2 => (0x3F800000, 0))
    ∧ (isFinF f x → m ≠ 0 → neg = true → op = .rsq ∨ op = .sqrt ∨ op = .log2 → r = (nanF f, flNV))
    ∧ (isFinF f x → m ≠ 0 → op = .rcp → RoundedOnce f .rn md.ftz false neg (fun k q => dyLe (k * m) (q + e) 1 0) (fun k q => dyLe 1 0 (k * m) (q + e)) r)
    ∧ (isFinF f x → m ≠ 0 → neg = false →
        (op = .rsq → RoundedOnce f .rn md.ftz false false (fun k q => dyLe (k * k * m) (2 * q + e) 1 0) (fun k q => dyLe 1 0 (k * k * m) (2 * q + e)) r)
        ∧ (op = .sqrt → RoundedOnce f .rn md.ftz false false (fun k q => dyLe (k * k) (2 * q) m e) (fun k q => dyLe m e (k * k) (2 * q)) r)
        ∧ ∀ n : Int, dyLe m e 1 n → dyLe 1 n m e → op = .log2 → if n = 0 then r = (0, 0) else PatternOf f r.1 (decide (n < 0)) n.natAbs 0 ∧ r.2 = 0)
    ∧ ∀ n : Int, isFinF f x → m ≠ 0 → dyLe (intF f md.daz x) e n 0 → dyLe n 0 (intF f md.daz x) e → op = .exp2 →
        RoundedOnce f .rn md.ftz false false (fun k q => dyLe k q 1 n) (fun k q => dyLe 1 n k q) r

/-- `SumsAndProductsRound`, `ConversionsRound` and `ComparesAndFunctionsRound` hold.
That a float-to-integer conversion out of range raises NV alone is presumed, from IEEE 754 (assumption 88).
Where it goes beyond these rules it is the model's own reading (assumption 88). -/
def Obligations.ArithmeticRoundsOnce : Prop := Sys2Proof.Claims.SumsAndProductsRound ∧ Sys2Proof.Claims.ConversionsRound ∧ Sys2Proof.Claims.ComparesAndFunctionsRound
end

