-- ==== Sys2Proof/Laws/SMap.lean ====
section
/-! SUPPORT. The laws of sparse tables: what a read after a write gives, and that a write keeps the canonical form. -/

namespace Sys2Proof.Machine

variable {α : Type}

theorem lookupCells_insertCells (d : α) (k : Nat) (v : α) (l : List (Nat × α)) (j : Nat) :
    lookupCells d j (insertCells k v l) = if j = k then v else lookupCells d j l := by
  induction l with
  | nil => simp [insertCells, lookupCells]
  | cons e t ih =>
    obtain ⟨k', v'⟩ := e
    simp only [insertCells]
    split
    · simp [lookupCells]
    · split
      · rename_i h1; rw [← h1]; by_cases h : j = k <;> simp [lookupCells, h]
      · simp only [lookupCells, ih]
        by_cases h : j = k'
        · simp [h]; intro h'; omega
        · simp [h]

theorem lookupCells_eraseCells (d : α) (k : Nat) (l : List (Nat × α)) (j : Nat) :
    lookupCells d j (eraseCells k l) = if j = k then d else lookupCells d j l := by
  induction l with
  | nil => simp [eraseCells, lookupCells]
  | cons e t ih =>
    obtain ⟨k', v'⟩ := e
    simp only [eraseCells]
    split
    · rename_i h1; rw [← h1, ih]; by_cases h : j = k <;> simp [lookupCells, h]
    · simp only [lookupCells, ih]
      by_cases h : j = k'
      · simp [h]; intro h'; omega
      · simp [h]

/-- A read after a write: the value written at its key, the old value elsewhere. -/
theorem SMap.get_set [DecidableEq α] (m : SMap α) (d : α) (k : Nat) (v : α) (j : Nat) :
    (m.set d k v).get d j = if j = k then v else m.get d j := by
  simp only [SMap.set, SMap.get]
  split
  · subst_vars; rw [lookupCells_eraseCells]
  · rw [lookupCells_insertCells]

@[simp] theorem SMap.get_set_self [DecidableEq α] (m : SMap α) (d : α) (k : Nat) (v : α) :
    (m.set d k v).get d k = v := by simp [SMap.get_set]

theorem SMap.get_set_ne [DecidableEq α] (m : SMap α) (d : α) {k j : Nat} (v : α) (h : j ≠ k) :
    (m.set d k v).get d j = m.get d j := by simp [SMap.get_set, h]

@[simp] theorem SMap.get_empty (d : α) (k : Nat) : (SMap.empty : SMap α).get d k = d := rfl

theorem SMap.get_modify [DecidableEq α] (m : SMap α) (d : α) (k : Nat) (f : α → α) (j : Nat) :
    (m.modify d k f).get d j = if j = k then f (m.get d k) else m.get d j := SMap.get_set m d k _ j

theorem cellsWf_mono [DecidableEq α] (d : α) {a b : Nat} (h : a ≤ b) (l : List (Nat × α)) (w : cellsWf d b l = true) :
    cellsWf d a l = true := by
  cases l with
  | nil => rfl
  | cons e t =>
    obtain ⟨k, v⟩ := e
    simp only [cellsWf, Bool.and_eq_true, decide_eq_true_eq] at w ⊢
    exact ⟨⟨Nat.le_trans h w.1.1, w.1.2⟩, w.2⟩

theorem cellsWf_insertCells [DecidableEq α] (d : α) (k : Nat) (v : α) (hv : v ≠ d) (l : List (Nat × α)) :
    ∀ lo, lo ≤ k → cellsWf d lo l = true → cellsWf d lo (insertCells k v l) = true := by
  induction l with
  | nil => intro lo hk _; simp [insertCells, cellsWf, hv, hk]
  | cons e t ih =>
    obtain ⟨k', v'⟩ := e
    intro lo hk hw
    simp only [cellsWf, Bool.and_eq_true, decide_eq_true_eq] at hw
    simp only [insertCells]
    split
    · simp only [cellsWf, Bool.and_eq_true, decide_eq_true_eq]
      exact ⟨⟨hk, by simp [hv]⟩, ⟨by omega, hw.1.2⟩, hw.2⟩
    · split
      · subst_vars
        simp only [cellsWf, Bool.and_eq_true, decide_eq_true_eq]
        exact ⟨⟨hk, by simp [hv]⟩, hw.2⟩
      · simp only [cellsWf, Bool.and_eq_true, decide_eq_true_eq]
        exact ⟨hw.1, ih (k' + 1) (by omega) hw.2⟩

theorem cellsWf_eraseCells [DecidableEq α] (d : α) (k : Nat) (l : List (Nat × α)) :
    ∀ lo, cellsWf d lo l = true → cellsWf d lo (eraseCells k l) = true := by
  induction l with
  | nil => intro lo _; rfl
  | cons e t ih =>
    obtain ⟨k', v'⟩ := e
    intro lo hw
    simp only [cellsWf, Bool.and_eq_true, decide_eq_true_eq] at hw
    simp only [eraseCells]
    split
    · exact ih lo (cellsWf_mono d (by omega) t hw.2)
    · simp only [cellsWf, Bool.and_eq_true, decide_eq_true_eq]
      exact ⟨hw.1, ih (k' + 1) hw.2⟩

/-- A write keeps the canonical form. -/
theorem SMap.wf_set [DecidableEq α] (m : SMap α) (d : α) (k : Nat) (v : α) (h : m.wf d = true) : (m.set d k v).wf d = true := by
  unfold SMap.wf SMap.set at *
  split
  · exact cellsWf_eraseCells d k _ 0 h
  · exact cellsWf_insertCells d k v ‹_› _ 0 (Nat.zero_le _) h

theorem SMap.wf_empty [DecidableEq α] (d : α) : (SMap.empty : SMap α).wf d = true := rfl

theorem lookupCells_low [DecidableEq α] (d : α) (l : List (Nat × α)) :
    ∀ lo j, cellsWf d lo l = true → j < lo → lookupCells d j l = d := by
  induction l with
  | nil => intros; rfl
  | cons e t ih =>
    obtain ⟨k, v⟩ := e
    intro lo j hw hj
    simp only [cellsWf, Bool.and_eq_true, decide_eq_true_eq] at hw
    simp only [lookupCells]
    rw [if_neg (by omega)]
    exact ih (k + 1) j hw.2 (by omega)

/-- Equal tables are equal data: two tables in canonical form that read alike are one. -/
theorem cellsWf_ext [DecidableEq α] (d : α) (l : List (Nat × α)) :
    ∀ (lo : Nat) (r : List (Nat × α)), cellsWf d lo l = true → cellsWf d lo r = true →
      (∀ j, lookupCells d j l = lookupCells d j r) → l = r := by
  induction l with
  | nil =>
    intro lo r _ hr hj
    cases r with
    | nil => rfl
    | cons e t =>
      obtain ⟨k, v⟩ := e
      simp only [cellsWf, Bool.and_eq_true, decide_eq_true_eq, Bool.not_eq_true', decide_eq_false_iff_not] at hr
      have := hj k
      simp [lookupCells] at this
      exact absurd this.symm hr.1.2
  | cons e t ih =>
    obtain ⟨k, v⟩ := e
    intro lo r hl hr hj
    simp only [cellsWf, Bool.and_eq_true, decide_eq_true_eq, Bool.not_eq_true', decide_eq_false_iff_not] at hl
    cases r with
    | nil =>
      have := hj k
      simp [lookupCells] at this
      exact absurd this hl.1.2
    | cons e' t' =>
      obtain ⟨k', v'⟩ := e'
      simp only [cellsWf, Bool.and_eq_true, decide_eq_true_eq, Bool.not_eq_true', decide_eq_false_iff_not] at hr
      have hk : k = k' := by
        rcases Nat.lt_trichotomy k k' with h | h | h
        · have := hj k
          simp only [lookupCells, if_true, if_neg (Nat.ne_of_lt h)] at this
          rw [lookupCells_low d t' (k' + 1) k hr.2 (by omega)] at this
          exact absurd this hl.1.2
        · exact h
        · have := hj k'
          simp only [lookupCells, if_true, if_neg (Nat.ne_of_lt h)] at this
          rw [lookupCells_low d t (k + 1) k' hl.2 (by omega)] at this
          exact absurd this.symm hr.1.2
      subst hk
      have hv : v = v' := by have := hj k; simpa [lookupCells] using this
      subst hv
      congr 1
      refine ih (k + 1) t' hl.2 hr.2 fun j => ?_
      by_cases h : j = k
      · subst h
        rw [lookupCells_low d t (j + 1) j hl.2 (by omega), lookupCells_low d t' (j + 1) j hr.2 (by omega)]
      · have := hj j
        simpa [lookupCells, h] using this

theorem SMap.ext_get [DecidableEq α] {m n : SMap α} (d : α) (hm : m.wf d = true) (hn : n.wf d = true)
    (h : ∀ j, m.get d j = n.get d j) : m = n := by
  cases m; cases n
  simp only [SMap.mk.injEq]
  exact cellsWf_ext d _ 0 _ hm hn h

/-! ### Memory -/

/-- A read after a write of one byte. -/
theorem Memory.read_write (m : Memory) (a : Nat) (b : Byte) (i : Nat) :
    Memory.read (Memory.write m a b) i = if i = a then b else Memory.read m i := SMap.get_set m memDefault a b i

theorem Memory.wf_write (m : Memory) (a : Nat) (b : Byte) (h : Memory.wf m = true) : Memory.wf (Memory.write m a b) = true :=
  SMap.wf_set m memDefault a b h

theorem Memory.wf_writeBytes (bs : List Byte) : ∀ (m : Memory) (a : Nat), Memory.wf m = true → Memory.wf (Memory.writeBytes m a bs) = true := by
  induction bs with
  | nil => intro m a h; exact h
  | cons b t ih => intro m a h; exact ih _ _ (Memory.wf_write m a b h)

/-- A read after a write of several bytes: byte `i - a` of what was written inside them, the old byte elsewhere. -/
theorem Memory.read_writeBytes (bs : List Byte) : ∀ (m : Memory) (a i : Nat),
    Memory.read (Memory.writeBytes m a bs) i = if a ≤ i ∧ i < a + bs.length then bs.getD (i - a) 0 else Memory.read m i := by
  induction bs with
  | nil =>
    intro m a i
    rw [if_neg fun ⟨h, g⟩ => by change i < a + 0 at g; omega]
    rfl
  | cons b t ih =>
    intro m a i
    simp only [Memory.writeBytes, ih, List.length_cons]
    by_cases h : i = a
    · subst h
      rw [if_neg (by omega), if_pos (by omega), Memory.read_write]
      simp
    · by_cases h2 : a + 1 ≤ i ∧ i < a + 1 + t.length
      · rw [if_pos h2, if_pos (by omega), show i - a = (i - (a + 1)) + 1 by omega]; simp
      · rw [if_neg h2, if_neg (by omega), Memory.read_write, if_neg h]

theorem Memory.readBytes_length (m : Memory) (n : Nat) : ∀ a, (Memory.readBytes m a n).length = n := by
  induction n with
  | zero => intro a; rfl
  | succ n ih => intro a; simp [Memory.readBytes, ih]

end Sys2Proof.Machine
end

