-- ==== Sys2Proof/Laws/State.lean ====
section
/-! SUPPORT. One lemma per field per update of the state: what an update of one tier leaves alone, and what a read after it gives. -/

namespace Sys2Proof.Machine

/-! ### setCore -/

@[simp] theorem setCore_agenda (s : State) (c : Nat) (x : Core) : (setCore s c x).agenda = s.agenda := rfl
@[simp] theorem setCore_fresh (s : State) (c : Nat) (x : Core) : (setCore s c x).fresh = s.fresh := rfl
@[simp] theorem setCore_serial (s : State) (c : Nat) (x : Core) : (setCore s c x).serial = s.serial := rfl
@[simp] theorem setCore_sel (s : State) (c : Nat) (x : Core) : (setCore s c x).sel = s.sel := rfl
@[simp] theorem setCore_gtime (s : State) (c : Nat) (x : Core) : (setCore s c x).gtime = s.gtime := rfl
@[simp] theorem setCore_gmark (s : State) (c : Nat) (x : Core) : (setCore s c x).gmark = s.gmark := rfl
@[simp] theorem setCore_dev (s : State) (c : Nat) (x : Core) : (setCore s c x).dev = s.dev := rfl
@[simp] theorem setCore_courses (s : State) (c : Nat) (x : Core) : (setCore s c x).courses = s.courses := rfl
@[simp] theorem setCore_piers (s : State) (c : Nat) (x : Core) : (setCore s c x).piers = s.piers := rfl
@[simp] theorem setCore_parts (s : State) (c : Nat) (x : Core) : (setCore s c x).parts = s.parts := rfl
@[simp] theorem setCore_ctxs (s : State) (c : Nat) (x : Core) : (setCore s c x).ctxs = s.ctxs := rfl
@[simp] theorem setCore_routes (s : State) (c : Nat) (x : Core) : (setCore s c x).routes = s.routes := rfl
@[simp] theorem setCore_grids (s : State) (c : Nat) (x : Core) : (setCore s c x).grids = s.grids := rfl
@[simp] theorem setCore_blocks (s : State) (c : Nat) (x : Core) : (setCore s c x).blocks = s.blocks := rfl
@[simp] theorem setCore_gangs (s : State) (c : Nat) (x : Core) : (setCore s c x).gangs = s.gangs := rfl
@[simp] theorem setCore_nextUid (s : State) (c : Nat) (x : Core) : (setCore s c x).nextUid = s.nextUid := rfl
@[simp] theorem setCore_ops (s : State) (c : Nat) (x : Core) : (setCore s c x).ops = s.ops := rfl
@[simp] theorem setCore_transit (s : State) (c : Nat) (x : Core) : (setCore s c x).transit = s.transit := rfl
@[simp] theorem setCore_mem (s : State) (c : Nat) (x : Core) : (setCore s c x).mem = s.mem := rfl
@[simp] theorem setCore_hostMem (s : State) (c : Nat) (x : Core) : (setCore s c x).hostMem = s.hostMem := rfl
@[simp] theorem setCore_peerMem (s : State) (c : Nat) (x : Core) : (setCore s c x).peerMem = s.peerMem := rfl
@[simp] theorem setCore_memPois (s : State) (c : Nat) (x : Core) : (setCore s c x).memPois = s.memPois := rfl
@[simp] theorem setCore_scopes (s : State) (c : Nat) (x : Core) : (setCore s c x).scopes = s.scopes := rfl

/-! ### modCore -/

@[simp] theorem modCore_agenda (s : State) (c : Nat) (f : Core → Core) : (modCore s c f).agenda = s.agenda := rfl
@[simp] theorem modCore_fresh (s : State) (c : Nat) (f : Core → Core) : (modCore s c f).fresh = s.fresh := rfl
@[simp] theorem modCore_serial (s : State) (c : Nat) (f : Core → Core) : (modCore s c f).serial = s.serial := rfl
@[simp] theorem modCore_sel (s : State) (c : Nat) (f : Core → Core) : (modCore s c f).sel = s.sel := rfl
@[simp] theorem modCore_gtime (s : State) (c : Nat) (f : Core → Core) : (modCore s c f).gtime = s.gtime := rfl
@[simp] theorem modCore_gmark (s : State) (c : Nat) (f : Core → Core) : (modCore s c f).gmark = s.gmark := rfl
@[simp] theorem modCore_dev (s : State) (c : Nat) (f : Core → Core) : (modCore s c f).dev = s.dev := rfl
@[simp] theorem modCore_courses (s : State) (c : Nat) (f : Core → Core) : (modCore s c f).courses = s.courses := rfl
@[simp] theorem modCore_piers (s : State) (c : Nat) (f : Core → Core) : (modCore s c f).piers = s.piers := rfl
@[simp] theorem modCore_parts (s : State) (c : Nat) (f : Core → Core) : (modCore s c f).parts = s.parts := rfl
@[simp] theorem modCore_ctxs (s : State) (c : Nat) (f : Core → Core) : (modCore s c f).ctxs = s.ctxs := rfl
@[simp] theorem modCore_routes (s : State) (c : Nat) (f : Core → Core) : (modCore s c f).routes = s.routes := rfl
@[simp] theorem modCore_grids (s : State) (c : Nat) (f : Core → Core) : (modCore s c f).grids = s.grids := rfl
@[simp] theorem modCore_blocks (s : State) (c : Nat) (f : Core → Core) : (modCore s c f).blocks = s.blocks := rfl
@[simp] theorem modCore_gangs (s : State) (c : Nat) (f : Core → Core) : (modCore s c f).gangs = s.gangs := rfl
@[simp] theorem modCore_nextUid (s : State) (c : Nat) (f : Core → Core) : (modCore s c f).nextUid = s.nextUid := rfl
@[simp] theorem modCore_ops (s : State) (c : Nat) (f : Core → Core) : (modCore s c f).ops = s.ops := rfl
@[simp] theorem modCore_transit (s : State) (c : Nat) (f : Core → Core) : (modCore s c f).transit = s.transit := rfl
@[simp] theorem modCore_mem (s : State) (c : Nat) (f : Core → Core) : (modCore s c f).mem = s.mem := rfl
@[simp] theorem modCore_hostMem (s : State) (c : Nat) (f : Core → Core) : (modCore s c f).hostMem = s.hostMem := rfl
@[simp] theorem modCore_peerMem (s : State) (c : Nat) (f : Core → Core) : (modCore s c f).peerMem = s.peerMem := rfl
@[simp] theorem modCore_memPois (s : State) (c : Nat) (f : Core → Core) : (modCore s c f).memPois = s.memPois := rfl
@[simp] theorem modCore_scopes (s : State) (c : Nat) (f : Core → Core) : (modCore s c f).scopes = s.scopes := rfl

/-! ### setCourse -/

@[simp] theorem setCourse_agenda (s : State) (k : Nat) (x : Course) : (setCourse s k x).agenda = s.agenda := rfl
@[simp] theorem setCourse_fresh (s : State) (k : Nat) (x : Course) : (setCourse s k x).fresh = s.fresh := rfl
@[simp] theorem setCourse_serial (s : State) (k : Nat) (x : Course) : (setCourse s k x).serial = s.serial := rfl
@[simp] theorem setCourse_sel (s : State) (k : Nat) (x : Course) : (setCourse s k x).sel = s.sel := rfl
@[simp] theorem setCourse_gtime (s : State) (k : Nat) (x : Course) : (setCourse s k x).gtime = s.gtime := rfl
@[simp] theorem setCourse_gmark (s : State) (k : Nat) (x : Course) : (setCourse s k x).gmark = s.gmark := rfl
@[simp] theorem setCourse_dev (s : State) (k : Nat) (x : Course) : (setCourse s k x).dev = s.dev := rfl
@[simp] theorem setCourse_cores (s : State) (k : Nat) (x : Course) : (setCourse s k x).cores = s.cores := rfl
@[simp] theorem setCourse_piers (s : State) (k : Nat) (x : Course) : (setCourse s k x).piers = s.piers := rfl
@[simp] theorem setCourse_parts (s : State) (k : Nat) (x : Course) : (setCourse s k x).parts = s.parts := rfl
@[simp] theorem setCourse_ctxs (s : State) (k : Nat) (x : Course) : (setCourse s k x).ctxs = s.ctxs := rfl
@[simp] theorem setCourse_routes (s : State) (k : Nat) (x : Course) : (setCourse s k x).routes = s.routes := rfl
@[simp] theorem setCourse_grids (s : State) (k : Nat) (x : Course) : (setCourse s k x).grids = s.grids := rfl
@[simp] theorem setCourse_blocks (s : State) (k : Nat) (x : Course) : (setCourse s k x).blocks = s.blocks := rfl
@[simp] theorem setCourse_gangs (s : State) (k : Nat) (x : Course) : (setCourse s k x).gangs = s.gangs := rfl
@[simp] theorem setCourse_nextUid (s : State) (k : Nat) (x : Course) : (setCourse s k x).nextUid = s.nextUid := rfl
@[simp] theorem setCourse_ops (s : State) (k : Nat) (x : Course) : (setCourse s k x).ops = s.ops := rfl
@[simp] theorem setCourse_transit (s : State) (k : Nat) (x : Course) : (setCourse s k x).transit = s.transit := rfl
@[simp] theorem setCourse_mem (s : State) (k : Nat) (x : Course) : (setCourse s k x).mem = s.mem := rfl
@[simp] theorem setCourse_hostMem (s : State) (k : Nat) (x : Course) : (setCourse s k x).hostMem = s.hostMem := rfl
@[simp] theorem setCourse_peerMem (s : State) (k : Nat) (x : Course) : (setCourse s k x).peerMem = s.peerMem := rfl
@[simp] theorem setCourse_memPois (s : State) (k : Nat) (x : Course) : (setCourse s k x).memPois = s.memPois := rfl
@[simp] theorem setCourse_scopes (s : State) (k : Nat) (x : Course) : (setCourse s k x).scopes = s.scopes := rfl

/-! ### modCourse -/

@[simp] theorem modCourse_agenda (s : State) (k : Nat) (f : Course → Course) : (modCourse s k f).agenda = s.agenda := rfl
@[simp] theorem modCourse_fresh (s : State) (k : Nat) (f : Course → Course) : (modCourse s k f).fresh = s.fresh := rfl
@[simp] theorem modCourse_serial (s : State) (k : Nat) (f : Course → Course) : (modCourse s k f).serial = s.serial := rfl
@[simp] theorem modCourse_sel (s : State) (k : Nat) (f : Course → Course) : (modCourse s k f).sel = s.sel := rfl
@[simp] theorem modCourse_gtime (s : State) (k : Nat) (f : Course → Course) : (modCourse s k f).gtime = s.gtime := rfl
@[simp] theorem modCourse_gmark (s : State) (k : Nat) (f : Course → Course) : (modCourse s k f).gmark = s.gmark := rfl
@[simp] theorem modCourse_dev (s : State) (k : Nat) (f : Course → Course) : (modCourse s k f).dev = s.dev := rfl
@[simp] theorem modCourse_cores (s : State) (k : Nat) (f : Course → Course) : (modCourse s k f).cores = s.cores := rfl
@[simp] theorem modCourse_piers (s : State) (k : Nat) (f : Course → Course) : (modCourse s k f).piers = s.piers := rfl
@[simp] theorem modCourse_parts (s : State) (k : Nat) (f : Course → Course) : (modCourse s k f).parts = s.parts := rfl
@[simp] theorem modCourse_ctxs (s : State) (k : Nat) (f : Course → Course) : (modCourse s k f).ctxs = s.ctxs := rfl
@[simp] theorem modCourse_routes (s : State) (k : Nat) (f : Course → Course) : (modCourse s k f).routes = s.routes := rfl
@[simp] theorem modCourse_grids (s : State) (k : Nat) (f : Course → Course) : (modCourse s k f).grids = s.grids := rfl
@[simp] theorem modCourse_blocks (s : State) (k : Nat) (f : Course → Course) : (modCourse s k f).blocks = s.blocks := rfl
@[simp] theorem modCourse_gangs (s : State) (k : Nat) (f : Course → Course) : (modCourse s k f).gangs = s.gangs := rfl
@[simp] theorem modCourse_nextUid (s : State) (k : Nat) (f : Course → Course) : (modCourse s k f).nextUid = s.nextUid := rfl
@[simp] theorem modCourse_ops (s : State) (k : Nat) (f : Course → Course) : (modCourse s k f).ops = s.ops := rfl
@[simp] theorem modCourse_transit (s : State) (k : Nat) (f : Course → Course) : (modCourse s k f).transit = s.transit := rfl
@[simp] theorem modCourse_mem (s : State) (k : Nat) (f : Course → Course) : (modCourse s k f).mem = s.mem := rfl
@[simp] theorem modCourse_hostMem (s : State) (k : Nat) (f : Course → Course) : (modCourse s k f).hostMem = s.hostMem := rfl
@[simp] theorem modCourse_peerMem (s : State) (k : Nat) (f : Course → Course) : (modCourse s k f).peerMem = s.peerMem := rfl
@[simp] theorem modCourse_memPois (s : State) (k : Nat) (f : Course → Course) : (modCourse s k f).memPois = s.memPois := rfl
@[simp] theorem modCourse_scopes (s : State) (k : Nat) (f : Course → Course) : (modCourse s k f).scopes = s.scopes := rfl

/-! ### setPier -/

@[simp] theorem setPier_agenda (s : State) (p : Nat) (x : Pier) : (setPier s p x).agenda = s.agenda := rfl
@[simp] theorem setPier_fresh (s : State) (p : Nat) (x : Pier) : (setPier s p x).fresh = s.fresh := rfl
@[simp] theorem setPier_serial (s : State) (p : Nat) (x : Pier) : (setPier s p x).serial = s.serial := rfl
@[simp] theorem setPier_sel (s : State) (p : Nat) (x : Pier) : (setPier s p x).sel = s.sel := rfl
@[simp] theorem setPier_gtime (s : State) (p : Nat) (x : Pier) : (setPier s p x).gtime = s.gtime := rfl
@[simp] theorem setPier_gmark (s : State) (p : Nat) (x : Pier) : (setPier s p x).gmark = s.gmark := rfl
@[simp] theorem setPier_dev (s : State) (p : Nat) (x : Pier) : (setPier s p x).dev = s.dev := rfl
@[simp] theorem setPier_cores (s : State) (p : Nat) (x : Pier) : (setPier s p x).cores = s.cores := rfl
@[simp] theorem setPier_courses (s : State) (p : Nat) (x : Pier) : (setPier s p x).courses = s.courses := rfl
@[simp] theorem setPier_parts (s : State) (p : Nat) (x : Pier) : (setPier s p x).parts = s.parts := rfl
@[simp] theorem setPier_ctxs (s : State) (p : Nat) (x : Pier) : (setPier s p x).ctxs = s.ctxs := rfl
@[simp] theorem setPier_routes (s : State) (p : Nat) (x : Pier) : (setPier s p x).routes = s.routes := rfl
@[simp] theorem setPier_grids (s : State) (p : Nat) (x : Pier) : (setPier s p x).grids = s.grids := rfl
@[simp] theorem setPier_blocks (s : State) (p : Nat) (x : Pier) : (setPier s p x).blocks = s.blocks := rfl
@[simp] theorem setPier_gangs (s : State) (p : Nat) (x : Pier) : (setPier s p x).gangs = s.gangs := rfl
@[simp] theorem setPier_nextUid (s : State) (p : Nat) (x : Pier) : (setPier s p x).nextUid = s.nextUid := rfl
@[simp] theorem setPier_ops (s : State) (p : Nat) (x : Pier) : (setPier s p x).ops = s.ops := rfl
@[simp] theorem setPier_transit (s : State) (p : Nat) (x : Pier) : (setPier s p x).transit = s.transit := rfl
@[simp] theorem setPier_mem (s : State) (p : Nat) (x : Pier) : (setPier s p x).mem = s.mem := rfl
@[simp] theorem setPier_hostMem (s : State) (p : Nat) (x : Pier) : (setPier s p x).hostMem = s.hostMem := rfl
@[simp] theorem setPier_peerMem (s : State) (p : Nat) (x : Pier) : (setPier s p x).peerMem = s.peerMem := rfl
@[simp] theorem setPier_memPois (s : State) (p : Nat) (x : Pier) : (setPier s p x).memPois = s.memPois := rfl
@[simp] theorem setPier_scopes (s : State) (p : Nat) (x : Pier) : (setPier s p x).scopes = s.scopes := rfl

/-! ### modPier -/

@[simp] theorem modPier_agenda (s : State) (p : Nat) (f : Pier → Pier) : (modPier s p f).agenda = s.agenda := rfl
@[simp] theorem modPier_fresh (s : State) (p : Nat) (f : Pier → Pier) : (modPier s p f).fresh = s.fresh := rfl
@[simp] theorem modPier_serial (s : State) (p : Nat) (f : Pier → Pier) : (modPier s p f).serial = s.serial := rfl
@[simp] theorem modPier_sel (s : State) (p : Nat) (f : Pier → Pier) : (modPier s p f).sel = s.sel := rfl
@[simp] theorem modPier_gtime (s : State) (p : Nat) (f : Pier → Pier) : (modPier s p f).gtime = s.gtime := rfl
@[simp] theorem modPier_gmark (s : State) (p : Nat) (f : Pier → Pier) : (modPier s p f).gmark = s.gmark := rfl
@[simp] theorem modPier_dev (s : State) (p : Nat) (f : Pier → Pier) : (modPier s p f).dev = s.dev := rfl
@[simp] theorem modPier_cores (s : State) (p : Nat) (f : Pier → Pier) : (modPier s p f).cores = s.cores := rfl
@[simp] theorem modPier_courses (s : State) (p : Nat) (f : Pier → Pier) : (modPier s p f).courses = s.courses := rfl
@[simp] theorem modPier_parts (s : State) (p : Nat) (f : Pier → Pier) : (modPier s p f).parts = s.parts := rfl
@[simp] theorem modPier_ctxs (s : State) (p : Nat) (f : Pier → Pier) : (modPier s p f).ctxs = s.ctxs := rfl
@[simp] theorem modPier_routes (s : State) (p : Nat) (f : Pier → Pier) : (modPier s p f).routes = s.routes := rfl
@[simp] theorem modPier_grids (s : State) (p : Nat) (f : Pier → Pier) : (modPier s p f).grids = s.grids := rfl
@[simp] theorem modPier_blocks (s : State) (p : Nat) (f : Pier → Pier) : (modPier s p f).blocks = s.blocks := rfl
@[simp] theorem modPier_gangs (s : State) (p : Nat) (f : Pier → Pier) : (modPier s p f).gangs = s.gangs := rfl
@[simp] theorem modPier_nextUid (s : State) (p : Nat) (f : Pier → Pier) : (modPier s p f).nextUid = s.nextUid := rfl
@[simp] theorem modPier_ops (s : State) (p : Nat) (f : Pier → Pier) : (modPier s p f).ops = s.ops := rfl
@[simp] theorem modPier_transit (s : State) (p : Nat) (f : Pier → Pier) : (modPier s p f).transit = s.transit := rfl
@[simp] theorem modPier_mem (s : State) (p : Nat) (f : Pier → Pier) : (modPier s p f).mem = s.mem := rfl
@[simp] theorem modPier_hostMem (s : State) (p : Nat) (f : Pier → Pier) : (modPier s p f).hostMem = s.hostMem := rfl
@[simp] theorem modPier_peerMem (s : State) (p : Nat) (f : Pier → Pier) : (modPier s p f).peerMem = s.peerMem := rfl
@[simp] theorem modPier_memPois (s : State) (p : Nat) (f : Pier → Pier) : (modPier s p f).memPois = s.memPois := rfl
@[simp] theorem modPier_scopes (s : State) (p : Nat) (f : Pier → Pier) : (modPier s p f).scopes = s.scopes := rfl

/-! ### setPart -/

@[simp] theorem setPart_agenda (s : State) (k : Nat) (x : Part) : (setPart s k x).agenda = s.agenda := rfl
@[simp] theorem setPart_fresh (s : State) (k : Nat) (x : Part) : (setPart s k x).fresh = s.fresh := rfl
@[simp] theorem setPart_serial (s : State) (k : Nat) (x : Part) : (setPart s k x).serial = s.serial := rfl
@[simp] theorem setPart_sel (s : State) (k : Nat) (x : Part) : (setPart s k x).sel = s.sel := rfl
@[simp] theorem setPart_gtime (s : State) (k : Nat) (x : Part) : (setPart s k x).gtime = s.gtime := rfl
@[simp] theorem setPart_gmark (s : State) (k : Nat) (x : Part) : (setPart s k x).gmark = s.gmark := rfl
@[simp] theorem setPart_dev (s : State) (k : Nat) (x : Part) : (setPart s k x).dev = s.dev := rfl
@[simp] theorem setPart_cores (s : State) (k : Nat) (x : Part) : (setPart s k x).cores = s.cores := rfl
@[simp] theorem setPart_courses (s : State) (k : Nat) (x : Part) : (setPart s k x).courses = s.courses := rfl
@[simp] theorem setPart_piers (s : State) (k : Nat) (x : Part) : (setPart s k x).piers = s.piers := rfl
@[simp] theorem setPart_ctxs (s : State) (k : Nat) (x : Part) : (setPart s k x).ctxs = s.ctxs := rfl
@[simp] theorem setPart_routes (s : State) (k : Nat) (x : Part) : (setPart s k x).routes = s.routes := rfl
@[simp] theorem setPart_grids (s : State) (k : Nat) (x : Part) : (setPart s k x).grids = s.grids := rfl
@[simp] theorem setPart_blocks (s : State) (k : Nat) (x : Part) : (setPart s k x).blocks = s.blocks := rfl
@[simp] theorem setPart_gangs (s : State) (k : Nat) (x : Part) : (setPart s k x).gangs = s.gangs := rfl
@[simp] theorem setPart_nextUid (s : State) (k : Nat) (x : Part) : (setPart s k x).nextUid = s.nextUid := rfl
@[simp] theorem setPart_ops (s : State) (k : Nat) (x : Part) : (setPart s k x).ops = s.ops := rfl
@[simp] theorem setPart_transit (s : State) (k : Nat) (x : Part) : (setPart s k x).transit = s.transit := rfl
@[simp] theorem setPart_mem (s : State) (k : Nat) (x : Part) : (setPart s k x).mem = s.mem := rfl
@[simp] theorem setPart_hostMem (s : State) (k : Nat) (x : Part) : (setPart s k x).hostMem = s.hostMem := rfl
@[simp] theorem setPart_peerMem (s : State) (k : Nat) (x : Part) : (setPart s k x).peerMem = s.peerMem := rfl
@[simp] theorem setPart_memPois (s : State) (k : Nat) (x : Part) : (setPart s k x).memPois = s.memPois := rfl
@[simp] theorem setPart_scopes (s : State) (k : Nat) (x : Part) : (setPart s k x).scopes = s.scopes := rfl

/-! ### modPart -/

@[simp] theorem modPart_agenda (s : State) (k : Nat) (f : Part → Part) : (modPart s k f).agenda = s.agenda := rfl
@[simp] theorem modPart_fresh (s : State) (k : Nat) (f : Part → Part) : (modPart s k f).fresh = s.fresh := rfl
@[simp] theorem modPart_serial (s : State) (k : Nat) (f : Part → Part) : (modPart s k f).serial = s.serial := rfl
@[simp] theorem modPart_sel (s : State) (k : Nat) (f : Part → Part) : (modPart s k f).sel = s.sel := rfl
@[simp] theorem modPart_gtime (s : State) (k : Nat) (f : Part → Part) : (modPart s k f).gtime = s.gtime := rfl
@[simp] theorem modPart_gmark (s : State) (k : Nat) (f : Part → Part) : (modPart s k f).gmark = s.gmark := rfl
@[simp] theorem modPart_dev (s : State) (k : Nat) (f : Part → Part) : (modPart s k f).dev = s.dev := rfl
@[simp] theorem modPart_cores (s : State) (k : Nat) (f : Part → Part) : (modPart s k f).cores = s.cores := rfl
@[simp] theorem modPart_courses (s : State) (k : Nat) (f : Part → Part) : (modPart s k f).courses = s.courses := rfl
@[simp] theorem modPart_piers (s : State) (k : Nat) (f : Part → Part) : (modPart s k f).piers = s.piers := rfl
@[simp] theorem modPart_ctxs (s : State) (k : Nat) (f : Part → Part) : (modPart s k f).ctxs = s.ctxs := rfl
@[simp] theorem modPart_routes (s : State) (k : Nat) (f : Part → Part) : (modPart s k f).routes = s.routes := rfl
@[simp] theorem modPart_grids (s : State) (k : Nat) (f : Part → Part) : (modPart s k f).grids = s.grids := rfl
@[simp] theorem modPart_blocks (s : State) (k : Nat) (f : Part → Part) : (modPart s k f).blocks = s.blocks := rfl
@[simp] theorem modPart_gangs (s : State) (k : Nat) (f : Part → Part) : (modPart s k f).gangs = s.gangs := rfl
@[simp] theorem modPart_nextUid (s : State) (k : Nat) (f : Part → Part) : (modPart s k f).nextUid = s.nextUid := rfl
@[simp] theorem modPart_ops (s : State) (k : Nat) (f : Part → Part) : (modPart s k f).ops = s.ops := rfl
@[simp] theorem modPart_transit (s : State) (k : Nat) (f : Part → Part) : (modPart s k f).transit = s.transit := rfl
@[simp] theorem modPart_mem (s : State) (k : Nat) (f : Part → Part) : (modPart s k f).mem = s.mem := rfl
@[simp] theorem modPart_hostMem (s : State) (k : Nat) (f : Part → Part) : (modPart s k f).hostMem = s.hostMem := rfl
@[simp] theorem modPart_peerMem (s : State) (k : Nat) (f : Part → Part) : (modPart s k f).peerMem = s.peerMem := rfl
@[simp] theorem modPart_memPois (s : State) (k : Nat) (f : Part → Part) : (modPart s k f).memPois = s.memPois := rfl
@[simp] theorem modPart_scopes (s : State) (k : Nat) (f : Part → Part) : (modPart s k f).scopes = s.scopes := rfl

/-! ### setQueue -/

@[simp] theorem setQueue_agenda (s : State) (k n : Nat) (q : Queue) : (setQueue s k n q).agenda = s.agenda := rfl
@[simp] theorem setQueue_fresh (s : State) (k n : Nat) (q : Queue) : (setQueue s k n q).fresh = s.fresh := rfl
@[simp] theorem setQueue_serial (s : State) (k n : Nat) (q : Queue) : (setQueue s k n q).serial = s.serial := rfl
@[simp] theorem setQueue_sel (s : State) (k n : Nat) (q : Queue) : (setQueue s k n q).sel = s.sel := rfl
@[simp] theorem setQueue_gtime (s : State) (k n : Nat) (q : Queue) : (setQueue s k n q).gtime = s.gtime := rfl
@[simp] theorem setQueue_gmark (s : State) (k n : Nat) (q : Queue) : (setQueue s k n q).gmark = s.gmark := rfl
@[simp] theorem setQueue_dev (s : State) (k n : Nat) (q : Queue) : (setQueue s k n q).dev = s.dev := rfl
@[simp] theorem setQueue_cores (s : State) (k n : Nat) (q : Queue) : (setQueue s k n q).cores = s.cores := rfl
@[simp] theorem setQueue_courses (s : State) (k n : Nat) (q : Queue) : (setQueue s k n q).courses = s.courses := rfl
@[simp] theorem setQueue_piers (s : State) (k n : Nat) (q : Queue) : (setQueue s k n q).piers = s.piers := rfl
@[simp] theorem setQueue_ctxs (s : State) (k n : Nat) (q : Queue) : (setQueue s k n q).ctxs = s.ctxs := rfl
@[simp] theorem setQueue_routes (s : State) (k n : Nat) (q : Queue) : (setQueue s k n q).routes = s.routes := rfl
@[simp] theorem setQueue_grids (s : State) (k n : Nat) (q : Queue) : (setQueue s k n q).grids = s.grids := rfl
@[simp] theorem setQueue_blocks (s : State) (k n : Nat) (q : Queue) : (setQueue s k n q).blocks = s.blocks := rfl
@[simp] theorem setQueue_gangs (s : State) (k n : Nat) (q : Queue) : (setQueue s k n q).gangs = s.gangs := rfl
@[simp] theorem setQueue_nextUid (s : State) (k n : Nat) (q : Queue) : (setQueue s k n q).nextUid = s.nextUid := rfl
@[simp] theorem setQueue_ops (s : State) (k n : Nat) (q : Queue) : (setQueue s k n q).ops = s.ops := rfl
@[simp] theorem setQueue_transit (s : State) (k n : Nat) (q : Queue) : (setQueue s k n q).transit = s.transit := rfl
@[simp] theorem setQueue_mem (s : State) (k n : Nat) (q : Queue) : (setQueue s k n q).mem = s.mem := rfl
@[simp] theorem setQueue_hostMem (s : State) (k n : Nat) (q : Queue) : (setQueue s k n q).hostMem = s.hostMem := rfl
@[simp] theorem setQueue_peerMem (s : State) (k n : Nat) (q : Queue) : (setQueue s k n q).peerMem = s.peerMem := rfl
@[simp] theorem setQueue_memPois (s : State) (k n : Nat) (q : Queue) : (setQueue s k n q).memPois = s.memPois := rfl
@[simp] theorem setQueue_scopes (s : State) (k n : Nat) (q : Queue) : (setQueue s k n q).scopes = s.scopes := rfl

/-! ### modQueue -/

@[simp] theorem modQueue_agenda (s : State) (k n : Nat) (f : Queue → Queue) : (modQueue s k n f).agenda = s.agenda := rfl
@[simp] theorem modQueue_fresh (s : State) (k n : Nat) (f : Queue → Queue) : (modQueue s k n f).fresh = s.fresh := rfl
@[simp] theorem modQueue_serial (s : State) (k n : Nat) (f : Queue → Queue) : (modQueue s k n f).serial = s.serial := rfl
@[simp] theorem modQueue_sel (s : State) (k n : Nat) (f : Queue → Queue) : (modQueue s k n f).sel = s.sel := rfl
@[simp] theorem modQueue_gtime (s : State) (k n : Nat) (f : Queue → Queue) : (modQueue s k n f).gtime = s.gtime := rfl
@[simp] theorem modQueue_gmark (s : State) (k n : Nat) (f : Queue → Queue) : (modQueue s k n f).gmark = s.gmark := rfl
@[simp] theorem modQueue_dev (s : State) (k n : Nat) (f : Queue → Queue) : (modQueue s k n f).dev = s.dev := rfl
@[simp] theorem modQueue_cores (s : State) (k n : Nat) (f : Queue → Queue) : (modQueue s k n f).cores = s.cores := rfl
@[simp] theorem modQueue_courses (s : State) (k n : Nat) (f : Queue → Queue) : (modQueue s k n f).courses = s.courses := rfl
@[simp] theorem modQueue_piers (s : State) (k n : Nat) (f : Queue → Queue) : (modQueue s k n f).piers = s.piers := rfl
@[simp] theorem modQueue_ctxs (s : State) (k n : Nat) (f : Queue → Queue) : (modQueue s k n f).ctxs = s.ctxs := rfl
@[simp] theorem modQueue_routes (s : State) (k n : Nat) (f : Queue → Queue) : (modQueue s k n f).routes = s.routes := rfl
@[simp] theorem modQueue_grids (s : State) (k n : Nat) (f : Queue → Queue) : (modQueue s k n f).grids = s.grids := rfl
@[simp] theorem modQueue_blocks (s : State) (k n : Nat) (f : Queue → Queue) : (modQueue s k n f).blocks = s.blocks := rfl
@[simp] theorem modQueue_gangs (s : State) (k n : Nat) (f : Queue → Queue) : (modQueue s k n f).gangs = s.gangs := rfl
@[simp] theorem modQueue_nextUid (s : State) (k n : Nat) (f : Queue → Queue) : (modQueue s k n f).nextUid = s.nextUid := rfl
@[simp] theorem modQueue_ops (s : State) (k n : Nat) (f : Queue → Queue) : (modQueue s k n f).ops = s.ops := rfl
@[simp] theorem modQueue_transit (s : State) (k n : Nat) (f : Queue → Queue) : (modQueue s k n f).transit = s.transit := rfl
@[simp] theorem modQueue_mem (s : State) (k n : Nat) (f : Queue → Queue) : (modQueue s k n f).mem = s.mem := rfl
@[simp] theorem modQueue_hostMem (s : State) (k n : Nat) (f : Queue → Queue) : (modQueue s k n f).hostMem = s.hostMem := rfl
@[simp] theorem modQueue_peerMem (s : State) (k n : Nat) (f : Queue → Queue) : (modQueue s k n f).peerMem = s.peerMem := rfl
@[simp] theorem modQueue_memPois (s : State) (k n : Nat) (f : Queue → Queue) : (modQueue s k n f).memPois = s.memPois := rfl
@[simp] theorem modQueue_scopes (s : State) (k n : Nat) (f : Queue → Queue) : (modQueue s k n f).scopes = s.scopes := rfl

/-! ### setBlock -/

@[simp] theorem setBlock_agenda (s : State) (b : Block) : (setBlock s b).agenda = s.agenda := rfl
@[simp] theorem setBlock_fresh (s : State) (b : Block) : (setBlock s b).fresh = s.fresh := rfl
@[simp] theorem setBlock_serial (s : State) (b : Block) : (setBlock s b).serial = s.serial := rfl
@[simp] theorem setBlock_sel (s : State) (b : Block) : (setBlock s b).sel = s.sel := rfl
@[simp] theorem setBlock_gtime (s : State) (b : Block) : (setBlock s b).gtime = s.gtime := rfl
@[simp] theorem setBlock_gmark (s : State) (b : Block) : (setBlock s b).gmark = s.gmark := rfl
@[simp] theorem setBlock_dev (s : State) (b : Block) : (setBlock s b).dev = s.dev := rfl
@[simp] theorem setBlock_cores (s : State) (b : Block) : (setBlock s b).cores = s.cores := rfl
@[simp] theorem setBlock_courses (s : State) (b : Block) : (setBlock s b).courses = s.courses := rfl
@[simp] theorem setBlock_piers (s : State) (b : Block) : (setBlock s b).piers = s.piers := rfl
@[simp] theorem setBlock_parts (s : State) (b : Block) : (setBlock s b).parts = s.parts := rfl
@[simp] theorem setBlock_ctxs (s : State) (b : Block) : (setBlock s b).ctxs = s.ctxs := rfl
@[simp] theorem setBlock_routes (s : State) (b : Block) : (setBlock s b).routes = s.routes := rfl
@[simp] theorem setBlock_grids (s : State) (b : Block) : (setBlock s b).grids = s.grids := rfl
@[simp] theorem setBlock_gangs (s : State) (b : Block) : (setBlock s b).gangs = s.gangs := rfl
@[simp] theorem setBlock_nextUid (s : State) (b : Block) : (setBlock s b).nextUid = s.nextUid := rfl
@[simp] theorem setBlock_ops (s : State) (b : Block) : (setBlock s b).ops = s.ops := rfl
@[simp] theorem setBlock_transit (s : State) (b : Block) : (setBlock s b).transit = s.transit := rfl
@[simp] theorem setBlock_mem (s : State) (b : Block) : (setBlock s b).mem = s.mem := rfl
@[simp] theorem setBlock_hostMem (s : State) (b : Block) : (setBlock s b).hostMem = s.hostMem := rfl
@[simp] theorem setBlock_peerMem (s : State) (b : Block) : (setBlock s b).peerMem = s.peerMem := rfl
@[simp] theorem setBlock_memPois (s : State) (b : Block) : (setBlock s b).memPois = s.memPois := rfl
@[simp] theorem setBlock_scopes (s : State) (b : Block) : (setBlock s b).scopes = s.scopes := rfl

/-! ### modDev -/

@[simp] theorem modDev_agenda (s : State) (f : Dev → Dev) : (modDev s f).agenda = s.agenda := rfl
@[simp] theorem modDev_fresh (s : State) (f : Dev → Dev) : (modDev s f).fresh = s.fresh := rfl
@[simp] theorem modDev_serial (s : State) (f : Dev → Dev) : (modDev s f).serial = s.serial := rfl
@[simp] theorem modDev_sel (s : State) (f : Dev → Dev) : (modDev s f).sel = s.sel := rfl
@[simp] theorem modDev_gtime (s : State) (f : Dev → Dev) : (modDev s f).gtime = s.gtime := rfl
@[simp] theorem modDev_gmark (s : State) (f : Dev → Dev) : (modDev s f).gmark = s.gmark := rfl
@[simp] theorem modDev_cores (s : State) (f : Dev → Dev) : (modDev s f).cores = s.cores := rfl
@[simp] theorem modDev_courses (s : State) (f : Dev → Dev) : (modDev s f).courses = s.courses := rfl
@[simp] theorem modDev_piers (s : State) (f : Dev → Dev) : (modDev s f).piers = s.piers := rfl
@[simp] theorem modDev_parts (s : State) (f : Dev → Dev) : (modDev s f).parts = s.parts := rfl
@[simp] theorem modDev_ctxs (s : State) (f : Dev → Dev) : (modDev s f).ctxs = s.ctxs := rfl
@[simp] theorem modDev_routes (s : State) (f : Dev → Dev) : (modDev s f).routes = s.routes := rfl
@[simp] theorem modDev_grids (s : State) (f : Dev → Dev) : (modDev s f).grids = s.grids := rfl
@[simp] theorem modDev_blocks (s : State) (f : Dev → Dev) : (modDev s f).blocks = s.blocks := rfl
@[simp] theorem modDev_gangs (s : State) (f : Dev → Dev) : (modDev s f).gangs = s.gangs := rfl
@[simp] theorem modDev_nextUid (s : State) (f : Dev → Dev) : (modDev s f).nextUid = s.nextUid := rfl
@[simp] theorem modDev_ops (s : State) (f : Dev → Dev) : (modDev s f).ops = s.ops := rfl
@[simp] theorem modDev_transit (s : State) (f : Dev → Dev) : (modDev s f).transit = s.transit := rfl
@[simp] theorem modDev_mem (s : State) (f : Dev → Dev) : (modDev s f).mem = s.mem := rfl
@[simp] theorem modDev_hostMem (s : State) (f : Dev → Dev) : (modDev s f).hostMem = s.hostMem := rfl
@[simp] theorem modDev_peerMem (s : State) (f : Dev → Dev) : (modDev s f).peerMem = s.peerMem := rfl
@[simp] theorem modDev_memPois (s : State) (f : Dev → Dev) : (modDev s f).memPois = s.memPois := rfl
@[simp] theorem modDev_scopes (s : State) (f : Dev → Dev) : (modDev s f).scopes = s.scopes := rfl

/-! ### modGrid -/

@[simp] theorem modGrid_agenda (s : State) (k n i : Nat) (f : Grid → Grid) : (modGrid s k n i f).agenda = s.agenda := rfl
@[simp] theorem modGrid_fresh (s : State) (k n i : Nat) (f : Grid → Grid) : (modGrid s k n i f).fresh = s.fresh := rfl
@[simp] theorem modGrid_serial (s : State) (k n i : Nat) (f : Grid → Grid) : (modGrid s k n i f).serial = s.serial := rfl
@[simp] theorem modGrid_sel (s : State) (k n i : Nat) (f : Grid → Grid) : (modGrid s k n i f).sel = s.sel := rfl
@[simp] theorem modGrid_gtime (s : State) (k n i : Nat) (f : Grid → Grid) : (modGrid s k n i f).gtime = s.gtime := rfl
@[simp] theorem modGrid_gmark (s : State) (k n i : Nat) (f : Grid → Grid) : (modGrid s k n i f).gmark = s.gmark := rfl
@[simp] theorem modGrid_dev (s : State) (k n i : Nat) (f : Grid → Grid) : (modGrid s k n i f).dev = s.dev := rfl
@[simp] theorem modGrid_cores (s : State) (k n i : Nat) (f : Grid → Grid) : (modGrid s k n i f).cores = s.cores := rfl
@[simp] theorem modGrid_courses (s : State) (k n i : Nat) (f : Grid → Grid) : (modGrid s k n i f).courses = s.courses := rfl
@[simp] theorem modGrid_piers (s : State) (k n i : Nat) (f : Grid → Grid) : (modGrid s k n i f).piers = s.piers := rfl
@[simp] theorem modGrid_parts (s : State) (k n i : Nat) (f : Grid → Grid) : (modGrid s k n i f).parts = s.parts := rfl
@[simp] theorem modGrid_ctxs (s : State) (k n i : Nat) (f : Grid → Grid) : (modGrid s k n i f).ctxs = s.ctxs := rfl
@[simp] theorem modGrid_routes (s : State) (k n i : Nat) (f : Grid → Grid) : (modGrid s k n i f).routes = s.routes := rfl
@[simp] theorem modGrid_blocks (s : State) (k n i : Nat) (f : Grid → Grid) : (modGrid s k n i f).blocks = s.blocks := rfl
@[simp] theorem modGrid_gangs (s : State) (k n i : Nat) (f : Grid → Grid) : (modGrid s k n i f).gangs = s.gangs := rfl
@[simp] theorem modGrid_nextUid (s : State) (k n i : Nat) (f : Grid → Grid) : (modGrid s k n i f).nextUid = s.nextUid := rfl
@[simp] theorem modGrid_ops (s : State) (k n i : Nat) (f : Grid → Grid) : (modGrid s k n i f).ops = s.ops := rfl
@[simp] theorem modGrid_transit (s : State) (k n i : Nat) (f : Grid → Grid) : (modGrid s k n i f).transit = s.transit := rfl
@[simp] theorem modGrid_mem (s : State) (k n i : Nat) (f : Grid → Grid) : (modGrid s k n i f).mem = s.mem := rfl
@[simp] theorem modGrid_hostMem (s : State) (k n i : Nat) (f : Grid → Grid) : (modGrid s k n i f).hostMem = s.hostMem := rfl
@[simp] theorem modGrid_peerMem (s : State) (k n i : Nat) (f : Grid → Grid) : (modGrid s k n i f).peerMem = s.peerMem := rfl
@[simp] theorem modGrid_memPois (s : State) (k n i : Nat) (f : Grid → Grid) : (modGrid s k n i f).memPois = s.memPois := rfl
@[simp] theorem modGrid_scopes (s : State) (k n i : Nat) (f : Grid → Grid) : (modGrid s k n i f).scopes = s.scopes := rfl

/-! ### modGridOf -/

@[simp] theorem modGridOf_agenda (s : State) (b : Block) (f : Grid → Grid) : (modGridOf s b f).agenda = s.agenda := rfl
@[simp] theorem modGridOf_fresh (s : State) (b : Block) (f : Grid → Grid) : (modGridOf s b f).fresh = s.fresh := rfl
@[simp] theorem modGridOf_serial (s : State) (b : Block) (f : Grid → Grid) : (modGridOf s b f).serial = s.serial := rfl
@[simp] theorem modGridOf_sel (s : State) (b : Block) (f : Grid → Grid) : (modGridOf s b f).sel = s.sel := rfl
@[simp] theorem modGridOf_gtime (s : State) (b : Block) (f : Grid → Grid) : (modGridOf s b f).gtime = s.gtime := rfl
@[simp] theorem modGridOf_gmark (s : State) (b : Block) (f : Grid → Grid) : (modGridOf s b f).gmark = s.gmark := rfl
@[simp] theorem modGridOf_dev (s : State) (b : Block) (f : Grid → Grid) : (modGridOf s b f).dev = s.dev := rfl
@[simp] theorem modGridOf_cores (s : State) (b : Block) (f : Grid → Grid) : (modGridOf s b f).cores = s.cores := rfl
@[simp] theorem modGridOf_courses (s : State) (b : Block) (f : Grid → Grid) : (modGridOf s b f).courses = s.courses := rfl
@[simp] theorem modGridOf_piers (s : State) (b : Block) (f : Grid → Grid) : (modGridOf s b f).piers = s.piers := rfl
@[simp] theorem modGridOf_parts (s : State) (b : Block) (f : Grid → Grid) : (modGridOf s b f).parts = s.parts := rfl
@[simp] theorem modGridOf_ctxs (s : State) (b : Block) (f : Grid → Grid) : (modGridOf s b f).ctxs = s.ctxs := rfl
@[simp] theorem modGridOf_routes (s : State) (b : Block) (f : Grid → Grid) : (modGridOf s b f).routes = s.routes := rfl
@[simp] theorem modGridOf_blocks (s : State) (b : Block) (f : Grid → Grid) : (modGridOf s b f).blocks = s.blocks := rfl
@[simp] theorem modGridOf_gangs (s : State) (b : Block) (f : Grid → Grid) : (modGridOf s b f).gangs = s.gangs := rfl
@[simp] theorem modGridOf_nextUid (s : State) (b : Block) (f : Grid → Grid) : (modGridOf s b f).nextUid = s.nextUid := rfl
@[simp] theorem modGridOf_ops (s : State) (b : Block) (f : Grid → Grid) : (modGridOf s b f).ops = s.ops := rfl
@[simp] theorem modGridOf_transit (s : State) (b : Block) (f : Grid → Grid) : (modGridOf s b f).transit = s.transit := rfl
@[simp] theorem modGridOf_mem (s : State) (b : Block) (f : Grid → Grid) : (modGridOf s b f).mem = s.mem := rfl
@[simp] theorem modGridOf_hostMem (s : State) (b : Block) (f : Grid → Grid) : (modGridOf s b f).hostMem = s.hostMem := rfl
@[simp] theorem modGridOf_peerMem (s : State) (b : Block) (f : Grid → Grid) : (modGridOf s b f).peerMem = s.peerMem := rfl
@[simp] theorem modGridOf_memPois (s : State) (b : Block) (f : Grid → Grid) : (modGridOf s b f).memPois = s.memPois := rfl
@[simp] theorem modGridOf_scopes (s : State) (b : Block) (f : Grid → Grid) : (modGridOf s b f).scopes = s.scopes := rfl

/-! ### bump -/

@[simp] theorem bump_agenda (s : State) : (bump s ).agenda = s.agenda := rfl
@[simp] theorem bump_fresh (s : State) : (bump s ).fresh = s.fresh := rfl
@[simp] theorem bump_sel (s : State) : (bump s ).sel = s.sel := rfl
@[simp] theorem bump_gtime (s : State) : (bump s ).gtime = s.gtime := rfl
@[simp] theorem bump_gmark (s : State) : (bump s ).gmark = s.gmark := rfl
@[simp] theorem bump_dev (s : State) : (bump s ).dev = s.dev := rfl
@[simp] theorem bump_cores (s : State) : (bump s ).cores = s.cores := rfl
@[simp] theorem bump_courses (s : State) : (bump s ).courses = s.courses := rfl
@[simp] theorem bump_piers (s : State) : (bump s ).piers = s.piers := rfl
@[simp] theorem bump_parts (s : State) : (bump s ).parts = s.parts := rfl
@[simp] theorem bump_ctxs (s : State) : (bump s ).ctxs = s.ctxs := rfl
@[simp] theorem bump_routes (s : State) : (bump s ).routes = s.routes := rfl
@[simp] theorem bump_grids (s : State) : (bump s ).grids = s.grids := rfl
@[simp] theorem bump_blocks (s : State) : (bump s ).blocks = s.blocks := rfl
@[simp] theorem bump_gangs (s : State) : (bump s ).gangs = s.gangs := rfl
@[simp] theorem bump_nextUid (s : State) : (bump s ).nextUid = s.nextUid := rfl
@[simp] theorem bump_ops (s : State) : (bump s ).ops = s.ops := rfl
@[simp] theorem bump_transit (s : State) : (bump s ).transit = s.transit := rfl
@[simp] theorem bump_mem (s : State) : (bump s ).mem = s.mem := rfl
@[simp] theorem bump_hostMem (s : State) : (bump s ).hostMem = s.hostMem := rfl
@[simp] theorem bump_peerMem (s : State) : (bump s ).peerMem = s.peerMem := rfl
@[simp] theorem bump_memPois (s : State) : (bump s ).memPois = s.memPois := rfl
@[simp] theorem bump_scopes (s : State) : (bump s ).scopes = s.scopes := rfl

/-! ### waitL -/

@[simp] theorem waitL_agenda (s : State) : (waitL s ).agenda = s.agenda := rfl
@[simp] theorem waitL_fresh (s : State) : (waitL s ).fresh = s.fresh := rfl
@[simp] theorem waitL_serial (s : State) : (waitL s ).serial = s.serial := rfl
@[simp] theorem waitL_gtime (s : State) : (waitL s ).gtime = s.gtime := rfl
@[simp] theorem waitL_gmark (s : State) : (waitL s ).gmark = s.gmark := rfl
@[simp] theorem waitL_dev (s : State) : (waitL s ).dev = s.dev := rfl
@[simp] theorem waitL_cores (s : State) : (waitL s ).cores = s.cores := rfl
@[simp] theorem waitL_courses (s : State) : (waitL s ).courses = s.courses := rfl
@[simp] theorem waitL_piers (s : State) : (waitL s ).piers = s.piers := rfl
@[simp] theorem waitL_parts (s : State) : (waitL s ).parts = s.parts := rfl
@[simp] theorem waitL_ctxs (s : State) : (waitL s ).ctxs = s.ctxs := rfl
@[simp] theorem waitL_routes (s : State) : (waitL s ).routes = s.routes := rfl
@[simp] theorem waitL_grids (s : State) : (waitL s ).grids = s.grids := rfl
@[simp] theorem waitL_blocks (s : State) : (waitL s ).blocks = s.blocks := rfl
@[simp] theorem waitL_gangs (s : State) : (waitL s ).gangs = s.gangs := rfl
@[simp] theorem waitL_nextUid (s : State) : (waitL s ).nextUid = s.nextUid := rfl
@[simp] theorem waitL_ops (s : State) : (waitL s ).ops = s.ops := rfl
@[simp] theorem waitL_transit (s : State) : (waitL s ).transit = s.transit := rfl
@[simp] theorem waitL_mem (s : State) : (waitL s ).mem = s.mem := rfl
@[simp] theorem waitL_hostMem (s : State) : (waitL s ).hostMem = s.hostMem := rfl
@[simp] theorem waitL_peerMem (s : State) : (waitL s ).peerMem = s.peerMem := rfl
@[simp] theorem waitL_memPois (s : State) : (waitL s ).memPois = s.memPois := rfl
@[simp] theorem waitL_scopes (s : State) : (waitL s ).scopes = s.scopes := rfl

/-! ### setPois -/

@[simp] theorem setPois_agenda (s : State) (g : Nat) (p : Bool) : (setPois s g p).agenda = s.agenda := rfl
@[simp] theorem setPois_fresh (s : State) (g : Nat) (p : Bool) : (setPois s g p).fresh = s.fresh := rfl
@[simp] theorem setPois_serial (s : State) (g : Nat) (p : Bool) : (setPois s g p).serial = s.serial := rfl
@[simp] theorem setPois_sel (s : State) (g : Nat) (p : Bool) : (setPois s g p).sel = s.sel := rfl
@[simp] theorem setPois_gtime (s : State) (g : Nat) (p : Bool) : (setPois s g p).gtime = s.gtime := rfl
@[simp] theorem setPois_gmark (s : State) (g : Nat) (p : Bool) : (setPois s g p).gmark = s.gmark := rfl
@[simp] theorem setPois_dev (s : State) (g : Nat) (p : Bool) : (setPois s g p).dev = s.dev := rfl
@[simp] theorem setPois_cores (s : State) (g : Nat) (p : Bool) : (setPois s g p).cores = s.cores := rfl
@[simp] theorem setPois_courses (s : State) (g : Nat) (p : Bool) : (setPois s g p).courses = s.courses := rfl
@[simp] theorem setPois_piers (s : State) (g : Nat) (p : Bool) : (setPois s g p).piers = s.piers := rfl
@[simp] theorem setPois_parts (s : State) (g : Nat) (p : Bool) : (setPois s g p).parts = s.parts := rfl
@[simp] theorem setPois_ctxs (s : State) (g : Nat) (p : Bool) : (setPois s g p).ctxs = s.ctxs := rfl
@[simp] theorem setPois_routes (s : State) (g : Nat) (p : Bool) : (setPois s g p).routes = s.routes := rfl
@[simp] theorem setPois_grids (s : State) (g : Nat) (p : Bool) : (setPois s g p).grids = s.grids := rfl
@[simp] theorem setPois_blocks (s : State) (g : Nat) (p : Bool) : (setPois s g p).blocks = s.blocks := rfl
@[simp] theorem setPois_gangs (s : State) (g : Nat) (p : Bool) : (setPois s g p).gangs = s.gangs := rfl
@[simp] theorem setPois_nextUid (s : State) (g : Nat) (p : Bool) : (setPois s g p).nextUid = s.nextUid := rfl
@[simp] theorem setPois_ops (s : State) (g : Nat) (p : Bool) : (setPois s g p).ops = s.ops := rfl
@[simp] theorem setPois_transit (s : State) (g : Nat) (p : Bool) : (setPois s g p).transit = s.transit := rfl
@[simp] theorem setPois_mem (s : State) (g : Nat) (p : Bool) : (setPois s g p).mem = s.mem := rfl
@[simp] theorem setPois_hostMem (s : State) (g : Nat) (p : Bool) : (setPois s g p).hostMem = s.hostMem := rfl
@[simp] theorem setPois_peerMem (s : State) (g : Nat) (p : Bool) : (setPois s g p).peerMem = s.peerMem := rfl
@[simp] theorem setPois_scopes (s : State) (g : Nat) (p : Bool) : (setPois s g p).scopes = s.scopes := rfl

/-! ### dropL1Line -/

@[simp] theorem dropL1Line_agenda (s : State) (c line : Nat) : (dropL1Line s c line).agenda = s.agenda := rfl
@[simp] theorem dropL1Line_fresh (s : State) (c line : Nat) : (dropL1Line s c line).fresh = s.fresh := rfl
@[simp] theorem dropL1Line_serial (s : State) (c line : Nat) : (dropL1Line s c line).serial = s.serial := rfl
@[simp] theorem dropL1Line_sel (s : State) (c line : Nat) : (dropL1Line s c line).sel = s.sel := rfl
@[simp] theorem dropL1Line_gtime (s : State) (c line : Nat) : (dropL1Line s c line).gtime = s.gtime := rfl
@[simp] theorem dropL1Line_gmark (s : State) (c line : Nat) : (dropL1Line s c line).gmark = s.gmark := rfl
@[simp] theorem dropL1Line_dev (s : State) (c line : Nat) : (dropL1Line s c line).dev = s.dev := rfl
@[simp] theorem dropL1Line_courses (s : State) (c line : Nat) : (dropL1Line s c line).courses = s.courses := rfl
@[simp] theorem dropL1Line_piers (s : State) (c line : Nat) : (dropL1Line s c line).piers = s.piers := rfl
@[simp] theorem dropL1Line_parts (s : State) (c line : Nat) : (dropL1Line s c line).parts = s.parts := rfl
@[simp] theorem dropL1Line_ctxs (s : State) (c line : Nat) : (dropL1Line s c line).ctxs = s.ctxs := rfl
@[simp] theorem dropL1Line_routes (s : State) (c line : Nat) : (dropL1Line s c line).routes = s.routes := rfl
@[simp] theorem dropL1Line_grids (s : State) (c line : Nat) : (dropL1Line s c line).grids = s.grids := rfl
@[simp] theorem dropL1Line_blocks (s : State) (c line : Nat) : (dropL1Line s c line).blocks = s.blocks := rfl
@[simp] theorem dropL1Line_gangs (s : State) (c line : Nat) : (dropL1Line s c line).gangs = s.gangs := rfl
@[simp] theorem dropL1Line_nextUid (s : State) (c line : Nat) : (dropL1Line s c line).nextUid = s.nextUid := rfl
@[simp] theorem dropL1Line_ops (s : State) (c line : Nat) : (dropL1Line s c line).ops = s.ops := rfl
@[simp] theorem dropL1Line_transit (s : State) (c line : Nat) : (dropL1Line s c line).transit = s.transit := rfl
@[simp] theorem dropL1Line_mem (s : State) (c line : Nat) : (dropL1Line s c line).mem = s.mem := rfl
@[simp] theorem dropL1Line_hostMem (s : State) (c line : Nat) : (dropL1Line s c line).hostMem = s.hostMem := rfl
@[simp] theorem dropL1Line_peerMem (s : State) (c line : Nat) : (dropL1Line s c line).peerMem = s.peerMem := rfl
@[simp] theorem dropL1Line_memPois (s : State) (c line : Nat) : (dropL1Line s c line).memPois = s.memPois := rfl
@[simp] theorem dropL1Line_scopes (s : State) (c line : Nat) : (dropL1Line s c line).scopes = s.scopes := rfl

/-! ### modBlock -/

@[simp] theorem modBlock_agenda (s : State) (b : Nat) (f : Block → Block) : (modBlock s b f).agenda = s.agenda := by unfold modBlock; split <;> rfl
@[simp] theorem modBlock_fresh (s : State) (b : Nat) (f : Block → Block) : (modBlock s b f).fresh = s.fresh := by unfold modBlock; split <;> rfl
@[simp] theorem modBlock_serial (s : State) (b : Nat) (f : Block → Block) : (modBlock s b f).serial = s.serial := by unfold modBlock; split <;> rfl
@[simp] theorem modBlock_sel (s : State) (b : Nat) (f : Block → Block) : (modBlock s b f).sel = s.sel := by unfold modBlock; split <;> rfl
@[simp] theorem modBlock_gtime (s : State) (b : Nat) (f : Block → Block) : (modBlock s b f).gtime = s.gtime := by unfold modBlock; split <;> rfl
@[simp] theorem modBlock_gmark (s : State) (b : Nat) (f : Block → Block) : (modBlock s b f).gmark = s.gmark := by unfold modBlock; split <;> rfl
@[simp] theorem modBlock_dev (s : State) (b : Nat) (f : Block → Block) : (modBlock s b f).dev = s.dev := by unfold modBlock; split <;> rfl
@[simp] theorem modBlock_cores (s : State) (b : Nat) (f : Block → Block) : (modBlock s b f).cores = s.cores := by unfold modBlock; split <;> rfl
@[simp] theorem modBlock_courses (s : State) (b : Nat) (f : Block → Block) : (modBlock s b f).courses = s.courses := by unfold modBlock; split <;> rfl
@[simp] theorem modBlock_piers (s : State) (b : Nat) (f : Block → Block) : (modBlock s b f).piers = s.piers := by unfold modBlock; split <;> rfl
@[simp] theorem modBlock_parts (s : State) (b : Nat) (f : Block → Block) : (modBlock s b f).parts = s.parts := by unfold modBlock; split <;> rfl
@[simp] theorem modBlock_ctxs (s : State) (b : Nat) (f : Block → Block) : (modBlock s b f).ctxs = s.ctxs := by unfold modBlock; split <;> rfl
@[simp] theorem modBlock_routes (s : State) (b : Nat) (f : Block → Block) : (modBlock s b f).routes = s.routes := by unfold modBlock; split <;> rfl
@[simp] theorem modBlock_grids (s : State) (b : Nat) (f : Block → Block) : (modBlock s b f).grids = s.grids := by unfold modBlock; split <;> rfl
@[simp] theorem modBlock_gangs (s : State) (b : Nat) (f : Block → Block) : (modBlock s b f).gangs = s.gangs := by unfold modBlock; split <;> rfl
@[simp] theorem modBlock_nextUid (s : State) (b : Nat) (f : Block → Block) : (modBlock s b f).nextUid = s.nextUid := by unfold modBlock; split <;> rfl
@[simp] theorem modBlock_ops (s : State) (b : Nat) (f : Block → Block) : (modBlock s b f).ops = s.ops := by unfold modBlock; split <;> rfl
@[simp] theorem modBlock_transit (s : State) (b : Nat) (f : Block → Block) : (modBlock s b f).transit = s.transit := by unfold modBlock; split <;> rfl
@[simp] theorem modBlock_mem (s : State) (b : Nat) (f : Block → Block) : (modBlock s b f).mem = s.mem := by unfold modBlock; split <;> rfl
@[simp] theorem modBlock_hostMem (s : State) (b : Nat) (f : Block → Block) : (modBlock s b f).hostMem = s.hostMem := by unfold modBlock; split <;> rfl
@[simp] theorem modBlock_peerMem (s : State) (b : Nat) (f : Block → Block) : (modBlock s b f).peerMem = s.peerMem := by unfold modBlock; split <;> rfl
@[simp] theorem modBlock_memPois (s : State) (b : Nat) (f : Block → Block) : (modBlock s b f).memPois = s.memPois := by unfold modBlock; split <;> rfl
@[simp] theorem modBlock_scopes (s : State) (b : Nat) (f : Block → Block) : (modBlock s b f).scopes = s.scopes := by unfold modBlock; split <;> rfl

/-! ### setWarp -/

@[simp] theorem setWarp_agenda (s : State) (b : Nat) (w : Warp) : (setWarp s b w).agenda = s.agenda := by simp [setWarp]
@[simp] theorem setWarp_fresh (s : State) (b : Nat) (w : Warp) : (setWarp s b w).fresh = s.fresh := by simp [setWarp]
@[simp] theorem setWarp_serial (s : State) (b : Nat) (w : Warp) : (setWarp s b w).serial = s.serial := by simp [setWarp]
@[simp] theorem setWarp_sel (s : State) (b : Nat) (w : Warp) : (setWarp s b w).sel = s.sel := by simp [setWarp]
@[simp] theorem setWarp_gtime (s : State) (b : Nat) (w : Warp) : (setWarp s b w).gtime = s.gtime := by simp [setWarp]
@[simp] theorem setWarp_gmark (s : State) (b : Nat) (w : Warp) : (setWarp s b w).gmark = s.gmark := by simp [setWarp]
@[simp] theorem setWarp_dev (s : State) (b : Nat) (w : Warp) : (setWarp s b w).dev = s.dev := by simp [setWarp]
@[simp] theorem setWarp_cores (s : State) (b : Nat) (w : Warp) : (setWarp s b w).cores = s.cores := by simp [setWarp]
@[simp] theorem setWarp_courses (s : State) (b : Nat) (w : Warp) : (setWarp s b w).courses = s.courses := by simp [setWarp]
@[simp] theorem setWarp_piers (s : State) (b : Nat) (w : Warp) : (setWarp s b w).piers = s.piers := by simp [setWarp]
@[simp] theorem setWarp_parts (s : State) (b : Nat) (w : Warp) : (setWarp s b w).parts = s.parts := by simp [setWarp]
@[simp] theorem setWarp_ctxs (s : State) (b : Nat) (w : Warp) : (setWarp s b w).ctxs = s.ctxs := by simp [setWarp]
@[simp] theorem setWarp_routes (s : State) (b : Nat) (w : Warp) : (setWarp s b w).routes = s.routes := by simp [setWarp]
@[simp] theorem setWarp_grids (s : State) (b : Nat) (w : Warp) : (setWarp s b w).grids = s.grids := by simp [setWarp]
@[simp] theorem setWarp_gangs (s : State) (b : Nat) (w : Warp) : (setWarp s b w).gangs = s.gangs := by simp [setWarp]
@[simp] theorem setWarp_nextUid (s : State) (b : Nat) (w : Warp) : (setWarp s b w).nextUid = s.nextUid := by simp [setWarp]
@[simp] theorem setWarp_ops (s : State) (b : Nat) (w : Warp) : (setWarp s b w).ops = s.ops := by simp [setWarp]
@[simp] theorem setWarp_transit (s : State) (b : Nat) (w : Warp) : (setWarp s b w).transit = s.transit := by simp [setWarp]
@[simp] theorem setWarp_mem (s : State) (b : Nat) (w : Warp) : (setWarp s b w).mem = s.mem := by simp [setWarp]
@[simp] theorem setWarp_hostMem (s : State) (b : Nat) (w : Warp) : (setWarp s b w).hostMem = s.hostMem := by simp [setWarp]
@[simp] theorem setWarp_peerMem (s : State) (b : Nat) (w : Warp) : (setWarp s b w).peerMem = s.peerMem := by simp [setWarp]
@[simp] theorem setWarp_memPois (s : State) (b : Nat) (w : Warp) : (setWarp s b w).memPois = s.memPois := by simp [setWarp]
@[simp] theorem setWarp_scopes (s : State) (b : Nat) (w : Warp) : (setWarp s b w).scopes = s.scopes := by simp [setWarp]

/-! ### modWarp -/

@[simp] theorem modWarp_agenda (s : State) (b w : Nat) (f : Warp → Warp) : (modWarp s b w f).agenda = s.agenda := by unfold modWarp; split <;> simp
@[simp] theorem modWarp_fresh (s : State) (b w : Nat) (f : Warp → Warp) : (modWarp s b w f).fresh = s.fresh := by unfold modWarp; split <;> simp
@[simp] theorem modWarp_serial (s : State) (b w : Nat) (f : Warp → Warp) : (modWarp s b w f).serial = s.serial := by unfold modWarp; split <;> simp
@[simp] theorem modWarp_sel (s : State) (b w : Nat) (f : Warp → Warp) : (modWarp s b w f).sel = s.sel := by unfold modWarp; split <;> simp
@[simp] theorem modWarp_gtime (s : State) (b w : Nat) (f : Warp → Warp) : (modWarp s b w f).gtime = s.gtime := by unfold modWarp; split <;> simp
@[simp] theorem modWarp_gmark (s : State) (b w : Nat) (f : Warp → Warp) : (modWarp s b w f).gmark = s.gmark := by unfold modWarp; split <;> simp
@[simp] theorem modWarp_dev (s : State) (b w : Nat) (f : Warp → Warp) : (modWarp s b w f).dev = s.dev := by unfold modWarp; split <;> simp
@[simp] theorem modWarp_cores (s : State) (b w : Nat) (f : Warp → Warp) : (modWarp s b w f).cores = s.cores := by unfold modWarp; split <;> simp
@[simp] theorem modWarp_courses (s : State) (b w : Nat) (f : Warp → Warp) : (modWarp s b w f).courses = s.courses := by unfold modWarp; split <;> simp
@[simp] theorem modWarp_piers (s : State) (b w : Nat) (f : Warp → Warp) : (modWarp s b w f).piers = s.piers := by unfold modWarp; split <;> simp
@[simp] theorem modWarp_parts (s : State) (b w : Nat) (f : Warp → Warp) : (modWarp s b w f).parts = s.parts := by unfold modWarp; split <;> simp
@[simp] theorem modWarp_ctxs (s : State) (b w : Nat) (f : Warp → Warp) : (modWarp s b w f).ctxs = s.ctxs := by unfold modWarp; split <;> simp
@[simp] theorem modWarp_routes (s : State) (b w : Nat) (f : Warp → Warp) : (modWarp s b w f).routes = s.routes := by unfold modWarp; split <;> simp
@[simp] theorem modWarp_grids (s : State) (b w : Nat) (f : Warp → Warp) : (modWarp s b w f).grids = s.grids := by unfold modWarp; split <;> simp
@[simp] theorem modWarp_gangs (s : State) (b w : Nat) (f : Warp → Warp) : (modWarp s b w f).gangs = s.gangs := by unfold modWarp; split <;> simp
@[simp] theorem modWarp_nextUid (s : State) (b w : Nat) (f : Warp → Warp) : (modWarp s b w f).nextUid = s.nextUid := by unfold modWarp; split <;> simp
@[simp] theorem modWarp_ops (s : State) (b w : Nat) (f : Warp → Warp) : (modWarp s b w f).ops = s.ops := by unfold modWarp; split <;> simp
@[simp] theorem modWarp_transit (s : State) (b w : Nat) (f : Warp → Warp) : (modWarp s b w f).transit = s.transit := by unfold modWarp; split <;> simp
@[simp] theorem modWarp_mem (s : State) (b w : Nat) (f : Warp → Warp) : (modWarp s b w f).mem = s.mem := by unfold modWarp; split <;> simp
@[simp] theorem modWarp_hostMem (s : State) (b w : Nat) (f : Warp → Warp) : (modWarp s b w f).hostMem = s.hostMem := by unfold modWarp; split <;> simp
@[simp] theorem modWarp_peerMem (s : State) (b w : Nat) (f : Warp → Warp) : (modWarp s b w f).peerMem = s.peerMem := by unfold modWarp; split <;> simp
@[simp] theorem modWarp_memPois (s : State) (b w : Nat) (f : Warp → Warp) : (modWarp s b w f).memPois = s.memPois := by unfold modWarp; split <;> simp
@[simp] theorem modWarp_scopes (s : State) (b w : Nat) (f : Warp → Warp) : (modWarp s b w f).scopes = s.scopes := by unfold modWarp; split <;> simp

/-! ### waitS -/

@[simp] theorem waitS_agenda (s : State) (b : Block) (w : Warp) (why : SWait) : (waitS s b w why).agenda = s.agenda := by simp [waitS]
@[simp] theorem waitS_fresh (s : State) (b : Block) (w : Warp) (why : SWait) : (waitS s b w why).fresh = s.fresh := by simp [waitS]
@[simp] theorem waitS_serial (s : State) (b : Block) (w : Warp) (why : SWait) : (waitS s b w why).serial = s.serial := by simp [waitS]
@[simp] theorem waitS_gtime (s : State) (b : Block) (w : Warp) (why : SWait) : (waitS s b w why).gtime = s.gtime := by simp [waitS]
@[simp] theorem waitS_gmark (s : State) (b : Block) (w : Warp) (why : SWait) : (waitS s b w why).gmark = s.gmark := by simp [waitS]
@[simp] theorem waitS_dev (s : State) (b : Block) (w : Warp) (why : SWait) : (waitS s b w why).dev = s.dev := by simp [waitS]
@[simp] theorem waitS_cores (s : State) (b : Block) (w : Warp) (why : SWait) : (waitS s b w why).cores = s.cores := by simp [waitS]
@[simp] theorem waitS_courses (s : State) (b : Block) (w : Warp) (why : SWait) : (waitS s b w why).courses = s.courses := by simp [waitS]
@[simp] theorem waitS_piers (s : State) (b : Block) (w : Warp) (why : SWait) : (waitS s b w why).piers = s.piers := by simp [waitS]
@[simp] theorem waitS_parts (s : State) (b : Block) (w : Warp) (why : SWait) : (waitS s b w why).parts = s.parts := by simp [waitS]
@[simp] theorem waitS_ctxs (s : State) (b : Block) (w : Warp) (why : SWait) : (waitS s b w why).ctxs = s.ctxs := by simp [waitS]
@[simp] theorem waitS_routes (s : State) (b : Block) (w : Warp) (why : SWait) : (waitS s b w why).routes = s.routes := by simp [waitS]
@[simp] theorem waitS_grids (s : State) (b : Block) (w : Warp) (why : SWait) : (waitS s b w why).grids = s.grids := by simp [waitS]
@[simp] theorem waitS_gangs (s : State) (b : Block) (w : Warp) (why : SWait) : (waitS s b w why).gangs = s.gangs := by simp [waitS]
@[simp] theorem waitS_nextUid (s : State) (b : Block) (w : Warp) (why : SWait) : (waitS s b w why).nextUid = s.nextUid := by simp [waitS]
@[simp] theorem waitS_ops (s : State) (b : Block) (w : Warp) (why : SWait) : (waitS s b w why).ops = s.ops := by simp [waitS]
@[simp] theorem waitS_transit (s : State) (b : Block) (w : Warp) (why : SWait) : (waitS s b w why).transit = s.transit := by simp [waitS]
@[simp] theorem waitS_mem (s : State) (b : Block) (w : Warp) (why : SWait) : (waitS s b w why).mem = s.mem := by simp [waitS]
@[simp] theorem waitS_hostMem (s : State) (b : Block) (w : Warp) (why : SWait) : (waitS s b w why).hostMem = s.hostMem := by simp [waitS]
@[simp] theorem waitS_peerMem (s : State) (b : Block) (w : Warp) (why : SWait) : (waitS s b w why).peerMem = s.peerMem := by simp [waitS]
@[simp] theorem waitS_memPois (s : State) (b : Block) (w : Warp) (why : SWait) : (waitS s b w why).memPois = s.memPois := by simp [waitS]
@[simp] theorem waitS_scopes (s : State) (b : Block) (w : Warp) (why : SWait) : (waitS s b w why).scopes = s.scopes := by simp [waitS]

/-! ### gWrite -/

@[simp] theorem gWrite_agenda (s : State) (l : GLoc) (b : Byte) : (gWrite s l b).agenda = s.agenda := by cases l <;> rfl
@[simp] theorem gWrite_fresh (s : State) (l : GLoc) (b : Byte) : (gWrite s l b).fresh = s.fresh := by cases l <;> rfl
@[simp] theorem gWrite_serial (s : State) (l : GLoc) (b : Byte) : (gWrite s l b).serial = s.serial := by cases l <;> rfl
@[simp] theorem gWrite_sel (s : State) (l : GLoc) (b : Byte) : (gWrite s l b).sel = s.sel := by cases l <;> rfl
@[simp] theorem gWrite_gtime (s : State) (l : GLoc) (b : Byte) : (gWrite s l b).gtime = s.gtime := by cases l <;> rfl
@[simp] theorem gWrite_gmark (s : State) (l : GLoc) (b : Byte) : (gWrite s l b).gmark = s.gmark := by cases l <;> rfl
@[simp] theorem gWrite_dev (s : State) (l : GLoc) (b : Byte) : (gWrite s l b).dev = s.dev := by cases l <;> rfl
@[simp] theorem gWrite_cores (s : State) (l : GLoc) (b : Byte) : (gWrite s l b).cores = s.cores := by cases l <;> rfl
@[simp] theorem gWrite_courses (s : State) (l : GLoc) (b : Byte) : (gWrite s l b).courses = s.courses := by cases l <;> rfl
@[simp] theorem gWrite_piers (s : State) (l : GLoc) (b : Byte) : (gWrite s l b).piers = s.piers := by cases l <;> rfl
@[simp] theorem gWrite_parts (s : State) (l : GLoc) (b : Byte) : (gWrite s l b).parts = s.parts := by cases l <;> rfl
@[simp] theorem gWrite_ctxs (s : State) (l : GLoc) (b : Byte) : (gWrite s l b).ctxs = s.ctxs := by cases l <;> rfl
@[simp] theorem gWrite_routes (s : State) (l : GLoc) (b : Byte) : (gWrite s l b).routes = s.routes := by cases l <;> rfl
@[simp] theorem gWrite_grids (s : State) (l : GLoc) (b : Byte) : (gWrite s l b).grids = s.grids := by cases l <;> rfl
@[simp] theorem gWrite_blocks (s : State) (l : GLoc) (b : Byte) : (gWrite s l b).blocks = s.blocks := by cases l <;> rfl
@[simp] theorem gWrite_gangs (s : State) (l : GLoc) (b : Byte) : (gWrite s l b).gangs = s.gangs := by cases l <;> rfl
@[simp] theorem gWrite_nextUid (s : State) (l : GLoc) (b : Byte) : (gWrite s l b).nextUid = s.nextUid := by cases l <;> rfl
@[simp] theorem gWrite_ops (s : State) (l : GLoc) (b : Byte) : (gWrite s l b).ops = s.ops := by cases l <;> rfl
@[simp] theorem gWrite_transit (s : State) (l : GLoc) (b : Byte) : (gWrite s l b).transit = s.transit := by cases l <;> rfl
@[simp] theorem gWrite_memPois (s : State) (l : GLoc) (b : Byte) : (gWrite s l b).memPois = s.memPois := by cases l <;> rfl
@[simp] theorem gWrite_scopes (s : State) (l : GLoc) (b : Byte) : (gWrite s l b).scopes = s.scopes := by cases l <;> rfl

/-! ### Reads after updates -/

theorem getCore_setCore (s : State) (c d : Nat) (x : Core) : getCore (setCore s c x) d = if d = c then x else getCore s d := SMap.get_set ..
@[simp] theorem getCore_setCore_self (s : State) (c : Nat) (x : Core) : getCore (setCore s c x) c = x := by simp [getCore_setCore]
theorem getCore_modCore (s : State) (c d : Nat) (f : Core → Core) :
    getCore (modCore s c f) d = if d = c then f (getCore s c) else getCore s d := getCore_setCore ..
@[simp] theorem getCore_modCore_self (s : State) (c : Nat) (f : Core → Core) : getCore (modCore s c f) c = f (getCore s c) := by simp [getCore_modCore]
theorem getCourse_modCourse (s : State) (c d : Nat) (f : Course → Course) :
    getCourse (modCourse s c f) d = if d = c then f (getCourse s c) else getCourse s d := SMap.get_set ..
theorem getPier_modPier (s : State) (c d : Nat) (f : Pier → Pier) :
    getPier (modPier s c f) d = if d = c then f (getPier s c) else getPier s d := SMap.get_set ..
theorem getPart_modPart (s : State) (c d : Nat) (f : Part → Part) :
    getPart (modPart s c f) d = if d = c then f (getPart s c) else getPart s d := SMap.get_set ..
theorem getQueue_modQueue (s : State) (k n : Nat) (f : Queue → Queue) (j m : Nat) :
    getQueue (modQueue s k n f) j m = if j = k ∧ m = n then f (getQueue s k n) else getQueue s j m := by
  unfold getQueue modQueue setQueue
  rw [getPart_modPart]
  by_cases h : j = k
  · subst h; simp [SMap.get_set, getQueue]
  · simp [h]

/-- A core reads the same where the cores are the same. -/
theorem getCore_congr {s t : State} (h : t.cores = s.cores) (c : Nat) : getCore t c = getCore s c := by simp [getCore, h]

theorem getBlock_uid {s : State} {u : Nat} {b : Block} (h : getBlock s u = some b) : b.uid = u := by
  unfold getBlock at h; cases hx : s.blocks.get none u <;> simp [hx] at h; subst h; rfl
theorem warpOf_idx {b : Block} {i : Nat} {w : Warp} (h : warpOf b i = some w) : w.idx = i := by
  unfold warpOf at h; cases hx : b.warps.get none i <;> simp [hx] at h; subst h; rfl

theorem getBlock_setBlock (s : State) (b : Block) (u : Nat) : getBlock (setBlock s b) u = if u = b.uid then some b else getBlock s u := by
  unfold getBlock setBlock; simp only [SMap.get_set]; split <;> simp_all
theorem getBlock_modBlock (s : State) (b : Nat) (f : Block → Block) (u : Nat) :
    getBlock (modBlock s b f) u = if u = b then (getBlock s b).map fun x => { f x with uid := b } else getBlock s u := by
  unfold modBlock
  cases h : getBlock s b with
  | none => by_cases e : u = b <;> simp [e, h]
  | some x => unfold getBlock; simp only [SMap.get_set]; split <;> simp_all

@[simp] theorem warpOf_setWarps (b : Block) (i j : Nat) (w : Warp) :
    warpOf { b with warps := b.warps.set none i (some w) } j = if j = i then some { w with idx := i } else warpOf b j := by
  unfold warpOf; simp only [SMap.get_set]; split <;> simp_all

theorem getBlock_setWarp (s : State) (b : Nat) (w : Warp) (u : Nat) :
    getBlock (setWarp s b w) u = if u = b then (getBlock s b).map fun x => { x with warps := x.warps.set none w.idx (some w) } else getBlock s u := by
  unfold setWarp; rw [getBlock_modBlock]
  split
  · rename_i h; subst h
    cases h : getBlock s u <;> simp
    rw [getBlock_uid h]
  · rfl

/-- A warp after one warp is written. -/
theorem getWarp_setWarp (s : State) (b : Nat) (w : Warp) (u i : Nat) :
    getWarp (setWarp s b w) u i = if u = b ∧ i = w.idx then (getBlock s b).map fun _ => w else getWarp s u i := by
  unfold getWarp; rw [getBlock_setWarp]
  by_cases h : u = b
  · subst h
    cases hb : getBlock s u with
    | none => by_cases h2 : i = w.idx <;> simp [h2]
    | some x => by_cases h2 : i = w.idx <;> simp [h2]
  · simp [h]

theorem getWarp_setWarp_self {s : State} {b : Nat} {x : Block} (h : getBlock s b = some x) (w : Warp) :
    getWarp (setWarp s b w) b w.idx = some w := by rw [getWarp_setWarp]; simp [h]

@[simp] theorem getBlock_setCore (s : State) (c : Nat) (x : Core) (u : Nat) : getBlock (setCore s c x) u = getBlock s u := rfl
@[simp] theorem getBlock_modCore (s : State) (c : Nat) (f : Core → Core) (u : Nat) : getBlock (modCore s c f) u = getBlock s u := rfl
@[simp] theorem getWarp_setCore (s : State) (c : Nat) (x : Core) (u i : Nat) : getWarp (setCore s c x) u i = getWarp s u i := rfl
@[simp] theorem getWarp_modCore (s : State) (c : Nat) (f : Core → Core) (u i : Nat) : getWarp (modCore s c f) u i = getWarp s u i := rfl
@[simp] theorem getWarp_bump (s : State) (u i : Nat) : getWarp (bump s) u i = getWarp s u i := rfl
@[simp] theorem getBlock_bump (s : State) (u : Nat) : getBlock (bump s) u = getBlock s u := rfl
@[simp] theorem getCore_bump (s : State) (c : Nat) : getCore (bump s) c = getCore s c := rfl
@[simp] theorem getCore_setWarp (s : State) (b : Nat) (w : Warp) (c : Nat) : getCore (setWarp s b w) c = getCore s c := getCore_congr (by simp) c
@[simp] theorem getCore_modWarp (s : State) (b i : Nat) (f : Warp → Warp) (c : Nat) : getCore (modWarp s b i f) c = getCore s c := getCore_congr (by simp) c
@[simp] theorem getCore_modBlock (s : State) (b : Nat) (f : Block → Block) (c : Nat) : getCore (modBlock s b f) c = getCore s c := getCore_congr (by simp) c

/-- What the selection reads. -/
theorem me_some {s : State} {b : Block} {w : Warp} (h : me s = some (b, w)) :
    getBlock s s.sel.block = some b ∧ warpOf b s.sel.warp = some w ∧ b.uid = s.sel.block ∧ w.idx = s.sel.warp
    ∧ getWarp s s.sel.block s.sel.warp = some w := by
  unfold me at h
  cases hb : getBlock s s.sel.block with
  | none => simp [hb] at h
  | some x =>
    cases hw : warpOf x s.sel.warp with
    | none => simp [hb, hw] at h
    | some y =>
      simp [hb, hw] at h
      obtain ⟨rfl, rfl⟩ := h
      exact ⟨rfl, hw, getBlock_uid hb, warpOf_idx hw, by simp [getWarp, hb, hw]⟩

/-- A meaning over the selected warp answers a next state. -/
theorem onWarp_next {s : State} {b : Block} {w : Warp} (h : me s = some (b, w)) (f : Block → Warp → State) :
    onWarp s f = .next (f b w) := by unfold onWarp; rw [h]

/-! ### S registers -/

theorem sreg_setS (w : Warp) (d : SReg) (v : DWord) (r : SReg) : sreg (setS w d v) r = if r = 0 then 0 else if r = d then v else sreg w r := by
  unfold sreg setS
  by_cases hr : r = 0
  · simp [hr]
  · by_cases hd : d = 0
    · have : r ≠ d := by rw [hd]; exact hr
      simp only [hr, if_false, hd, if_true]
    · simp only [hr, if_false, hd, SMap.get_set]
      have : r.toNat = d.toNat ↔ r = d := ⟨fun h => BitVec.eq_of_toNat_eq h, fun h => by rw [h]⟩
      simp [this]
@[simp] theorem setS_idx (w : Warp) (d : SReg) (v : DWord) : (setS w d v).idx = w.idx := by unfold setS; split <;> rfl
@[simp] theorem setS_spc (w : Warp) (d : SReg) (v : DWord) : (setS w d v).spc = w.spc := by unfold setS; split <;> rfl
@[simp] theorem sreg_zero (w : Warp) : sreg w 0 = 0 := rfl
@[simp] theorem goto_idx (w : Warp) (a : DWord) : (goto_ w a).idx = w.idx := rfl
@[simp] theorem goto_spc (w : Warp) (a : DWord) : (goto_ w a).spc = a := rfl
@[simp] theorem advance_idx (w : Warp) : (advance w).idx = w.idx := rfl
@[simp] theorem advance_spc (w : Warp) : (advance w).spc = w.spc + 4 := rfl
@[simp] theorem sreg_goto (w : Warp) (a : DWord) (r : SReg) : sreg (goto_ w a) r = sreg w r := rfl
@[simp] theorem sreg_advance (w : Warp) (r : SReg) : sreg (advance w) r = sreg w r := rfl

/-! ### Memory at its point of coherence -/

/-- One byte after one byte is written. -/
theorem gRead_gWrite_self (s : State) (l : GLoc) (b : Byte) : gRead (gWrite s l b) l = b := by
  cases l <;> simp [gRead, gWrite, Memory.read_write]
theorem gRead_gWrite_dev (s : State) (a : Nat) (l : GLoc) (b : Byte) (h : l ≠ .dev a) : gRead (gWrite s (.dev a) b) l = gRead s l := by
  cases l with
  | dev x => simp only [gRead, gWrite, Memory.read_write]; rw [if_neg]; intro e; exact h (by rw [e])
  | host x => rfl
  | peer d x => rfl

end Sys2Proof.Machine
end

