-- ==== Sys2Proof/Laws/Memory.lean ====
section
/-! SUPPORT. Reading and writing global memory: what a write gives back, what it leaves alone, and what the device's own writes touch. -/

namespace Sys2Proof.Machine

theorem peerKey_inj {d e a b : Nat} (hd : d < 64) (he : e < 64) (h : peerKey d a = peerKey e b) : d = e ∧ a = b := by
  unfold peerKey at h; omega

/-- A byte written reads back; every other location that exists keeps its byte. -/
theorem gRead_gWrite (s : State) (l x : GLoc) (b : Byte) (hl : realLoc l = true) (hx : realLoc x = true) :
    gRead (gWrite s l b) x = if x = l then b else gRead s x := by
  cases l <;> cases x <;> simp only [gRead, gWrite, Memory.read_write, GLoc.dev.injEq, GLoc.host.injEq, reduceCtorEq, if_false]
  rename_i d a e c
  simp only [realLoc, decide_eq_true_eq] at hl hx
  by_cases h : peerKey e c = peerKey d a
  · obtain ⟨rfl, rfl⟩ := peerKey_inj hx hl h; simp
  · rw [if_neg h, if_neg]; intro e; simp only [GLoc.peer.injEq] at e; exact h (by rw [e.1, e.2])

@[simp] theorem realLoc_gAdd (l : GLoc) (n : Nat) : realLoc (gAdd l n) = realLoc l := by cases l <;> rfl
@[simp] theorem gAdd_zero (l : GLoc) : gAdd l 0 = l := by cases l <;> rfl
theorem gAdd_gAdd (l : GLoc) (m n : Nat) : gAdd (gAdd l m) n = gAdd l (m + n) := by cases l <;> simp [gAdd, Nat.add_assoc]
@[simp] theorem gAdd_inj (l : GLoc) (m n : Nat) : gAdd l m = gAdd l n ↔ m = n := by cases l <;> simp [gAdd]

theorem realLoc_pageLoc (p : Page) (va : Nat) : realLoc (pageLoc p va) = true := by unfold pageLoc; split <;> rfl
/-- A translated location exists. -/
theorem realLoc_of_xlat {t : List Page} {pasid : Nat} {a : DWord} {wr ex : Bool} {l : GLoc} (h : xlat t pasid a wr ex = .at_ l) : realLoc l = true := by
  unfold xlat at h
  by_cases hd : devidOf a ≠ 0
  · rw [if_pos hd] at h; cases h
    have : devidOf a < 64 := Nat.mod_lt _ (by decide)
    simpa [realLoc] using this
  · rw [if_neg hd] at h
    cases hp : findPage t pasid (vaOf a) with
    | none => rw [hp] at h; cases h
    | some p =>
      rw [hp] at h
      by_cases hr : (if ex then p.x else if wr then p.w else p.r) = true
      · simp only [hr, if_true] at h; cases h; exact realLoc_pageLoc ..
      · simp only [hr] at h; cases h

/-- Bytes written in a row: each reads back, every other location keeps its byte. -/
theorem gRead_gWriteN (bs : List Byte) : ∀ (s : State) (l x : GLoc), realLoc l = true → realLoc x = true →
    gRead (gWriteN s l bs) x = ((List.range bs.length).findSome? fun i => if x = gAdd l i then bs[i]? else none).getD (gRead s x) := by
  induction bs with
  | nil => intro s l x _ _; rfl
  | cons b t ih =>
    intro s l x hl hx
    rw [gWriteN, ih _ _ _ (by simpa using hl) hx, gRead_gWrite _ _ _ _ hl hx, List.length_cons, List.range_succ_eq_map]
    simp only [List.findSome?_cons, gAdd_zero, List.findSome?_map, List.getElem?_cons_zero]
    by_cases h : x = l
    · subst h
      have : (List.range t.length).findSome? (fun i => if x = gAdd (gAdd x 1) i then t[i]? else none) = none := by
        rw [List.findSome?_eq_none_iff]
        intro i _
        rw [if_neg]; rw [gAdd_gAdd]; intro e
        have := (gAdd_inj x 0 (1 + i)).1 (by simpa using e); omega
      rw [this]; simp
    · simp only [h, if_false, Function.comp_def, gAdd_gAdd]
      congr 2
      funext i
      rw [Nat.add_comm 1 i]; simp

/-- A byte among those written. -/
theorem gRead_gWriteN_in (bs : List Byte) (s : State) (l : GLoc) (hl : realLoc l = true) {i : Nat} (hi : i < bs.length) :
    gRead (gWriteN s l bs) (gAdd l i) = bs[i] := by
  rw [gRead_gWriteN bs s l _ hl (by simpa using hl)]
  have : (List.range bs.length).findSome? (fun j => if gAdd l i = gAdd l j then bs[j]? else none) = some bs[i] := by
    rw [List.findSome?_eq_some_iff]
    refine ⟨List.range i, i, (List.range' (i + 1) (bs.length - i - 1)), ?_, ?_, ?_⟩
    · rw [List.range_eq_range', List.range_eq_range', ← List.range'_succ]
      have e := List.range'_append (s := 0) (m := i) (n := bs.length - i - 1 + 1) (step := 1)
      simp only [Nat.zero_add, Nat.one_mul] at e
      rw [e]; congr 1; omega
    · simp [hi]
    · intro j hj
      rw [if_neg]; rw [gAdd_inj]; simp at hj; omega
  rw [this]; rfl

/-- A byte outside those written. -/
theorem gRead_gWriteN_out (bs : List Byte) (s : State) (l x : GLoc) (hl : realLoc l = true) (hx : realLoc x = true)
    (h : ∀ i, i < bs.length → x ≠ gAdd l i) : gRead (gWriteN s l bs) x = gRead s x := by
  rw [gRead_gWriteN bs s l x hl hx]
  have : (List.range bs.length).findSome? (fun j => if x = gAdd l j then bs[j]? else none) = none := by
    rw [List.findSome?_eq_none_iff]
    intro i hi
    rw [if_neg (h i (by simpa using hi))]
  rw [this]; rfl

/-- What writing bytes leaves of the rest of the state. -/
theorem gWriteN_rest (bs : List Byte) : ∀ (s : State) (l : GLoc),
    gWriteN s l bs = { s with mem := (gWriteN s l bs).mem, hostMem := (gWriteN s l bs).hostMem, peerMem := (gWriteN s l bs).peerMem } := by
  induction bs with
  | nil => intro s l; rfl
  | cons b t ih =>
    intro s l
    rw [gWriteN, ih]
    cases l <;> rfl

theorem gRead_congr {s t : State} (h1 : t.mem = s.mem) (h2 : t.hostMem = s.hostMem) (h3 : t.peerMem = s.peerMem) (x : GLoc) :
    gRead t x = gRead s x := by cases x <;> simp [gRead, h1, h2, h3]

/-- What every step of a fold does, the fold does. -/
theorem foldl_rel {α β : Type} (R : α → α → Prop) (r : ∀ a, R a a) (tr : ∀ a b c, R a b → R b c → R a c) (g : α → β → α) (l : List β)
    (h : ∀ a b, b ∈ l → R a (g a b)) : ∀ a, R a (l.foldl g a) := by
  induction l with
  | nil => intro a; exact r a
  | cons x t ih =>
    intro a
    exact tr _ _ _ (h a x (by simp)) (ih (fun a b hb => h a b (by simp [hb])) _)

/-! ### What the cache invalidations leave alone -/

/-- Only the caches of cores and piers, and the poison of memory, differ. -/
structure CachesOnly (s t : State) : Prop where
  rest : t = { s with cores := t.cores, piers := t.piers, memPois := t.memPois, l2Bad := t.l2Bad }
  cores : ∀ c, getCore t c = { getCore s c with l1 := (getCore t c).l1 }
  piers : ∀ p, getPier t p = { getPier s p with rdc := (getPier t p).rdc }

theorem CachesOnly.refl (s : State) : CachesOnly s s := ⟨rfl, fun _ => rfl, fun _ => rfl⟩
theorem CachesOnly.trans {s t u : State} (a : CachesOnly s t) (b : CachesOnly t u) : CachesOnly s u where
  rest := by have h := b.rest; rw [a.rest] at h; exact h
  cores := by intro c; have h := b.cores c; rw [a.cores c] at h; exact h
  piers := by intro c; have h := b.piers c; rw [a.piers c] at h; exact h

theorem cachesOnly_dropL1Line (s : State) (c n : Nat) : CachesOnly s (dropL1Line s c n) where
  rest := rfl
  cores := by intro d; simp only [dropL1Line, getCore_modCore]; split <;> simp_all
  piers := by intro p; rfl
theorem cachesOnly_setPois (s : State) (g : Nat) (p : Bool) : CachesOnly s (setPois s g p) := ⟨rfl, fun _ => rfl, fun _ => rfl⟩
theorem cachesOnly_dropRdcAll (s : State) (n : Nat) : CachesOnly s (dropRdcAll s n) := by
  refine foldl_rel CachesOnly CachesOnly.refl (fun _ _ _ => CachesOnly.trans) _ _ (fun s p _ => ?_) s
  exact { rest := rfl, cores := fun _ => rfl, piers := by intro q; simp only [getPier_modPier]; split <;> simp_all }

/-- A write that the device makes for itself is its bytes, and invalidations. -/
theorem devWrite_caches (s : State) (c : Option Nat) (l : GLoc) (bs : List Byte) : CachesOnly (gWriteN s l bs) (devWrite s c l bs) := by
  unfold devWrite
  split
  · refine CachesOnly.trans ?_ (foldl_rel CachesOnly CachesOnly.refl (fun _ _ _ => CachesOnly.trans) _ _ (fun s g _ => ?_) _)
    · refine foldl_rel CachesOnly CachesOnly.refl (fun _ _ _ => CachesOnly.trans) _ _ (fun s n _ => ?_) _
      refine CachesOnly.trans (cachesOnly_dropRdcAll s n) ?_
      split
      · exact cachesOnly_dropL1Line ..
      · exact CachesOnly.refl _
    · split
      · exact cachesOnly_setPois ..
      · exact CachesOnly.refl _
  · exact CachesOnly.refl _

theorem CachesOnly.gRead {s t : State} (h : CachesOnly s t) (x : GLoc) : gRead t x = gRead s x := by
  apply gRead_congr <;> rw [h.rest]

theorem gRead_devWrite_in (bs : List Byte) (s : State) (c : Option Nat) (l : GLoc) (hl : realLoc l = true) {i : Nat} (hi : i < bs.length) :
    gRead (devWrite s c l bs) (gAdd l i) = bs[i] := by
  rw [(devWrite_caches s c l bs).gRead, gRead_gWriteN_in bs s l hl hi]
theorem gRead_devWrite_out (bs : List Byte) (s : State) (c : Option Nat) (l x : GLoc) (hl : realLoc l = true) (hx : realLoc x = true)
    (h : ∀ i, i < bs.length → x ≠ gAdd l i) : gRead (devWrite s c l bs) x = gRead s x := by
  rw [(devWrite_caches s c l bs).gRead, gRead_gWriteN_out bs s l x hl hx h]

/-! ### Little-endian bytes -/

@[simp] theorem leBytes_length (n : Nat) : ∀ x, (leBytes n x).length = n := by
  induction n with
  | zero => intro x; rfl
  | succ n ih => intro x; simp [leBytes, ih]

theorem leBytes_get (n : Nat) : ∀ (x i : Nat) (h : i < n), ((leBytes n x)[i]'(by simpa using h)).toNat = x / 256 ^ i % 256 := by
  induction n with
  | zero => intro x i h; omega
  | succ n ih =>
    intro x i h
    cases i with
    | zero => simp [leBytes]
    | succ i => simp only [leBytes, List.getElem_cons_succ]; rw [ih _ _ (by omega), Nat.div_div_eq_div_mul, Nat.pow_succ']

end Sys2Proof.Machine
end

