-- ==== Sys2Proof/Laws/Lane.lean ====
section
/-! SUPPORT. The common issue of L-instructions, and what putting results in flight leaves alone. -/

namespace Sys2Proof.Machine

/-- An L-instruction whose names are mapped, that waits for no row, entry, room or reason of its own, and that no hazard check stops, goes on with its
operands (R132, R191). -/
theorem issueL_ready {s : State} {b : Block} {w : Warp} {i : Instr} {f : LF} {m : LFmt} {p : Split} (k : State → LIn → State)
    (hm : lfmt i = some m) (hp : getSplit w s.sel.split = some p) (hu : firstUnmapped w (checkedNames m f) = none)
    (hr : interlocked b (getCore s (coreNo b)) w (usedRows w m f) (predReads i m f ++ predWrites i m f) = false)
    (hq : shortQueue w (popList m f) = none) (hs : ∀ q, pushQueue m f = some q → (qOf w q).length < 16)
    (hz : (lmHzf w || b.hazMode) = true →
      hazardProducer b (getCore s (coreNo b)) w (usedRows w m f) (predReads i m f ++ predWrites i m f) = none) :
    issueL s b w i f false k =
      (let a := readOpnd (getCore s (coreNo b)) w f m.va f.va
       let vb := readOpnd (getCore s (coreNo b)) a.2 f m.vb f.vb
       let vc := readOpnd (getCore s (coreNo b)) vb.2 f m.vc f.vc
       k s { b := b, w := vc.2, p := p, x := getCore s (coreNo b), f := f,
             act := p.mask &&& widthMask w &&& (if m.guarded then guardLanes w f.g else BitVec.allOnes 64),
             va := a.1, vb := vb.1, vc := vc.1, dst := dstRows w m f, far := (usedRows w m f).any (isFar w), pops := !(popList m f).isEmpty }) := by
  have h1 : (pushQueue m f).filter (fun q => 16 ≤ (qOf w q).length) = none := by
    cases hx : pushQueue m f with
    | none => rfl
    | some q => have := hs q hx; simp; omega
  have h2 : (if lmHzf w || b.hazMode then hazardProducer b (getCore s (coreNo b)) w (usedRows w m f) (predReads i m f ++ predWrites i m f) else none) = none := by
    split
    · exact hz ‹_›
    · rfl
  unfold issueL
  simp only [hm, hp, hu, hr, hq, h1, h2, Bool.false_eq_true, if_false]

/-- A result in flight changes only a core and the next number. -/
theorem fly_rest (s : State) (q : LIn) (lat : Nat) (t : Target) (vals : List Word) (val pois : DWord) (fl : FFlags) :
    fly s q lat t vals val pois fl = { s with cores := (fly s q lat t vals val pois fl).cores, serial := s.serial + 1 } := rfl

/-- Results of a row change only cores, numbers and free values taken. -/
theorem flyRows_rest (s : State) (q : LIn) (lat : Nat) (v : Nat → Nat) (pois : DWord) (fl : FFlags) :
    flyRows s q lat v pois fl = { s with cores := (flyRows s q lat v pois fl).cores, serial := (flyRows s q lat v pois fl).serial,
                                         fresh := (flyRows s q lat v pois fl).fresh } := by
  have key : ∀ (l : List (Nat × Nat)) (g : Nat → Nat) (s : State),
      l.foldl (fun s e => fly s q lat (.row e.1) (laneList fun l => BitVec.ofNat 32 (g l / 2 ^ (32 * e.2))) 0 pois (if e.2 = 0 then fl else 0)) s
        = { s with
            cores := (l.foldl (fun s e => fly s q lat (.row e.1) (laneList fun l => BitVec.ofNat 32 (g l / 2 ^ (32 * e.2))) 0 pois (if e.2 = 0 then fl else 0)) s).cores
            serial := (l.foldl (fun s e => fly s q lat (.row e.1) (laneList fun l => BitVec.ofNat 32 (g l / 2 ^ (32 * e.2))) 0 pois (if e.2 = 0 then fl else 0)) s).serial } := by
    intro l
    induction l with
    | nil => intro g s; rfl
    | cons e t ih => intro g s; rw [List.foldl_cons, ih]; rfl
  unfold flyRows freeLanes
  split
  · rw [key]
  · rw [key]

/-- So blocks, memory and every operation are as before. -/
theorem flyRows_blocks (s : State) (q : LIn) (lat : Nat) (v : Nat → Nat) (pois : DWord) (fl : FFlags) :
    (flyRows s q lat v pois fl).blocks = s.blocks := by rw [flyRows_rest]
theorem gRead_flyRows (s : State) (q : LIn) (lat : Nat) (v : Nat → Nat) (pois : DWord) (fl : FFlags) (x : GLoc) :
    gRead (flyRows s q lat v pois fl) x = gRead s x := by
  apply gRead_congr <;> rw [flyRows_rest]

end Sys2Proof.Machine
end

