-- ==== Sys2Proof/Laws/Scalar.lean ====
section
/-! SUPPORT. What an S-instruction that completes leaves: the two shapes of its next state (a result and the next word, a jump), and the
canonical form of the memories at reset. -/

namespace Sys2Proof.Machine

open Sys2Proof.Claims

/-- A state that differs in one warp of one block only. -/
theorem onlyWarp_setWarp (s : State) (b : Block) (w : Warp) :
    OnlyWarp s (setWarp s b.uid w) b.uid w.idx where
  rest := by unfold setWarp modBlock; split <;> rfl
  memory := by intro l; cases l <;> simp [gRead]
  others := by intro v hv; rw [getBlock_setWarp]; simp [hv]
  warps := by intro j hj; rw [getWarp_setWarp]; simp [hj]
  block := by
    intro x y hx hy; rw [getBlock_setWarp] at hy; simp [hx] at hy; subst hy; rfl

/-- Completion from a next state that sets the selected warp. -/
theorem sCompletes_of {i : Instr} {s : State} {b : Block} {w w' : Warp} {d : SReg} {v pc : DWord}
    (hm : me s = some (b, w)) (he : exec i s = .next (setWarp s b.uid w')) (hi : w'.idx = w.idx)
    (hw : SWrites w w' d v) (hp : w'.spc = pc) (hr : w'.swait = .run) (hs : SPart w w') : SCompletes i s b w d v pc := by
  have h := me_some hm
  have hb : getBlock s b.uid = some b := by rw [h.2.2.1]; exact h.1
  refine ⟨_, w', he, ?_, hw, hp, hr, hs, ?_⟩
  · rw [← hi]; exact getWarp_setWarp_self hb w'
  · rw [← hi]; exact onlyWarp_setWarp s b w'

/-- Completion from a result: S[d] is `v`, and the S-stream goes on to the next word. -/
theorem sResult_completes {i : Instr} {s : State} {b : Block} {w w0 : Warp} {d : SReg} {v pc : DWord} {lat : Nat}
    (hm : me s = some (b, w)) (he : exec i s = .next (sResult s b w0 d v lat)) (h0 : w0 = { w with spc := w0.spc }) (hp : pc = w0.spc + 4) :
    SCompletes i s b w d v pc := by
  unfold sResult at he
  refine sCompletes_of hm he ?_ ?_ ?_ ?_ ?_
  · rw [h0]; simp
  · intro r
    have : sreg w0 r = sreg w r := by rw [h0]; rfl
    show sreg (setS w0 d v) r = _
    rw [sreg_setS, this]
  · rw [hp]; simp
  · rfl
  · rw [h0]; unfold SPart setS; split <;> rfl

/-- Completion from a jump. -/
theorem sJump_completes {i : Instr} {s : State} {b : Block} {w : Warp} {d : SReg} {v pc : DWord}
    (hm : me s = some (b, w)) (he : exec i s = .next (sJump s b (setS w d v) pc)) :
    SCompletes i s b w d v pc := by
  unfold sJump at he
  refine sCompletes_of hm he ?_ ?_ ?_ ?_ ?_
  · simp
  · intro r; show sreg (setS w d v) r = _; rw [sreg_setS]
  · rfl
  · rfl
  · unfold SPart setS; split <;> rfl

/-- Reset lists nothing in any memory, which is their canonical form. -/
theorem reset_memSound : MemSound State.reset := ⟨rfl, rfl, rfl⟩

end Sys2Proof.Machine
end

