-- ==== Sys2Proof/Laws/Trap.lean ====
section
/-! SUPPORT. What taking an exception does, once for every cause: the frame's bytes, the warp in its handler, and what else differs. -/

namespace Sys2Proof.Machine

open Sys2Proof.Claims

/-- Bytes that stand where `pre` ends are a field at that offset. -/
theorem holds_of_bytes {t : State} {l : GLoc} {bs : List Byte} (pre post : List Byte) {n v o : Nat}
    (h : ∀ i (hi : i < bs.length), gRead t (gAdd l i) = bs[i]) (e : bs = pre ++ leBytes n v ++ post) (ho : o = pre.length) : Holds t l o n v := by
  intro i hi
  subst e ho
  rw [h (pre.length + i) (by simp; omega), ← leBytes_get n v i hi]
  congr 1
  rw [List.getElem_append_left (by simp; omega), List.getElem_append_right (by omega)]
  congr 1; omega

/-- Bytes laid out as a row of fields: each is a size and a number. -/
def fieldRow (fs : List (Nat × Nat)) : List Byte := (fs.map fun e => leBytes e.1 e.2).flatten
/-- Where field `k` of a row begins. -/
def fieldAt (fs : List (Nat × Nat)) (k : Nat) : Nat := ((fs.take k).map Prod.fst).sum

theorem fieldRow_append (a b : List (Nat × Nat)) : fieldRow (a ++ b) = fieldRow a ++ fieldRow b := by simp [fieldRow]
theorem fieldRow_length (fs : List (Nat × Nat)) : (fieldRow fs).length = (fs.map Prod.fst).sum := by
  induction fs with
  | nil => rfl
  | cons e t ih => rw [show e :: t = [e] ++ t from rfl, fieldRow_append, List.length_append, ih]; simp [fieldRow]

theorem holds_fieldRow {t : State} {l : GLoc} {fs : List (Nat × Nat)} (h : ∀ i (hi : i < (fieldRow fs).length), gRead t (gAdd l i) = (fieldRow fs)[i])
    (k : Nat) {n v : Nat} (hk : fs[k]? = some (n, v)) : Holds t l (fieldAt fs k) n v := by
  obtain ⟨hlt, he⟩ := List.getElem?_eq_some_iff.1 hk
  refine holds_of_bytes (fieldRow (fs.take k)) (fieldRow (fs.drop (k + 1))) h ?_ (by rw [fieldRow_length]; rfl)
  have e : fs = fs.take k ++ ([fs[k]] ++ fs.drop (k + 1)) := by
    rw [List.singleton_append, List.getElem_cons_drop, List.take_append_drop]
  conv => lhs; rw [e]
  rw [fieldRow_append, fieldRow_append, ← List.append_assoc, he]
  simp [fieldRow]

/-- The fields of a synchronous trap's frame, in order (R302). -/
def frameFields (w : Warp) (r : TrapRec) : List (Nat × Nat) :=
  [(2, causeCode r.cause), (2, r.subc), (1, r.stream.toNat), (1, (frameSplit w r).1), (1, repcOf (frameSplit w r).2), (1, 0), (8, r.faddr.toNat),
   (8, r.mask.toNat), (12, r.insn), (4, w.sfu.length), (8, w.spc.toNat), (8, (frameSplit w r).2.lpc.toNat), (8, r.prodLpc.toNat),
   (8, (sreg w 48).toNat), (8, (sreg w 49).toNat), (8, (sreg w 50).toNat), (8, (sreg w 51).toNat), (8, (sreg w 52).toNat), 
   (8, (sreg w 53).toNat), (8, (sreg w 54).toNat), (8, (sreg w 55).toNat), (8, (sreg w 56).toNat), (8, (sreg w 57).toNat), (8, (sreg w 58).toNat), 
   (8, (sreg w 59).toNat), (8, (sreg w 60).toNat), (8, (sreg w 61).toNat), (8, (sreg w 62).toNat), (8, (sreg w 63).toNat),
   (8, (sreg w 1).toNat), (56, 0)]

theorem frameBytes_eq (w : Warp) (r : TrapRec) (hr : r.asyn = false) : frameBytes w r = fieldRow (frameFields w r) := by
  unfold frameBytes frameFields
  simp only [hr, fieldRow, List.map_cons, List.map_nil, List.flatten_cons, List.flatten_nil, List.append_nil, List.append_assoc, List.range_succ,
    List.range_zero, List.nil_append, List.map_append, List.flatten_append, Bool.false_eq_true, if_false]
  rfl

theorem frameBytes_length (w : Warp) (t : TrapRec) (ht : t.asyn = false) : (frameBytes w t).length = 256 := by
  rw [frameBytes_eq w t ht, fieldRow_length]; simp [frameFields]

/-- The frame of a synchronous trap is what R302 says, wherever its bytes stand. -/
theorem frameIs_of_bytes {t : State} {l : GLoc} {w : Warp} {r : TrapRec} (hr : r.asyn = false)
    (h : ∀ i (hi : i < (frameBytes w r).length), gRead t (gAdd l i) = (frameBytes w r)[i]) :
    FrameIs t l w (causeCode r.cause) r.subc r.stream (frameSplit w r).1 (frameSplit w r).2 r.faddr r.mask r.prodLpc r.insn := by
  have h' : ∀ i (hi : i < (fieldRow (frameFields w r)).length), gRead t (gAdd l i) = (fieldRow (frameFields w r))[i] := by
    intro i hi
    rw [h i (by rw [frameBytes_eq w r hr]; exact hi)]
    simp only [frameBytes_eq w r hr]
  have g := fun k n v o (hk : (frameFields w r)[k]? = some (n, v)) (ho : fieldAt (frameFields w r) k = o) => ho ▸ holds_fieldRow h' k (n := n) (v := v) hk
  constructor
  · exact g 0 _ _ _ rfl (by simp [fieldAt, frameFields])
  · exact g 1 _ _ _ rfl (by simp [fieldAt, frameFields])
  · exact g 2 _ _ _ rfl (by simp [fieldAt, frameFields])
  · exact g 3 _ _ _ rfl (by simp [fieldAt, frameFields])
  · exact g 4 _ _ _ rfl (by simp [fieldAt, frameFields])
  · exact g 5 _ _ _ rfl (by simp [fieldAt, frameFields])
  · exact g 6 _ _ _ rfl (by simp [fieldAt, frameFields])
  · exact g 7 _ _ _ rfl (by simp [fieldAt, frameFields])
  · exact g 8 _ _ _ rfl (by simp [fieldAt, frameFields])
  · exact g 9 _ _ _ rfl (by simp [fieldAt, frameFields])
  · exact g 10 _ _ _ rfl (by simp [fieldAt, frameFields])
  · exact g 11 _ _ _ rfl (by simp [fieldAt, frameFields])
  · exact g 12 _ _ _ rfl (by simp [fieldAt, frameFields])
  · intro i hi
    have c : i = 0 ∨ i = 1 ∨ i = 2 ∨ i = 3 ∨ i = 4 ∨ i = 5 ∨ i = 6 ∨ i = 7 ∨ i = 8 ∨ i = 9 ∨ i = 10 ∨ i = 11 ∨ i = 12 ∨ i = 13 ∨ i = 14 ∨ i = 15 := by omega
    rcases c with rfl | rfl | rfl | rfl | rfl | rfl | rfl | rfl | rfl | rfl | rfl | rfl | rfl | rfl | rfl | rfl
    · exact g 13 _ _ _ rfl (by simp [fieldAt, frameFields])
    · exact g 14 _ _ _ rfl (by simp [fieldAt, frameFields])
    · exact g 15 _ _ _ rfl (by simp [fieldAt, frameFields])
    · exact g 16 _ _ _ rfl (by simp [fieldAt, frameFields])
    · exact g 17 _ _ _ rfl (by simp [fieldAt, frameFields])
    · exact g 18 _ _ _ rfl (by simp [fieldAt, frameFields])
    · exact g 19 _ _ _ rfl (by simp [fieldAt, frameFields])
    · exact g 20 _ _ _ rfl (by simp [fieldAt, frameFields])
    · exact g 21 _ _ _ rfl (by simp [fieldAt, frameFields])
    · exact g 22 _ _ _ rfl (by simp [fieldAt, frameFields])
    · exact g 23 _ _ _ rfl (by simp [fieldAt, frameFields])
    · exact g 24 _ _ _ rfl (by simp [fieldAt, frameFields])
    · exact g 25 _ _ _ rfl (by simp [fieldAt, frameFields])
    · exact g 26 _ _ _ rfl (by simp [fieldAt, frameFields])
    · exact g 27 _ _ _ rfl (by simp [fieldAt, frameFields])
    · exact g 28 _ _ _ rfl (by simp [fieldAt, frameFields])
  · exact g 29 _ _ _ rfl (by simp [fieldAt, frameFields])
  · exact g 30 _ _ _ rfl (by simp [fieldAt, frameFields])

/-! ### Entering a trap -/

theorem getBlock_congr {s t : State} (h : t.blocks = s.blocks) (u : Nat) : getBlock t u = getBlock s u := by simp [getBlock, h]
theorem getPier_congr {s t : State} (h : t.piers = s.piers) (u : Nat) : getPier t u = getPier s u := by simp [getPier, h]

/-- A wait abandoned withdraws an arrival at a barrier, and does nothing else. -/
theorem abandonWait_spec (s : State) (b : Block) (w : Warp) (hb : getBlock s b.uid = some b) :
    abandonWait s b w = { s with blocks := (abandonWait s b w).blocks, gangs := (abandonWait s b w).gangs }
    ∧ (∀ v, v ≠ b.uid → getBlock (abandonWait s b w) v = getBlock s v)
    ∧ (∃ bars, getBlock (abandonWait s b w) b.uid = some { b with bars := bars })
    ∧ ((∀ c m, w.swait ≠ .barIn c m) → abandonWait s b w = s) := by
  unfold abandonWait
  split
  · rename_i n h
    refine ⟨by unfold modBlock; split <;> rfl, fun v hv => by rw [getBlock_modBlock, if_neg hv], ⟨_, by rw [getBlock_modBlock, if_pos rfl, hb]; rfl⟩, fun k => absurd h (k _ _)⟩
  · rename_i n h
    split
    · exact ⟨rfl, fun _ _ => rfl, ⟨b.bars, hb⟩, fun k => absurd h (k _ _)⟩
    · exact ⟨rfl, fun _ _ => rfl, ⟨b.bars, hb⟩, fun _ => rfl⟩
  · exact ⟨rfl, fun _ _ => rfl, ⟨b.bars, hb⟩, fun _ => rfl⟩

theorem supersede_rest (s : State) (c : Nat) (l : GLoc) (n : Nat) : supersede s c l n = { s with transit := (supersede s c l n).transit } := rfl

/-- A frame written: its bytes, and what else may differ. -/
theorem writeFrame_spec (s : State) (c : Nat) (l : GLoc) (w : Warp) (r : TrapRec) :
    CachesOnly (gWriteN (supersede s c l (slotBytes w r).length) l (slotBytes w r)) (writeFrame s c l w r) := devWrite_caches ..

theorem writeFrame_blocks (s : State) (c : Nat) (l : GLoc) (w : Warp) (r : TrapRec) : (writeFrame s c l w r).blocks = s.blocks := by
  rw [(writeFrame_spec s c l w r).rest, gWriteN_rest]; rfl
theorem writeFrame_gangs (s : State) (c : Nat) (l : GLoc) (w : Warp) (r : TrapRec) : (writeFrame s c l w r).gangs = s.gangs := by
  rw [(writeFrame_spec s c l w r).rest, gWriteN_rest]; rfl
theorem writeFrame_rest (s : State) (c : Nat) (l : GLoc) (w : Warp) (r : TrapRec) :
    writeFrame s c l w r = { s with
      cores := (writeFrame s c l w r).cores, piers := (writeFrame s c l w r).piers, memPois := (writeFrame s c l w r).memPois
      l2Bad := (writeFrame s c l w r).l2Bad
      transit := (writeFrame s c l w r).transit, mem := (writeFrame s c l w r).mem, hostMem := (writeFrame s c l w r).hostMem
      peerMem := (writeFrame s c l w r).peerMem } := by
  have h := (writeFrame_spec s c l w r).rest
  rw [gWriteN_rest, supersede_rest] at h
  rw [h]

/-- A synchronous trap that is no EMUL and holds no drain record writes only its frame. -/
theorem slotBytes_plain {w : Warp} {r : TrapRec} (hE : r.cause ≠ .emul) (hd : r.drr = []) : slotBytes w r = frameBytes w r := by
  unfold slotBytes; rw [if_neg hE, hd, List.append_nil]

/-- What the device's own access finds is what translation gives. -/
theorem xlat_of_devXlat {s : State} {c k pasid : Nat} {a : DWord} {wr : Bool} {l : GLoc} (h : devXlat s c k pasid a wr = some (.at_ l)) :
    xlat (getCore s c).tlb pasid a wr false = .at_ l := by
  unfold devXlat at h
  split at h
  · cases h
  · split at h
    · split at h <;> simp_all
    · rename_i x e
      split at h
      · cases h
      · simp_all
    · simp_all
theorem realLoc_of_devXlat {s : State} {c k pasid : Nat} {a : DWord} {wr : Bool} {l : GLoc} (h : devXlat s c k pasid a wr = some (.at_ l)) :
    realLoc l = true := realLoc_of_xlat (xlat_of_devXlat h)

/-- ENTERING A TRAP whose save slot is translated, for a synchronous cause other than EMUL. -/
theorem enterTrap_spec {s : State} {b : Block} {w : Warp} {r : TrapRec} {l : GLoc} (hb : getBlock s b.uid = some b)
    (hl : devXlat s (coreNo b) b.part b.pasid w.tframe true = some (.at_ l)) (hr : r.asyn = false) (hi : r.toInfill = false)
    (hE : r.cause ≠ .emul) (hd : r.drr = []) :
    Handles s (enterTrap s b w r) b w l 256
    ∧ FrameIs (enterTrap s b w r) l w (causeCode r.cause) r.subc r.stream (frameSplit w r).1 (frameSplit w r).2 r.faddr r.mask r.prodLpc r.insn := by
  have real := realLoc_of_devXlat hl
  obtain ⟨aRest, aOthers, ⟨bars, aSelf⟩, aNone⟩ := abandonWait_spec s b w hb
  generalize hA : abandonWait s b w = A at *
  generalize hV : ({ w with sb := w.sb.map (cutEnt l (slotBytes w r).length) } : Warp) = v
  have hE' : enterTrap s b w r = setWarp (writeFrame A (coreNo b) l w r) b.uid (entered v r) := by
    unfold enterTrap; rw [hl]; subst hA hV; rfl
  have idx : (entered v r).idx = w.idx := by subst hV; unfold entered; rw [hi]; simp [setS_idx]
  have hcg : ∀ u, getBlock (writeFrame A (coreNo b) l w r) u = getBlock A u := getBlock_congr (writeFrame_blocks ..)
  have memI : ∀ i (h : i < (frameBytes w r).length), gRead (enterTrap s b w r) (gAdd l i) = (frameBytes w r)[i] := by
    intro i h
    have h1 : gRead (enterTrap s b w r) (gAdd l i) = gRead (writeFrame A (coreNo b) l w r) (gAdd l i) := by
      rw [hE']; apply gRead_congr <;> simp
    rw [h1]
    unfold writeFrame
    rw [gRead_devWrite_in _ _ _ _ real (by rw [slotBytes_plain hE hd]; exact h)]
    simp only [slotBytes_plain hE hd]
  have memO : MemoryBut s (enterTrap s b w r) l 256 := by
    intro x hx ho
    have h1 : gRead (enterTrap s b w r) x = gRead (writeFrame A (coreNo b) l w r) x := by rw [hE']; apply gRead_congr <;> simp
    rw [h1]
    unfold writeFrame
    rw [gRead_devWrite_out _ _ _ _ _ real hx (by rw [slotBytes_plain hE hd, frameBytes_length w r hr]; exact ho), supersede_rest]
    apply gRead_congr <;> (rw [aRest])
  refine ⟨?_, frameIs_of_bytes hr memI⟩
  have hbk : getBlock (writeFrame A (coreNo b) l w r) b.uid = some { b with bars := bars } := by rw [hcg]; exact aSelf
  constructor
  · refine ⟨entered v r, ?_, ?_⟩
    · rw [hE', ← idx]; exact getWarp_setWarp_self hbk _
    · subst hV
      unfold Entered entered
      rw [hi]
      refine ⟨rfl, rfl, rfl, ?_, ?_⟩
      · intro q
        show sreg (setS _ 1 w.tframe) q = _
        rw [sreg_setS]
        by_cases h0 : q = 0
        · subst h0; simp; exact (sreg_zero w).symm
        · simp only [h0, if_false]; rfl
      · simp only [Bool.false_eq_true, if_false]; unfold setS; simp
  · exact memO
  · intro v' hv'; rw [hE', getBlock_setWarp, if_neg hv', hcg, aOthers v' hv']
  · intro j hj
    rw [hE', getWarp_setWarp, if_neg (by rw [idx]; exact fun h => hj h.2)]
    unfold getWarp
    rw [hbk, hb]; rfl
  · intro c hc
    rw [hE', getBlock_setWarp, if_pos rfl, hbk] at hc
    simp only [Option.map_some, Option.some.injEq] at hc
    subst hc; rfl
  · intro c
    have h1 := (writeFrame_spec A (coreNo b) l w r).cores c
    rw [hE', getCore_setWarp]
    have h2 : getCore (gWriteN (supersede A (coreNo b) l (slotBytes w r).length) l (slotBytes w r)) c = getCore s c := by
      apply getCore_congr; rw [gWriteN_rest, supersede_rest, aRest]
    rw [h2] at h1; exact h1
  · intro p
    have h1 := (writeFrame_spec A (coreNo b) l w r).piers p
    have h3 : getPier (enterTrap s b w r) p = getPier (writeFrame A (coreNo b) l w r) p := by rw [hE']; apply getPier_congr; simp
    rw [h3]
    have h2 : getPier (gWriteN (supersede A (coreNo b) l (slotBytes w r).length) l (slotBytes w r)) p = getPier s p := by
      apply getPier_congr; rw [gWriteN_rest, supersede_rest, aRest]
    rw [h2] at h1; exact h1
  · intro hn
    have hs : A = s := aNone hn
    constructor
    · rw [hE']; simp only [setWarp_gangs, writeFrame_gangs, hs]
    · intro c hc
      have h4 : getBlock A b.uid = some b := by rw [hs]; exact hb
      rw [aSelf, Option.some.injEq] at h4
      rw [hE', getBlock_setWarp, if_pos rfl, hbk, h4] at hc
      simp only [Option.map_some, Option.some.injEq] at hc
      subst hc; rfl
  · have h5 : ∀ t : State, ∀ i x, setWarp t i x = { t with blocks := (setWarp t i x).blocks } := by
      intro t i x; unfold setWarp modBlock; split <;> rfl
    rw [hE', h5]
    have h6 := writeFrame_rest A (coreNo b) l w r
    rw [h6, aRest]

theorem frameSplit_s {w : Warp} {r : TrapRec} (hs : r.stream = false) {k : Nat} {p : Split} (h : (liveSplits w).head? = some (k, p)) :
    frameSplit w r = (k, p) := by
  unfold frameSplit
  rw [hs]
  cases hl : liveSplits w with
  | nil => rw [hl] at h; cases h
  | cons e t => rw [hl] at h; simp only [List.head?_cons, Option.some.injEq] at h; simp [h]

theorem frameSplit_l {w : Warp} {r : TrapRec} (hs : r.stream = true) {p : Split} (h : getSplit w r.split = some p) :
    frameSplit w r = (r.split, p) := by
  unfold frameSplit; rw [hs, h]; rfl

/-- A change of the note of what issued is no change of what trap entry looks at or leaves. -/
theorem handles_of_sel {s t : State} {x : Sel} {b : Block} {w : Warp} {l : GLoc} {n : Nat} (h : Handles { s with sel := x } t b w l n) :
    Handles s t b w l n where
  warp := h.warp
  memory := h.memory
  others := h.others
  warps := h.warps
  block := h.block
  cores := h.cores
  piers := h.piers
  bars := h.bars
  rest := h.rest

/-- A synchronous trap of the selected S-instruction, for every cause it can have. -/
theorem trapS_spec {s : State} {b : Block} {w : Warp} (hm : me s = some (b, w)) (c : Cause) (n : Nat) (fa : DWord) (hc : c ≠ .emul) {l : GLoc}
    {k : Nat} {p : Split} (hf : b.frozen = false) (hh : w.handler = false) (ht : w.tvec ≠ 0) (hl : SlotAt s b w l) (hp : (liveSplits w).head? = some (k, p)) :
    Handles s (trapS s b w c n fa) b w l 256 ∧ FrameIs (trapS s b w c n fa) l w (causeCode c) n false k p fa 0 0 s.sel.word := by
  have h := me_some hm
  have hb : getBlock s b.uid = some b := by rw [h.2.2.1]; exact h.1
  let r : TrapRec := { cause := c, subc := n, faddr := fa, insn := s.sel.word }
  let s1 : State := { s with sel := { s.sel with issued := trapIssued c n } }
  let w1 : Warp := { w with swait := .run }
  have e : trapS s b w c n fa = enterTrap s1 b w1 r := by
    unfold trapS takeTrap
    rw [if_neg (by simp [hf]), if_neg (by simp), if_neg (by simp [hh]), if_neg ht]
  have g := enterTrap_spec (s := s1) (b := b) (w := w1) (r := r) (l := l) hb hl rfl rfl hc rfl
  have fs : frameSplit w1 r = (k, p) := frameSplit_s rfl hp
  rw [e]
  rw [fs] at g
  refine ⟨?_, ?_⟩
  · have q := g.1
    exact { warp := q.warp, memory := q.memory, others := q.others, warps := q.warps, block := q.block, cores := q.cores, piers := q.piers,
            bars := fun _ => q.bars (fun _ _ => by simp [w1]), rest := q.rest }
  · have q := g.2
    exact { cause := q.cause, subc := q.subc, stream := q.stream, split := q.split, repc := q.repc, flags := q.flags, faddr := q.faddr, mask := q.mask,
            insn := q.insn, sfuout := q.sfuout, spc := q.spc, lpc := q.lpc, prod := q.prod, save := q.save, s1save := q.s1save, zero := q.zero }

theorem sTraps_of {i : Instr} {s : State} {b : Block} {w : Warp} (hm : me s = some (b, w)) {c : Cause} {n : Nat} {fa : DWord} (hc : c ≠ .emul)
    (he : exec i s = .next (trapS s b w c n fa)) : STraps i s b w (causeCode c) n fa :=
  fun _ _ _ hf hh ht hl hp => ⟨_, he, trapS_spec hm c n fa hc hf hh ht hl hp⟩

/-- A synchronous trap of the selected L-instruction. -/
theorem trapL_spec {s : State} {b : Block} {w : Warp} (hb : getBlock s b.uid = some b) (c : Cause) (n : Nat) (fa mask : DWord) (hc : c ≠ .emul) {l : GLoc}
    {p : Split} (hf : b.frozen = false) (hh : w.handler = false) (ht : w.tvec ≠ 0) (hl : SlotAt s b w l) (hp : getSplit w s.sel.split = some p) :
    Handles s (trapL s b w c n fa mask) b w l 256
    ∧ FrameIs (trapL s b w c n fa mask) l w (causeCode c) n true s.sel.split p fa mask 0 s.sel.word := by
  let r : TrapRec := { cause := c, subc := n, faddr := fa, mask := mask, stream := true, split := s.sel.split, insn := s.sel.word }
  let s1 : State := { s with sel := { s.sel with issued := trapIssued c n } }
  have e : trapL s b w c n fa mask = enterTrap s1 b w r := by
    unfold trapL takeTrap
    rw [if_neg (by simp [hf]), if_neg (by simp), if_neg (by simp [hh]), if_neg ht]
  have g := enterTrap_spec (s := s1) (b := b) (w := w) (r := r) (l := l) hb hl rfl rfl hc rfl
  have fs : frameSplit w r = (s.sel.split, p) := frameSplit_l rfl hp
  rw [e]
  rw [fs] at g
  exact ⟨handles_of_sel g.1, g.2⟩

theorem lTraps_of {i : Instr} {s : State} {b : Block} {w : Warp} (hm : me s = some (b, w)) {p : Split} (hp : getSplit w s.sel.split = some p) {c : Cause}
    {n : Nat} {fa mask : DWord} (hc : c ≠ .emul) (he : exec i s = .next (trapL s b w c n fa mask)) : LTraps i s b w p (causeCode c) n fa mask 0 := by
  intro l hf hh ht hl
  have h := me_some hm
  exact ⟨_, he, trapL_spec (by rw [h.2.2.1]; exact h.1) c n fa mask hc hf hh ht hl hp⟩

/-! ### Fatal faults -/

theorem signalQueue_rest (s : State) (k n : Nat) : signalQueue s k n = { s with dev := (signalQueue s k n).dev, parts := (signalQueue s k n).parts } := by
  unfold signalQueue
  split
  · dsimp only; split
    · rfl
    · split <;> rfl
  · dsimp only; split
    · rfl
    · split <;> rfl
theorem getQueue_signalQueue (s : State) (k n j m : Nat) : getQueue (signalQueue s k n) j m = getQueue s j m := by
  unfold signalQueue
  split
  · dsimp only; split
    · rfl
    · split
      · unfold getQueue getPart setPart
        simp only [SMap.get_set]
        split
        · rename_i h; subst h; rfl
        · rfl
      · rfl
  · dsimp only; split
    · rfl
    · split <;> rfl
theorem stopQueue_rest (s : State) (k n e : Nat) : stopQueue s k n e = { s with dev := (stopQueue s k n e).dev, parts := (stopQueue s k n e).parts } := by
  unfold stopQueue; dsimp only; split
  · rfl
  · rw [signalQueue_rest]; rfl
theorem getQueue_stopQueue (s : State) (k n e : Nat) :
    (getQueue (stopQueue s k n e) k n).state = 2 ∧ (getQueue (stopQueue s k n e) k n).err = e := by
  unfold stopQueue; dsimp only; split
  · rw [getQueue_modQueue]; simp
  · rw [getQueue_signalQueue, getQueue_modQueue]; simp

theorem find?_map_same {α : Type} (p : α → Bool) (f : α → α) (hp : ∀ a, p (f a) = p a) (l : List α) : (l.map fun a => if p a then f a else a).find? p = (l.find? p).map f := by
  induction l with
  | nil => rfl
  | cons a t ih =>
    rw [List.map_cons, List.find?_cons, List.find?_cons]
    cases h : p a with
    | true => simp [hp, h]
    | false => simp [h, ih]

theorem getGrid_modGrid (s : State) (k n i : Nat) (f : Grid → Grid) (hf : ∀ g, gridIs k n i (f g) = gridIs k n i g) :
    getGrid (modGrid s k n i f) k n i = (getGrid s k n i).map f := find?_map_same _ _ hf _

/-- A FATAL FAULT of a block that had none (R346). -/
theorem fatalFault_spec {s : State} {b : Block} (hb : getBlock s b.uid = some b) (hf : b.frozen = false) : Fatal s (fatalFault s b.uid) b := by
  obtain ⟨s1, hs1⟩ : ∃ s1, s1 = setBlock s { b with frozen := true } := ⟨_, rfl⟩
  obtain ⟨s2, hs2, hr⟩ : ∃ s2 : State, s2 = { s1 with cores := s2.cores } ∧
      fatalFault s b.uid = stopQueue (modGridOf s2 b fun g => { g with failed := true }) b.part b.queue 0x0A := by
    unfold fatalFault
    rw [hb]
    simp only [hf, Bool.false_eq_true, if_false]
    subst hs1
    split
    · exact ⟨_, rfl, rfl⟩
    · exact ⟨_, rfl, rfl⟩
  have blk : (fatalFault s b.uid).blocks = s1.blocks := by rw [hr, stopQueue_rest]; simp; rw [hs2]
  have get : ∀ v, getBlock (fatalFault s b.uid) v = if v = b.uid then some { b with frozen := true } else getBlock s v := by
    intro v
    rw [getBlock_congr blk, hs1, getBlock_setBlock]
  constructor
  · exact ⟨_, by rw [get, if_pos rfl], rfl⟩
  · intro j w hw
    refine ⟨w, ?_, rfl⟩
    unfold getWarp at hw ⊢
    rw [get, if_pos rfl]
    rw [hb] at hw
    exact hw
  · intro v hv; rw [get, if_neg hv]
  · intro g hg
    rw [hr]
    unfold gridOf at hg ⊢
    have h1 : ∀ t : State, getGrid (stopQueue t b.part b.queue 0x0A) b.part b.queue b.packet = getGrid t b.part b.queue b.packet := by
      intro t; rw [stopQueue_rest]; rfl
    rw [h1]
    unfold modGridOf
    rw [getGrid_modGrid s2 b.part b.queue b.packet (fun g => { g with failed := true }) (fun _ => rfl)]
    have h2 : getGrid s2 b.part b.queue b.packet = getGrid s b.part b.queue b.packet := by rw [hs2, hs1]; rfl
    rw [h2, hg]; rfl
  · rw [hr]; exact getQueue_stopQueue ..
  · intro x
    rw [hr]
    apply gRead_congr
    · have e : s2.mem = s1.mem := by rw [hs2]
      rw [stopQueue_rest]; show s2.mem = s.mem; rw [e, hs1]; rfl
    · have e : s2.hostMem = s1.hostMem := by rw [hs2]
      rw [stopQueue_rest]; show s2.hostMem = s.hostMem; rw [e, hs1]; rfl
    · have e : s2.peerMem = s1.peerMem := by rw [hs2]
      rw [stopQueue_rest]; show s2.peerMem = s.peerMem; rw [e, hs1]; rfl

end Sys2Proof.Machine
end

