-- ==== Sys2Proof/Tests/Slice0.lean ====
section
/-! SUPPORT. Tests: the ill-formed terms that each check of WellFormed refuses, words written out from the spec's encodings, single steps on a
small state with results from the spec's examples and tables, and for each statement of the obligations states and operands that meet its
hypotheses. -/

namespace Sys2Proof.Tests

open Sys2Proof Sys2Proof.Machine Sys2Proof.Claims

-- The tests are elaborated one after another: side by side they need more memory than one check has.
set_option Elab.async false



/-! ### Words written out from the encodings of R121 to R131, one for each instruction of the two streams -/

theorem test_word_sysNop : decodeS 0x00000000#32 0 = .ok (.sysNop) := by decide
theorem test_word_sysExit : decodeS 0x00000001#32 0 = .ok (.sysExit) := by decide
theorem test_word_sysYield : decodeS 0x00000002#32 0 = .ok (.sysYield) := by decide
theorem test_word_sysTrig : decodeS 0x00000003#32 0 = .ok (.sysTrig) := by decide
theorem test_word_sysEret : decodeS 0x00000004#32 0 = .ok (.sysEret) := by decide
theorem test_word_sysBkpt : decodeS 0x00000005#32 0 = .ok (.sysBkpt) := by decide
theorem test_word_sysPause : decodeS 0x00084006#32 0 = .ok (.sysPause 33) := by decide
theorem test_word_sysIdem : decodeS 0x00000007#32 0 = .ok (.sysIdem) := by decide
theorem test_word_sysCtclose : decodeS 0x00000008#32 0 = .ok (.sysCtclose) := by decide
theorem test_word_sysMfence : decodeS 0x02D00009#32 0 = .ok (.sysMfence 45) := by decide
theorem test_word_sysKclr : decodeS 0x00000A0A#32 0 = .ok (.sysKclr 0b1010) := by decide
theorem test_word_salu : decodeS 0x07D89710#32 0 = .ok (.salu .sltw 61 34 23) := by decide
theorem test_word_saddi : decodeS 0x0BE86A5F#32 0 = .ok (.saddi 62 33 0x2A5F) := by decide
theorem test_word_sandi : decodeS 0x0FE86A5F#32 0 = .ok (.sandi 62 33 0x2A5F) := by decide
theorem test_word_sori : decodeS 0x13E86A5F#32 0 = .ok (.sori 62 33 0x2A5F) := by decide
theorem test_word_sxori : decodeS 0x17E86A5F#32 0 = .ok (.sxori 62 33 0x2A5F) := by decide
theorem test_word_sshli : decodeS 0x1BE8402B#32 0 = .ok (.sshli 62 33 43) := by decide
theorem test_word_sshri : decodeS 0x1FE8402B#32 0 = .ok (.sshri 62 33 43) := by decide
theorem test_word_ssrai : decodeS 0x23E8402B#32 0 = .ok (.ssrai 62 33 43) := by decide
theorem test_word_slui : decodeS 0x27E02A5F#32 0 = .ok (.slui 62 0x2A5F) := by decide
theorem test_word_slit : decodeS 0x2BE00000#32 0xDEADBEEF = .ok (.slit 62 0xDEADBEEF) := by decide
theorem test_word_slith : decodeS 0x2BE00001#32 0xDEADBEEF = .ok (.slith 62 0xDEADBEEF) := by decide
theorem test_word_sbeq : decodeS 0x33E87FFE#32 0 = .ok (.sbeq 62 33 0x3FFE) := by decide
theorem test_word_sbne : decodeS 0x37E87FFE#32 0 = .ok (.sbne 62 33 0x3FFE) := by decide
theorem test_word_sblt : decodeS 0x3BE87FFE#32 0 = .ok (.sblt 62 33 0x3FFE) := by decide
theorem test_word_sbge : decodeS 0x3FE87FFE#32 0 = .ok (.sbge 62 33 0x3FFE) := by decide
theorem test_word_sbltw : decodeS 0x43E87FFE#32 0 = .ok (.sbltw 62 33 0x3FFE) := by decide
theorem test_word_sbgew : decodeS 0x47E87FFE#32 0 = .ok (.sbgew 62 33 0x3FFE) := by decide
theorem test_word_sbr : decodeS 0x481FFFFE#32 0 = .ok (.sbr 1 0xFFFFE) := by decide
theorem test_word_sjr : decodeS 0x4C004000#32 0 = .ok (.sjr 0 1) := by decide
theorem test_word_sld : decodeS 0x52844FF8#32 0 = .ok (.sld 40 17 0 0xFF8) := by decide
theorem test_word_sst : decodeS 0x56845FF8#32 0 = .ok (.sst 40 17 1 0xFF8) := by decide
theorem test_word_slds : decodeS 0x5A846FF8#32 0 = .ok (.slds 40 17 2 0xFF8) := by decide
theorem test_word_ssts : decodeS 0x5E847FF8#32 0 = .ok (.ssts 40 17 3 0xFF8) := by decide
theorem test_word_pushq : decodeS 0x60044003#32 0 = .ok (.pushq 3 17) := by decide
theorem test_word_popq : decodeS 0x66800002#32 0 = .ok (.popq 40 2) := by decide
theorem test_word_lgo : decodeS 0x68080001#32 0 = .ok (.lgo 0x80001) := by decide
theorem test_word_lgor : decodeS 0x6C044000#32 0 = .ok (.lgor 17) := by decide
theorem test_word_cpy : decodeS 0x70044005#32 0 = .ok (.cpy .p2p 17) := by decide
theorem test_word_waitc : decodeS 0x741083FC#32 0 = .ok (.waitc 1 2 3 63) := by decide
theorem test_word_fence : decodeS 0x78000034#32 0 = .ok (.fence .full .span) := by decide
theorem test_word_bar : decodeS 0x7C04402B#32 0 = .ok (.bar true false 11 17) := by decide
theorem test_word_tcfg : decodeS 0x80044009#32 0 = .ok (.tcfg 9 17) := by decide
theorem test_word_tld : decodeS 0x84046819#32 0 = .ok (.tld true 9 17 40) := by decide
theorem test_word_tst : decodeS 0x88046809#32 0 = .ok (.tst false 9 17 40) := by decide
theorem test_word_mma : decodeS 0x8EF96840#32 0 = .ok (.mma 47 9 6 33) := by decide
theorem test_word_aclr : decodeS 0x9000002F#32 0 = .ok (.aclr 47) := by decide
theorem test_word_drain : decodeS 0x96FAC340#32 0 = .ok (.drain 47 21 33 (some 2)) := by decide
theorem test_word_drld : decodeS 0x98084015#32 0 = .ok (.drld 21 33) := by decide
theorem test_word_mwait : decodeS 0x9C084000#32 0 = .ok (.mwait 33) := by decide
theorem test_word_csrr : decodeS 0xA2800022#32 0 = .ok (.csrr 40 0x022) := by decide
theorem test_word_csrw : decodeS 0xA40A0011#32 0 = .ok (.csrw 0x011 40) := by decide
theorem test_word_ctopen : decodeS 0xAA8FFFF0#32 0 = .ok (.ctopen 40 0xFFFF0) := by decide
theorem test_word_chkEq : decodeS 0xAC000009#32 0 = .ok (.chkEq 1 2) := by decide
theorem test_word_chkRel : decodeS 0xAC002119#32 0 = .ok (.chkRel 1 2 33) := by decide
theorem test_word_kmovR : decodeS 0xB2800003#32 0 = .ok (.kmovR 40 3) := by decide
theorem test_word_kmovW : decodeS 0xB00A0007#32 0 = .ok (.kmovW 3 40) := by decide
theorem test_word_trap : decodeS 0xB400BEEF#32 0 = .ok (.trap 0xBEEF) := by decide
theorem test_word_satom : decodeS 0xBA8461B9#32 0 = .ok (.satom .cas true .system 40 17 33) := by decide
theorem test_word_lnop : decodeL 0x0000000000000F8000000000#96 = .ok (.lnop ⟨.v 0, .v 0, .v 0, .v 0, ⟨31, false⟩, 0, false, 0x0⟩) := by decide
theorem test_word_lnext : decodeL 0x0100000000000F8000000000#96 = .ok (.lnext ⟨.v 0, .v 0, .v 0, .v 0, ⟨31, false⟩, 0, false, 0x0⟩) := by decide
theorem test_word_lbr : decodeL 0x02000000000001C0FFF0000A#96 = .ok (.lbr ⟨.v 0, .v 0, .v 0, .v 0, ⟨3, true⟩, 0, false, 0xFFF0000A⟩) := by decide
theorem test_word_ljoin : decodeL 0x0300000000000F8000010000#96 = .ok (.ljoin ⟨.v 0, .v 0, .v 0, .v 0, ⟨31, false⟩, 0, false, 0x10000⟩) := by decide
theorem test_word_rep : decodeL 0x0500000000000F8000000E47#96 = .ok (.rep ⟨.v 0, .v 0, .v 0, .v 0, ⟨31, false⟩, 0, false, 0xE47⟩) := by decide
theorem test_word_lpart : decodeL 0x0600000000000F8000000005#96 = .ok (.lpart ⟨.v 0, .v 0, .v 0, .v 0, ⟨31, false⟩, 0, false, 0x5⟩) := by decide
theorem test_word_vialu : decodeL 0x08A39601706004C000000000#96 = .ok (.vialu .sra .w16x2 ⟨.v 300, .v 5, .q 3, .v 0, ⟨9, true⟩, 0, false, 0x0⟩) := by decide
theorem test_word_vmad : decodeL 0x090196017137F4C000000000#96 = .ok (.vmad true ⟨.v 300, .v 5, .lid, .v 383, ⟨9, true⟩, 0, false, 0x0⟩) := by decide
theorem test_word_vbfe : decodeL 0x0A019601716004C000000000#96 = .ok (.vbfe true ⟨.v 300, .v 5, .wid, .v 0, ⟨9, true⟩, 0, false, 0x0⟩) := by decide
theorem test_word_vbfi : decodeL 0x0B00960140D884C000000403#96 = .ok (.vbfi ⟨.v 300, .v 5, .v 6, .imm, ⟨9, true⟩, 0, false, 0x403⟩) := by decide
theorem test_word_vsel : decodeL 0x0C009601714004E200000000#96 = .ok (.vsel ⟨.v 300, .v 5, .zero, .v 0, ⟨9, true⟩, 17, false, 0x0⟩) := by decide
theorem test_word_vcmp : decodeL 0x0D41000140C004E200000000#96 = .ok (.vcmp .gt .w32 ⟨.v 0, .v 5, .v 6, .v 0, ⟨9, true⟩, 17, false, 0x0⟩) := by decide
theorem test_word_fadd : decodeL 0x102C960140C004C000000000#96 = .ok (.fadd .f32 .ru true true ⟨.v 300, .v 5, .v 6, .v 0, ⟨9, true⟩, 0, false, 0x0⟩) := by decide
theorem test_word_fmul : decodeL 0x1154960140C004C000000000#96 = .ok (.fmul .f16x2 .rz false true ⟨.v 300, .v 5, .v 6, .v 0, ⟨9, true⟩, 0, false, 0x0⟩) := by decide
theorem test_word_ffma : decodeL 0x12F2960100C084C000000000#96 = .ok (.ffma .f64 .rd false false true ⟨.v 300, .v 4, .v 6, .v 8, ⟨9, true⟩, 0, false, 0x0⟩) := by decide
theorem test_word_fmin : decodeL 0x1380960140C004C000000000#96 = .ok (.fmin .b16x2 ⟨.v 300, .v 5, .v 6, .v 0, ⟨9, true⟩, 0, false, 0x0⟩) := by decide
theorem test_word_fmax : decodeL 0x1400960140C004C000000000#96 = .ok (.fmax .f32 ⟨.v 300, .v 5, .v 6, .v 0, ⟨9, true⟩, 0, false, 0x0⟩) := by decide
theorem test_word_fcmp : decodeL 0x15C6000100C004E200000000#96 = .ok (.fcmp .un .f64 ⟨.v 0, .v 4, .v 6, .v 0, ⟨9, true⟩, 17, false, 0x0⟩) := by decide
theorem test_word_fcvt : decodeL 0x16209601400004C100000001#96 = .ok (.fcvt 2 0 ⟨.v 300, .v 5, .v 0, .v 0, ⟨9, true⟩, 0, true, 0x1⟩) := by decide
theorem test_word_frnd : decodeL 0x17109601400004C000000000#96 = .ok (.frnd .f32 .rz ⟨.v 300, .v 5, .v 0, .v 0, ⟨9, true⟩, 0, false, 0x0⟩) := by decide
theorem test_word_fclass : decodeL 0x18409601400004C000000000#96 = .ok (.fclass .f16x2 ⟨.v 300, .v 5, .v 0, .v 0, ⟨9, true⟩, 0, false, 0x0⟩) := by decide
theorem test_word_vsfu : decodeL 0x19039601400004C000000000#96 = .ok (.vsfu .exp2 ⟨.v 300, .v 5, .v 0, .v 0, ⟨9, true⟩, 0, false, 0x0⟩) := by decide
theorem test_word_plog : decodeL 0x20030007C08004E200000000#96 = .ok (.plog .andn ⟨.v 0, .v 31, .v 4, .v 0, ⟨9, true⟩, 17, false, 0x0⟩) := by decide
theorem test_word_vshuf : decodeL 0x2802960140C004C000000000#96 = .ok (.vshuf .down ⟨.v 300, .v 5, .v 6, .v 0, ⟨9, true⟩, 0, false, 0x0⟩) := by decide
theorem test_word_vvote : decodeL 0x2902C287800004C000000000#96 = .ok (.vvote .ballot ⟨.q 5, .v 30, .v 0, .v 0, ⟨9, true⟩, 0, false, 0x0⟩) := by decide
theorem test_word_vredux : decodeL 0x2A429601400004C000000000#96 = .ok (.vredux .max .f32 ⟨.v 300, .v 5, .v 0, .v 0, ⟨9, true⟩, 0, false, 0x0⟩) := by decide
theorem test_word_vscan : decodeL 0x2B119601400004C000000000#96 = .ok (.vscan .add .w32 true ⟨.v 300, .v 5, .v 0, .v 0, ⟨9, true⟩, 0, false, 0x0⟩) := by decide
theorem test_word_vbcast : decodeL 0x2C00960140C004C000000000#96 = .ok (.vbcast ⟨.v 300, .v 5, .v 6, .v 0, ⟨9, true⟩, 0, false, 0x0⟩) := by decide
theorem test_word_acqWait : decodeL 0x3000100000000F8000000010#96 = .ok (.acqWait ⟨.v 32, .v 0, .v 0, .v 0, ⟨31, false⟩, 0, false, 0x10⟩) := by decide
theorem test_word_acqTry : decodeL 0x3001100000000F8A00000010#96 = .ok (.acqTry ⟨.v 32, .v 0, .v 0, .v 0, ⟨31, false⟩, 5, false, 0x10⟩) := by decide
theorem test_word_rel : decodeL 0x3100BC0000000F8000000008#96 = .ok (.rel ⟨.v 376, .v 0, .v 0, .v 0, ⟨31, false⟩, 0, false, 0x8⟩) := by decide
theorem test_word_aliasOp : decodeL 0x32000A0100000F8000000000#96 = .ok (.aliasOp ⟨.v 20, .v 4, .v 0, .v 0, ⟨31, false⟩, 0, false, 0x0⟩) := by decide
theorem test_word_rmov : decodeL 0x33000A0100000F8000000000#96 = .ok (.rmov ⟨.v 20, .v 4, .v 0, .v 0, ⟨31, false⟩, 0, false, 0x0⟩) := by decide
theorem test_word_unmap : decodeL 0x34000A0000000F8000000000#96 = .ok (.unmap ⟨.v 20, .v 0, .v 0, .v 0, ⟨31, false⟩, 0, false, 0x0⟩) := by decide
theorem test_word_give : decodeL 0x3500000500000F800000003F#96 = .ok (.give ⟨.v 0, .v 20, .v 0, .v 0, ⟨31, false⟩, 0, false, 0x3F⟩) := by decide
theorem test_word_take : decodeL 0x3600048000000F8000000005#96 = .ok (.take ⟨.v 9, .v 0, .v 0, .v 0, ⟨31, false⟩, 0, false, 0x5⟩) := by decide
theorem test_word_takeTry : decodeL 0x3601048000000FA200000005#96 = .ok (.takeTry ⟨.v 9, .v 0, .v 0, .v 0, ⟨31, false⟩, 17, false, 0x5⟩) := by decide
theorem test_word_copy : decodeL 0x37009662000004C0DEADBEEF#96 = .ok (.copy ⟨.v 300, .imm, .v 0, .v 0, ⟨9, true⟩, 0, false, 0xDEADBEEF⟩) := by decide
theorem test_word_mapq : decodeL 0x38009601400004C000000000#96 = .ok (.mapq ⟨.v 300, .v 5, .v 0, .v 0, ⟨9, true⟩, 0, false, 0x0⟩) := by decide
theorem test_word_ld : decodeL 0x4003030080000F8000000008#96 = .ok (.ld false .none false .b64 ⟨.v 6, .v 2, .v 0, .v 0, ⟨31, false⟩, 0, false, 0x8⟩) := by decide
theorem test_word_st : decodeL 0x4102000080009200FFFFFFFC#96 = .ok (.st false .b32 ⟨.v 0, .v 2, .v 0, .v 9, ⟨4, false⟩, 0, false, 0xFFFFFFFC⟩) := by decide
theorem test_word_lds : decodeL 0x42099601400004C000000002#96 = .ok (.lds true .b16 ⟨.v 300, .v 5, .v 0, .v 0, ⟨9, true⟩, 0, false, 0x2⟩) := by decide
theorem test_word_sts : decodeL 0x43040001400084C000000010#96 = .ok (.sts .b128 ⟨.v 0, .v 5, .v 0, .v 8, ⟨9, true⟩, 0, false, 0x10⟩) := by decide
theorem test_word_ldx : decodeL 0x44009601400004C000000001#96 = .ok (.ldx false .b8 ⟨.v 300, .v 5, .v 0, .v 0, ⟨9, true⟩, 0, false, 0x1⟩) := by decide
theorem test_word_stx : decodeL 0x45030001400084C000000000#96 = .ok (.stx .b64 ⟨.v 0, .v 5, .v 0, .v 8, ⟨9, true⟩, 0, false, 0x0⟩) := by decide
theorem test_word_atom : decodeL 0x469905008180EF8000000000#96 = .ok (.atom .cas true .span ⟨.v 10, .v 2, .v 12, .v 14, ⟨31, false⟩, 0, false, 0x0⟩) := by decide
theorem test_word_atoms : decodeL 0x47250501418004C000000004#96 = .ok (.atoms .and false .block ⟨.v 10, .v 5, .v 12, .v 0, ⟨9, true⟩, 0, false, 0x4⟩) := by decide
theorem test_word_atomx : decodeL 0x48400501418004C000000000#96 = .ok (.atomx .add false .course ⟨.v 10, .v 5, .v 12, .v 0, ⟨9, true⟩, 0, false, 0x0⟩) := by decide
theorem test_word_red : decodeL 0x496A000080A00F8000000000#96 = .ok (.red .fadd false .pier ⟨.v 0, .v 2, .v 5, .v 0, ⟨31, false⟩, 0, false, 0x0⟩) := by decide
theorem test_word_csum : decodeL 0x50020001400004C000000000#96 = .ok (.csum 2 ⟨.v 0, .v 5, .v 0, .v 0, ⟨9, true⟩, 0, false, 0x0⟩) := by decide
theorem test_word_csumf : decodeL 0x51030001400004C000000000#96 = .ok (.csumf 3 ⟨.v 0, .v 5, .v 0, .v 0, ⟨9, true⟩, 0, false, 0x0⟩) := by decide
theorem test_word_retired : decodeL 0xEC5A960140C074C000000000#96 = .ok (.retired 12 0x5A ⟨.v 300, .v 5, .v 6, .v 7, ⟨9, true⟩, 0, false, 0x0⟩) := by decide

/-! ### A small state: block 1 on core 0 with one warp, and a page of device memory -/

/-- A page of PASID 5 that maps 64 KiB from `vb` to device address `pb`, with every right. -/
def page (vb pb : Nat) : Page := { pasid := 5, vbase := vb, size := 65536, host := false, pbase := pb, r := true, w := true, x := true }
/-- A page of host memory. -/
def hostPage : Page := { pasid := 5, vbase := 0x60000, size := 65536, host := true, pbase := 0x1000, r := true, w := true, x := false }
/-- Core 0: rows 0 to 15 held by the warp, the pages in its translations. -/
def c0 : Core := { rows := ⟨(List.range 16).map fun n => (n, { count := 1 })⟩, tlb := [page 0x30000 0x10000, hostPage] }
/-- A warp in user mode with a handler, its save slot in the page, V0 to V15 mapped, one split of all lanes. -/
def w0 : Warp :=
  { spc := 0x30000, tvec := 0x30100, tframe := 0x3C000, map := ⟨(List.range 16).map fun n => (n, some n)⟩
    splits := ⟨[(0, some { lpc := 0x30300, mask := BitVec.allOnes 64 })]⟩ }
/-- The same warp with S registers. -/
def wS (l : List (Nat × DWord)) : Warp := { w0 with sregs := ⟨l⟩ }
/-- Its block. -/
def b0 : Block := { uid := 1, core := some 0, pasid := 5, kd := { scratch := 65536, rows := 16, tiles := 4, accs := 4, drainSet := 1, lbase := 0x30300 } }
def bk (w : Warp) (b : Block := b0) : Block := { b with warps := ⟨[(0, some w)]⟩ }
/-- The device: ready, partition 0 with course 0, the block resident, its stream selected. -/
def st (w : Warp) (b : Block := b0) (c : Core := c0) : State :=
  { State.reset with
    dev := { State.reset.dev with ready := true }, cores := ⟨[(0, c)]⟩, blocks := ⟨[(1, some (bk w b))]⟩, sel := { block := 1 }, serial := 100, nextUid := 2
    parts := ⟨[(0, { courses := 1, en := true, memSize := ⟨[(0, 2 ^ 30)]⟩ })]⟩ }

/-- A property of an optional value that a check of it gives. -/
theorem of_all {α : Type} {p : α → Prop} {o : Option α} (h : ∀ x ∈ o.toList, p x) : ∀ x, o = some x → p x := fun x e => h x (by simp [e])

theorem lookupCells_mem {α : Type} (d : α) (k : Nat) (l : List (Nat × α)) : lookupCells d k l = d ∨ ∃ e ∈ l, e.2 = lookupCells d k l := by
  induction l with
  | nil => exact .inl rfl
  | cons e t ih =>
    simp only [lookupCells]
    split
    · exact .inr ⟨e, by simp, rfl⟩
    · rcases ih with h | ⟨x, hx, h⟩
      · exact .inl h
      · exact .inr ⟨x, by simp [hx], h⟩

/-- The numbers of a state are fresh where a check over what it lists says so. -/
theorem fresh_of {s : State} (h : (s.ops.all (fun o => o.id < s.serial) && s.transit.all (fun t => t.id < s.serial)
    && s.cores.cells.all (fun e => e.2.flight.all fun x => x.id < s.serial)
    && (allBlocks s).all fun b => (liveWarps b).all fun w => w.reqs.all (fun r => r.id < s.serial) && w.sfu.all fun e => e.id < s.serial) = true) : FreshNumbers s := by
  simp only [Bool.and_eq_true, List.all_eq_true, decide_eq_true_eq] at h
  refine ⟨h.1.1.1, h.1.1.2, ?_, fun b hb w hw => h.2 b hb w hw⟩
  intro c x hx
  rcases lookupCells_mem (d := ({} : Core)) c s.cores.cells with e | ⟨y, hy, e⟩
  · have : getCore s c = {} := e
    rw [this] at hx; exact absurd hx List.not_mem_nil
  · have : getCore s c = y.2 := e.symm
    rw [this] at hx; exact h.1.2 y hy x hx

/-- An L-instruction is ready where a check says so. -/
theorem ready_of {s : State} {b : Block} {w : Warp} {i : Instr} {f : LF} {m : LFmt} {p : Split} (h1 : me s = some (b, w)) (h2 : lfmt i = some m) (h3 : i.lf = some f)
    (h4 : getSplit w s.sel.split = some p)
    (h : ((checkedNames m f).all (fun n => (mapOf w n).isSome) && !interlocked b (getCore s (coreNo b)) w (usedRows w m f) (predReads i m f ++ predWrites i m f)
      && (shortQueue w (popList m f)).isNone && (pushQueue m f).all (fun q => (w.qs.get [] q).length < 16)
      && ((!lmHzf w && !b.hazMode) || (hazardProducer b (getCore s (coreNo b)) w (usedRows w m f) (predReads i m f ++ predWrites i m f)).isNone)) = true) :
    Ready s b w i f m p := by
  simp only [Bool.and_eq_true, List.all_eq_true, Bool.or_eq_true, Option.isNone_iff_eq_none, Bool.not_eq_true'] at h
  obtain ⟨⟨⟨⟨a, b1⟩, c⟩, d⟩, e⟩ := h
  refine ⟨h1, h2, h3, h4, a, b1, c, ?_, ?_⟩
  · intro q hq; rw [hq] at d; simpa using d
  · intro hz
    rcases e with e | e
    · rcases hz with hz | hz <;> simp [hz] at e
    · exact e

/-- No watchpoint is armed where every core's are off. -/
theorem noWatch_of {s : State} {l : ALoc} {n k : Nat} (h : (s.cores.cells.all fun e => (List.range 4).all fun m => !wpMatch e.2.dbg m l n k) = true) : NoWatch s l n k := by
  intro e he m hm
  simp only [List.all_eq_true, Bool.not_eq_true', List.mem_range] at h
  exact h e he m hm

theorem unanswered_run {w : Warp} (h : w.swait = .run) : Unanswered w := by refine ⟨?_, ?_, ?_⟩ <;> intros <;> rw [h] <;> simp
/-- Operand fields VD, VA, VB, VC, unguarded, with PD and IMM. -/
def lf (vd va vb vc : Name) (pd : BitVec 5 := 0) (imm : Word := 0) : LF := ⟨vd, va, vb, vc, ⟨31, false⟩, pd, false, imm⟩

/-! ### Ill-formed terms, each refused by the check it breaks (R122, R126 to R133, R241 to R243) -/

theorem wellformed_base : WellFormed (.vialu .add .i32 (lf (.v 8) (.v 4) (.v 6) (.v 0))) = true := by decide
theorem illformed_name_range : WellFormed (.vialu .add .i32 (lf (.v 384) (.v 4) (.v 6) (.v 0))) = false ∧ WellFormed (.vialu .add .i32 (lf (.v 8) (.q 8) (.v 6) (.v 0))) = false := by decide
theorem illformed_unused_field : WellFormed (.vialu .add .i32 (lf (.v 8) (.v 4) (.v 6) (.v 1))) = false := by decide
theorem illformed_unary_second : WellFormed (.vialu .popc .i32 (lf (.v 8) (.v 4) (.v 6) (.v 0))) = false := by decide
theorem illformed_predicate_number : WellFormed (.plog .and (lf (.v 0) (.v 32) (.v 1) (.v 0))) = false ∧ WellFormed (.plog .and (lf (.v 0) (.v 31) (.v 1) (.v 0))) = true := by decide
theorem illformed_imm_source : WellFormed (.fcvt 0xB 0xA (lf (.v 8) .imm (.v 0) (.v 0))) = false := by decide
theorem illformed_queue_source : WellFormed (.vialu .add .i32 (lf (.v 8) (.q 4) (.v 6) (.v 0))) = false ∧ WellFormed (.vialu .add .i32 (lf (.v 8) (.q 3) (.v 6) (.v 0))) = true := by decide
theorem illformed_queue_destination :
    WellFormed (.vialu .add .i32 (lf (.q 4) (.v 4) (.v 6) (.v 0))) = false ∧ WellFormed (.vbcast (lf (.q 3) (.v 4) (.v 6) (.v 0))) = false ∧ WellFormed (.vbcast (lf (.q 7) (.v 4) (.v 6) (.v 0))) = true := by decide
theorem illformed_constant_destination : WellFormed (.vialu .add .i32 (lf .lid (.v 4) (.v 6) (.v 0))) = false := by decide
theorem illformed_group : WellFormed (.fadd .f64 .rn false false (lf (.v 7) (.v 4) (.v 6) (.v 0))) = false ∧ WellFormed (.ld false .none false .b128 (lf (.v 6) (.v 4) (.v 0) (.v 0))) = false := by decide
theorem illformed_base8 : WellFormed (.acqWait { lf (.v 12) (.v 0) (.v 0) (.v 0) with imm := 8 }) = false := by decide
theorem illformed_acq_count :
    WellFormed (.acqWait (lf (.v 8) (.v 0) (.v 0) (.v 0))) = false ∧ WellFormed (.acqTry { lf (.v 8) (.v 0) (.v 0) (.v 0) with imm := 12 }) = false
    ∧ WellFormed (.rel { lf (.v 376) (.v 0) (.v 0) (.v 0) with imm := 16 }) = false ∧ WellFormed (.rel { lf (.v 376) (.v 0) (.v 0) (.v 0) with imm := 8 }) = true := by decide
theorem illformed_qb_base : WellFormed (.ld true .none false .b32 (lf (.v 8) (.v 2) (.v 0) (.v 0))) = false ∧ WellFormed (.st true .b32 (lf (.v 0) (.v 2) (.q 4) (.v 8))) = false := by decide
theorem illformed_map_name : WellFormed (.aliasOp (lf (.v 8) (.q 0) (.v 0) (.v 0))) = false := by decide
theorem illformed_guard : WellFormed (.ljoin { lf (.v 0) (.v 0) (.v 0) (.v 0) with g := ⟨30, false⟩ }) = false ∧ WellFormed (.lnop { lf (.v 0) (.v 0) (.v 0) (.v 0) with g := ⟨31, true⟩ }) = false := by decide
theorem illformed_pd : WellFormed (.fmin .f32 { lf (.v 8) (.v 4) (.v 6) (.v 0) with pd := 1 }) = false := by decide
theorem illformed_xa : WellFormed (.vialu .and .i32 { lf (.v 8) (.v 4) (.v 6) (.v 0) with xa := true }) = false ∧ WellFormed (.vialu .mul .i32 { lf (.v 8) (.v 4) (.v 6) (.v 0) with xa := true }) = true := by decide
theorem illformed_free_imm :
    WellFormed (.fmin .f32 { lf (.v 8) (.v 4) (.v 6) (.v 0) with imm := 1 }) = false ∧ WellFormed (.fmin .f32 { lf (.v 8) .imm (.v 6) (.v 0) with imm := 1 }) = true := by decide
theorem illformed_own_imm : WellFormed (.rep { lf (.v 0) (.v 0) (.v 0) (.v 0) with imm := 0x4000 }) = false ∧ WellFormed (.give { lf (.v 0) (.v 4) (.v 0) (.v 0) with imm := 64 }) = false := by decide
theorem illformed_ljoin_none : WellFormed (.ljoin { lf (.v 0) (.v 0) (.v 0) (.v 0) with imm := 0x10001 }) = false := by decide
theorem illformed_lpart_size : WellFormed (.lpart (lf (.v 0) (.v 0) (.v 0) (.v 0))) = false ∧ WellFormed (.lpart { lf (.v 0) (.v 0) (.v 0) (.v 0) with imm := 7 }) = false := by decide
theorem illformed_abs_type : WellFormed (.vialu .abs .w32 (lf (.v 8) (.v 4) (.v 0) (.v 0))) = false := by decide
theorem illformed_float_logic : WellFormed (.vredux .and .f32 (lf (.v 8) (.v 4) (.v 0) (.v 0))) = false ∧ WellFormed (.vscan .xor .f32 false (lf (.v 8) (.v 4) (.v 0) (.v 0))) = false := by decide
theorem illformed_convert : WellFormed (.fcvt 0xA 0xA (lf (.v 8) (.v 4) (.v 0) (.v 0))) = false ∧ WellFormed (.fcvt 0xF 0xA (lf (.v 8) (.v 4) (.v 0) (.v 0))) = false
    ∧ WellFormed (.fcvt 0xA 0xF (lf (.v 8) (.v 4) (.v 0) (.v 0))) = false := by decide
theorem illformed_sign_extension : WellFormed (.ld false .none true .b32 (lf (.v 8) (.v 4) (.v 0) (.v 0))) = false ∧ WellFormed (.lds true .b64 (lf (.v 8) (.v 4) (.v 0) (.v 0))) = false := by decide
theorem illformed_wide_fadd : WellFormed (.atom .fadd true .span (lf (.v 8) (.v 4) (.v 6) (.v 0))) = false ∧ WellFormed (.satom .fadd true .span 8 9 10) = false := by decide
theorem illformed_atomic_scope : WellFormed (.atoms .add false .pier (lf (.v 8) (.v 4) (.v 6) (.v 0))) = false ∧ WellFormed (.atomx .add false .block (lf (.v 8) (.v 4) (.v 6) (.v 0))) = false := by decide
theorem illformed_red_operation : WellFormed (.red .xchg false .span (lf (.v 0) (.v 4) (.v 6) (.v 0))) = false ∧ WellFormed (.red .cas false .span (lf (.v 0) (.v 4) (.v 6) (.v 0))) = false := by decide
theorem illformed_accumulator : WellFormed (.aclr 48) = false ∧ WellFormed (.mma 63 0 0 0) = false ∧ WellFormed (.drain 48 0 0 none) = false ∧ WellFormed (.aclr 47) = true := by decide
theorem illformed_csr : WellFormed (.csrr 8 0x04) = false ∧ WellFormed (.csrw 0x33 8) = false := by decide
theorem illformed_clz : WellFormed (.salu .clz 8 9 1) = false ∧ WellFormed (.salu .popc 8 9 1) = false := by decide

/-- Words that decode refuses, at least one for each SUBC of R133; of several reasons the lowest is given (R132). -/
theorem test_refused_S :
    decodeS 0x2C000000#32 0 = .refused .undefinedOp ∧ decodeS 0x000000FF#32 0 = .refused .undefinedSub ∧ decodeS 0x00100000#32 0 = .refused .reservedField
    ∧ decodeS 0xA0800004#32 0 = .refused .absentCsr ∧ decodeS 0x90000030#32 0 = .refused .undefinedSub := by decide
theorem test_refused_L :
    decodeL 0x0F00000000000F8000000000#96 = .refused .undefinedOp
    ∧ decodeL 0x0806040100C00F8000000000#96 = .refused .undefinedSub
    ∧ decodeL 0x0800046300C00F8000000000#96 = .refused .undefinedName
    ∧ decodeL 0x0800C20100C00F8000000000#96 = .refused .nameNotAllowed
    ∧ decodeL 0x0800040100C01F8000000000#96 = .refused .reservedField
    ∧ decodeL 0x10C0038100C00F8000000000#96 = .refused .misalignedGroup
    ∧ decodeL 0x010000000000000000000000#96 = .refused .guardNotAllowed
    ∧ decodeL 0x0806FFFFC0C01F8000000000#96 = .refused .undefinedSub := by decide

/-! ### Values and single steps, with results from the spec's worked examples and tables -/

/-- The field `g` of the warp after a step of the small state; `d` where the step stops. -/
def afterW {α : Type} (s : State) (i : Instr) (d : α) (g : Warp → α) : α := match exec i s with | .next t => ((getWarp t 1 0).map g).getD d | _ => d
/-- A lane of the value in flight that an L-instruction leaves, the rows being mapped one to one. -/
def flies (s : State) (i : Instr) (l : Nat) : Option (Word × Nat) :=
  match exec i s with
  | .next t => (getCore t 0).flight.head?.map fun y => (y.vals.getD l 0, y.due - (getCore s 0).cyc)
  | _ => none
/-- The small state with a value in every lane of a row. -/
def rowsOf (v : Nat → Nat → Word) : State :=
  st w0 b0 { c0 with rows := ⟨(List.range 16).map fun n => (n, { count := 1, lanes := (List.range 64).map (v n) })⟩ }

/-- 06_arithmetic_notes, the FP8 table. -/
theorem test_fcvt_to_f8e4 :
    fConv 3 0 .rn {} false 0x43E00000 = (0x7E, 0) ∧ fConv 3 0 .rn {} false 0x43E80000 = (0x7E, 1) ∧ fConv 3 0 .rn {} false 0x43EB0000 = (0x7F, 5) ∧ fConv 3 0 .rn {} true 0x43EB0000 = (0x7E, 5)
    ∧ fConv 3 0 .rz {} false 0x43EB0000 = (0x7E, 1) ∧ fConv 3 0 .rz {} false 0x43FA0000 = (0x7E, 5) ∧ fConv 3 0 .rn { lrnd := true } false 0x43EB0000 = (0x7E, 1)
    ∧ fConv 3 0 .rn {} false 0x7F800000 = (0x7F, 16) ∧ fConv 3 0 .rn {} true 0x7F800000 = (0x7E, 0) ∧ fConv 3 0 .rn {} false 0x3A800000 = (0, 3) ∧ fConv 3 0 .rn {} false 0x7FC00000 = (0x7F, 0) := by
  decide +kernel
theorem test_fcvt_to_f8e5_and_f4 :
    fConv 4 0 .rn {} false 0x476A6000 = (0x7B, 1) ∧ fConv 4 0 .rn {} false 0x47723000 = (0x7C, 5) ∧ fConv 4 0 .rn {} true 0x47723000 = (0x7B, 5) ∧ fConv 7 0 .rn {} false 0x7F800000 = (7, 0) := by
  decide +kernel
/-- The sum that leaves the INT32 range, wrapping and saturating. -/
theorem test_int_accumulator :
    (addInt32 false 2147400000 100000).1 = intPat 32 (-2147467296) ∧ addInt32 true 2147400000 100000 = (2147483647, true) ∧ addInt32 true 2147483647 (-60000) = (2147423647, false) := by decide

/-- R163: a shift by 64 or more gives 0, and sra of a negative value all ones. -/
theorem test_salu_shifts :
    afterW (st (wS [(6, 1), (7, 64)])) (.salu .shl 5 6 7) none (fun w => some (sreg w 5, w.spc)) = some (0, 0x30004)
    ∧ afterW (st (wS [(6, 0x8000000000000000), (7, 200)])) (.salu .sra 5 6 7) 0 (fun w => sreg w 5) = 0xFFFFFFFFFFFFFFFF := by decide
/-- R163: S0 reads 0 and keeps it. -/
theorem test_s0_discards : afterW (st (wS [(6, 1)])) (.salu .add 0 6 6) none (fun w => some (sreg w 0, w.spc)) = some (0, 0x30004) := by decide
/-- 14_scalar_notes: sbeq with O = 2 skips one word; not taken, the sbr of 8999 words. -/
theorem test_sbeq_taken : afterW (st (wS [(4, 7), (5, 7)])) (.sbeq 4 5 2) 0 (fun w => w.spc) = 0x30008 := by decide
theorem test_sbr_links : afterW (st (wS [])) (.sbr 9 8999) none (fun w => some (sreg w 9, w.spc)) = some (0x30004, 0x38C9C) := by decide
/-- 14_scalar_notes: sjr to an address that is no word boundary traps ALIGN (cause 6) and enters the handler. -/
theorem test_sjr_align : afterW (st (wS [(8, 0x30402)])) (.sjr 0 8) none (fun w => some (w.spc, w.handler, sreg w 1)) = some (0x30100, true, 0x3C000) := by decide +kernel
theorem test_slith_keeps_low : afterW (st (wS [(7, 0x1122334455667788)])) (.slith 7 0xAABBCCDD) 0 (fun w => sreg w 7) = 0xAABBCCDD55667788 := by decide

/-- 15_lane_isa: vbfe.sx with 0x0804 takes bits [11:4] and sign-extends; an integer operation lands 4 clocks after its issue (R57). -/
theorem test_vbfe_sign_extends :
    flies (rowsOf fun n _ => if n = 4 then 0xF80 else 0) (.vbfe true (lf (.v 3) (.v 4) .imm (.v 0) 0 0x0804)) 63 = some (0xFFFFFFF8, 4) := by decide +kernel
/-- R195: add wraps without .sat and clamps with it, per 16-bit element. -/
theorem test_vialu_saturates :
    ((flies (rowsOf fun n _ => if n = 4 then 0x7FFF8000 else 0x00018000) (.vialu .add .i16x2 { lf (.v 3) (.v 4) (.v 6) (.v 0) with xa := true }) 0).map (·.1) = some 0x7FFF8000)
    ∧ (flies (rowsOf fun n _ => if n = 4 then 0x7FFF8000 else 0x00018000) (.vialu .add .i16x2 (lf (.v 3) (.v 4) (.v 6) (.v 0))) 0).map (·.1) = some 0x80000000 := by decide +kernel
/-- 17_lane_movement_isa: the exclusive scan of flags in lanes 3, 5, 6 and 40 gives lane 40 the value 3 and lane 63 the value 4. -/
theorem test_vscan_exclusive :
    (fun l => (flies (rowsOf fun n l => if n = 10 ∧ (l = 3 ∨ l = 5 ∨ l = 6 ∨ l = 40) then 1 else 0) (.vscan .add .i32 true (lf (.v 11) (.v 10) (.v 0) (.v 0))) l).map (·.1)) 40 = some 3
    ∧ (flies (rowsOf fun n l => if n = 10 ∧ (l = 3 ∨ l = 5 ∨ l = 6 ∨ l = 40) then 1 else 0) (.vscan .add .i32 true (lf (.v 11) (.v 10) (.v 0) (.v 0))) 63).map (·.1) = some 4 := by decide +kernel
/-- The ballot entry of the same example, and popc of it. -/
theorem test_vvote_ballot :
    (let s := st { w0 with preds := ⟨[(3, 0x0000010000000068)]⟩ }
     match exec (.vvote .ballot (lf (.q 4) (.v 3) (.v 0) (.v 0))) s with | .next t => (getCore t 0).flight.head?.map fun y => (y.val, y.due - (getCore s 0).cyc) | _ => none) = some (0x0000010000000068, 6)
    ∧ afterW (st (wS [(7, 0x0000010000000068)])) (.salu .popc 8 7 0) 0 (fun w => sreg w 8) = 4 := by decide +kernel
/-- R2, R169: a 4-byte slds takes the lowest address as the least significant byte and extends with zeros. -/
theorem test_slds_byte_order :
    afterW (st (wS [(8, 0x100), (9, -1)]) { b0 with spad := ⟨[(0x104, 0x88), (0x105, 0x77), (0x106, 0x66), (0x107, 0x55), (0x108, 0x44)]⟩ }) (.slds 9 8 2 4) 0 (fun w => sreg w 9) = 0x55667788 := by decide +kernel
/-- R302, R305: the frame's first bytes hold the cause SOFT and the trap's code. -/
theorem test_trap_frame :
    (match exec (.trap 0x1234) (st (wS [])) with | .next t => some ((List.range 4).map fun i => gRead t (.dev (0x1C000 + i))) | _ => none) = some [0x0E, 0x00, 0x34, 0x12] := by decide +kernel
/-- An unmapped name traps UNMAPPED (R48): V16 of the small warp. -/
theorem test_unmapped : afterW (st w0) (.vialu .add .i32 (lf (.v 16) (.v 4) (.v 6) (.v 0))) none (fun w => some (w.handler, w.spc)) = some (true, 0x30100) := by decide +kernel

/-! ### Witnesses: the scalar stream -/

theorem witness_SaluWritesItsFunction :
    me (st w0) = some (bk w0, w0)
    ∧ ((0x04000014#32).toNat / 2 ^ 26 = 0x01 ∧ 20 ≤ (0x04000014#32).toNat % 2 ^ 8)
    ∧ ((0x04000112#32).toNat / 2 ^ 26 = 0x01 ∧ (0x04000112#32).toNat % 2 ^ 8 = 18 ∧ (0x04000112#32).toNat / 2 ^ 8 % 2 ^ 6 ≠ 0)
    ∧ ((0x04003F13#32).toNat / 2 ^ 26 = 0x01 ∧ (0x04003F13#32).toNat % 2 ^ 8 = 19 ∧ (0x04003F13#32).toNat / 2 ^ 8 % 2 ^ 6 ≠ 0) :=
  ⟨rfl, by decide, by decide, by decide⟩

theorem witness_ImmediateForms :
    me (st w0) = some (bk w0, w0)
    ∧ (6 ≤ (0x18000040#32).toNat / 2 ^ 26 ∧ (0x18000040#32).toNat / 2 ^ 26 ≤ 8 ∧ (0x18000040#32).toNat / 2 ^ 6 % 2 ^ 8 ≠ 0)
    ∧ ((0x240FC000#32).toNat / 2 ^ 26 = 9 ∧ (0x240FC000#32).toNat / 2 ^ 14 % 2 ^ 6 ≠ 0) := ⟨rfl, by decide, by decide⟩

theorem witness_PairForms :
    me (st w0) = some (bk w0, w0)
    ∧ ((0x28000002#32).toNat / 2 ^ 26 = 0x0A ∧ 2 ≤ (0x28000002#32).toNat % 2 ^ 14)
    ∧ ((0x28004001#32).toNat / 2 ^ 26 = 0x0A ∧ (0x28004001#32).toNat % 2 ^ 14 < 2 ∧ (0x28004001#32).toNat / 2 ^ 14 % 2 ^ 6 ≠ 0) :=
  ⟨rfl, by decide, by decide⟩

theorem witness_CompareBranches :
    (∃ p, branchOf (.sblt 8 9 0x3FFF) = some (8, 9, 0x3FFF, p) ∧ p (sreg (wS [(8, 1), (9, 2)]) 8) (sreg (wS [(8, 1), (9, 2)]) 9) ∧ ¬p (sreg w0 8) (sreg w0 9))
    ∧ me (st (wS [(8, 1), (9, 2)])) = some (bk (wS [(8, 1), (9, 2)]), wS [(8, 1), (9, 2)]) ∧ me (st w0) = some (bk w0, w0) :=
  ⟨⟨_, rfl, by decide, by decide⟩, rfl, rfl⟩

theorem witness_BranchAndLink : me (st w0) = some (bk w0, w0) := rfl

theorem witness_JumpThroughRegister :
    me (st (wS [(8, 0x30400)])) = some (bk (wS [(8, 0x30400)]), wS [(8, 0x30400)]) ∧ (sreg (wS [(8, 0x30400)]) 8).toNat % 4 = 0
    ∧ me (st (wS [(8, 0x30401)])) = some (bk (wS [(8, 0x30401)]), wS [(8, 0x30401)]) ∧ (sreg (wS [(8, 0x30401)]) 8).toNat % 4 ≠ 0
    ∧ SlotAt (st (wS [(8, 0x30401)])) (bk (wS [(8, 0x30401)])) (wS [(8, 0x30401)]) (.dev 0x1C000) ∧ (0x4C000001#32).toNat / 2 ^ 26 = 0x13 :=
  ⟨rfl, by decide, rfl, by decide, by unfold SlotAt; decide, by decide⟩

/-- The warp with an address in S8, for accesses of 8 bytes at 0x38008. -/
def wA : Warp := wS [(8, 0x38008), (9, 0x1122334455667788)]

/-- The same warp with a buffered store of those 8 bytes, and with a single step of its S-stream. -/
def wFwd : Warp := { wA with sb := [{ line := .dev 0x18000, vline := 0x38000, pasid := 5, bytes := ⟨(List.range 8).map fun k => (8 + k, some 0x77)⟩, ids := [50], ord := 50 }] }
def wStp : Warp := { wA with sstep := some (false, 0) }

theorem loadNow_of {s : State} {b : Block} {w : Warp} {ea : DWord} {l : GLoc} {n : Nat} (hw : w.swait = .run)
    (h : (decide (ea.toNat % n = 0) && addrOk s b.part ea && decide (xlat (getCore s (coreNo b)).tlb b.pasid ea false false = .at_ l) && !olderReq w s.serial (.g l) n) = true) :
    LoadNow s b w ea l n := by
  simp only [Bool.and_eq_true, decide_eq_true_eq, Bool.not_eq_true'] at h
  obtain ⟨⟨⟨a, b1⟩, c⟩, d⟩ := h
  exact ⟨unanswered_run hw, a, b1, c, d⟩

theorem witness_LoadsIssue :
    (me (st wFwd) = some (bk wFwd, wFwd) ∧ LoadNow (st wFwd) (bk wFwd) wFwd (sreg wFwd 8 + (0 : BitVec 12).signExtend 64) (.dev 0x18008) (2 ^ (3 : BitVec 2).toNat)
      ∧ (∀ j, j < 8 → (sbByte (olderEnts wFwd 100) (gAdd (.dev 0x18008) j)).isSome) ∧ drainHolds (st wFwd) 1 (.dev 0x18008) = false
      ∧ olderOp (st wFwd) 1 0 100 (.g (.dev 0x18008)) 8 = false ∧ forwardPois wFwd 100 (.dev 0x18008) 8 = false ∧ NoWatch (st wFwd) (.g (.dev 0x18008)) 8 2)
    ∧ drainHolds { st wFwd with transit := [{ id := 60, core := 0, block := 1, warp := 0, engine := true, ent := { line := .dev 0x18000, vline := 0x38000, pasid := 5 } }] } 1 (.dev 0x18008) = true
    ∧ (me (st wA) = some (bk wA, wA) ∧ LoadNow (st wA) (bk wA) wA (sreg wA 8 + (0 : BitVec 12).signExtend 64) (.dev 0x18008) 8
      ∧ (∃ j, j < 8 ∧ sbByte (olderEnts wA 100) (gAdd (.dev 0x18008) j) = none) ∧ (∀ x y, GLoc.dev 0x18008 ≠ .peer x y) ∧ wA.sstep = none)
    ∧ (me (st wStp) = some (bk wStp, wStp) ∧ LoadNow (st wStp) (bk wStp) wStp (sreg wStp 8 + (0 : BitVec 12).signExtend 64) (.dev 0x18008) 8 ∧ wStp.sstep.isSome)
    ∧ (∀ k, me (st { wA with swait := .peer k }) = some (bk { wA with swait := .peer k }, { wA with swait := .peer k }))
    ∧ (me (st { wA with swait := .got 7 false }) = some (bk { wA with swait := .got 7 false }, { wA with swait := .got 7 false })
      ∧ (sreg wA 8 + (0 : BitVec 12).signExtend 64).toNat % 2 ^ (3 : BitVec 2).toNat = 0)
    ∧ (let w := wS [(8, 65528)]
       me (st w) = some (bk w, w) ∧ (sreg w 8 + (0 : BitVec 12).signExtend 64).toNat % 8 = 0 ∧ (sreg w 8 + (0 : BitVec 12).signExtend 64).toNat + 8 ≤ (bk w).kd.scratch
       ∧ olderOp (st w) 1 0 100 (.spad 1 65528) 8 = false ∧ (bk w).spadPois.get false (65528 / 64) = false ∧ NoWatch (st w) (.spad 1 65528) 8 2) :=
  ⟨⟨rfl, loadNow_of rfl (by decide), by decide, by decide, by decide, by decide, noWatch_of (by decide)⟩, by decide,
    ⟨rfl, loadNow_of rfl (by decide), ⟨0, by decide, by decide⟩, by intro x y; simp, rfl⟩, ⟨rfl, loadNow_of rfl (by decide), rfl⟩, fun _ => rfl, ⟨rfl, by decide⟩,
    ⟨rfl, by decide, by decide, by decide, by decide, noWatch_of (by decide)⟩⟩

/-- The request of that load, with its register S12 to be written, or with the instruction waiting for it. -/
def oLoad (d : Option Nat) : Op := { loadOp (st wA) (bk wA) wA 0x38008 (.dev 0x18008) 8 d with id := 90 }
def stLoad (d : Option Nat) : State := { st { wA with swait := if d.isSome then .run else .peer 90, sload := if d.isSome then [(90, 12)] else [] } with ops := [oLoad d] }
theorem witness_LoadsAnswered : ∀ d, d = some 12 ∨ d = none →
    findOp (stLoad d) 90 = some (oLoad d) ∧ (∀ y ∈ (stLoad d).ops, y.id = 90 → y = oLoad d) ∧ (∃ b w, getBlock (stLoad d) 1 = some b ∧ getWarp (stLoad d) 1 0 = some w ∧ w.reqs = [])
    ∧ (oLoad d).cls = .ld ∧ (oLoad d).kind = .load false false false ∧ (oLoad d).counted = false ∧ (oLoad d).dest = [] ∧ (oLoad d).result = [] ∧ (oLoad d).lines = []
    ∧ (∃ a, (oLoad d).todo = [a] ∧ a.loc = some (.g (.dev 0x18008)) ∧ laneFree (stLoad d) (oLoad d) a = true ∧ a.fwd.length = (oLoad d).bytes ∧ a.bPois = false)
    ∧ seenPois (stLoad d) 0 (.dev 0x18008) = false ∧ NoWatch (stLoad d) (.g (.dev 0x18008)) 8 2 ∧ 128 % (oLoad d).bytes = 0 ∧ gAddr (.dev 0x18008) % (oLoad d).bytes = 0 := by
  intro d h
  rcases h with rfl | rfl <;>
  exact ⟨rfl, by decide, ⟨_, _, rfl, rfl, rfl⟩, rfl, rfl, rfl, rfl, rfl, rfl, ⟨_, rfl, rfl, by decide, by decide, by decide⟩, by decide, noWatch_of (by decide), by decide, by decide⟩

theorem witness_ScalarStores :
    me (st wA) = some (bk wA, wA) ∧ (sreg wA 8 + (0 : BitVec 12).signExtend 64).toNat % 8 = 0 ∧ countN wA .st < 4095 ∧ Unanswered wA ∧ gAddr (.dev 0x18008) % 8 = 0
    ∧ addrOk (st wA) 0 (sreg wA 8 + (0 : BitVec 12).signExtend 64) = true ∧ xlat (getCore (st wA) 0).tlb 5 (sreg wA 8 + (0 : BitVec 12).signExtend 64) true false = .at_ (.dev 0x18008)
    ∧ sbRoom (sbMerges (st wA) 1 wA 100 (.dev 0x18008)) wA.sb 5 (.dev 0x18008) = true ∧ olderReq wA 100 (.g (.dev 0x18008)) 8 = false
    ∧ (let w := wS [(8, 65528)]; me (st w) = some (bk w, w) ∧ (sreg w 8 + (0 : BitVec 12).signExtend 64).toNat + 8 ≤ (bk w).kd.scratch ∧ countN w .st < 4095) :=
  ⟨rfl, by decide, by decide, unanswered_run rfl, by decide, by decide, by decide, by decide, by decide, rfl, by decide, by decide⟩

theorem atomicNow_of {s : State} {b : Block} {w : Warp} {ea : DWord} {l : GLoc} {n : Nat} (hw : w.swait = .run)
    (h : (decide (ea.toNat % n = 0) && addrOk s b.part ea && decide (xlat (getCore s (coreNo b)).tlb b.pasid ea false false = .at_ l)
      && decide (xlat (getCore s (coreNo b)).tlb b.pasid ea true false = .at_ l) && !sbHolds w s.serial l && !pathBusy s (coreNo b) s.serial l && !drainHolds s b.uid l
      && !olderOp s b.uid w.idx s.serial (.g l) n && !olderReq w s.serial (.g l) n) = true) : AtomicNow s b w ea l n := by
  simp only [Bool.and_eq_true, decide_eq_true_eq, Bool.not_eq_true'] at h
  obtain ⟨⟨⟨⟨⟨⟨⟨⟨a, b1⟩, c⟩, d⟩, e⟩, f⟩, g⟩, i⟩, j⟩ := h
  exact ⟨unanswered_run hw, a, b1, ⟨c, d⟩, e, f, g, i, j⟩

/-- Host memory at S8. -/
def wH : Warp := wS [(8, 0x60010)]

theorem witness_ScalarAtomics :
    (me (st wA) = some (bk wA, wA) ∧ AtomicNow (st wA) (bk wA) wA (sreg wA 8) (.dev 0x18008) 8 ∧ gPois (st wA) (.dev 0x18008) = false ∧ NoWatch (st wA) (.g (.dev 0x18008)) 8 3
      ∧ ∀ r, (st wA).scopes.get none (0x18008 / 128) = some r → insideScope .span r 0 = true)
    ∧ (me (st wH) = some (bk wH, wH) ∧ AtomicNow (st wH) (bk wH) wH (sreg wH 8) (.host 0x1010) 4)
    ∧ (me (st { wA with swait := .got 7 false }) = some (bk { wA with swait := .got 7 false }, { wA with swait := .got 7 false }) ∧ (sreg wA 8).toNat % 8 = 0) :=
  ⟨⟨rfl, atomicNow_of rfl (by decide), by decide, noWatch_of (by decide), by intro r h; cases h⟩, ⟨rfl, atomicNow_of rfl (by decide)⟩, rfl, by decide⟩

/-- A line whose last scope record is core 1's, of scope WARP. -/
def stScope : State := { st wA with scopes := ⟨[(0x18008 / 128, some ⟨.warp, 0, 0, 1⟩)]⟩ }

theorem witness_ScalarMemoryTraps :
    (let w := wS [(8, 0x38001)]; me (st w) = some (bk w, w) ∧ (sreg w 8 + (0 : BitVec 12).signExtend 64).toNat % 8 ≠ 0 ∧ (sreg w 8).toNat % 4 ≠ 0
      ∧ SlotAt (st w) (bk w) w (.dev 0x1C000) ∧ (liveSplits w).head? = some (0, { lpc := 0x30300, mask := BitVec.allOnes 64 }) ∧ w.handler = false ∧ w.tvec ≠ 0)
    ∧ (let w := wS [(8, 65536)]; me (st w) = some (bk w, w) ∧ (sreg w 8 + (0 : BitVec 12).signExtend 64).toNat % 8 = 0
      ∧ (bk w).kd.scratch < (sreg w 8 + (0 : BitVec 12).signExtend 64).toNat + 8)
    ∧ (let w := wS [(8, 0x8000000000000000)]; me (st w) = some (bk w, w) ∧ w.swait = .run ∧ addrOk (st w) 0 (sreg w 8 + (0 : BitVec 12).signExtend 64) = false
      ∧ addrOk (st w) 0 (sreg w 8) = false ∧ (sreg w 8).toNat % 8 = 0)
    ∧ (∀ p, let w := { wA with swait := .refused 0x38008 p }; me (st w) = some (bk w, w) ∧ addrOk (st w) 0 (sreg w 8 + (0 : BitVec 12).signExtend 64) = true
      ∧ w.swait = .refused (sreg w 8 + (0 : BitVec 12).signExtend 64).toNat p
      ∧ (sreg w 8).toNat % 8 = 0 ∧ addrOk (st w) 0 (sreg w 8) = true ∧ w.swait = .refused (sreg w 8).toNat p)
    ∧ (me stScope = some (bk wA, wA) ∧ AtomicNow stScope (bk wA) wA (sreg wA 8) (.dev 0x18008) 8 ∧ stScope.scopes.get none (0x18008 / 128) = some ⟨.warp, 0, 0, 1⟩
      ∧ insideScope .block ⟨.warp, 0, 0, 1⟩ 0 = false)
    ∧ (me (st wH) = some (bk wH, wH) ∧ AtomicNow (st wH) (bk wH) wH (sreg wH 8) (.host 0x1010) 4 ∧ Scope.span ≠ .system) :=
  ⟨⟨rfl, by decide, by decide, by unfold SlotAt; decide, by decide, rfl, by decide⟩, ⟨rfl, by decide, by decide⟩, ⟨rfl, rfl, by decide, by decide, by decide⟩,
    fun p => by cases p <;> exact ⟨rfl, by decide, by decide, by decide, by decide, by decide⟩, ⟨rfl, atomicNow_of rfl (by decide), by decide, by decide⟩, rfl, atomicNow_of rfl (by decide), by decide⟩

/-- Queue contents. -/
def wQ (q : Nat) (l : List QEnt) : Warp := { wS [(8, 0x30300)] with qs := ⟨[(q, l)]⟩ }
def full16 : List QEnt := (List.range 16).map fun k => { seq := k, val := 0 }

theorem witness_ScalarQueues :
    (me (st w0) = some (bk w0, w0) ∧ w0.handler = false ∧ (w0.qs.get [] 3).length < 16 ∧ w0.qs.get [] 4 = [] ∧ w0.bq.length < 16)
    ∧ (me (st (wQ 3 full16)) = some (bk (wQ 3 full16), wQ 3 full16) ∧ 16 ≤ ((wQ 3 full16).qs.get [] 3).length)
    ∧ (∀ r, me (st (wQ 6 [{ seq := 1, val := 9, ready := r }])) = some (bk (wQ 6 [{ seq := 1, val := 9, ready := r }]), wQ 6 [{ seq := 1, val := 9, ready := r }])
      ∧ (wQ 6 [{ seq := 1, val := 9, ready := r }]).qs.get [] (4 + (2 : BitVec 2).toNat) = { seq := 1, val := 9, ready := r } :: [])
    ∧ (sreg (wQ 0 []) 8).toNat % 12 = 0 ∧ (sreg (wS [(8, 7)]) 8).toNat % 12 ≠ 0
    ∧ 16 ≤ ({ w0 with bq := List.replicate 16 0 } : Warp).bq.length := by
  refine ⟨⟨rfl, rfl, by decide, by decide, by decide⟩, ⟨rfl, by decide⟩, fun r => ⟨rfl, rfl⟩, by decide, by decide, by decide⟩

theorem witness_ScalarWaits :
    (me (st w0) = some (bk w0, w0) ∧ w0.ldq.length ≤ 0 ∧ w0.stq.length ≤ 0 ∧ w0.cpq.length ≤ 0 ∧ w0.tlq.length ≤ 0)
    ∧ (let w := { w0 with ldq := [(1, false)] }; me (st w) = some (bk w, w) ∧ ¬(w.ldq.length ≤ (0 : BitVec 6).toNat))
    ∧ (let w := { wS [(8, 2)] with batch := 2 }; (w.batch.toNat + 65536 - (sreg w 8).toNat % 65536) % 65536 = 0)
    ∧ (let w := { wS [(8, 1)] with batch := 2 }; (w.batch.toNat + 65536 - (sreg w 8).toNat % 65536) % 65536 = 1 ∧ w.tlq.length < 1)
    ∧ (let w := { wS [(8, 1)] with batch := 2, tlq := [(7, false)] }; (w.batch.toNat + 65536 - (sreg w 8).toNat % 65536) % 65536 = 1 ∧ 1 ≤ w.tlq.length)
    ∧ (getCore (st { w0 with swait := .pause 0 }) 0).cyc = 0 ∧ 0 ≤ 0 ∧ (0 : Nat) < 5 ∧ 0 < (sreg (wS [(8, 5)]) 8).toNat ∧ (sreg w0 8).toNat = 0
    ∧ relDone { st { w0 with swait := .fence [7] } with transit := [{ id := 7, core := 0, block := 1, warp := 0, ent := { line := .dev 0, vline := 0, pasid := 5 } }] }
      { w0 with swait := .fence [7] } [7] = false
    ∧ relDone (st w0) w0 (relIds (st w0) (bk w0) w0 true) = true := by
  refine ⟨⟨rfl, by decide, by decide, by decide, by decide⟩, ⟨rfl, by decide⟩, by decide, by decide, by decide, by decide, by decide, by decide, by decide, by decide, by decide, by decide⟩

/-! ### Witnesses: barriers, control registers, containment, the sys forms, traps and returns -/

/-- The warp at barrier 0, and its block with a phase of one arrival expected there. -/
def wBar : Warp := { w0 with swait := .barIn false 0 }
def bBar : Block := { b0 with bars := ⟨[(0, { arr := 1, n := some 1, waiting := [(1, 0)] })]⟩ }

theorem witness_Barriers :
    (me (st w0) = some (bk w0, w0) ∧ w0.handler = false ∧ w0.swait = .run ∧ relDone (st w0) w0 (relIds (st w0) (bk w0) w0 false) = true
      ∧ phaseFull (st w0) (bk w0) false (getBar (st w0) (bk w0) false 0) = false ∧ (getBar (st w0) (bk w0) false 0).n = none ∧ (sreg w0 8).toNat ≤ participants (st w0) (bk w0) false)
    ∧ (let w := wS [(8, 2)]; me (st w) = some (bk w, w) ∧ participants (st w) (bk w) false < (sreg w 8).toNat)
    ∧ (let b := { b0 with bars := ⟨[(0, { arr := 1, n := some 3 })]⟩ }
       phaseFull (st w0 b) (bk w0 b) false (getBar (st w0 b) (bk w0 b) false 0) = false ∧ (getBar (st w0 b) (bk w0 b) false 0).n = some 3 ∧ 3 ≠ (sreg w0 8).toNat)
    ∧ (getBlock (st wBar bBar) 1 = some (bk wBar bBar) ∧ getBar (st wBar bBar) (bk wBar bBar) false 0 = { arr := 1, n := some 1, waiting := [(1, 0)] } ∧ [(1, 0)].Nodup
      ∧ (∀ y ∈ gangBlocks (st wBar bBar) (bk wBar bBar), ∀ x ∈ (getCore (st wBar bBar) (coreNo y)).flight, x.id ∉ ([] : List Nat))
      ∧ getWarp (st wBar bBar) 1 0 = some wBar ∧ wBar.sstep = none ∧ (bk wBar bBar).core.isSome ∧ (bk wBar bBar).saving = false ∧ (bk wBar bBar).started = true)
    ∧ (∀ l : List Nat, l = [] ∨ l = [3] → let w := { wS [] with sst := l, swait := .barRel [3] }; let b := { b0 with bars := ⟨[(0, { arr := 1, n := some 1 })]⟩ }
       me (st w b) = some (bk w b, w) ∧ (∀ c m, w.swait ≠ .barIn c m) ∧ relDone (st w b) w [3] = l.isEmpty ∧ phaseFull (st w b) (bk w b) false (getBar (st w b) (bk w b) false 0) = true)
    ∧ (me (st wBar bBar) = some (bk wBar bBar, wBar) ∧ wBar.swait = .barIn false 0) :=
  ⟨⟨rfl, rfl, rfl, by decide, by decide, by decide, by decide⟩, ⟨rfl, by decide⟩, ⟨by decide, by decide, by decide⟩, ⟨rfl, by decide, by decide, by decide, rfl, rfl, rfl, rfl, rfl⟩,
    fun l h => by rcases h with rfl | rfl <;> exact ⟨rfl, by intro c m; simp, by decide, by decide⟩, rfl, rfl⟩

/-- A gang of one block whose warp waits at its course barrier 0. -/
def wCBar : Warp := { w0 with swait := .barIn true 0 }
def gBar : Gang := { members := [1], bars := ⟨[(0, { arr := 1, n := some 0, waiting := [(1, 0)] })]⟩ }
theorem witness_CourseBarriers :
    let b := { b0 with gang := some 7 }; let s := { st wCBar b with gangs := ⟨[(7, gBar)]⟩ }
    getBlock s 1 = some (bk wCBar b) ∧ (bk wCBar b).gang = some 7 ∧ (gangBlocks s (bk wCBar b)).any (·.frozen) = false ∧ gangBlocks s (bk wCBar b) ≠ [] ∧ peerFailed s (bk wCBar b) = false
    ∧ getBar s (bk wCBar b) true 0 = { arr := 1, n := some 0, waiting := [(1, 0)] } ∧ participants s (bk wCBar b) true ≤ 1
    ∧ (∀ y ∈ gangBlocks s (bk wCBar b), ∀ t ∈ (getCore s (coreNo y)).flight, t.id ∉ ([] : List Nat)) := by
  refine ⟨rfl, rfl, by decide, by decide, by decide, rfl, by decide, by decide⟩

/-- A warp whose L-stream still has lanes at work, so LMODE, PARTN and FFLAGS wait. -/
theorem witness_ReadsOfControlRegisters :
    me (st w0) = some (bk w0, w0) ∧ csrIs (st w0) (bk w0) w0 0x010 = some 0x30100 ∧ settled (st w0) (bk w0) w0 0x010 = true
    ∧ csrIs (st w0) (bk w0) w0 0x19F = some 0 ∧ settled (st w0) (bk w0) w0 1 = false ∧ csrIs (st w0) (bk w0) w0 0x033 = none ∧ (0x033 : BitVec 12) ≠ 0x022 := by
  refine ⟨rfl, by decide, by decide, by decide, by decide, by decide, by decide⟩

/-- The warp with its L-stream at rest. -/
def wRest : Warp := { w0 with splits := ⟨[(0, some { mask := BitVec.allOnes 64, wait := .lnext })]⟩ }
/-- A supervisor: the same warp in its handler. -/
def wSup : Warp := { wS [(8, 11)] with handler := true }

theorem witness_WritesOfControlRegisters :
    (me (st w0) = some (bk w0, w0) ∧ csrIs (st w0) (bk w0) w0 0x033 = none ∧ csrSup 0x010 = true ∧ (sreg w0 8).toNat % 8 = 0
      ∧ settled (st w0) (bk w0) w0 3 = false ∧ (csrIs (st w0) (bk w0) w0 0x036).isSome ∧ csrReadOnly 0x036 = true)
    ∧ (let w := { wRest with sregs := ⟨[(8, 6)]⟩ }; me (st w) = some (bk w, w) ∧ settled (st w) (bk w) w 1 = true ∧ settled (st w) (bk w) w 2 = true ∧ settled (st w) (bk w) w 3 = true
      ∧ (sreg w 8).toNat % 8 ≠ 0 ∧ (sreg w 8).toNat % 8 ≠ 7)
    ∧ (me (st wSup) = some (bk wSup, wSup) ∧ wSup.handler = true ∧ (0x11F : BitVec 12).toNat = 0x100 + 31
      ∧ ((getPart (st wSup) 0).courses.getLsbD 0 && (getPart (st wSup) 0).courses.getLsbD 1) = false)
    ∧ (let s := { st wSup with parts := ⟨[(0, { courses := 3, en := true })]⟩ }; me s = some (bk wSup, wSup) ∧ (getPart s 0).courses.getLsbD 0 = true ∧ (getPart s 0).courses.getLsbD 1 = true) := by
  refine ⟨⟨rfl, by decide, by decide, by decide, by decide, by decide, by decide⟩, ⟨rfl, by decide, by decide, by decide, by decide, by decide⟩, ⟨rfl, rfl, by decide, by decide⟩, rfl, by decide, by decide⟩

def region : Region := { handler := 0x30200, count := 1, since := 50 }
def wReg (n : Nat) : Warp := { w0 with regions := List.replicate n region }

theorem witness_ContainmentRegions :
    (me (st (wReg 7)) = some (bk (wReg 7), wReg 7) ∧ (wReg 7).regions.length < 8) ∧ 8 ≤ (wReg 8).regions.length ∧ w0.regions = []
    ∧ ((wReg 1).regions = region :: [] ∧ regionDone (st (wReg 1)) (bk (wReg 1)) (wReg 1) region 1 = true)
    ∧ (let w := { wReg 1 with ldq := [(60, false)] }; me (st w) = some (bk w, w) ∧ w.regions = region :: [] ∧ regionDone (st w) (bk w) w region 1 = false) :=
  ⟨⟨rfl, by decide⟩, by decide, rfl, ⟨rfl, by decide⟩, rfl, rfl, by decide⟩

/-- A fold of the warp in flight. -/
def cFold : Core := { c0 with flight := [{ id := 3, due := 4, block := 1, warp := 0, lpc := 0, tgt := .kint 0, mask := 1 }] }
/-- A warp whose checksums differ, with a restart point recorded. -/
def wChk : Warp := { wRest with kregs := ⟨[(0, 5)]⟩, restartPt := some (0x30080, [1, 2, 3, 4]) }

theorem witness_ChecksAndRestartPoints :
    (me (st wRest) = some (bk wRest, wRest) ∧ lIdle wRest = true ∧ lAllDone (st wRest) (bk wRest) wRest = true) ∧ lIdle w0 = false
    ∧ (me (st w0 b0 cFold) = some (bk w0, w0) ∧ foldFlying (getCore (st w0 b0 cFold) 0) (bk w0) w0 = true)
    ∧ (foldFlying (getCore (st wRest) 0) (bk wRest) wRest = false ∧ wRest.kregs.get 0 0 = wRest.kregs.get 0 1 ∧ (∀ x y, wRest.swait ≠ .restart x y))
    ∧ (me (st wChk) = some (bk wChk, wChk) ∧ (∀ x y, wChk.swait ≠ .restart x y) ∧ wChk.kregs.get 0 0 ≠ wChk.kregs.get 0 1 ∧ wChk.cons = [] ∧ wChk.restartPt = some (0x30080, [1, 2, 3, 4])
      ∧ wChk.restarts.toNat < wChk.rlimit.toNat ∧ lAllDone (st wChk) (bk wChk) wChk = true ∧ wChk.reqs = [] ∧ cmdsSince (st wChk) (bk wChk) wChk 0 = false
      ∧ foldFlying (getCore (st wChk) 0) (bk wChk) wChk = false ∧ RecordGoes (st wChk) (bk wChk))
    ∧ (let w := { wChk with ldq := [(60, false)] }; me (st w) = some (bk w, w) ∧ lAllDone (st w) (bk w) w = false)
    ∧ (∀ l : List Region, l = [region] ∨ l = [] → let w := { wChk with restartPt := none, regions := l }
       me (st w) = some (bk w, w) ∧ (∀ x y, w.swait ≠ .restart x y) ∧ (∀ c j, w.swait ≠ .barIn c j) ∧ foldFlying (getCore (st w) 0) (bk w) w = false ∧ RecordGoes (st w) (bk w)
       ∧ w.cons = [] ∧ w.reqs = [] ∧ w.kregs.get 0 0 ≠ w.kregs.get 0 1 ∧ (bk w).frozen = false ∧ w.handler = false ∧ w.tvec ≠ 0 ∧ SlotAt (st w) (bk w) w (.dev 0x1C000)
       ∧ ((liveSplits w).head?).isSome = true)
    ∧ RecordGoes { st wChk with ctxs := [{ part := 0, pasid := 5, errqb := 0x38000 }] } (bk wChk)
    ∧ closeTo 0x3FF0000000000000 0x3FF0000000000001 50 = true ∧ closeTo 0x3FF0000000000000 0 63 = false := by
  refine ⟨⟨rfl, by decide, by decide⟩, by decide, ⟨rfl, by decide⟩, ⟨by decide, by decide, by intro x y; simp [wRest, w0]⟩,
    ⟨rfl, by intro x y; simp [wChk, wRest, w0], by decide, rfl, rfl, by decide, by decide, rfl, by decide, by decide, .inl (by decide)⟩, ⟨rfl, by decide⟩, fun l h => ?_,
    .inr ⟨_, _, .dev 0x18000, rfl, rfl, by decide⟩, by decide +kernel, by decide +kernel⟩
  rcases h with rfl | rfl <;>
    exact ⟨rfl, by intro x y; simp [wChk, wRest, w0], by intro x y; simp [wChk, wRest, w0], by decide, .inl (by decide), rfl, rfl, by decide, rfl, rfl, by decide, by unfold SlotAt; decide, by decide⟩

theorem witness_SystemForms :
    me (st w0) = some (bk w0, w0) ∧ (bk w0).debug = false ∧ w0.handler = false ∧ (bk w0).triggered = false
    ∧ relDone (st w0) w0 (relIds (st w0) (bk w0) w0 true) = true
    ∧ (let b := { b0 with debug := true, triggered := true }; me (st w0 b) = some (bk w0 b, w0) ∧ (bk w0 b).debug = true ∧ (bk w0 b).triggered = true
      ∧ (getCourse (st w0 b) 0).stopped = false) :=
  ⟨rfl, rfl, rfl, rfl, by decide, rfl, rfl, rfl, rfl⟩

theorem witness_WarpExit :
    (me (st wRest) = some (bk wRest, wRest) ∧ wRest.handler = false ∧ lIdle wRest = true ∧ lAllDone (st wRest) (bk wRest) wRest = true ∧ wRest.sb = [] ∧ wRest.cons = [] ∧ wRest.regions = []
      ∧ (st wRest).ops.any (fun o => o.block == 1 && o.warp == 0) = false ∧ ∀ y ∈ liveWarps (bk wRest), y.idx = wRest.idx)
    ∧ (let b := { bk wRest with warps := ⟨[(0, some wRest), (1, some { wRest with idx := 1 })]⟩ }
       let s := { st wRest with blocks := ⟨[(1, some b)]⟩ }
       me s = some (b, wRest) ∧ ∃ y ∈ liveWarps b, y.idx ≠ wRest.idx)
    ∧ lIdle w0 = false :=
  ⟨⟨rfl, rfl, by decide, by decide, rfl, rfl, rfl, rfl, by decide⟩, ⟨rfl, by decide⟩, by decide⟩

theorem witness_FatalFaults :
    me (st wSup) = some (bk wSup, wSup) ∧ (bk wSup).frozen = false ∧ wSup.handler = true ∧ userOnly (.bar false false 0 0) = true
    ∧ TrapsNow (st wSup) (bk wSup) wSup (.trap 7) ∧ TrapsNow (st wSup) (bk wSup) wSup .sysCtclose ∧ TrapsNow (st wSup) (bk wSup) wSup (.lgor 8) ∧ TrapsNow (st wSup) (bk wSup) wSup (.csrr 5 0x033)
    ∧ (let w := { w0 with tvec := 0 }; me (st w) = some (bk w, w) ∧ w.tvec = 0 ∧ w.handler = false ∧ TrapsNow (st w) (bk w) w .sysEret ∧ TrapsNow (st w) (bk w) w (.csrw 0x010 0)
      ∧ TrapsNowL (st w) (bk w) w (.unmap { lf (.v 16) (.v 0) (.v 0) (.v 0) with vd := .v 16 }) ∧ TrapsNowL (st w) (bk w) w (.vsel (lf (.v 3) (.v 16) (.v 2) (.v 0)))) := by
  refine ⟨rfl, rfl, rfl, rfl, trivial, rfl, ?_, ?_, rfl, rfl, rfl, rfl, ?_, ⟨by decide, .inr (.inr ⟨_, .inr ⟨rfl, by decide⟩⟩)⟩,
    ⟨by decide, .inl ⟨16, _, _, _, rfl, rfl, 0, by decide, by decide, fun j x h => absurd h (Nat.not_lt_zero j)⟩⟩⟩
  · show (sreg wSup 8).toNat % 12 ≠ 0; decide
  · show csrIs (st wSup) (bk wSup) wSup 0x033 = none ∧ (0x033 : BitVec 12) ≠ 0x022; decide
  · exact .inr (.inl ⟨by decide, rfl⟩)

/-- A handler of a SOFT trap; its slot holds SPC 0x30400 at 0x28 and nothing else. -/
def wRet : Warp :=
  { wS [(1, 0x3C000)] with handler := true, entry := some { cause := .soft, stream := false, insn := 0, split := 0, lpc := 0x30300, repc := 0, mask := 0, splitMask := 0 } }
def stRet (n : Byte) : State := { st wRet with mem := ⟨[(0x1C028, n), (0x1C029, 4), (0x1C02A, 3)]⟩ }

theorem holds_zero (s : State) (l : GLoc) (o n : Nat) (h : (List.range n).all (fun i => gRead s (gAdd l (o + i)) == 0) = true) : Holds s l o n 0 := by
  intro i hi
  simp only [List.all_eq_true, List.mem_range, beq_iff_eq] at h
  rw [h i hi]; simp

theorem bytesAt_of {bs : List Byte} {o n v : Nat} (h : (List.range n).all (fun i => decide (o + i < bs.length) && decide ((bs.getD (o + i) 0).toNat = v / 256 ^ i % 256)) = true) :
    BytesAt bs o n v := by
  intro i hi
  simp only [List.all_eq_true, List.mem_range, Bool.and_eq_true, decide_eq_true_eq] at h
  exact h i hi

/-- What the slot of the returning warp holds. -/
def slotList (n : Byte) : List Byte := List.replicate 0x28 0 ++ [n, 4, 3] ++ List.replicate (1024 - 0x2B) 0
theorem slot_stRet (n : Byte) (hn : n = 0 ∨ n = 1) : SlotHolds (slotList n) (BitVec.ofNat 64 (0x30400 + n.toNat)) 0 0 0 0 0 (fun _ => 0) := by
  refine ⟨?_, ?_, ?_, ?_, ?_, ?_, ?_⟩
  all_goals first
    | (intro i hi; apply bytesAt_of; have : ∀ i ∈ List.range 16, ∀ m ∈ [0, 1], (List.range 8).all (fun j => decide (0x40 + 8 * i + j < (slotList m).length)
        && decide (((slotList m).getD (0x40 + 8 * i + j) 0).toNat = (0 : DWord).toNat / 256 ^ j % 256)) = true := by decide +kernel
       exact this i (List.mem_range.2 hi) n (by rcases hn with rfl | rfl <;> simp))
    | (apply bytesAt_of; rcases hn with rfl | rfl <;> decide +kernel)

/-- The slot as the warp reads it. -/
def readSlot (s : State) : List Byte × List Bool × State := slotLoad s (bk wRet) wRet (.dev 0x1C000)

theorem witness_ReturnFromTrap :
    me (st w0) = some (bk w0, w0)
    ∧ (∀ n, n = 0 ∨ n = 1 → me (stRet n) = some (bk wRet, wRet) ∧ wRet.handler = true
      ∧ (∃ e, wRet.entry = some e ∧ e.cause = .soft) ∧ wRet.reqs = [] ∧ wRet.sb = []
      ∧ devXlat (stRet n) 0 0 5 wRet.tframe false = some (.at_ (.dev 0x1C000)) ∧ slotWaits (stRet n) (bk wRet) wRet (.dev 0x1C000) = false
      ∧ ((readSlot (stRet n)).2.1.take 4).any id = false
      ∧ SlotHolds (readSlot (stRet n)).1 (BitVec.ofNat 64 (0x30400 + n.toNat)) 0 0 0 0 0 (fun _ => 0) ∧ (n = 0 → (0x30400 : DWord).toNat % 4 = 0) ∧ (n = 1 → (0x30401 : DWord).toNat % 4 ≠ 0))
    ∧ (let s := { stRet 0 with memPois := ⟨[(0x1C000 / 64, true)]⟩ }
       me s = some (bk wRet, wRet) ∧ ((readSlot s).2.1.take (slotGrans wRet)).any id = true ∧ slotWaits s (bk wRet) wRet (.dev 0x1C000) = false)
    ∧ (let w := { wRet with tframe := 0x8000000000000000 }; me (st w) = some (bk w, w) ∧ devXlat (st w) 0 0 5 w.tframe false = none)
    ∧ gAddr (.dev 0x1C000) % 64 = 0 ∧ olderEnts wRet 100 = [] ∧ (getCore (stRet 0) 0).l1 = SMap.empty ∧ (getPier (stRet 0) 0).rdc = SMap.empty := by
  refine ⟨rfl, fun n hn => ?_, ⟨rfl, by decide +kernel, by decide +kernel⟩, ⟨rfl, by decide⟩, by decide, by decide, rfl, by decide⟩
  have h : (readSlot (stRet n)).1 = slotList n := by rcases hn with rfl | rfl <;> decide +kernel
  refine ⟨rfl, rfl, ⟨_, rfl, rfl⟩, rfl, rfl, by rcases hn with rfl | rfl <;> decide, by rcases hn with rfl | rfl <;> decide +kernel, by rcases hn with rfl | rfl <;> decide +kernel,
    by rw [h]; exact slot_stRet n hn, fun _ => by decide, fun _ => by decide⟩

/-- A return whose slot stands at a peer: still to ask, answered, refused. -/
theorem witness_ReturnFromAPeer :
    (∀ x, x = .got 0 false ∨ x = .refused 0 true → let w := { wRet with swait := x }; me (st w) = some (bk w, w) ∧ w.handler = true)
    ∧ SlotHolds (leBytes 1024 0) 0 0 0 0 0 0 (fun _ => 0)
    ∧ (let w := { wRet with tframe := 0x0200000000000000 }
       let s := { st w with parts := ⟨[(0, { courses := 1, en := true, outmask := 2 })]⟩, routes := ⟨[(1, { valid := true, ports := 1 })]⟩, dev := { (st w).dev with ports := 1 } }
       me s = some (bk w, w) ∧ Unanswered w ∧ devXlat s 0 0 5 w.tframe false = some (.at_ (.peer 1 0)) ∧ slotWaits s (bk w) w (.peer 1 0) = false) := by
  refine ⟨fun x h => by rcases h with rfl | rfl <;> exact ⟨rfl, rfl⟩, ?_, rfl, unanswered_run rfl, by decide, by decide +kernel⟩
  have h : leBytes 1024 0 = List.replicate 1024 0 := by decide +kernel
  rw [h]
  refine ⟨?_, ?_, ?_, ?_, ?_, ?_, fun i hi => ?_⟩ <;> apply bytesAt_of
  · decide +kernel
  · decide +kernel
  · decide +kernel
  · decide +kernel
  · decide +kernel
  · decide +kernel
  · have : ∀ i ∈ List.range 16, (List.range 8).all (fun j => decide (0x40 + 8 * i + j < (List.replicate 1024 (0 : Byte)).length)
      && decide (((List.replicate 1024 (0 : Byte)).getD (0x40 + 8 * i + j) 0).toNat = (0 : DWord).toNat / 256 ^ j % 256)) = true := by decide +kernel
    exact this i (List.mem_range.2 hi)

/-- A descriptor of zeros, but for FLAGS. -/
def descOf (f : Byte) : List Byte := List.replicate 0xD 0 ++ f :: List.replicate 50 0
theorem desc_of (f : Byte) (h : f = 0 ∨ f = 4) : DescIs (descOf f) (ddesc (descOf f)) := by
  rcases h with rfl | rfl <;>
  · refine ⟨⟨?_, by decide⟩, ⟨?_, by decide⟩, ⟨?_, by decide⟩, ⟨?_, by decide⟩, ⟨0, 0, ?_, by decide, ?_, by decide, by decide⟩, ⟨?_, by decide⟩, ⟨?_, by decide⟩, ⟨?_, by decide⟩, ⟨?_, by decide⟩,
      ⟨?_, by decide⟩, ⟨?_, by decide⟩⟩ <;> exact bytesAt_of (by decide +kernel)
theorem desc_zero : DescIs (Memory.readBytes (bk w0).spad 0 64) (ddesc (List.replicate 64 0)) := by
  have h := desc_of 0 (.inl rfl)
  have e : descOf 0 = Memory.readBytes (bk w0).spad 0 64 := by decide
  have e' : descOf 0 = List.replicate 64 0 := by decide
  rw [← e, ← e']; exact h

theorem witness_EngineCommandsAccepted :
    (me (st (wS [(8, 1)])) = some (bk (wS [(8, 1)]), wS [(8, 1)]) ∧ ((getCore (st (wS [(8, 1)])) 0).cmds.filter fun m => !m.started).length < 16 ∧ inOrder (getCore (st (wS [(8, 1)])) 0).engAt (getCore (st (wS [(8, 1)])) 0).cyc (wS [(8, 1)]) = true
      ∧ sstsOut (st (wS [(8, 1)])) (bk (wS [(8, 1)])) (wS [(8, 1)]) = false ∧ (3 : BitVec 4).toNat < b0.kd.tiles
      ∧ (sreg (wS [(8, 1)]) 8).toNat < 2 ^ 32 ∧ tcfValid ((sreg (wS [(8, 1)]) 8).setWidth 32) = true ∧ (3 : BitVec 6).toNat < b0.kd.accs)
    ∧ (0 % 16 = 0 ∧ tileOut (bk w0) 0 0 0 (tcfOf (st w0) (bk w0) 3) = false)
    ∧ (let b := { b0 with tcf := ⟨[(0, 7), (1, 7)]⟩ }; let w := wS [(8, 17)]
       me (st w b) = some (bk w b, w) ∧ ∀ k ∈ mmaChecks (bk w b) 3 0 1 (sreg w 8).toNat (tcfOf (st w b) (bk w b) 0) (tcfOf (st w b) (bk w b) 1), ¬ k.1)
    ∧ ((bk w0).kd.drainSet.getLsbD 0 = true ∧ olderOp (st w0) 1 0 100 (.spad 1 0) 192 = false ∧ NoWatch (st w0) (.spad 1 0) 192 2
      ∧ programBad [] ((slotFrom (Memory.readBytes (bk w0).spad 0 192)).words.map uop) = none ∧ olderOp (st w0) 1 0 100 (.spad 1 0) 64 = false
      ∧ DescIs (Memory.readBytes (bk w0).spad 0 64) (ddesc (List.replicate 64 0))
      ∧ ∀ k ∈ drainChecks (bk w0) (program (slotOf (st w0) (bk w0) 0)) (ddesc (List.replicate 64 0)) (tcfOf (st w0) (bk w0)), ¬ k.1) := by
  refine ⟨⟨rfl, by decide, by decide, by decide, by decide, by decide, by decide, by decide⟩, ⟨by decide, by decide⟩, ⟨rfl, ?_⟩, by decide, by decide, noWatch_of (by decide), by decide, by decide,
    desc_zero, ?_⟩
  · simp only [mmaChecks, Combined, List.mem_cons, List.not_mem_nil, or_false]
    rintro k (rfl | rfl | rfl | rfl | rfl | rfl | rfl) <;> dsimp only <;> decide
  · have h : ∀ n, 0x0D ≤ n → ¬∃ u, u ∈ program (slotOf (st w0) (bk w0) 0) ∧ u.op = n := fun n hn ⟨u, hu, e⟩ =>
      absurd ((by decide +kernel : ∀ u ∈ program (slotOf (st w0) (bk w0) 0), u.op < 0x0D) u hu) (by omega)
    have h' : ∀ k, ¬∃ u, u ∈ program (slotOf (st w0) (bk w0) 0) ∧ u.op = 0x0D ∧ u.x = k := fun k ⟨u, hu, e, _⟩ => h _ (Nat.le_refl _) ⟨u, hu, e⟩
    have g' : ¬∃ u, u ∈ program (slotOf (st w0) (bk w0) 0) ∧ u.op = 0x14 ∧ u.x ≠ (ddesc (List.replicate 64 0)).pfmt := fun ⟨u, hu, e, _⟩ => h 0x14 (by decide) ⟨u, hu, e⟩
    have g3 : ¬∃ u, u ∈ program (slotOf (st w0) (bk w0) 0) ∧ u.op = 0x15 ∧ badTile (bk w0) u.x (tcfOf (st w0) (bk w0) u.x) := fun ⟨u, hu, e, _⟩ => h 0x15 (by decide) ⟨u, hu, e⟩
    simp only [drainChecks, h 0x13 (by decide), h 0x14 (by decide), h 0x0E (by decide), h 0x11 (by decide), h', g', g3, List.mem_cons, List.not_mem_nil, or_false, false_and, exists_false]
    rintro k (rfl | rfl | rfl | rfl) <;> dsimp only <;> decide

/-- A block whose scratchpad holds a copy descriptor of one element at 0. -/
def bCpy : Block := { b0 with spad := ⟨[(0x10, 1), (0x14, 1), (0x18, 1)]⟩ }

theorem witness_CopiesAccepted :
    (me (st (wS [(8, 65472)])) = some (bk (wS [(8, 65472)]), wS [(8, 65472)]) ∧ (sreg (wS [(8, 65472)]) 8).toNat + 64 ≤ b0.kd.scratch) ∧ (sreg (wS [(8, 1)]) 8).toNat % 64 ≠ 0
    ∧ b0.kd.scratch < (sreg (wS [(8, 65536)]) 8).toNat + 64
    ∧ (copyCheck (st w0) (bk w0) .g2g (cdesc (Memory.readBytes (bk w0).spad 0 64)) = some (.illegal, 5) ∧ Cause.illegal ≠ .peerFail)
    ∧ (copyCheck (st w0) (bk w0) .g2s (cdesc (Memory.readBytes (bk w0).spad 0 64)) = none ∧ cCount (cdesc (Memory.readBytes (bk w0).spad 0 64)) = 0
      ∧ olderOp (st w0) 1 0 100 (.spad 1 0) 64 = false ∧ sstsOut (st w0) (bk w0) w0 = false ∧ (getCore (st w0) 0).copies.length < 64 ∧ w0.cpq.length < 4095 ∧ NoWatch (st w0) (.spad 1 0) 64 2)
    ∧ (me (st w0 bCpy) = some (bk w0 bCpy, w0) ∧ copyCheck (st w0 bCpy) (bk w0 bCpy) .g2s (cdesc (Memory.readBytes bCpy.spad 0 64)) = none
      ∧ cCount (cdesc (Memory.readBytes bCpy.spad 0 64)) ≠ 0 ∧ NoWatch (st w0 bCpy) (.spad 1 0) 64 2) := by
  refine ⟨⟨rfl, by decide⟩, by decide, by decide, ⟨by decide, by decide⟩, ⟨by decide, by decide, by decide, by decide, by decide, by decide, noWatch_of (by decide)⟩, rfl, by decide, by decide, noWatch_of (by decide)⟩

theorem witness_EngineCommandTraps :
    me (st (wS [(8, 0)])) = some (bk (wS [(8, 0)]), wS [(8, 0)]) ∧ b0.kd.tiles ≤ (4 : BitVec 4).toNat ∧ b0.kd.accs ≤ (4 : BitVec 6).toNat
    ∧ tcfValid ((sreg (wS [(8, 0)]) 8).setWidth 32) = false ∧ 2 ^ 32 ≤ (sreg (wS [(8, 0x100000000)]) 8).toNat
    ∧ ((sreg (wS [(9, 0x1000000000)]) 9).toNat / 2 ^ 32 ≠ 0 ∧ tcEfmt (tcfOf (st w0) (bk w0) 3) ≠ 15) ∧ ((sreg (wS [(8, 8)]) 9).toNat / 2 ^ 32 = 0 ∧ (sreg (wS [(8, 8)]) 8).toNat % 16 ≠ 0)
    ∧ (∃ q, FirstOf (mmaChecks (bk w0) 4 0 1 0 0 0) 1 (q, 0x01, 0x103)) ∧ b0.kd.drainSet.getLsbD 1 = false ∧ b0.kd.drainSet.getLsbD 0 = true ∧ (sreg (wS [(8, 8)]) 8).toNat % 64 ≠ 0
    ∧ 2 ^ 57 ≤ (sreg (wS [(8, 0x200000000000000)]) 8).toNat ∧ (sreg (wS [(8, 0x200000000000000)]) 8).toNat % 16 = 0
    ∧ (let b := { b0 with tcf := ⟨[(0, 7)]⟩ }; let cfg := tcfOf (st w0 b) (bk w0 b) 0
       tcEfmt cfg ≠ 15 ∧ ∃ y r, y < tcRows cfg ∧ r < tcBytes cfg ∧ b.kd.scratch ≤ tileAddr 65536 0 0 cfg y r)
    ∧ b0.kd.scratch < (sreg (wS [(8, 65472)]) 8).toNat + 192 ∧ (sreg (wS [(8, 65472)]) 8).toNat % 64 = 0 ∧ b0.kd.scratch < (sreg (wS [(8, 65536)]) 8).toNat + 64
    ∧ olderOp (st w0) 1 0 100 (.spad 1 0) 192 = false ∧ olderOp (st w0) 1 0 100 (.spad 1 0) 64 = false ∧ sstsOut (st w0) (bk w0) w0 = false
    ∧ (let b := { b0 with spad := ⟨[(0x3, 0xB8)]⟩ }; (programBad [] ((slotFrom (Memory.readBytes (bk w0 b).spad 0 192)).words.map uop)).isSome = true)
    ∧ (let b := { b0 with spad := ⟨[(0xD, 4)]⟩ }
       Memory.readBytes (bk w0 b).spad 0 64 = descOf 4 ∧ DescIs (descOf 4) (ddesc (descOf 4))
       ∧ ∃ q, FirstOf (drainChecks (bk w0 b) (program (slotOf (st w0 b) (bk w0 b) 0)) (ddesc (descOf 4)) (tcfOf (st w0 b) (bk w0 b))) 0 (q, 0x01, 0x118))
    ∧ programBad [] [] = some 0x112 ∧ (0x16 < (uop 0xB8000000).op) ∧ ((uop 0x100).op ≤ 0x16 ∧ uopSpare (uop 0x100) = true)
    ∧ (∃ u : Uop, u.op ≤ 0x16 ∧ uopSpare u = false ∧ uopCodeBad u = true) := by
  refine ⟨rfl, by decide, by decide, by decide, by decide, ⟨by decide, by decide⟩, ⟨by decide, by decide⟩, ⟨_, rfl, ?_, ?_⟩, by decide, by decide, by decide, by decide, by decide,
    ⟨by decide, 0, 0, by decide, by decide, by decide⟩, by decide, by decide, by decide, by decide, by decide, by decide, by decide, ⟨by decide, desc_of 4 (.inr rfl), _, rfl, ?_, fun i h => absurd h (Nat.not_lt_zero i)⟩, by decide, by decide, by decide,
    ⟨{ op := 0x14, dd := 0, da := 0, db := 0, dc := 0, x := 0 }, by decide, by decide, by decide⟩⟩
  · decide
  · intro i hi q hq
    obtain rfl : i = 0 := by omega
    simp only [mmaChecks, List.getElem?_cons_zero, Option.some.injEq] at hq
    subst hq; decide
  · dsimp only; exact .inr (.inl (by decide))

theorem witness_BatchesClose :
    (me (st w0) = some (bk w0, w0) ∧ w0.tlq.length < 4095 ∧ (∀ e ∈ w0.closed, batchBusy (st w0) (bk w0) 0 e.2 = true) ∧ batchBusy (st w0) (bk w0) 0 w0.batch = false)
    ∧ batchBusy (st w0 b0 { c0 with cmds := [{ id := 3, block := 1, warp := 0, batch := 0, kind := .aclr 0 }] }) (bk w0) 0 w0.batch = true :=
  ⟨⟨rfl, by decide, by decide, by decide⟩, by decide⟩

/-! ### Witnesses: the lanes -/

/-- The check of an instruction's readiness in the small state. -/
def readyB (s : State) (b : Block) (w : Warp) (i : Instr) : Bool :=
  match lfmt i, i.lf, getSplit w s.sel.split with
  | some m, some f, some _ =>
    (checkedNames m f).all (fun n => (mapOf w n).isSome) && !interlocked b (getCore s (coreNo b)) w (usedRows w m f) (predReads i m f ++ predWrites i m f)
      && (shortQueue w (popList m f)).isNone && (pushQueue m f).all (fun q => (w.qs.get [] q).length < 16)
      && ((!lmHzf w && !b.hazMode) || (hazardProducer b (getCore s (coreNo b)) w (usedRows w m f) (predReads i m f ++ predWrites i m f)).isNone)
  | _, _, _ => false
theorem ready_of_check {s : State} {b : Block} {w : Warp} {i : Instr} (h1 : me s = some (b, w)) (h : readyB s b w i = true) : ∃ f m p, Ready s b w i f m p := by
  unfold readyB at h
  split at h
  · rename_i m f p h2 h3 h4; exact ⟨f, m, p, ready_of h1 h2 h3 h4 h⟩
  · cases h

/-- Every lane has an entry on Q0, with two free entries and one on Q4's way out. -/
def wL : Warp := { w0 with qs := ⟨[(0, [{ seq := 1, val := 7 }])]⟩ }
def f3 : LF := lf (.v 8) (.v 4) (.q 0) (.v 0)
def f4 : LF := lf (.v 8) (.v 4) (.v 6) (.v 2)
def fP : LF := lf (.v 0) (.v 4) (.v 6) (.v 0) 7

/-- The instructions of the statements on results of the lanes are ready in the small state: their names are mapped, Q0 has an entry. -/
theorem witness_LaneResults : me (st wL) = some (bk wL, wL) ∧
    ∀ i ∈ [Instr.vialu .add .i32 f3, .vmad false f4, .vbfe true f3, .vbfi f4, .copy f3, .mapq f3, .fadd .f64 .rn false false (lf (.v 8) (.v 4) (.v 6) (.v 0)), .fmul .f32 .rz true false f3,
      .ffma .b16x2 .ru false false true f4, .fmin .f32 f3, .fmax .f32 f3, .frnd .f32 .rd f3, .fcvt 1 0 f3, .fclass .f32 f3, .vsel f3, .vcmp .eq .w8x4 fP, .fcmp .lt .f32 fP, .plog .and fP,
      .vsfu .rcp f3, .vshuf .idx f3, .vvote .ballot f3, .vredux .add .i32 f3, .vscan .add .i32 true f3, .vbcast f3, .csum 0 fP, .csumf 3 fP, .lnop f3, .lpart f3, .rep f3, .lbr f3, .ljoin f3,
      .retired 3 0 f4], ∃ f m p, Ready (st wL) (bk wL) wL i f m p := by
  refine ⟨rfl, ?_⟩
  intro i hi
  apply ready_of_check rfl
  revert i
  decide

/-- A push to Q4 has room up to its fifteenth entry; a fold and a vote to a queue are ready then. -/
theorem witness_CrossLane :
    let w := { w0 with qs := ⟨[(4, (List.range 15).map fun k => { seq := k, val := 0 })]⟩ }
    me (st w) = some (bk w, w) ∧ (∃ f m p, Ready (st w) (bk w) w (.vredux .add .i32 (lf (.q 4) (.v 4) (.v 0) (.v 0))) f m p) ∧ w.partn = 6
    ∧ (∀ l, l < 64 → anyBad (st w) (bk w) w { vd := .dstq 1, va := s32 } (lf (.q 4) (.v 4) (.v 0) (.v 0)) l = false)
    ∧ (let w := { w with partn := 5 }; me (st w) = some (bk w, w) ∧ w.partn ≠ 6) :=
  ⟨rfl, ready_of_check rfl (by decide), rfl, by decide +kernel, rfl, by decide⟩

theorem witness_RoundingModes :
    roundAt .rn false 5 0 1 false = (2, true) ∧ roundAt .rn false 6 0 2 false = (2, true) ∧ roundAt .ru false 5 0 1 false = (3, true) ∧ roundAt .rd true 5 0 1 false = (3, true)
    ∧ roundAt .rz false 7 0 1 false = (3, true) ∧ roundAt .rn false 5 0 0 false = (5, false) := by decide

/-- A vsfu of the warp that is due, writing row 8. -/
def wSfu (n : Nat) : Warp := { w0 with sfu := (List.range n).map fun k => { id := k, op := .rcp, dest := 8, mask := 1, src := List.replicate 64 0x40000000, due := 0 } }

theorem witness_SpecialFunctions :
    (∃ f m p, Ready (st (wSfu 7)) (bk (wSfu 7)) (wSfu 7) (.vsfu .rcp (lf (.v 8) (.v 4) (.v 0) (.v 0))) f m p) ∧ dstRows (wSfu 7) { vd := .dst 1, va := s32 } (lf (.v 8) (.v 4) (.v 0) (.v 0)) = [8]
    ∧ (wSfu 7).sfu.length < 8 ∧ 8 ≤ (wSfu 8).sfu.length
    ∧ (getBlock (st (wSfu 1)) 1 = some (bk (wSfu 1)) ∧ getWarp (st (wSfu 1)) 1 0 = some (wSfu 1) ∧ (bk (wSfu 1)).core.isSome ∧ ∃ x, (wSfu 1).sfu = [x] ∧ x.due ≤ (getCore (st (wSfu 1)) 0).cyc) :=
  ⟨ready_of_check rfl (by decide), by decide, by decide, by decide, rfl, rfl, rfl, ⟨_, rfl, by decide⟩⟩

theorem witness_ChecksumFolds : ∀ l, l < 64 → isActive w0 { va := s32 } fP { mask := BitVec.allOnes 64 } l = true → anyBad (st w0) (bk w0) w0 { va := s32 } fP l = false := by decide +kernel

/-- An L-word at 0x3030C: a vmad, which rep may repeat; in the second state an lnop stands there. -/
def stRep (op : Byte) : State := { st w0 with mem := ⟨[(0x10310, 0x80), (0x10311, 0x0F), (0x10317, op)]⟩ }

theorem witness_SimpleControl :
    (∃ f m p, Ready (stRep 9) (bk w0) w0 (.rep (lf (.v 0) (.v 0) (.v 0) (.v 0) 0 63)) f m p)
    ∧ (∃ bs, fetchBytes (stRep 9) (bk w0) (0x30300 + 12) 12 = .ok bs ∧ repTargetOk (BitVec.ofNat 96 (ofLeBytes bs)) = true)
    ∧ ∃ bs, fetchBytes (stRep 0) (bk w0) (0x30300 + 12) 12 = .ok bs ∧ repTargetOk (BitVec.ofNat 96 (ofLeBytes bs)) = false ∧ (getSplit w0 0).map (·.repStart) = some 0 :=
  ⟨ready_of_check rfl (by decide), ⟨_, rfl, by decide⟩, ⟨_, rfl, by decide, rfl⟩⟩

/-- A branch under P3: none, some or every lane of the split holds it. -/
def fB (neg : Bool) : LF := ⟨.v 0, .v 0, .v 0, .v 0, ⟨3, neg⟩, 0, false, 0x00020004⟩
def wB (p3 : DWord) (n : Nat) : Warp := { w0 with preds := ⟨[(3, p3)]⟩, splits := ⟨(List.range n).map fun k => (k, some { lpc := 0x30300, mask := BitVec.allOnes 64 })⟩ }
def mB : LFmt := { imm := .own 0xFFFFFFFF }

theorem witness_Branching :
    (∃ f m p, Ready (st (wB 0 1)) (bk (wB 0 1)) (wB 0 1) (.lbr (fB false)) f m p)
    ∧ (∀ l, l < 64 → isActive (wB 0 1) mB (fB false) { lpc := 0x30300, mask := BitVec.allOnes 64 } l = false)
    ∧ (∀ l, l < 64 → isActive (wB 0 1) mB (fB true) { lpc := 0x30300, mask := BitVec.allOnes 64 } l = true)
    ∧ (isActive (wB 1 1) mB (fB false) { lpc := 0x30300, mask := BitVec.allOnes 64 } 0 = true ∧ isActive (wB 1 1) mB (fB false) { lpc := 0x30300, mask := BitVec.allOnes 64 } 63 = false)
    ∧ (getSplit (wB 1 3) 3 = none ∧ ∀ i, i < 3 → (getSplit (wB 1 3) i).isSome)
    ∧ (∀ i, i < 4 → (getSplit (wB 1 4) i).isSome) ∧ ({ wB 1 4 with stack := List.replicate 15 { lpc := 0, mask := 1, rpc := none } } : Warp).stack.length < 16
    ∧ 16 ≤ ({ wB 1 4 with stack := List.replicate 16 { lpc := 0, mask := 1, rpc := none } } : Warp).stack.length := by
  refine ⟨ready_of_check rfl (by decide), by decide +kernel, by decide +kernel, ⟨by decide, by decide⟩, ⟨by decide, by decide⟩, by decide, by decide, by decide⟩

/-- A split at its reconvergence address, with another split there, elsewhere, or none. -/
def wJ (l : List (Nat × Split)) : Warp := { w0 with splits := ⟨(0, some { lpc := 0x30300, mask := 1, rpc := some 0x30300 }) :: l.map fun e => (e.1, some e.2)⟩ }

theorem witness_Joining :
    (∃ f m p, Ready (st (wJ [])) (bk (wJ [])) (wJ []) (.ljoin (lf (.v 0) (.v 0) (.v 0) (.v 0) 0 0x10000)) f m p)
    ∧ (joinPartner (wJ [(2, { lpc := 0x30300, mask := 2, rpc := some 0x30300, wait := .ljoin })]) 0 0x30300).isSome
    ∧ (joinPartner (wJ []) 0 0x30300 = none ∧ recordsRpc (wJ []) 0 0x30300 = false)
    ∧ (joinPartner (wJ [(2, { lpc := 0x3030C, mask := 2, rpc := some 0x30300 })]) 0 0x30300 = none ∧ recordsRpc (wJ [(2, { lpc := 0x3030C, mask := 2, rpc := some 0x30300 })]) 0 0x30300 = true)
    ∧ (getSplit w0 0).map (·.rpc) = some none :=
  ⟨ready_of_check rfl (by decide), by decide, ⟨by decide, by decide⟩, ⟨by decide, by decide⟩, rfl⟩

theorem witness_NextFromQueue :
    let w := { w0 with bq := [0x30600], splits := ⟨[(0, some { mask := 1, wait := .lnext }), (1, some { mask := 2 })]⟩, stack := [{ lpc := 0, mask := 4, rpc := none, wait := .lnext }] }
    let s := { st w with sel := { block := 1, split := 1 } }
    me s = some (bk w, w) ∧ getSplit w 1 = some { mask := 2 } ∧ (∀ e ∈ liveSplits w, e.1 ≠ 1 → e.2.wait = .lnext) ∧ (∀ e ∈ w.stack, e.wait = .lnext) ∧ w0.bq = [] :=
  ⟨rfl, rfl, by decide, by decide, rfl⟩

/-- An EMUL handler's warp: the word it names has VD = V8. -/
def wEmul : Warp := { wS [] with handler := true, entry := some { cause := .emul, stream := true, insn := 8 * 2 ^ 71, split := 0, lpc := 0x30300, repc := 0, mask := 0, splitMask := 0 } }
/-- Its slot: SPC 0x30400, FLAGS 1, MASK 1, ROWA of lane 0 the value 5. -/
def stEmul : State := { st wEmul with mem := ⟨[(0x1C007, 1), (0x1C010, 1), (0x1C029, 4), (0x1C02A, 3), (0x1C100, 5)]⟩ }

/-- What that slot holds. -/
def emulList : List Byte :=
  List.replicate 7 0 ++ [1] ++ List.replicate 8 0 ++ [1] ++ List.replicate (0x29 - 0x11) 0 ++ [4, 3] ++ List.replicate (0x100 - 0x2B) 0 ++ [5] ++ List.replicate (1024 - 0x101) 0
/-- The slot as the warp reads it. -/
def readEmul : List Byte × List Bool × State := slotLoad stEmul (bk wEmul) wEmul (.dev 0x1C000)
theorem read_emul : readEmul.1 = emulList := by decide +kernel

theorem slot_stEmul : SlotHolds readEmul.1 0x30400 0 1 0 0 1 (fun _ => 0) := by
  rw [read_emul]
  refine ⟨bytesAt_of (by decide +kernel), bytesAt_of (by decide +kernel), bytesAt_of (by decide +kernel), bytesAt_of (by decide +kernel), bytesAt_of (by decide +kernel),
    bytesAt_of (by decide +kernel), ?_⟩
  have : ∀ i ∈ List.range 16, (List.range 8).all (fun j => decide (0x40 + 8 * i + j < emulList.length)
      && decide ((emulList.getD (0x40 + 8 * i + j) 0).toNat = (0 : DWord).toNat / 256 ^ j % 256)) = true := by decide +kernel
  exact fun i hi => bytesAt_of (this i (List.mem_range.2 hi))

theorem rowA_stEmul : ∀ j, j < 64 → BytesAt readEmul.1 (0x100 + 4 * j) 4 ((if j = 0 then 5 else 0 : Word)).toNat := by
  rw [read_emul]
  have : ∀ j ∈ List.range 64, (List.range 4).all (fun i => decide (0x100 + 4 * j + i < emulList.length)
      && decide ((emulList.getD (0x100 + 4 * j + i) 0).toNat = ((if j = 0 then 5 else 0 : Word)).toNat / 256 ^ i % 256)) = true := by decide +kernel
  exact fun j hj => bytesAt_of (this j (List.mem_range.2 hj))

theorem witness_RetiredOpcodes :
    ((∃ f m p, Ready (st w0) (bk w0) w0 (.retired 3 0 f4) f m p) ∧ infillTakes (st w0) (bk w0) 3 = false ∧ (bk w0).frozen = false ∧ SlotAt (st w0) (bk w0) w0 (.dev 0x1C000) ∧ w0.handler = false ∧ w0.tvec ≠ 0)
    ∧ (let w := { w0 with splits := ⟨[(0, some { lpc := 0x30300, mask := 0 })]⟩ }; ∃ f m p, Ready (st w) (bk w) w (.retired 3 0 f4) f m p)
    ∧ (me stEmul = some (bk wEmul, wEmul) ∧ wEmul.handler = true ∧ wEmul.reqs = [] ∧ wEmul.sb = [] ∧ Unanswered wEmul ∧ (∃ e, wEmul.entry = some e ∧ e.cause = .emul)
      ∧ devXlat stEmul 0 0 5 wEmul.tframe false = some (.at_ (.dev 0x1C000)) ∧ slotWaits stEmul (bk wEmul) wEmul (.dev 0x1C000) = false ∧ (readEmul.2.1.take 12).any id = false
      ∧ SlotHolds readEmul.1 0x30400 0 1 0 0 1 (fun _ => 0)
      ∧ (∀ j, j < 64 → BytesAt readEmul.1 (0x100 + 4 * j) 4 ((if j = 0 then 5 else 0 : Word)).toNat) ∧ (getSplit wEmul 0).isSome ∧ mapOf wEmul (8 * 2 ^ 71 / 2 ^ 71 % 512) = some 8) := by
  refine ⟨⟨ready_of_check rfl (by decide), by decide, rfl, by unfold SlotAt; decide, rfl, by decide⟩, ready_of_check rfl (by decide), rfl, rfl, rfl, rfl, unanswered_run rfl, ⟨_, rfl, rfl⟩, by decide,
    by decide +kernel, by decide +kernel, slot_stEmul, rowA_stEmul, rfl, by decide⟩

/-- A result for V4 that has not landed, with HZF set. -/
def cHaz : Core := { c0 with flight := [{ id := 3, due := 9, block := 1, warp := 0, lpc := 0x30240, tgt := .row 4, mask := 1 }] }
def wHaz : Warp := { w0 with lmode := 16 }

theorem witness_RowTraps :
    (me (st w0) = some (bk w0, w0) ∧ (getSplit w0 0).isSome ∧ Unmapped w0 (.vialu .add .i32 (lf (.v 3) (.v 16) (.v 6) (.v 0))) 16 ∧ Unmapped w0 (.ld false .none false .b64 (lf (.v 15) (.v 4) (.v 0) (.v 0))) 16
      ∧ mapOf w0 20 = none)
    ∧ (me (st wHaz b0 cHaz) = some (bk wHaz, wHaz) ∧ Hazardous (st wHaz b0 cHaz) (bk wHaz) wHaz (.copy f4) 0x30240)
    ∧ (mapOf w0 4 = some 4 ∧ mapOf w0 8 ≠ some 4 ∧ 15 ≤ (getRow { c0 with rows := ⟨[(4, { count := 15 })]⟩ } 4).count) :=
  ⟨⟨rfl, rfl, ⟨_, _, _, rfl, rfl, 0, by decide, by decide, fun j x h => absurd h (Nat.not_lt_zero j)⟩,
      ⟨_, _, _, rfl, rfl, 3, by decide, by decide, fun j x h e => of_all (p := fun x => (mapOf w0 x).isSome) ((by decide : ∀ j ∈ List.range 3,
        ∀ x ∈ ((checkedNames { vd := .dst 2, va := srcN 2, imm := .own 0xFFFFFFFF } (lf (.v 15) (.v 4) (.v 0) (.v 0)))[j]?).toList, (mapOf w0 x).isSome) j (List.mem_range.2 h)) x e⟩, by decide⟩,
    ⟨rfl, _, _, rfl, rfl, by decide, by decide, by decide, fun q h => (nomatch (h : (none : Option Nat) = some q)), .inl (by decide), .inl rfl, by decide⟩, by decide⟩

/-- Numbers, infinities and NaNs of each format, at the bounds of the statements on floats. -/
theorem witness_ArithmeticRoundsOnce :
    (0xFFFFFFFF < 2 ^ floatBits .f32 ∧ isNanF fmF32 0xFFFFFFFF = true ∧ isInfF fmF32 0xFF800000 = true ∧ isFinF fmF32 0x00000001 = true ∧ sigF fmF32 false 0x00000001 ≠ 0 ∧ isSigF fmF32 0x7F800001 = true)
    ∧ (isFinF (ftyFmt .f16x2) 0x7BFF = true ∧ isFinF (ftyFmt .b16x2) 0xFF7F = true ∧ isFinF (ftyFmt .f64) (2 ^ 63) = true ∧ negF (ftyFmt .f64) (2 ^ 63) = true ∧ sigF (ftyFmt .f64) false (2 ^ 63) = 0)
    ∧ ((14 : Nat) < 15 ∧ 0 ≠ 14 ∧ 2 ^ 64 - 1 < 2 ^ codeBits 14 ∧ (fmtOfCode 0).isSome = true ∧ (fmtOfCode 7).isSome = true ∧ (fmtOfCode 14).isSome = true ∧ (intOfCode 13).isSome = true ∧ (intOfCode 8).isSome = true) := by decide +kernel
/-! ### Witnesses: rows, the banker and lane memory -/

theorem mapSound_of {s : State} {b : Block} {w : Warp}
    (h : w.map.cells.all (fun e => match e.2 with | some r => decide (0 < (getRow (getCore s (coreNo b)) r).count) | none => true) = true) : MapSound s b w := by
  intro n r e
  simp only [List.all_eq_true] at h
  rcases lookupCells_mem none n w.map.cells with x | ⟨y, hy, x⟩
  · have : mapOf w n = none := x
    rw [this] at e; cases e
  · have : mapOf w n = y.2 := x.symm
    rw [this] at e
    have := h y hy
    rw [e] at this; simpa using this

theorem witness_AcquireAndRelease :
    (me (st w0) = some (bk w0, w0) ∧ (getSplit w0 0).isSome ∧ MapSound (st w0) (bk w0) w0 ∧ acqQueue (st w0) 0 0 = [] ∧ 2032 ≤ freeRows (getCore (st w0) 0) 0
      ∧ interlocked (bk w0) (getCore (st w0) 0) w0 [] [7] = false)
    ∧ freeRows (getCore (st w0) 0) 0 < 2033 :=
  ⟨⟨rfl, rfl, mapSound_of (by decide), by decide, by decide, by decide⟩, by decide⟩

/-- The warp waits for 8 rows for V16 on. -/
def wAcq : Warp := { w0 with splits := ⟨[(0, some { lpc := 0x30300, mask := BitVec.allOnes 64, wait := .acq })]⟩ }
def cAcq : Core := { c0 with acqWait := [{ quad := 0, block := 1, warp := 0, split := 0, base := 16, count := 8 }] }

theorem witness_AcquireServed :
    acqQueue (st wAcq b0 cAcq) 0 0 = [{ quad := 0, block := 1, warp := 0, split := 0, base := 16, count := 8 }] ∧ getBlock (st wAcq b0 cAcq) 1 = some (bk wAcq)
    ∧ getWarp (st wAcq b0 cAcq) 1 0 = some wAcq ∧ (getSplit wAcq 0).isSome ∧ MapSound (st wAcq b0 cAcq) (bk wAcq) wAcq ∧ 8 ≤ freeRows (getCore (st wAcq b0 cAcq) 0) 0
    ∧ slotLets (st wAcq b0 cAcq) 0 (bk wAcq) wAcq 0 = true ∧ wAcq.dbg.stopped = false ∧ wAcq.sstep = none
    ∧ (acqQueue (st wAcq b0 cAcq) 0 0 ≠ [] ∧ interlocked (bk wAcq) (getCore (st wAcq b0 cAcq) 0) wAcq [] [7] = false) :=
  ⟨by decide, rfl, rfl, rfl, mapSound_of (by decide), by decide, by decide +kernel, rfl, rfl, by decide, by decide⟩

theorem witness_MapEdits :
    me (st w0) = some (bk w0, w0) ∧ (getSplit w0 0).isSome ∧ mapOf w0 15 = some 15 ∧ mapOf w0 0 ≠ some 15 ∧ mapOf w0 383 ≠ some 15 ∧ (getRow (getCore (st w0) 0) 15).count < 15
    ∧ (let w := { w0 with map := ⟨[(4, some 4), (8, some 4)]⟩ }; me (st w) = some (bk w, w) ∧ mapOf w 4 = some 4 ∧ mapOf w 8 = some 4) :=
  ⟨rfl, rfl, by decide, by decide, by decide, by decide, rfl, by decide, by decide⟩

/-- A block with a row in banker slot 63, readable, and one in slot 0 whose giver's write 3 is in flight. -/
def bBank : Block := { b0 with banker := ⟨[(0, some { row := 20, ids := [3] }), (63, some { row := 21, ids := [] })]⟩, takes := [(0, { row := 22, ids := [3] })] }
theorem witness_Banker :
    me (st w0 bBank) = some (bk w0 bBank, w0) ∧ (getSplit w0 0).isSome ∧ mapOf w0 4 = some 4 ∧ (bk w0 bBank).banker.get none 5 = none ∧ bankAhead (bk w0 bBank) 5 0 0 true = []
    ∧ ((bk w0 bBank).banker.get none 63).isSome ∧ bankAhead (bk w0 bBank) 63 0 0 false = []
    ∧ ((bk w0 bBank).bankWait.any fun u => u.1 == 63 && !u.2.2.2 && u.2.1 != 0 && bankLive (bk w0 bBank) u) = false ∧ interlocked (bk w0 bBank) (getCore (st w0 bBank) 0) w0 [] [7] = false
    ∧ inOrder (getCore (st w0 bBank) 0).bankAt (getCore (st w0 bBank) 0).cyc w0 = true ∧ inOrder (getCore (st w0 bBank { c0 with bankAt := (0, 65) }) 0).bankAt 0 w0 = false :=
  ⟨rfl, rfl, by decide, by decide, by decide, by decide, by decide, by decide, by decide, by decide, by decide⟩

theorem witness_BankerReadable : getBlock (st w0 bBank) 1 = some (bk w0 bBank) ∧ slotReadable (st w0 bBank) (bk w0 bBank) { row := 20, ids := [3] } = true
    ∧ slotReadable (st w0 bBank { c0 with flight := [{ id := 3, due := 9, block := 1, warp := 0, lpc := 0, tgt := .row 20, mask := 1 }] }) (bk w0 bBank) { row := 20, ids := [3] } = false :=
  ⟨rfl, by decide, by decide⟩

/-- A warp whose one lane holds an address in V2 and V3, and a scratchpad offset in V4. -/
def wM : Warp := { w0 with width := 1 }
def cM (a o : Word) : Core :=
  { c0 with rows := ⟨(List.range 16).map fun n => (n, { count := 1, lanes := List.replicate 64 (if n = 2 then a else if n = 4 then o else 0) })⟩ }
def sM (a o : Word) : State := st wM b0 (cM a o)
def pM : Split := { lpc := 0x30300, mask := BitVec.allOnes 64 }
def fLd : LF := lf (.v 8) (.v 2) (.v 0) (.v 0)
def fSt : LF := lf (.v 0) (.v 2) (.v 0) (.v 8)
def fSp : LF := lf (.v 8) (.v 4) (.v 0) (.v 0)
def fAt : LF := lf (.v 8) (.v 2) (.v 6) (.v 0)
def iLd : Instr := .ld false .none false .b32 fLd

theorem memReady_of {s : State} {b : Block} {w : Warp} {i : Instr} {f : LF} {m : LFmt} {p : Split} {x : MemForm} (h : Ready s b w i f m p) (hx : memForm i = some x) (hn : FreshNumbers s) (hu : w.handler = false ∧ w.infill = false)
    (hc : ((List.range 64).all (fun l => !anyBad s b w m f l) && decide (countN w x.cls < 4095) && (List.range 64).any (isActive w m f p)) = true) : MemReady s b w i f m p x := by
  simp only [Bool.and_eq_true, List.all_eq_true, List.any_eq_true, List.mem_range, Bool.not_eq_true', decide_eq_true_eq] at hc
  obtain ⟨⟨a, c⟩, l, hl, d⟩ := hc
  exact ⟨h, hx, hu, a, c, ⟨l, hl, d⟩, hn⟩

theorem lanesAt_of {s : State} {b : Block} {w : Warp} {m : LFmt} {f : LF} {p : Split} {x : MemForm} {y : GLoc} (hy : ∀ d v, y ≠ .peer d v) (hp : ∀ l, w.lastPage.get none l = none)
    (h : (List.range 64).all (fun l => !isActive w m f p l || (laneEa s b w m f x l % x.bytes == 0 && addrOk s b.part (BitVec.ofNat 64 (laneEa s b w m f x l))
      && !olderReq w s.serial (.g y) x.bytes && decide ((xlatLaneIn [] b.pasid x.kind (BitVec.ofNat 64 (laneEa s b w m f x l))).1 = .miss)
      && decide ((xlatLaneIn (getCore s (coreNo b)).tlb b.pasid x.kind (BitVec.ofNat 64 (laneEa s b w m f x l))).1 = .at_ y))) = true) : LanesAt s b w m f p x (fun _ => y) := by
  intro l hl ha
  simp only [List.all_eq_true, List.mem_range, Bool.or_eq_true, Bool.and_eq_true, Bool.not_eq_true', beq_iff_eq, decide_eq_true_eq] at h
  rcases h l hl with h | ⟨⟨⟨⟨h1, h2⟩, h5⟩, h3⟩, h4⟩
  · rw [h] at ha; cases ha
  · refine ⟨h1, h2, hy, h5, .inr ⟨?_, h4⟩⟩
    rw [hp]; intro z; rw [show (none : Option Page).toList = [] from rfl, h3]; simp

/-- A load, a store, an atomic, a red and the scratchpad forms are sent in the small state. -/
theorem witness_LaneMemory : me (sM 0x38008 64) = some (bk wM, wM) ∧ FreshNumbers (sM 0x38008 64)
    ∧ (∀ i ∈ [iLd, .st false .b32 fSt, .atom .add false .span fAt, .red .add false .span { fAt with vd := .v 0 }, .lds true .b8 fSp, .sts .b64 (lf (.v 0) (.v 4) (.v 0) (.v 8)), .atoms .xchg false .block (lf (.v 8) (.v 4) (.v 6) (.v 0)),
        .ldx false .b32 fSp, .stx .b32 (lf (.v 0) (.v 4) (.v 0) (.v 8)), .atomx .add false .course (lf (.v 8) (.v 4) (.v 6) (.v 0))],
      ∃ f m p x, MemReady (sM 0x38008 64) (bk wM) wM i f m p x) := by
  have hf : FreshNumbers (sM 0x38008 64) := fresh_of (by decide)
  refine ⟨rfl, hf, ?_⟩
  intro i hi
  have key : ∀ j, readyB (sM 0x38008 64) (bk wM) wM j = true → (match lfmt j, j.lf, getSplit wM 0, memForm j with
      | some m, some f, some p, some x => (List.range 64).all (fun l => !anyBad (sM 0x38008 64) (bk wM) wM m f l) && decide (countN wM x.cls < 4095) && (List.range 64).any (isActive wM m f p)
      | _, _, _, _ => false) = true → ∃ f m p x, MemReady (sM 0x38008 64) (bk wM) wM j f m p x := by
    intro j h1 h2
    obtain ⟨f, m, p, h⟩ := ready_of_check (s := sM 0x38008 64) (b := bk wM) (w := wM) rfl h1
    rw [h.fmt, h.fields, show getSplit wM 0 = some p from h.split] at h2
    cases hx : memForm j with
    | none => rw [hx] at h2; cases h2
    | some x => rw [hx] at h2; exact ⟨f, m, p, x, memReady_of h hx hf ⟨rfl, rfl⟩ h2⟩
  simp only [List.mem_cons, List.not_mem_nil, or_false] at hi
  rcases hi with rfl | rfl | rfl | rfl | rfl | rfl | rfl | rfl | rfl | rfl <;> exact key _ (by decide) (by decide +kernel)

theorem witness_LaneRequestsSent :
    (∃ m p x, MemReady (sM 0x38008 64) (bk wM) wM iLd fLd m p x ∧ x.sp = .glob ∧ LanesAt (sM 0x38008 64) (bk wM) wM m fLd p x (fun _ => .dev 0x18008))
    ∧ (∃ m p x, MemReady (sM 0 65528) (bk wM) wM (.lds false .b64 fSp) fSp m p x ∧ x.sp = .own
      ∧ ∀ l, l < 64 → isActive wM m fSp p l = true → laneEa (sM 0 65528) (bk wM) wM m fSp x l % x.bytes = 0 ∧ laneEa (sM 0 65528) (bk wM) wM m fSp x l + x.bytes ≤ (bk wM).kd.scratch) := by
  refine ⟨⟨{ vd := .dst 1, va := srcN 2, imm := .own 0xFFFFFFFF }, pM, ⟨.glob, .ld, .load false false false, 4, false⟩, ?_, rfl, ?_⟩,
    ⟨{ vd := .dst 2, va := srcN 1, imm := .own 0xFFFFFFFF }, pM, ⟨.own, .ld, .load false false false, 8, false⟩, ?_, rfl, ?_⟩⟩
  · exact memReady_of (ready_of rfl rfl rfl rfl (by decide)) rfl (fresh_of (by decide)) ⟨rfl, rfl⟩ (by decide +kernel)
  · exact lanesAt_of (by intro d v; simp) (fun l => rfl) (by decide +kernel)
  · exact memReady_of (ready_of rfl rfl rfl rfl (by decide)) rfl (fresh_of (by decide)) ⟨rfl, rfl⟩ (by decide +kernel)
  · decide +kernel

/-- Two members of a gang on one course: the lane's address names the other's scratchpad (R93). -/
def bG (u : Nat) : Block := { b0 with uid := u, gang := some 0, peer := u - 1 }
def sGang : State := { sM 0 0x400040 with blocks := ⟨[(1, some { bG 1 with warps := ⟨[(0, some wM)]⟩ }), (2, some (bG 2))]⟩, gangs := ⟨[(0, { size := 2, members := [1, 2] })]⟩ }

theorem witness_PeerScratchpad :
    let b := { bG 1 with warps := ⟨[(0, some wM)]⟩ }
    ∃ m p x, MemReady sGang b wM (.ldx false .b32 fSp) fSp m p x ∧ x.sp = .peer ∧ b.pfail = false
      ∧ ∀ l, l < 64 → isActive wM m fSp p l = true → laneEa sGang b wM m fSp x l % x.bytes = 0 ∧ laneEa sGang b wM m fSp x l < 2 ^ 24 ∧ peerTarget sGang b (laneEa sGang b wM m fSp x l) = some (bG 2)
        ∧ (bG 2).frozen = false ∧ laneEa sGang b wM m fSp x l % 2 ^ 22 + x.bytes ≤ (bG 2).kd.scratch := by
  refine ⟨{ vd := .dst 1, va := srcN 1, imm := .own 0xFFFFFFFF }, pM, ⟨.peer, .ld, .load false false false, 4, false⟩, ?_, rfl, rfl, ?_⟩
  · exact memReady_of (ready_of rfl rfl rfl rfl (by decide)) rfl (fresh_of (by decide)) ⟨rfl, rfl⟩ (by decide +kernel)
  · decide +kernel

theorem witness_LaneStoresBuffered :
    ∃ m p x, MemReady (sM 0x38008 64) (bk wM) wM (.st false .b32 fSt) fSt m p x ∧ LanesAt (sM 0x38008 64) (bk wM) wM m fSt p x (fun _ => .dev 0x18008) ∧ gAddr (.dev 0x18008) % x.bytes = 0
      ∧ (((activeLanes wM m fSt p).map fun _ => lineOf (.dev 0x18008)).eraseDups).length + wM.sb.length ≤ 32 := by
  refine ⟨{ va := srcN 2, vc := srcN 1, imm := .own 0xFFFFFFFF }, pM, ⟨.glob, .st, .store, 4, false⟩, ?_, ?_, by decide, by decide +kernel⟩
  · exact memReady_of (ready_of rfl rfl rfl rfl (by decide)) rfl (fresh_of (by decide)) ⟨rfl, rfl⟩ (by decide +kernel)
  · exact lanesAt_of (by intro d v; simp) (fun l => rfl) (by decide +kernel)

/-- An atomic of one lane that its home is to perform, and the record of its warp that awaits it. -/
def aAt : LaneAcc := { lane := 0, ea := 0x38008, loc := some (.g (.dev 0x18008)), b := 5 }
def oAt (cls : Cls) : Op := { id := 50, cls := cls, block := 1, warp := 0, core := 0, kind := .atomic .add .span (cls == .ld), bytes := 4, todo := [aAt], dest := if cls == .ld then [8] else [] }
def rAt (cls : Cls) : MemReq :=
  { id := 50, word := 0, split := 0, space := .glob, cls := cls, kind := (oAt cls).kind, bytes := 4, todo := [{ aAt with st := .sent }], dest := (oAt cls).dest, counted := true, depth := 0, regionCount := 0,
    issuedAt := 0 }
def wAt (cls : Cls) : Warp := { wM with reqs := [rAt cls], splits := ⟨[(0, some { pM with wait := .park })]⟩ }
def sAt (cls : Cls) : State := { st (wAt cls) with ops := [oAt cls] }
/-- The same with a copy of the line in the RDC of pier 1. -/
def sAtShared : State :=
  { sAt .ld with piers := ⟨[(1, { State.reset.piers.get {} 1 with rdc := ⟨[(0x18008 / 128, some ({ data := List.replicate 128 0 } : CLine))]⟩ })]⟩ }

theorem witness_LaneAtomicsPerformed :
    (∃ m p x, MemReady (sM 0x38008 64) (bk wM) wM (.atom .add false .span fAt) fAt m p x ∧ LanesAt (sM 0x38008 64) (bk wM) wM m fAt p x (fun _ => .dev 0x18008)
      ∧ sbHolds wM 100 (.dev 0x18008) = false ∧ drainHolds (sM 0x38008 64) 1 (.dev 0x18008) = false)
    ∧ (∃ m p x, MemReady (sM 0x60010 64) (bk wM) wM (.atom .add false .system fAt) fAt m p x ∧ LanesAt (sM 0x60010 64) (bk wM) wM m fAt p x (fun _ => .host 0x1010)
      ∧ sbHolds wM 100 (.host 0x1010) = false ∧ drainHolds (sM 0x60010 64) 1 (.host 0x1010) = false)
    ∧ (∀ c, c = .ld ∨ c = .st → findOp (sAt c) 50 = some (oAt c) ∧ (∀ y ∈ (sAt c).ops, y.id = 50 → y = oAt c) ∧ (∀ x ∈ (sAt c).transit, x.id ≠ 50) ∧ getBlock (sAt c) 1 = some (bk (wAt c))
      ∧ getWarp (sAt c) 1 0 = some (wAt c) ∧ (oAt c).dest.Nodup ∧ (oAt c).todo = [aAt] ∧ aAt.b < 256 ^ 4 ∧ laneFree (sAt c) (oAt c) aAt = true ∧ gPois (sAt c) (.dev 0x18008) = false
      ∧ NoWatch (sAt c) (.g (.dev 0x18008)) 4 3 ∧ (sAt c).scopes.get none (0x18008 / 128) = none ∧ rAt c ∈ (wAt c).reqs ∧ (∀ y ∈ (wAt c).reqs, y.id = 50 → y = rAt c)
      ∧ (rAt c).todo.map (fun a => (a.lane, a.st)) = (oAt c).todo.map (fun a => (a.lane, .sent)) ∧ (getSplit (wAt c) 0).isSome ∧ (wAt c).handler = false ∧ (wAt c).infill = false)
    ∧ hasSharer (sAt .ld) (0x18008 / 128) = false
    ∧ (findOp sAtShared 50 = some (oAt .ld) ∧ laneFree sAtShared (oAt .ld) aAt = true ∧ gPois sAtShared (.dev 0x18008) = false ∧ hasSharer sAtShared (0x18008 / 128) = true) := by
  refine ⟨⟨{ vd := .dst 1, va := srcN 2, vb := srcN 1, imm := .own 0xFFFFFFFF }, pM, ⟨.glob, .ld, .atomic .add .span true, 4, false⟩, ?_, ?_, by decide, by decide⟩,
    ⟨{ vd := .dst 1, va := srcN 2, vb := srcN 1, imm := .own 0xFFFFFFFF }, pM, ⟨.glob, .ld, .atomic .add .system true, 4, false⟩, ?_, ?_, by decide, by decide⟩, ?_, by decide,
    by decide, by decide, by decide, by decide⟩
  · exact memReady_of (ready_of rfl rfl rfl rfl (by decide)) rfl (fresh_of (by decide)) ⟨rfl, rfl⟩ (by decide +kernel)
  · exact lanesAt_of (by intro d v; simp) (fun l => rfl) (by decide +kernel)
  · exact memReady_of (ready_of rfl rfl rfl rfl (by decide)) rfl (fresh_of (by decide)) ⟨rfl, rfl⟩ (by decide +kernel)
  · exact lanesAt_of (by intro d v; simp) (fun l => rfl) (by decide +kernel)
  · rintro c (rfl | rfl) <;>
      exact ⟨by decide, by decide, by decide, rfl, rfl, by decide, rfl, by decide, by decide, by decide, noWatch_of (by decide), by decide, by decide, by decide, by decide, rfl, rfl, rfl⟩

/-- A load of one lane outstanding, into row 8. -/
def oLd (todo : List LaneAcc) (result : List (Nat × Nat)) : Op := { id := 50, cls := .ld, block := 1, warp := 0, core := 0, kind := .load false false false, bytes := 4, todo := todo, result := result, dest := [8] }
def sLd (todo : List LaneAcc) (result : List (Nat × Nat)) : State := { st { w0 with ldq := [(50, false)] } with ops := [oLd todo result] }
def aLd : LaneAcc := { lane := 63, ea := 0x38008, loc := some (.g (.dev 0x18008)), fwd := [none, none, none, none] }

theorem witness_LoadResponses :
    findOp (sLd [aLd] []) 50 = some (oLd [aLd] []) ∧ (∀ y ∈ (sLd [aLd] []).ops, y.id = 50 → y = oLd [aLd] []) ∧ (getBlock (sLd [aLd] []) 1).isSome ∧ (getWarp (sLd [aLd] []) 1 0).isSome
    ∧ (oLd [aLd] []).dest.Nodup ∧ ((oLd [aLd] []).todo.map (·.lane)).Nodup ∧ aLd.lane < 64 ∧ laneFree (sLd [aLd] []) (oLd [aLd] []) aLd = true ∧ NoWatch (sLd [aLd] []) (.g (.dev 0x18008)) 4 2
    ∧ groupOf (oLd [aLd] []).kind 4 (.g (.dev 0x18008)) = groupOf (oLd [aLd] []).kind 4 (.g (.dev 0x18008)) ∧ (128 % (4 : Nat) = 0) ∧ gAddr (.dev 0x18008) % 4 = 0 ∧ seenPois (sLd [aLd] []) 0 (.dev 0x18008) = false ∧ ExtendsTo false 4 0 0
    ∧ ∀ j, j < 4 → 0 / 256 ^ j % 256 = (seenByte (sLd [aLd] []) 0 w0 (gAdd (.dev 0x18008) j)).toNat := by
  refine ⟨by decide, by decide, rfl, rfl, by decide, by decide, by decide, by decide, noWatch_of (by decide), rfl, by decide, by decide, by decide, by unfold ExtendsTo; decide, by decide⟩

theorem witness_AtomicResults :
    findOp (sLd [] [(63, 7)]) 50 = some (oLd [] [(63, 7)]) ∧ (∀ y ∈ (sLd [] [(63, 7)]).ops, y.id = 50 → y = oLd [] [(63, 7)]) ∧ (getBlock (sLd [] [(63, 7)]) 1).isSome
    ∧ (getWarp (sLd [] [(63, 7)]) 1 0).map (·.reqs) = some [] ∧ (oLd [] [(63, 7)]).dest.Nodup ∧ (oLd [] [(63, 7)]).resPois = 0 ∧ ((oLd [] [(63, 7)]).result.map Prod.fst).Nodup := by
  refine ⟨by decide, by decide, rfl, rfl, by decide, rfl, by decide⟩

/-- A store buffer entry of one byte, and the same entry on its way. -/
def eSb : SbEnt := { line := .dev 0x18000, vline := 0x38000, pasid := 5, bytes := ⟨[(127, some 9)]⟩, ids := [40] }
def tSb : Transit := { id := 41, core := 0, block := 1, warp := 0, ent := eSb }
def aSp : LaneAcc := { lane := 0, ea := 65535, loc := some (.spad 1 65535), b := 7 }
def aSp2 : LaneAcc := { lane := 1, ea := 65472, loc := some (.spad 1 65472), b := 8 }
def oSp : Op := { id := 42, cls := .st, block := 1, warp := 0, core := 0, kind := .store, bytes := 1, todo := [aSp, aSp2] }
/-- Sixteen lanes of 4 bytes that fill a granule. -/
def oSpFull : Op :=
  { oSp with bytes := 4, todo := (List.range 16).map fun k => { lane := k, ea := 4 * k, loc := some (.spad 1 (4 * k)), b := 7 } }

theorem witness_StoresPerformed :
    (let w := { w0 with sb := [eSb] }; getBlock (st w) 1 = some (bk w) ∧ getWarp (st w) 1 0 = some w ∧ w.sb = eSb :: [] ∧ entryBlocked (st w) 1 w eSb = false ∧ w.reqs = [])
    ∧ (let s := { st w0 with transit := [tSb] }
       s.transit.find? (fun x => x.id == 41) = some tSb ∧ 0x18000 % 128 = 0 ∧ behind s tSb = false ∧ (∀ e ∈ eSb.bytes.cells, e.1 < 128 ∧ e.2.isSome) ∧ (eSb.bytes.cells.map Prod.fst).Nodup
       ∧ (∀ o, o < 128 → (eSb.bytes.get none o).isSome → NoWatch s (.g (.dev (0x18000 + o))) 1 1) ∧ hasSharer s (0x18000 / 128) = false)
    ∧ (let l : CLine := { data := List.replicate 128 0 }; hasSharer { st w0 with transit := [tSb], piers := ⟨[(1, { State.reset.piers.get {} 1 with rdc := ⟨[(0x18000 / 128, some l)]⟩ })]⟩ } (0x18000 / 128) = true)
    ∧ (let s := { st { w0 with stq := [(42, false)] } with ops := [oSp] }
       findOp s 42 = some oSp ∧ (∀ y ∈ s.ops, y.id = 42 → y = oSp) ∧ getBlock s 1 = some (bk { w0 with stq := [(42, false)] }) ∧ (∀ a ∈ oSp.todo, ∃ off, a.loc = some (.spad 1 off) ∧ off / 64 = 1023 ∧ off % 64 + 1 ≤ 64 ∧ laneFree s oSp a = true)
       ∧ NoWatch s (.spad 1 65535) 1 1 ∧ NoWatch s (.spad 1 65472) 1 1)
    ∧ (let s := { st { w0 with stq := [(42, false)] } with ops := [oSpFull] }
       findOp s 42 = some oSpFull ∧ (oSpFull.todo.map (·.lane)).Nodup ∧ ∀ a ∈ oSpFull.todo, laneFree s oSpFull a = true ∧ ∃ off, a.loc = some (.spad 1 off) ∧ off / 64 = 0 ∧ off % 64 + 4 ≤ 64) := by
  refine ⟨⟨rfl, rfl, rfl, by decide, rfl⟩, ⟨by decide, by decide, by decide, by decide, by decide, fun o ho hs => by
      have : ∀ o, o < 128 → (eSb.bytes.get none o).isSome = true → o = 127 := by decide +kernel
      rw [this o ho hs]; exact noWatch_of (by decide), by decide⟩, by decide, ⟨by decide, by decide, rfl, ?_, noWatch_of (by decide), noWatch_of (by decide)⟩, by decide, by decide, ?_⟩
  · intro a ha
    rcases List.mem_cons.1 ha with rfl | ha
    · exact ⟨_, rfl, by decide, by decide, by decide⟩
    · rw [List.mem_singleton.1 ha]; exact ⟨_, rfl, by decide, by decide, by decide⟩
  · intro a ha
    simp only [oSpFull, List.mem_map, List.mem_range] at ha
    obtain ⟨k, hk, rfl⟩ := ha
    refine ⟨?_, _, rfl, by omega, by omega⟩
    have : ∀ k, k < 16 → laneFree ({ st { w0 with stq := [(42, false)] } with ops := [oSpFull] }) oSpFull { lane := k, ea := 4 * k, loc := some (.spad 1 (4 * k)), b := 7 } = true := by decide +kernel
    exact this k hk

/-- The handler's slot, and a lane that is misaligned, outside the layout, or beyond SCRATCH. -/
theorem witness_LaneMemoryTraps :
    (∃ m p x, MemReady (sM 0x38001 64) (bk wM) wM iLd fLd m p x ∧ x.sp = .glob ∧ isActive wM m fLd p 0 = true ∧ SlotAt (sM 0x38001 64) (bk wM) wM (.dev 0x1C000) ∧ wM.tvec ≠ 0
      ∧ laneEa (sM 0x38001 64) (bk wM) wM m fLd x 0 % x.bytes ≠ 0)
    ∧ (∃ m p x, MemReady (sM 0 65533) (bk wM) wM (.lds false .b8 { fSp with imm := 3 }) { fSp with imm := 3 } m p x ∧ x.sp = .own
      ∧ (bk wM).kd.scratch < laneEa (sM 0 65533) (bk wM) wM m { fSp with imm := 3 } x 0 + x.bytes)
    ∧ (∃ m p x, MemReady (sM 0 64) (bk wM) wM (.ldx false .b8 fSp) fSp m p x ∧ x.sp = .peer ∧ (bk wM).gang = none ∧ laneEa (sM 0 64) (bk wM) wM m fSp x 0 < 2 ^ 24)
    ∧ (let w := { wM with qs := ⟨[(0, [{ seq := 1, val := 0x8000000000000000 }])]⟩ }; let f := lf (.v 8) (.v 4) (.q 0) (.v 0); let s := st w b0 (cM 0 64)
       ∃ m p x, MemReady s (bk w) w (.ld true .none false .b32 f) f m p x ∧ addrOk s 0 (BitVec.ofNat 64 (laneEa s (bk w) w m f x 0)) = false)
    ∧ (∃ m p x, MemReady (sM 0x60010 64) (bk wM) wM (.atom .add false .span fAt) fAt m p x ∧ LanesAt (sM 0x60010 64) (bk wM) wM m fAt p x (fun _ => .host 0x1010)
      ∧ x.sp = .glob ∧ Scope.span ≠ .system ∧ isActive wM m fAt p 0 = true ∧ wM.sb = [] ∧ wM.reqs = [] ∧ (∀ y ∈ (sM 0x60010 64).transit, y.engine = false ∨ y.block ≠ 1) ∧ (bk wM).frozen = false
      ∧ wM.pending = none) := by
  refine ⟨⟨{ vd := .dst 1, va := srcN 2, imm := .own 0xFFFFFFFF }, pM, ⟨.glob, .ld, .load false false false, 4, false⟩, ?_, rfl, by decide, by unfold SlotAt; decide, by decide, by decide +kernel⟩,
    ⟨{ vd := .dst 1, va := srcN 1, imm := .own 0xFFFFFFFF }, pM, ⟨.own, .ld, .load false false false, 1, false⟩, ?_, rfl, by decide +kernel⟩,
    ⟨{ vd := .dst 1, va := srcN 1, imm := .own 0xFFFFFFFF }, pM, ⟨.peer, .ld, .load false false false, 1, false⟩, ?_, rfl, rfl, by decide +kernel⟩,
    ⟨{ vd := .dst 1, va := srcN 1, vb := .qname, imm := .own 0xFFFFFFFF }, pM, ⟨.glob, .ld, .load false false false, 4, true⟩, ?_, by decide +kernel⟩,
    ⟨{ vd := .dst 1, va := srcN 2, vb := srcN 1, imm := .own 0xFFFFFFFF }, pM, ⟨.glob, .ld, .atomic .add .span true, 4, false⟩, ?_,
      lanesAt_of (by intro d v; simp) (fun l => rfl) (by decide +kernel), rfl, by decide, by decide, rfl, rfl, by decide, rfl, rfl⟩⟩
  all_goals exact memReady_of (ready_of rfl rfl rfl rfl (by decide)) rfl (fresh_of (by decide)) ⟨rfl, rfl⟩ (by decide +kernel)


/-! ### Witnesses: the engine, copies and the dispatcher -/

def mk (k : CmdKind) : Cmd := { id := 60, block := 1, warp := 0, batch := 0, kind := k }
/-- Core 0 with commands. -/
def cE (l : List Cmd) : Core := { c0 with cmds := l }

theorem witness_EngineCommandsRun : ∀ k ∈ [.tcfg 3 0x7F0#32, .drld 0 { words := List.replicate 32 0, consts := List.replicate 16 0 }, .aclr 3, .mma 0 0 1 0 0 0],
    let s := st w0 b0 (cE [mk k])
    getBlock s 1 = some (bk w0) ∧ unitHead (getCore s 0) (unitNo (mk k)) = some (mk k) ∧ cmdBlocked (getCore s 0) (mk k) = false ∧ engBusy (getCore s 0) (unitNo (mk k)) = false
      ∧ (mk k).inject = false ∧ cmdEarly s (mk k) = false ∧ (∀ y ∈ (getCore s 0).cmds, y.id = (mk k).id → y = mk k) := by
  intro k hk
  simp only [List.mem_cons, List.not_mem_nil, or_false] at hk
  rcases hk with rfl | rfl | rfl | rfl <;> exact ⟨rfl, by decide, by decide, by decide, rfl, by decide, by decide⟩

/-- An mma of FP16 elements at its first chunk, and at its second and last. -/
theorem witness_MmaChunks : ∀ n ∈ [0, 1],
    let m := { mk (.mma 2 0 1 0x11 0x7F1 0x7F1) with pos := n, started := n == 1 }; let s := st w0 b0 (cE [m])
    getBlock s 1 = some (bk w0) ∧ unitHead (getCore s 0) 2 = some m ∧ cmdBlocked (getCore s 0) m = false ∧ engBusy (getCore s 0) 2 = false ∧ cmdEarly s m = false ∧ m.inject = false
    ∧ (∀ y ∈ (getCore s 0).cmds, y.id = m.id → y = m) ∧ (if n = 0 then n + 1 < mmaChunks 0x11 0x7F1 else mmaChunks 0x11 0x7F1 ≤ n + 1) := by
  intro n hn
  simp only [List.mem_cons, List.not_mem_nil, or_false] at hn
  rcases hn with rfl | rfl <;> exact ⟨rfl, by decide, by decide, by decide, by decide, rfl, by decide, by decide⟩

/-- An address without a translation, and one that R88 forbids, fail. -/
theorem fails0 {s : State} {c : Nat} {b : Block} {a : Nat} {wr : Bool} (h : addrOk s b.part (BitVec.ofNat 64 a) = true) (hx : engXlat s c b a wr = .wait) : EngineFails s c b a wr 0 :=
  ⟨h, fun l => by rw [hx]; simp⟩
theorem fails1 {s : State} {c : Nat} {b : Block} {a : Nat} {wr : Bool} (h : addrOk s b.part (BitVec.ofNat 64 a) = false) : EngineFails s c b a wr 1 := h

/-- No watchpoint of the small state is armed. -/
theorem noWatch_c0 {s : State} {x : Core} (h : s.cores.cells = [(0, x)]) (hd : x.dbg = {}) (l : ALoc) (n k : Nat) : NoWatch s l n k := by
  intro e he m hm
  rw [h, List.mem_singleton] at he
  subst he
  simp [wpMatch, hd, SMap.get, SMap.empty, lookupCells, wpKind]

/-- Transfers of a tile of 128 rows of 16 bytes: a load's first byte, a store's last, and one of a page with no translation. -/
theorem witness_TileTransfers :
    (∀ x ∈ [(false, true, 0, 0), (false, false, 0, 0x38000), (true, true, 2047, 0), (true, false, 2047, 0x38000)],
      let m := { mk (if x.1 then .tst x.2.1 3 x.2.2.2 16 0 0x7F0#32 else .tld x.2.1 3 x.2.2.2 16 0 0x7F0#32) with pos := x.2.2.1, started := true }
      let s := st w0 b0 (cE [m])
      getBlock s 1 = some (bk w0) ∧ unitHead (getCore s 0) 1 = some m ∧ (∀ z ∈ (getCore s 0).cmds, z.id = m.id → z = m) ∧ cmdOut s m = false ∧ m.pos < tcRows 0x7F0#32 * tcBytes 0x7F0#32
      ∧ (x.2.1 = true → NoWatch s (.spad 1 (tileAddr x.2.2.2 16 0 0x7F0#32 (m.pos / 16) (m.pos % 16))) 1 1 ∧ NoWatch s (.spad 1 (tileAddr x.2.2.2 16 0 0x7F0#32 (m.pos / 16) (m.pos % 16))) 1 2)
      ∧ masterFrozen s (.core 0) = false ∧ (x.2.1 = true → ∀ k, k ≤ 64 → NoWatch s (.spad 1 (tileAddr x.2.2.2 16 0 0x7F0#32 (m.pos / 16) (m.pos % 16))) k 1)
      ∧ (x.2.1 = false → peerBusy s (.dev (0x18000 + m.pos)) = false ∧ ∀ t ∈ s.transit, t.engine = true → t.core = 0 → t.ent.line ≠ lineOf (.dev (0x18000 + m.pos)))
      ∧ (x.2.1 = false → engXlat s 0 (bk w0) (tileAddr x.2.2.2 16 0 0x7F0#32 (m.pos / 16) (m.pos % 16) % 2 ^ 64) x.1 = .ok (.dev (0x18000 + m.pos)))
      ∧ (x.2.1 = false → x.1 = false → NoWatch s (.g (.dev (0x18000 + m.pos))) 1 2))
    ∧ (let m := mk (.tld false 3 0x90000 16 0 0x7F0#32); let s := st w0 b0 (cE [m]); EngineFails s 0 (bk w0) 0x90000 false 0 ∧ EngineFails s 0 (bk w0) 0x8000000000000000 false 1
        ∧ EngineFails { s with parts := ⟨[(0, { courses := 1, en := true, outmask := 2 })]⟩, routes := ⟨[(1, { valid := true, ports := 1 })]⟩, dev := { s.dev with ports := 1 } } 0 (bk w0) 0x0200000000000000 false 2
      ∧ cmdBlocked (getCore s 0) m = false ∧ cmdEarly s m = false
      ∧ engBusy (getCore s 0) 1 = false ∧ getWarp s m.block m.warp = some w0) := by
  refine ⟨?_, fails0 (by decide) (by decide), fails1 (by decide), ⟨rfl, 1, 0, by decide, by decide⟩, by decide, by decide, by decide, rfl⟩
  intro x hx
  simp only [List.mem_cons, List.not_mem_nil, or_false] at hx
  rcases hx with rfl | rfl | rfl | rfl
  all_goals exact ⟨rfl, by decide, by decide, by decide, by decide, fun _ => ⟨noWatch_of (by decide), noWatch_of (by decide)⟩, by decide, fun _ k _ => noWatch_c0 rfl rfl _ _ _,
    fun _ => ⟨by decide, by decide⟩, fun h => by first | decide +kernel | exact absurd h (by decide),
    fun _ _ => noWatch_of (by decide)⟩

/-- A drain of accumulator 0 whose program folds each element, at a point of its walk. -/
def dSlot (ws : List Word) : DSlot := { words := ws ++ List.replicate (32 - ws.length) 0, consts := List.replicate 16 0 }
def dProg : DSlot := dSlot [0x08000000, 0x90000000]
def mD (d : DSlot) (x : DrainSt) (st : Bool := true) (desc : List Byte := List.replicate 128 0) : Cmd := { mk (.drain 0 0 d desc [] (some 3)) with drain := x, started := st }
/-- A descriptor with FLAGS 2 and RRES at 0x90000. -/
def dRres : List Byte := (List.range 128).map fun i => if i = 0xD then 2 else if i = 0x3A then 9 else 0

theorem witness_Drains :
    (let m := mD dProg {} false; let s := st w0 b0 (cE [m])
     onEngine (getCore s 0) 1 = none ∧ engBusy (getCore s 0) (3 + 1) = false ∧ (∀ y ∈ (getCore s 0).cmds, y.id = m.id → y = m)
     ∧ (getCore s 0).cmds.find? (fun y => unitNo y == 3 && !y.started && !cmdBlocked (getCore s 0) y) = some m)
    ∧ (∀ x ∈ [({ row := 0 } : DrainSt), { row := 127, col := 127, began := true }, { row := 127, col := 128, began := true }, { row := 128 }, { row := 5, parked := true, armed := true, began := true, col := 128 }],
        let m := mD dProg x; let s := st w0 b0 (cE [m])
        OnEngine s 0 0 m (bk w0) ∧ getWarp s m.block m.warp = some w0 ∧ (holds (program dProg) 0x11 && (ddesc (List.replicate 128 0)).flags / 2 % 2 == 1) = false
        ∧ (∀ u ∈ program dProg, regOnly u.op = true) ∧ accBad (bk w0) 0 127 127 = false ∧ holds (program dProg) 0x12 = true ∧ holds (program dProg) 0x11 = false ∧ cmdOut s m = false ∧ masterFrozen s (.core 0) = false)
    ∧ ((let w := { w0 with badK := 8 }; w.badK.getLsbD 3 = true ∧ (mD dProg { row := 128 }).drain.reported = false) ∧ w0.badK.getLsbD 3 = false)
    ∧ (let d := dSlot [0x88000000]; let m := mD d {} true dRres; let s := st w0 b0 (cE [m])
       OnEngine s 0 0 m (bk w0) ∧ holds (program d) 0x11 = true ∧ (ddesc dRres).flags / 2 % 2 = 1 ∧ spaceOf (ddesc dRres).rres ≠ 1 ∧ cmdOut s m = false
         ∧ engXlat s 0 (bk w0) (addrOf (ddesc dRres).rres + 4 * 0) false = .wait) := by
  refine ⟨⟨by decide, by decide, by decide, by decide⟩, ?_, by decide, ⟨by decide, by decide, rfl⟩, by decide, by decide +kernel, by decide +kernel, by decide, by decide +kernel⟩
  intro x hx
  simp only [List.mem_cons, List.not_mem_nil, or_false] at hx
  rcases hx with rfl | rfl | rfl | rfl | rfl <;> exact ⟨⟨by decide, by decide, rfl⟩, rfl, by decide, by decide, by decide, by decide, by decide, by decide, by decide⟩

/-- A drain at a point of its walk whose program is dacc of r1, one micro-operation, and dend; its descriptor has PBASE, PFMT and the tables given. -/
def dOne (w : Word) : DSlot := dSlot [0x09000000, w]
def dDesc (pspace pfmt sspace tspace : Byte) : List Byte :=
  (List.range 64).map fun i => if i = 7 then pspace else if i = 0xC then pfmt else if i = 0x17 then sspace else if i = 0x27 ∨ i = 0x2F ∨ i = 0x37 then tspace
    else if i = 2 ∨ i = 0x22 then 3 else if i = 1 ∨ i = 0x21 ∨ i = 0x29 ∨ i = 0x31 ∨ i = 0x11 then 0x80 else 0
def mOne (w : Word) (desc : List Byte) (j : Nat) (g : List Word := []) : Cmd := mD (dOne w) { row := 127, col := j, began := true, gather := g } true desc

/-- drow, drow of the second table, dcol, dst, dstt and dmx: at the first and the last column, and, for dmx, at a column that ends a group of 32. -/
theorem witness_DrainAccesses : ∀ w ∈ [0x69000000, 0x69000001, 0x71000000, 0x98200000, 0xA8200003, 0xA0200003], ∀ j ∈ [0, 127],
    let g : List Word := if j = 127 then List.replicate 31 0 else []
    let m := mOne w (dDesc 0x40 3 0x40 0x40) j g; let s := st w0 b0 (cE [m])
    OnEngine s 0 0 m (bk w0) ∧ masterFrozen s (.core 0) = false ∧ m.drain.skip ≤ m.drain.wc ∧ accBad (bk w0) 0 127 j = false
    ∧ program (dOne w) = [uop 0x09000000] ++ uop w :: [] ∧ (∀ u ∈ [uop 0x09000000] ++ [], regOnly u.op = true) ∧ (∀ a n k, NoWatch s (.spad m.block a) n k)
    ∧ ((uop w).op = 0x0D ∨ (uop w).op = 0x0E ∨ (uop w).op = 0x13 ∨ (uop w).op = 0x15 ∨ (uop w).op = 0x14)
    ∧ (j = 127 → j % 32 = 31 ∧ m.drain.gather.length = 31) := by
  intro w hw j hj
  simp only [List.mem_cons, List.not_mem_nil, or_false] at hw hj
  rcases hw with rfl | rfl | rfl | rfl | rfl | rfl <;> rcases hj with rfl | rfl <;>
    exact ⟨⟨by decide, by decide, rfl⟩, by decide, by decide, by decide, by decide, by decide, fun a n k => noWatch_c0 rfl rfl _ _ _, by decide, by decide⟩
/-- The spaces of those descriptors: scratchpad, global memory with a translation, and a tile; the formats of the dmx. -/
theorem witness_DrainSpaces :
    (let D := ddesc (dDesc 0x40 3 0x40 0x40); D.pbase / 2 ^ 62 = 1 ∧ D.sbase / 2 ^ 62 = 1 ∧ D.rowt0 / 2 ^ 62 = 1 ∧ D.rowt1 / 2 ^ 62 = 1 ∧ D.colt0 / 2 ^ 62 = 1
      ∧ (uop 0xA0200003).x = D.pfmt ∧ 3 ≤ D.pfmt ∧ D.pfmt ≤ 8)
    ∧ (let D := ddesc (dDesc 0 0 0 0); let s := st w0
       D.pbase / 2 ^ 62 = 0 ∧ codeBits D.pfmt % 8 = 0 ∧ D.pbase % 2 ^ 62 = 0x38000 - 0x8000 + 0x8000 ∧ engXlat s 0 (bk w0) 0x38000 true = .ok (.dev 0x18000)
       ∧ D.rowt0 / 2 ^ 62 ≠ 1 ∧ engXlat s 0 (bk w0) (D.rowt0 % 2 ^ 62 + 4 * 127) false = .ok (.dev 0x181FC) ∧ peerBusy s (.dev 0x181FC) = false ∧ NoWatch s (.g (.dev 0x181FC)) 4 2)
    ∧ (let D := ddesc (dDesc 0x80 3 0 0); D.pbase / 2 ^ 62 = 2 ∧ codeBits D.pfmt ≤ 32) ∧ codeBits (tcEfmt (([] : List Word).getD 3 0)) ≤ 32 := by
  refine ⟨by decide +kernel, ⟨by decide +kernel, by decide +kernel, by decide +kernel, by decide, by decide +kernel, by decide +kernel, by decide, noWatch_c0 rfl rfl _ _ _⟩, by decide +kernel, by decide⟩

/-- A copy of two elements from global memory: all moved, and the second waiting for a page that the host refuses. -/
def dCopy (src : Nat) : List Byte := leBytes 8 src ++ leBytes 8 0x100 ++ leBytes 4 2 ++ leBytes 4 1 ++ leBytes 4 1 ++ List.replicate 32 0
def yCopy (src : Nat) (m : SMap Bool) : Copy := { id := 70, block := 1, warp := 0, kind := .g2s, desc := dCopy src, at_ := 0xFFC0, moved := m }

theorem witness_CopiesEnd :
    (let y := yCopy 0x38000 ⟨[(0, true), (1, true)]⟩; let s := st w0 b0 { c0 with copies := [y] }
     findCopy (getCore s 0) 70 = some y ∧ getBlock s 1 = some (bk w0) ∧ getWarp s 1 0 = some w0 ∧ copyOut s 70 = false ∧ y.moved.cells.length = cCount (cdesc y.desc) ∧ NoWatch s (.spad 1 (0xFFC0 + 0x38)) 8 1)
    ∧ (let y := yCopy 0x8FFFF ⟨[(0, true)]⟩; let s := st w0 b0 { c0 with copies := [y] }
       findCopy (getCore s 0) 70 = some y ∧ copyOut s 70 = false ∧ 1 < cCount (cdesc y.desc) ∧ (∀ i, i < 1 → y.moved.get false i = true) ∧ y.moved.get false 1 = false
       ∧ srcAddr s y (cdesc y.desc) 1 = 0x90000 ∧ EngineFails s 0 (bk w0) 0x90000 false 0) :=
  ⟨⟨by decide +kernel, rfl, rfl, by decide, by decide +kernel, noWatch_of (by decide)⟩, by decide +kernel, by decide, by decide +kernel, by decide, by decide, by decide +kernel, fails0 (by decide) (by decide)⟩

/-! ### The dispatcher -/

/-- A running queue of partition 0 with a packet at index 0 of its ring. -/
def q0 : Queue := { rbase := 0x30000, rlog := 4, state := 1, wridx := 1, qpasid := 5 }
def bLpb (kind : Nat) : List Byte := leBytes 8 kind ++ leBytes 8 0x30800 ++ leBytes 8 7 ++ leBytes 4 2 ++ leBytes 4 1 ++ leBytes 4 1 ++ [1, 0, 1, 0, 0, 0, 0, 0, 64, 0, 0, 0] ++ List.replicate 80 0
/-- A descriptor with one row, code in the page, no drain. -/
def bKd : List Byte := leBytes 8 0x30900 ++ leBytes 8 0x30300 ++ leBytes 8 0 ++ [16, 0, 0, 0] ++ List.replicate 36 0
def memOf (a : Nat) (l : List Byte) : Memory := ⟨(l.zipIdx.map fun e => (a + e.2, e.1)).filter fun e => e.2 != 0⟩
def sQ (q : Queue) (lpb kd : List Byte) : State :=
  { st w0 with mem := ⟨(memOf 0x10000 lpb).cells ++ (memOf 0x10800 kd).cells⟩
               parts := ⟨[(0, { courses := 1, en := true, pcnt := 64, memSize := ⟨[(0, 2 ^ 30)]⟩, queues := ⟨[(63, q)]⟩, dtlb := [page 0x30000 0x10000] })]⟩ }
def gHeld : Grid := { queue := 63, pasid := 5, held := true, placed := 1 }

theorem witness_QueueRegisters :
    QueueHere (sQ q0 [] []) 0 63 q0 ∧ hostLet (sQ q0 [] []) 0 = true ∧ inError (sQ q0 [] []) 0 = false ∧ q0.wridx ≤ (16 : DWord).toNat ∧ (16 : DWord).toNat ≤ q0.rdidx + 2 ^ q0.rlog ∧ q0.rdidx + 2 ^ q0.rlog < (17 : DWord).toNat
    ∧ (let q := { q0 with state := 0 }; QueueHere (sQ q [] []) 0 63 q ∧ (getPart (sQ q [] []) 0).tdi = .unlocked ∧ 4 ≤ q.rlog ∧ q.rbase.toNat % 128 = 0 ∧ q.supaddr.toNat % 32 = 0
        ∧ (getPart (sQ q [] []) 0).pbase ≤ 5 ∧ 5 < (getPart (sQ q [] []) 0).pbase + (getPart (sQ q [] []) 0).pcnt
        ∧ (∀ e ∈ (getPart (sQ q [] []) 0).queues.cells, e.1 ≠ 63 → e.2.state ≠ 0 → e.2.qpasid.toNat % 2 ^ 20 ≠ 5))
    ∧ (let q := { q0 with state := 3 }; let s := { sQ q [] [] with grids := [gHeld] }; QueueHere s 0 63 q ∧ (∃ g ∈ s.grids, g.part = 0 ∧ g.queue = 63 ∧ gridOpen g = true ∧ g.held = true)) := by
  refine ⟨⟨rfl, by decide, by decide, rfl⟩, by decide, rfl, by decide, by decide, by decide, ⟨⟨rfl, by decide, by decide, rfl⟩, rfl, by decide, by decide, by decide, by decide, by decide, by decide⟩, ⟨rfl, by decide, by decide, rfl⟩, by decide⟩

theorem witness_PacketsAdmitted :
    (∀ k l, QueueHere (sQ q0 k l) 0 63 q0) ∧ q0.state = 1 ∧ q0.rdidx < q0.wridx
    ∧ dRead (sQ { q0 with rbase := 0x30000 } (bLpb 1) bKd) 0 5 0x30000 128 = .ok (bLpb 1) ∧ lpbBad q0 (bLpb 1) = false ∧ (∃ d, checkLaunch (sQ q0 (bLpb 1) bKd) 0 63 0 q0 (bLpb 1) = .takeIn d)
    ∧ dRead (sQ q0 (bLpb 2) []) 0 5 0x30000 128 = .ok (bLpb 2) ∧ dRead (sQ q0 (bLpb 257) []) 0 5 0x30000 128 = .ok (bLpb 257) ∧ lpbBad q0 (bLpb 257) = true
    ∧ dRead (sQ q0 (bLpb 0) []) 0 5 0x30000 128 = .ok (bLpb 0) ∧ lpbBad q0 (bLpb 0) = false ∧ (∃ c, checkLaunch (sQ q0 (bLpb 1) (bKd.map fun _ => 255)) 0 63 0 q0 (bLpb 1) = .err c)
    ∧ dRead (sQ { q0 with rbase := 0x200000000000000 } [] []) 0 5 0x200000000000000 128 = .bad := by
  refine ⟨fun k l => ⟨rfl, by decide, by decide, rfl⟩, rfl, by decide, by decide +kernel, by decide +kernel, ⟨kdescOf 0x30800 bKd, by decide +kernel⟩, by decide +kernel, by decide +kernel, by decide +kernel,
    by decide +kernel, by decide +kernel, ⟨3, by decide +kernel⟩, by decide +kernel⟩

/-! ### Witnesses: placement, saves and translations -/

/-- A grid of two blocks with nothing placed. -/
def gNew : Grid := { queue := 63, pasid := 5, lpb := { gx := 2 }, kd := { rows := 16, scratch := 65536, tiles := 4, accs := 4, lbase := 0x30300, sentry := 0x30000 } }
/-- Course 0 powered by regulator 0. -/
def powered0 (s : State) : State := { s with courses := ⟨[(0, { switch := 0x80 })]⟩, dev := { s.dev with regOn := ⟨[(0, true)]⟩ } }
def sG (g : Grid) : State := powered0 { sQ q0 [] [] with grids := [g] }

theorem witness_BlocksPlaced :
    answering (sG gNew) = true ∧ inError (sG gNew) 0 = false ∧ OnlyReady (sG gNew) 0 gNew ∧ gNew.saved = [] ∧ gNew.lpb.courseN = 1 ∧ poolFits (sG gNew) gNew = true
    ∧ recordsOf (sG gNew) 0 5 gNew.kd = .ok [] ∧ (∃ c ∈ partCores (sG gNew) 0, fits (sG gNew) c (needOf gNew) = true) ∧ gNew.lpb.order = 0 ∧ gNew.lpb.swz = 0
    ∧ gNew.placed < gNew.lpb.gx * gNew.lpb.gy * gNew.lpb.gz ∧ getGrid (sG gNew) 0 gNew.queue gNew.packet = some gNew :=
  ⟨rfl, rfl, ⟨by decide, rfl, by decide, by decide⟩, rfl, rfl, by decide, by decide, ⟨3, by decide +kernel, by decide +kernel⟩, rfl, rfl, by decide, by decide⟩

/-- A grid whose one block is placed. -/
def gOne : Grid := { gNew with lpb := { cmode := 1, cplAddr := 0x38000, blkEvt := 0x39000 }, placed := 1 }
def bOne : Block := { b0 with queue := 63 }
def sOne (g : Grid) (w : Warp) (b : Block) : State :=
  { st w b with grids := [g]
                parts := ⟨[(0, { courses := 1, en := true, pcnt := 64, memSize := ⟨[(0, 2 ^ 30)]⟩, queues := ⟨[(63, { q0 with supaddr := 0x30040 })]⟩, dtlb := [page 0x30000 0x10000] })]⟩ }

theorem witness_GridEvents :
    (let w := { w0 with swait := .yield }; let s := sOne gOne w bOne
     getGrid s 0 63 0 = some gOne ∧ gridOpen gOne = true ∧ gOne.failed = false ∧ gOne.held = false ∧ gOne.budg ≠ 0 ∧ (s.blocks.cells.map Prod.fst).Nodup ∧ resident s gOne = [bk w bOne] ∧ allPlaced gOne = true
     ∧ gOne.saved = [] ∧ (∀ h ∈ s.grids, h.part = 0 → gOne.lpb.deadline.toNat ≤ h.lpb.deadline.toNat)
     ∧ (bk w bOne).saving = false ∧ (bk w bOne).started = true ∧ ((bk w bOne).warps.cells.map Prod.fst).Nodup ∧ ∀ x ∈ liveWarps (bk w bOne), x.swait = .yield ∧ x.sstep = none)
    ∧ (let g := { gOne with budg := 0 }; let b := { bOne with frozen := true }; let s := sOne g w0 b
       getGrid s 0 63 0 = some g ∧ g.owes = false ∧ dXlat { s with parts := ⟨[]⟩ } 0 g.pasid (getQueue s 0 63).supaddr true = .wait ∧ 0 / 2 ^ 64 = (getQueue s 0 63).epoch ∧ inError s 0 = false ∧ (∀ b ∈ resident s g, b.frozen = true) ∧ dXlat s 0 g.pasid (getQueue s 0 63).supaddr true = .at_ (.dev 0x10040))
    ∧ (let b := { bOne with exited := true }; let s := sOne gOne w0 b
       getBlock s 1 = some (bk w0 b) ∧ (bk w0 b).evented = false ∧ (∀ c, getGrid (sOne { gOne with complete := c } w0 b) 0 63 0 = some { gOne with complete := c }) ∧ blockBusy s (bk w0 b) = false ∧ dXlat s 0 gOne.pasid (gOne.lpb.blkEvt + BitVec.ofNat 64 (bk w0 b).idx) true = .at_ (.dev 0x19000))
    ∧ (let b := { bOne with exited := true, evented := true }; let g := { gOne with exited := 1 }; let s := sOne g w0 b
       getGrid s 0 63 0 = some g ∧ g.lost = false ∧ g.noCpl = false ∧ g.lpb.gx * g.lpb.gy * g.lpb.gz ≤ g.exited ∧ (∀ b ∈ blocksOf s g, blockBusy s b = false ∧ (g.lpb.cmode = 1 → b.evented = true))
       ∧ dXlat s 0 g.pasid g.lpb.cplAddr true = .at_ (.dev 0x18000)) := by
  refine ⟨⟨by decide, by decide, rfl, rfl, by decide, by decide, by decide, by decide, rfl, by decide, rfl, rfl, by decide, by decide⟩, ⟨by decide, rfl, by decide, by decide, rfl, by decide, by decide⟩,
    ⟨rfl, rfl, by decide, by decide, by decide⟩, ⟨by decide, rfl, rfl, by decide, by decide, by decide⟩⟩

/-- The block saved: two rows, one buffered store. -/
def bSaved (c : Option Nat) (r : Bool) (w : Warp) : Block :=
  { bk w bOne with core := c, started := false, resend := r, savedRows := ⟨[(0, { count := 1 }), (15, { count := 2 })]⟩ }
def wBuf : Warp := { w0 with sb := [{ line := .dev 0x18000, vline := 0x38000, pasid := 5, bytes := ⟨[(127, some 9)]⟩, ids := [40] }] }
def gSaved : Grid := { gOne with saved := [1] }
def sSaved (b : Block) : State := powered0 { sOne gSaved w0 bOne with blocks := ⟨[(1, some b)]⟩ }

theorem witness_SaveAndRestore :
    (getBlock (st w0 bOne) 1 = some (bk w0 bOne) ∧ (bk w0 bOne).gang = none ∧ inError (st w0 bOne) 0 = false ∧ (bk w0 bOne).core = some 0 ∧ (bk w0 bOne).saving = false ∧ (getCourse (st w0 bOne) (courseOf 0)).step = none)
    ∧ (let b := { bOne with saving := true }; getBlock (st w0 b) 1 = some (bk w0 b) ∧ blockQuiet (st w0 b) (bk w0 b) 0 = true ∧ (∀ w ∈ liveWarps (bk w0 b), w.reqs = []) ∧ ∀ y ∈ (getCore (st w0 b) 0).copies, y.block ≠ 1)
    ∧ (let b := bSaved none false w0; let s := sSaved b
       getBlock s 1 = some b ∧ answering s = true ∧ (∀ e ∈ allBlocks s, e.part = 0 → e.resend = false) ∧ OnlyReady s 0 gSaved ∧ gSaved.saved.head? = some 1 ∧ b.savedRows.wf {} = true
       ∧ (b.warps.cells.map Prod.fst).Nodup ∧ (∀ e ∈ b.savedRows.cells, e.1 < 8192 ∧ (e.2.count ≠ 0 ∨ e.2.pend ≠ 0)) ∧ (∃ c ∈ partCores s 0, fits s c (needSaved b) = true))
    ∧ (let b := bSaved (some 0) true wBuf; let s := sSaved b
       getBlock s 1 = some b ∧ (∀ e ∈ allBlocks s, e.part = b.part → e.resend = true → e = b) ∧ warpOf b 0 = some wBuf ∧ (∀ w' ∈ liveWarps b, w'.sb ≠ [] → w' = wBuf)
       ∧ xlat (getCore s 0).tlb 5 (BitVec.ofNat 64 0x38000) true false = .at_ (.dev 0x18000))
    ∧ (let b := bSaved (some 0) true w0; let s := sSaved b; (∀ e ∈ allBlocks s, e.part = b.part → e.resend = true → e = b) ∧ b.stopSaved = false ∧ ∀ w ∈ liveWarps b, w.sb = [] ∧ w.dbg.stopped = false) := by
  refine ⟨⟨rfl, rfl, rfl, rfl, rfl, rfl⟩, ⟨rfl, by decide, by decide, by decide⟩, ⟨rfl, rfl, by decide, ⟨by decide, rfl, by decide, by decide⟩, rfl, by decide, by decide, by decide, ⟨3, by decide +kernel, by decide +kernel⟩⟩,
    ⟨rfl, by decide, rfl, by decide, by decide⟩, by decide, by decide⟩

/-- A load of V0 waits for the page at 0x40000. -/
def wAts (x : SWait) : Warp := { w0 with swait := x }
theorem witness_Translations :
    answers (page 0x40000 0x10000) 5 0x40008 = true ∧ inMem (st w0) (partOfPasid (st w0) 5) 0x10000 65536 = true ∧ inMem (st w0) 0 0x10000 65536 = true ∧ (hostPage.host = true ∧ answers hostPage 5 0x60000 = true)
    ∧ (∀ x ∈ [.ats 0x40008, .pri 0x40008], getBlock (st (wAts x)) 1 = some (bk (wAts x)) ∧ (bk (wAts x)).core = some 0 ∧ (bk (wAts x)).pasid = 5 ∧ getWarp (st (wAts x)) 1 0 = some (wAts x)
        ∧ (wAts x).reqs = [] ∧ (wAts x).pending = none ∧ (bk (wAts x)).resend = false ∧ pageHolds (page 0x40000 0x10000) 5 (0x40008 % 2 ^ 57) = true
        ∧ (getPart (st (wAts x)) (partOfPasid (st (wAts x)) 5)).priOff = false) := by
  refine ⟨by decide, by decide, by decide, ⟨rfl, by decide⟩, ?_⟩
  intro x hx
  simp only [List.mem_cons, List.not_mem_nil, or_false] at hx
  rcases hx with rfl | rfl <;> exact ⟨rfl, rfl, rfl, rfl, rfl, rfl, rfl, by decide, by decide⟩

/-- A store on its way to peer 3, and a request of an S-load to it. -/
def tPeer : Transit := { id := 41, core := 0, block := 1, warp := 0, ent := { line := .peer 3 0x1000, vline := 0x38000, pasid := 5, bytes := ⟨[(0, some 9)]⟩, ids := [40] } }
def aPeer : LaneAcc := { lane := 0, ea := 0x38000, loc := some (.g (.peer 3 0x1000)) }
def oPeer : Op := { id := 50, cls := .ld, block := 1, warp := 0, core := 0, kind := .load false false false, bytes := 8, todo := [aPeer], counted := false }
def sPeer (w : Warp) : State :=
  { st w with transit := [tPeer], ops := [oPeer], routes := ⟨[(3, { valid := true, ports := 1 })]⟩, dev := { State.reset.dev with ready := true, ports := 0xFFFF } }
/-- A write of a copy's second element to the peer, and one of a tst. -/
def tCopy : Transit := { tPeer with copyEng := true, ent := { tPeer.ent with ids := [70, 1] } }
def sPeerCopy : State := { sPeer w0 with transit := [tCopy], cores := ⟨[(0, { c0 with copies := [{ yCopy 0x38000 ⟨[(0, true), (1, true)]⟩ with kind := .s2g }] })]⟩ }
def mTst : Cmd := { mk (.tst false 3 0x38000 16 0 0x7F0#32) with started := true }
def tTst : Transit := { tPeer with engine := true, ent := { tPeer.ent with ids := [60] } }
def sPeerTst : State := { sPeer w0 with transit := [tTst], cores := ⟨[(0, cE [mTst])]⟩ }
theorem witness_PeerRefusals :
    (sPeer w0).transit.find? (fun x => x.id == 41) = some tPeer ∧ routeUp (sPeer w0) 3 = true ∧ getBlock (sPeer w0) 1 = some (bk w0) ∧ getWarp (sPeer w0) 1 0 = some w0 ∧ tPeer.core = 0 ∧ tPeer.copyEng = false ∧ tPeer.engine = false
    ∧ (let w := { w0 with swait := .peer 50 }; findOp (sPeer w) 50 = some oPeer ∧ (∀ y ∈ (sPeer w).transit, y.id ≠ 50) ∧ getWarp (sPeer w) 1 0 = some w)
    ∧ (sPeerCopy.transit.find? (fun x => x.id == 41) = some tCopy ∧ tCopy.copyEng = true ∧ tCopy.ent.ids = 70 :: [1]
      ∧ (findCopy (getCore sPeerCopy 0) 70).map (fun z => (z.block, z.warp, z.moved.get false 0)) = some (1, 0, true) ∧ 1 ∈ [1] ∧ 0 ∉ [1] ∧ (∀ x ∈ sPeerCopy.transit, x.id = 41)
      ∧ NoWatch sPeerCopy (.spad 1 (0xFFC0 + 0x38)) 8 1)
    ∧ (sPeerTst.transit.find? (fun x => x.id == 41) = some tTst ∧ tTst.copyEng = false ∧ tTst.engine = true ∧ mTst ∈ (getCore sPeerTst 0).cmds
      ∧ (∀ x ∈ (getCore sPeerTst 0).cmds, x = mTst) ∧ tTst.ent.ids = [mTst.id] ∧ mTst.block = 1 ∧ mTst.warp = 0 ∧ mTst.moved = false ∧ (∀ x ∈ sPeerTst.transit, x.id = 41)) := by
  refine ⟨by decide, by decide, rfl, rfl, rfl, rfl, rfl, ⟨by decide, by decide, rfl⟩,
    ⟨by decide +kernel, rfl, rfl, by decide +kernel, by decide, by decide, ?_, noWatch_of (by decide)⟩, by decide, rfl, rfl, List.mem_singleton.2 rfl, ?_, rfl, rfl, rfl, rfl, ?_⟩
  · intro x hx; rw [List.mem_singleton.1 hx]; rfl
  · intro x hx; exact List.mem_singleton.1 hx
  · intro x hx; rw [List.mem_singleton.1 hx]; rfl

/-- A warp of stacked and waiting splits. -/
def pAt (k : Nat) (x : LWait) (r : Option DWord) : Split := { lpc := 0x30300 + BitVec.ofNat 64 (12 * k), mask := 1#64 <<< k, rpc := r, wait := x, since := k }
def wSplits (l : List (Nat × Split)) (st : List StackEnt := []) (x : SWait := .run) : Warp := { w0 with splits := ⟨l.map fun e => (e.1, some e.2)⟩, stack := st, swait := x }
def eStack (x : LWait) : StackEnt := { lpc := 0x30400, mask := 2, rpc := none, wait := x }

theorem stuck_pair : Stuck [((0x30300 : DWord), some (0x30300 : DWord), LWait.ljoin), ((0x3030C : DWord), some (0x30300 : DWord), LWait.lnext)] := by
  refine ⟨⟨_, List.mem_cons_self, rfl⟩, ?_⟩
  intro i e h
  match i, h with
  | 0, h =>
    cases h
    refine .inr ⟨rfl, rfl, ⟨1, _, by decide, rfl, rfl⟩, ?_⟩
    intro j x hj hx _ hw
    match j, hx with
    | 0, _ => exact absurd rfl hj
    | 1, hx => cases hx; cases hw
    | _ + 2, hx => cases hx
  | 1, h => cases h; exact .inl rfl
  | _ + 2, h => cases h

theorem witness_TimersAndResumes :
    (let w := wSplits [(0, pAt 0 .run none)] [eStack .run]; Resident (st w) 1 0 (bk w) w ∧ getSplit w 1 = none ∧ (∀ j, j < 1 → (getSplit w j).isSome) ∧ w.stack = eStack .run :: [] ∧ w.handler = false ∧ w.infill = false ∧ w.pending = none)
    ∧ (let w := wSplits [(0, pAt 1 .ljoin none), (1, pAt 2 .lnext none), (2, pAt 3 .lnext none), (3, pAt 4 .lnext none)] [eStack .run]
       Resident (st w) 1 0 (bk w) w ∧ (∀ x ∈ liveSplits w, atWait x.2.wait = true) ∧ (∃ x ∈ liveSplits w, x.2.wait = .ljoin) ∧ (0, pAt 1 .ljoin none) ∈ liveSplits w
       ∧ (∀ x ∈ liveSplits w, x ≠ (0, pAt 1 .ljoin none) → (pAt 1 .ljoin none).since < x.2.since) ∧ w.handler = false ∧ w.infill = false ∧ w.pending = none)
    ∧ (let w := wSplits [(0, pAt 0 (.pop 4 2) none), (3, pAt 3 .lnext none)] [] (.queue 7)
       Resident (st w) 1 0 (bk w) w ∧ w.handler = false ∧ w.infill = false ∧ w.pending = none ∧ w.tvec ≠ 0 ∧ SlotAt (st w) (bk w) w (.dev 0x1C000) ∧ (liveSplits w).head? = some (0, pAt 0 (.pop 4 2) none)
       ∧ w.qs.get [] 7 = [] ∧ (∀ x ∈ liveSplits w, (∃ j n, x.2.wait = .pop j n ∧ (w.qs.get [] j).length < n) ∨ (∃ j, x.2.wait = .push j ∧ 16 ≤ (w.qs.get [] j).length) ∨ (x.2.wait = .lnext ∧ w.bq = [])) ∧ w.stack = [])
    ∧ (let w := wSplits [(0, pAt 0 (.pop 4 1) none), (1, pAt 1 (.pop 4 1) none), (2, pAt 2 (.pop 4 1) none), (3, pAt 3 (.pop 4 1) none)] [eStack .run] (.queue 8)
       (∀ j, j < 4 → (getSplit w j).isSome) ∧ (∃ x ∈ liveSplits w, x.2.wait ≠ .lnext) ∧ 16 ≤ ({ w with bq := List.replicate 16 0 } : Warp).bq.length)
    ∧ (let w := wSplits [(0, pAt 0 .ljoin (some 0x30300)), (1, pAt 1 .lnext (some 0x30300))]
       Resident (st w) 1 0 (bk w) w ∧ asking w = false ∧ (liveSplits w).head? = some (0, pAt 0 .ljoin (some 0x30300)) ∧ getSplit w 0 = some (pAt 0 .ljoin (some 0x30300))
       ∧ Stuck ((liveSplits w).map (fun e => (e.2.lpc, e.2.rpc, e.2.wait)) ++ w.stack.map fun e => (e.lpc, e.rpc, e.wait)))
    ∧ (let w := { w0 with wtim := 9, wtimCmp := 9 }; Resident (st w) 1 0 (bk w) w ∧ w.wtimArmed = true ∧ w.wtimCmp.toNat ≤ w.wtim ∧ w.swait ≠ .exit) := by
  refine ⟨⟨⟨rfl, rfl, rfl, rfl, rfl, rfl⟩, by decide, by decide, rfl, rfl, rfl, rfl⟩, ⟨⟨rfl, rfl, rfl, rfl, rfl, rfl⟩, by decide, by decide, by decide, by decide, rfl, rfl, rfl⟩,
    ⟨⟨rfl, rfl, rfl, rfl, rfl, rfl⟩, rfl, rfl, rfl, by decide, by unfold SlotAt; decide, by decide, by decide, ?_, rfl⟩, ⟨by decide, by decide, by decide⟩,
    ⟨⟨rfl, rfl, rfl, rfl, rfl, rfl⟩, by decide, by decide, by decide, stuck_pair⟩, ⟨⟨rfl, rfl, rfl, rfl, rfl, rfl⟩, rfl, by decide, by decide⟩⟩
  intro x hx
  rw [show liveSplits (wSplits [(0, pAt 0 (.pop 4 2) none), (3, pAt 3 .lnext none)] [] (.queue 7)) = [(0, pAt 0 (.pop 4 2) none), (3, pAt 3 .lnext none)] by decide] at hx
  simp only [List.mem_cons, List.not_mem_nil, or_false] at hx
  rcases hx with rfl | rfl
  · exact .inl ⟨4, 2, rfl, by decide⟩
  · exact .inr (.inr ⟨rfl, by decide⟩)

/-- A warp that holds a WATCH cause, as its next S-issue comes, and one that holds an unwind. -/
def wHold : Warp := { w0 with held := [{ cause := .watch, subc := 1, faddr := 0x38000, asyn := true }] }
def wUnw : Warp := { w0 with regions := [region], ctopens := 1, unwindHeld := some (1, 1) }
theorem witness_HeldCausesEntered :
    (let s := st wHold; getBlock s 1 = some (bk wHold) ∧ getWarp s 1 0 = some wHold ∧ mayIssue s (bk wHold) wHold = true ∧ streamLet s (bk wHold) wHold false 0 = true ∧ stepOver wHold = none
      ∧ wHold.pending = none ∧ wtimDue wHold = false ∧ (∃ r, heldNext wHold = some (r, []) ∧ r.toInfill = false ∧ r.ids = [] ∧ r.cause ≠ .emul ∧ r.stream = false)
      ∧ wHold.tvec ≠ 0 ∧ SlotAt s (bk wHold) wHold (.dev 0x1C000) ∧ ((liveSplits wHold).head?).isSome = true)
    ∧ (let w := { wHold with tvec := 0 }; mayIssue (st w) (bk w) w = true ∧ streamLet (st w) (bk w) w false 0 = true ∧ w.tvec = 0 ∧ (heldNext w).isSome = true)
    ∧ (let s := st wUnw; getWarp s 1 0 = some wUnw ∧ mayIssue s (bk wUnw) wUnw = true ∧ streamLet s (bk wUnw) wUnw false 0 = true ∧ stepOver wUnw = none ∧ wUnw.pending = none ∧ wtimDue wUnw = false
      ∧ heldNext wUnw = none ∧ unwindNext wUnw = some (1, region) ∧ ∀ c n, wUnw.swait ≠ .barIn c n) := by
  refine ⟨⟨rfl, rfl, by decide, by decide, by decide, rfl, by decide, ⟨_, rfl, rfl, rfl, by decide, rfl⟩, by decide, by unfold SlotAt; decide, by decide⟩,
    ⟨by decide, by decide, rfl, by decide⟩, rfl, by decide, by decide, by decide, rfl, by decide, by decide, by decide, ?_⟩
  intro c n; simp [wUnw, w0]

/-! ### Witnesses: infill, errors, power and debugging -/

/-- Infill holds the warp of a retired word for V8. -/
def wInf : Warp := { wEmul with handler := false, infill := true }
def stInf : State := { st wInf with mem := stEmul.mem }
/-- The state once infill has written the frame's rows and flags, and its slot as the warp reads it. -/
def stInf2 : State := devWrite (devWrite stInf (some 0) (gAdd (.dev 0x1C000) 0x100) (rowBytes (5 :: List.replicate 63 0) ++ rowBytes (List.replicate 64 0))) (some 0) (gAdd (.dev 0x1C000) 7) [1]
def readInf : List Byte × List Bool × State := slotLoad stInf2 (bk wInf) wInf (.dev 0x1C000)
theorem read_inf : readInf.1 = emulList := by decide +kernel
theorem witness_InfillResume :
    Resident stInf 1 0 (bk wInf) wInf ∧ wInf.infill = true ∧ masterFrozen stInf (.infill 0) = false ∧ SlotAt stInf (bk wInf) wInf (.dev 0x1C000) ∧ slotWaits stInf (bk wInf) wInf (.dev 0x1C000) = false
    ∧ wInf.tvec ≠ 0 ∧ gAddr (.dev 0x1C000) % 64 = 0 ∧ olderEnts wInf stInf.serial = [] ∧ wInf.reqs = [] ∧ (∃ e, wInf.entry = some e ∧ e.cause = .emul) ∧ (readInf.2.1.take 12).any id = false
    ∧ SlotHolds readInf.1 0x30400 0 1 0 0 1 (fun _ => 0) ∧ (∀ j, j < 64 → BytesAt readInf.1 (0x100 + 4 * j) 4 ((if j = 0 then 5 else 0 : Word)).toNat) ∧ (0x30400 : DWord).toNat % 4 = 0
    ∧ (0 : DWord).toNat % 12 = 0 ∧ (getSplit wInf 0).isSome ∧ mapOf wInf (8 * 2 ^ 71 / 2 ^ 71 % 512) = some 8 := by
  have h : readInf.1 = readEmul.1 := by rw [read_inf, read_emul]
  exact ⟨⟨rfl, rfl, rfl, rfl, rfl, rfl⟩, rfl, by decide, by unfold SlotAt; decide, by decide +kernel, by decide, by decide, by decide, rfl, ⟨_, rfl, rfl⟩, by decide +kernel, by rw [h]; exact slot_stEmul,
    by rw [h]; exact rowA_stEmul, by decide, by decide, rfl, by decide⟩

/-- A consumption in the innermost region, and in none, and a context whose error queue has room. -/
def wCons (d : Nat) (h : Bool) : Warp :=
  { w0 with cons := [{ depth := d, regionCount := 1, unit := 2, pa := 0x18000, va := 0x38000 }], handler := h, regions := [{ handler := 0x30200, count := 1, since := 0 }], ctopens := 1 }
def sCons (d : Nat) (h : Bool) (q : DWord) : State := { st (wCons d h) with ctxs := [{ part := 0, pasid := 5, errqb := q }] }
theorem witness_ConsumptionsReport :
    (∀ d ∈ [0, 1], getBlock (sCons d false 0) 1 = some (bk (wCons d false)) ∧ getWarp (sCons d false 0) 1 0 = some (wCons d false) ∧ (getCtx (sCons d false 0) 0 5).errqb.toNat / 4096 = 0)
    ∧ (let w := wCons 1 false; 0 < 1 ∧ 1 ≤ w.regions.length ∧ (w.regions[w.regions.length - 1]?).map (·.count) = some 1 ∧ w.handler = false ∧ w.pending = none ∧ w.infill = false ∧ w.reqs = [] ∧ w.swait = .run)
    ∧ (let s := sCons 0 true 0x38000; let q := getCtx s 0 5; eqFull q.errqb q.errqh = false ∧ (wCons 0 true).handler = true
       ∧ devXlat s 0 0 5 (BitVec.ofNat 64 (eqBase q.errqb + 64 * (eqTail q.errqh % eqSize q.errqb))) true = some (.at_ (.dev 0x18000)))
    ∧ (let s := sCons 0 false 0x8000000000000000; let q := getCtx s 0 5; eqFull q.errqb q.errqh = false
       ∧ devXlat s 0 0 5 (BitVec.ofNat 64 (eqBase q.errqb + 64 * (eqTail q.errqh % eqSize q.errqb))) true = none)
    ∧ ((wCons 1 true).handler = true ∧ (wCons 1 true).unwindHeld = none ∧ asking (wCons 1 false) = false ∧ (wCons 1 false).held = [] ∧ (bk (wCons 0 false)).core.isSome = true) := by
  refine ⟨?_, by decide, ⟨by decide, rfl, by decide⟩, ⟨by decide, by decide⟩, rfl, rfl, by decide, rfl, rfl⟩
  intro d hd
  simp only [List.mem_cons, List.not_mem_nil, or_false] at hd
  rcases hd with rfl | rfl <;> exact ⟨rfl, rfl, by decide⟩

theorem witness_LandingsAndErrors :
    (let y : Flight := { id := 3, due := 9, block := 1, warp := 0, lpc := 0, tgt := .row 4, mask := 1, far := true }; let s := st w0 b0 { c0 with flight := [y] }
     (getCore s 0).flight.find? (fun x => x.id == y.id) = some y ∧ getWarp s y.block y.warp = some w0)
    ∧ getBlock (st w0) 1 = some (bk w0) ∧ getWarp (st w0) 1 0 = some w0
    ∧ (CountsFor (st w0) (.row 31 3 2047 63) 31 ∧ CountsFor (st w0) (.sreg 1 0 63) 0 ∧ CountsFor (st w0) (.dram (0x18000 / 64)) (32 + 0x18000 / 512 % 32))
    ∧ (let w := { w0 with bq := [0x30300], qs := ⟨[(7, [{ seq := 1, val := 2 }])]⟩ }; getWarp (st w) 1 0 = some w ∧ 0 < w.bq.length ∧ ((w.qs.get [] 7)[0]?).isSome = true) := by
  refine ⟨by decide, rfl, rfl, ⟨rfl, ?_, rfl⟩, rfl, by decide, by decide⟩
  unfold CountsFor; decide

/-- Course 0 in deficit, or not, with a warp to gate or a gated one. -/
def sPow (x : Course) (g : Bool) : State := { st { w0 with gated := g } with courses := ⟨[(0, x)]⟩ }
theorem witness_AllowancesAndGates :
    (let s := { st w0 with gtime := 1, courses := ⟨[(0, { switch := 0x80 })]⟩, dev := { State.reset.dev with regOn := ⟨[(0, true)]⟩ } }; s.dev.refilled < s.gtime ∧ powered s 0 = true ∧ powered s 1 = false)
    ∧ (getCourse (sPow { pwra := -1, deficit := 64 } false) 0).pwra < 0 ∧ 64 ≤ (getCourse (sPow { pwra := -1, deficit := 64 } false) 0).deficit
    ∧ (let s := sPow {} true; (0 ≤ (getCourse s 0).pwra) ∧ gatedIn s 0 0 = [(0, 1)] ∧ (getCore s 0).freed.get 0 0 = 0 ∧ (getCore s 0).lastFreed.get none 0 = none ∧ (getWarp s 1 0).isSome ∧ gatedIn s 0 1 = []) := by decide

theorem witness_CapsAndFrequencies :
    (State.reset.dev.lastSeq.toNat < (1 : DWord).toNat ∧ (0 : DWord).toNat ≤ State.reset.dev.lastSeq.toNat)
    ∧ (let s := { State.reset with gtime := 1, dev := { State.reset.dev with leased := true } }; s.dev.leased = true ∧ s.dev.expiry < s.gtime ∧ State.reset.dev.leased = false)
    ∧ (∀ p, p < 4 → masterFrozen (st w0) (.infill p) = false ∧ (getPier (st w0) p).coreMap.get 0 8 = 0) ∧ pfLet (st w0) = true
    ∧ (masterFrozen (st w0) (.infill 0) = false ∧ coreBusy (st w0) 0 = true ∧ coreBusy (st w0) 4 = false)
    ∧ (answering (st w0) = true ∧ (∀ k, k < 4 → (getPart (st w0) k).courses.getLsbD 0 = true → (getPart (st w0) k).tdi = .unlocked) ∧ courseBusy (st w0) 0 = true ∧ courseBusy (st w0) 1 = false)
    ∧ (∀ n, n < 2 → (getCourse { st w0 with courses := ⟨[(0, { pendSwitch := some 0x81 }), (1, { pendSwitch := some 0x81 })]⟩ } n).pendSwitch = some 0x81) := by decide

/-- A sample of 20.0 degrees, and a vault at its bounds. -/
def cool : List Int := List.replicate 31 320
theorem witness_SensorSamples :
    (State.reset.dev.tripped = false ∧ (st w0).dev.tripped = false ∧ (∀ x : Int, x ∈ [1327, 1328, 1359, 1360, 1487, 1488, 1519, 1520, 1680, 1681, 1759] → (cool ++ [x]).length = 32 ∧ (∀ y ∈ (cool ++ [x]) ++ List.replicate 9 (320 : Int), -32768 ≤ y ∧ y < 32768) ∧ ¬((∃ y ∈ cool ++ [x], y ≥ 1760) ∨ ∃ y ∈ List.replicate 9 (320 : Int), y ≥ 1840))
      ∧ (List.replicate 9 (320 : Int)).length = 9 ∧ (getPier (st w0) 0).mult.get 0 31 ≤ 2
      ∧ (getPier (st w0) 0).samples ≤ (st w0).gtime / 1000 ∧ (st w0).gtime / 1000 < (getPier { st w0 with piers := ⟨[(0, { (getPier (st w0) 0) with samples := 1 })]⟩ } 0).samples
      ∧ { st w0 with agenda := [.nano] }.agenda = .nano :: [])
    ∧ ((∃ x ∈ cool ++ [1760], x ≥ (1760 : Int)) ∧ ((st w0).blocks.cells.map Prod.fst).Nodup ∧ (getBlock (st w0) 1).any (fun b => b.core == some 0 && !b.exited && !b.frozen && b.gang.isNone) = true)
    ∧ (let s := { st w0 { b0 with core := none, lost := true } with dev := { State.reset.dev with ready := true, tripped := true } }
       (∀ p, p < 4 → (∀ e ∈ (getPier s p).vtemp.cells, e.2 < 1360) ∧ ∀ e ∈ (getPier s p).ctemp.cells, e.2 < 1360) ∧ (getBlock s 1).map (·.lost) = some true) := by decide +kernel

/-- Seventeen errors of a core or vault in the last hour, and a vault on its way to the spare. -/
def sErrs (n : Nat) : State := { st w0 with gtime := 20, dev := { (st w0).dev with errs := ⟨[(n, List.replicate 17 20)]⟩ } }
def sMove (n : Nat) : State := { st w0 with piers := ⟨[(0, { getPier (st w0) 0 with vaultMove := ⟨[(16, some (33, n))]⟩, vaultSpareUsed := ⟨[(1, true)]⟩ })]⟩ }
theorem witness_Substitutions :
    (let s := st w0; (List.replicate 32 0).length = 32 ∧ (getCore s 0).disabled = false ∧ getBlock s 1 = some (bk w0) ∧ (bk w0).core = some 0 ∧ (bk w0).frozen = false
      ∧ ¬ 17 ≤ (s.dev.errs.get [] 0).length)
    ∧ (17 ≤ ((sErrs 0).dev.errs.get [] 0).length ∧ ∀ t ∈ (sErrs 0).dev.errs.get [] 0, (sErrs 0).gtime < t + 3600 * 10 ^ 9)
    ∧ (17 ≤ ((sErrs 48).dev.errs.get [] (32 + 32 * 0 + 16)).length ∧ ∀ t ∈ (sErrs 48).dev.errs.get [] 48, (sErrs 48).gtime < t + 3600 * 10 ^ 9)
    ∧ (let s := st w0 { b0 with core := none } { disabled := true, retiring := [1] }; (getCore s 0).disabled = true ∧ (∀ b ∈ holding s 0, b.frozen = true) ∧ (getPier s 0).coreSpareUsed = false
       ∧ 1 ∈ (getCore s 0).retiring ∧ (getBlock s 1).map (·.exited) = some false
       ∧ (∀ i, i < 9 → ((getPier s 0).coreMap.get 0 i = 0 % 8 + 1 ↔ i = 0)) ∧ (∀ i, i < 9 → ((getPier s 0).coreMap.get 0 i = 0 ↔ i = 8)))
    ∧ (let s := { st w0 { b0 with core := none } { disabled := true, retiring := [1] } with piers := ⟨[(0, { getPier (st w0) 0 with coreSpareUsed := true })]⟩ }
       (getCore s 0).disabled = true ∧ (∀ b ∈ holding s 0, b.frozen = true) ∧ (getPier s 0).coreSpareUsed = true)
    ∧ (∀ i, i < 34 → i / 17 = 16 / 16 → ((getPier (st w0) 0).vaultMap.get 0 i = 16 + 1 ↔ i = 17)) ∧ (∀ i, i < 34 → i / 17 = 16 / 16 → ((getPier (st w0) 0).vaultMap.get 0 i = 0 ↔ i = 33))
    ∧ (getPier (st w0) 0).vaultMove.get none 16 = none ∧ (getPier (st w0) 0).vaultSpareUsed.get false (16 / 16) = false ∧ (getPier (sMove 0) 0).vaultSpareUsed.get false (16 / 16) = true
    ∧ ((getPier (sMove 0) 0).vaultMove.get none 16 = some (33, 0) ∧ 0 + 1 < 6291456) ∧ ((getPier (sMove 6291455) 0).vaultMove.get none 16 = some (33, 6291455) ∧ 6291456 ≤ 6291455 + 1) := by
  refine ⟨by decide, by decide, by decide, by decide, by decide, by decide, by decide, by decide, by decide, by decide, by decide, by decide⟩

/-- A grid under debug, with a breakpoint 7 at SPC of every warp, or the course stopped. -/
def bDbg : Block := { b0 with debug := true }
def sDbg (w : Warp) (x : Course) (d : DbgCore := {}) : State := { st w bDbg { c0 with dbg := d } with courses := ⟨[(0, x)]⟩ }
def wStop : Warp := { w0 with dbg := { stopped := true } }
theorem witness_DebugCommands :
    ((0xC01 : DWord).toNat < 2 ^ 13 ∧ (0xC01 : DWord).getLsbD 9 = false ∧ (0xC01 : DWord).toNat / 2 ^ 10 % 4 ≠ 0 ∧ (0xC01 : DWord).getLsbD 8 = false ∧ answering (st w0) = true
      ∧ pageHolds (page 0 0x10000) (page 0 0x10000).pasid ((getCore (st w0) 0).dbg.wpA.get 0 3).toNat = true ∧ (page 0 0x10000).host = false)
    ∧ pfLet (st w0) = true ∧ (∀ w b, pfLet (st w b) = true) ∧ (bk w0 bDbg).stopSaved = false
    ∧ (∀ j, j < 4 → ((getPart (sQ q0 [] []) j).courses.getLsbD (0 / 4) = true ↔ j = 0)) ∧ ((getPart (sQ q0 [] []) 0).pbase ≤ 5 ∧ 5 < (getPart (sQ q0 [] []) 0).pbase + (getPart (sQ q0 [] []) 0).pcnt)
    ∧ (let s := sDbg w0 {} { ibpA := ⟨[(7, 0x30000)]⟩, ibpC := ⟨[(7, 0x201)]⟩ }; Resident s 1 0 (bk w0 bDbg) w0 ∧ ibpMatches s 0 7 (bk w0 bDbg) w0 none = true ∧ (getCourse s 0).stopped = false)
    ∧ ((getCourse (sDbg w0 {}) 0).stopped = false ∧ (getCourse (sDbg wStop { stopped := true }) 0).stopped = true)
    ∧ (atSlot (sDbg wStop { stopped := true }) 0 0 = some (bk wStop bDbg, wStop) ∧ bDbg.debug = true ∧ (getSplit wStop 0).isSome)
    ∧ (let x : Course := { stopped := true, stepping := true, stepWait := true, step := some (0, 0, false, 0) }; let s := sDbg wStop x
       atSlot s 0 0 = some (bk wStop bDbg, wStop) ∧ getCourse s 0 = x ∧ asking wStop = false ∧ (∀ k n, wStop.swait ≠ .barIn k n) ∧ getBlock s 1 = some (bk wStop bDbg) ∧ warpOf (bk wStop bDbg) 0 = some wStop)
    ∧ (let x : Course := { stopped := true, stepping := true, stepIssued := true, step := some (0, 0, true, 0) }; let s := sDbg wStop x
       atSlot s 0 0 = some (bk wStop bDbg, wStop) ∧ stepLanded s (bk wStop bDbg) wStop true 0 = true) := by
  refine ⟨by decide, by decide, fun w b => rfl, rfl, by decide, by decide, ⟨⟨rfl, rfl, rfl, rfl, rfl, rfl⟩, by decide, rfl⟩, ⟨rfl, rfl⟩, by decide, ⟨by decide, rfl, by decide, by intro k n; simp [wStop, w0], rfl, by decide⟩, by decide⟩

theorem witness_DebugData :
    (∀ x ∈ [0x00000#64, 0x3F0000#64, 0x3F000F0200#64, 0x30400#64, 0x00500#64],
      let s := sDbg wStop { stopped := true } { dwsel := x }
      answering s = true ∧ pfLet s = true ∧ (getCore s 0).dbg.dwsel = x ∧ atSlot s 0 (x.toNat % 64) = some (bk wStop bDbg, wStop) ∧ wStop.dbg.stopped = true
      ∧ ((x.toNat / 256 % 8 = 0 ∧ x.toNat / 2 ^ 16 % 2 ^ 16 < 64) ∨ (x.toNat / 256 % 8 = 2 ∧ (mapOf wStop (x.toNat / 2 ^ 16 % 2 ^ 16)).isSome) ∨ (x.toNat / 256 % 8 = 4 ∧ x.toNat / 2 ^ 16 % 2 ^ 16 < 4)
        ∨ (x.toNat / 256 % 8 = 5 ∧ (getSplit wStop (x.toNat / 2 ^ 16 % 2 ^ 16 / 4)).isSome)))
    ∧ (let d := 0x80000002_00000003#64; let m := { mk (.mma 2 0 1 0x11 0x7F1 0x7F1) with inject := true, pos := 1, started := true }; let s := st w0 b0 { cE [m] with dbg := { dinj := d } }
       unitHead (getCore s 0) 2 = some m ∧ cmdBlocked (getCore s 0) m = false ∧ d.getLsbD 63 = true ∧ d.toNat / 2 ^ 32 % 64 = 2 ∧ engBusy (getCore s 0) 2 = false ∧ cmdEarly s m = false ∧ mmaChunks 0x11 0x7F1 ≤ m.pos + 1
       ∧ d.toNat / 2 ^ 25 % 128 < tcRows 0x7F1 ∧ d.toNat / 2 ^ 18 % 128 < tcRows 0x7F1) := by
  refine ⟨?_, by decide⟩
  intro x hx
  simp only [List.mem_cons, List.not_mem_nil, or_false] at hx
  rcases hx with rfl | rfl | rfl | rfl | rfl <;> decide

/-! ### Witnesses: the platform, encodings and steps -/

theorem witness_ResetsAndBringUp :
    State.reset.dev.ready = false ∧ (List.replicate 36 0).length = 36 ∧ (List.replicate 136 0).length = 136 ∧ (List.replicate 128 0).length = 128 ∧ (st w0).dev.ready = true ∧ State.reset.dev.warm = false ∧ (let s := { State.reset with dev := { State.reset.dev with warm := true } }; s.dev.ready = false ∧ s.dev.warm = true)
    ∧ (∀ p, p < 4 → (getPier State.reset p).samples ≤ State.reset.gtime / 1000)
    ∧ answering (st w0) = true ∧ ((st w0).piers.cells.map Prod.fst).Nodup := by decide

/-- Map tables that keystone writes; a first sample that trips; a device with no sample due. -/
def pierMaps : List Nat := (List.range 4).flatMap fun _ => [1, 2, 3, 4, 5, 6, 7, 8, 0]
def pierVaults : List Nat := (List.range 4).flatMap fun _ => (List.range 16).map (· + 1) ++ [0] ++ (List.range 16).map (· + 17) ++ [0]
theorem witness_PowerOn :
    MapsValid pierMaps pierVaults ∧ ¬ MapsValid (pierMaps.map fun _ => 1) pierVaults
    ∧ (let s := { State.reset with piers := ⟨(List.range 4).map fun p => (p, { State.reset.piers.get {} p with samples := 1 })⟩ }; PowerIs s
       ∧ ¬ PowerIs { s with dev := { s.dev with tripped := true }, piers := ⟨(List.range 4).map fun p => (p, { State.reset.piers.get {} p with samples := 1, ctemp := ⟨[(0, 1840)]⟩ })⟩ }) := by
  refine ⟨?_, ?_, ?_, ?_⟩
  · have h : ∀ p ∈ List.range 4, (∀ i ∈ List.range 9, i ∈ (pierMaps.drop (9 * p)).take 9) ∧ (∀ i ∈ List.range 17, i ∈ ((pierVaults.drop (34 * p)).take 34).take 17)
        ∧ ∀ i ∈ List.range 17, (if i = 0 then 0 else 16 + i) ∈ ((pierVaults.drop (34 * p)).take 34).drop 17 := by decide +kernel
    intro p hp
    obtain ⟨a, b, c⟩ := h p (List.mem_range.2 hp)
    exact ⟨fun i hi => a i (List.mem_range.2 hi), fun i hi => b i (List.mem_range.2 hi), fun i hi => c i (List.mem_range.2 hi)⟩
  · intro h; exact absurd ((h 0 (by decide)).1 0 (by decide)) (by decide)
  · unfold PowerIs; decide +kernel
  · unfold PowerIs; decide +kernel

theorem witness_RegistersWritten :
    (let q := { q0 with state := 0 }; QueueHere (sQ q [] []) 0 63 q ∧ (getPart (sQ q [] []) 0).tdi = .unlocked ∧ q.rlog < 256 ∧ q.qtflog < 256 ∧ q.qpasid.toNat < 2 ^ 20)
    ∧ (answering (st w0) = true ∧ (getPart (st w0) (((st w0).routes.get {} 62).inpart.toNat % 4)).tdi = .unlocked
      ∧ ((st w0).routes.get {} 62).inpart &&& 0x83 = ((st w0).routes.get {} 62).inpart ∧ ((st w0).routes.get {} 62).inperm &&& 0xF = ((st w0).routes.get {} 62).inperm
      ∧ ((st w0).routes.get {} 62).inpasid &&& 0xFFFFF = ((st w0).routes.get {} 62).inpasid)
    ∧ ((∀ j, j < 4 → (getPart (st w0) j).tdi = .unlocked) ∧ hostLet (st w0) 3 = true ∧ pfLet (st w0) = true ∧ (∀ k, k < 4 → fnLet (st w0) k k = true) ∧ ((st w0).blocks.cells.map Prod.fst).Nodup)
    ∧ pfLet (sQ q0 [] []) = true
    ∧ (let q := { q0 with state := 1 }; QueueHere (sQ q [] []) 0 63 q ∧ (getPart (sQ q [] []) 0).tdi = .unlocked)
    ∧ (∀ k, 1 ≤ k → k < 4 → (getPart (st w0) k).tdi = .unlocked ∧ partBusy (st w0) k = false ∧ (getPart (st w0) k).pbase < 2 ^ 32 ∧ (getPart (st w0) k).pcnt < 2 ^ 32
      ∧ (∀ m, m < 8 → (getPart (st w0) k).memBase.get 0 m < 2 ^ 64 ∧ (getPart (st w0) k).memSize.get 0 m = 0) ∧ (∀ j, j < 4 → j ≠ k → (getPart (st w0) j).courses &&& 0x80 = 0)
      ∧ (∃ j, j < 4 ∧ j ≠ k ∧ (getPart (st w0) j).courses &&& 0x81 ≠ 0) ∧ (∀ j, j < 4 → j ≠ k → (getPart (st w0) j).courses &&& (getPart (st w0) k).courses = 0))
    ∧ (let s := { st w0 with parts := ⟨[(0, { (st w0).parts.get {} 0 with tdi := .locked })]⟩ }; answering s = true ∧ (getPart s 0).tdi ≠ .unlocked ∧ (getBlock s 1).map (·.part) = some 0) := by
  refine ⟨⟨⟨rfl, by decide, by decide, rfl⟩, rfl, by decide, by decide, by decide⟩, by decide, by decide, by decide, ⟨⟨rfl, by decide, by decide, rfl⟩, rfl⟩, ?_, by decide⟩
  intro k h1 h2
  have : k = 1 ∨ k = 2 ∨ k = 3 := by omega
  rcases this with rfl | rfl | rfl <;> decide

theorem witness_TrustedInterfaces :
    answering (st w0) = true ∧ (getPart (st w0) 1).tdi = .unlocked ∧ (∀ e ∈ (getPart (st w0) 1).queues.cells, e.2.state = 0) ∧ partBusy (st w0) 1 = false
    ∧ (∀ x ∈ [Tdi.locked, .run, .error], let s := { st w0 with parts := ⟨[(3, { tdi := x })]⟩ }; answering s = true ∧ (getPart s 3).tdi = x)
    ∧ (∀ j, j < 4 → (getPart (st w0) j).tdi ≠ .locked ∧ (getPart (st w0) j).tdi ≠ .run) ∧ (∀ i, i < 16 → (0x8001 : BitVec 16).getLsbD i = true → (0x8001 : BitVec 16).getLsbD i = true)
    ∧ (∃ i, i < 16 ∧ (0x8001 : BitVec 16).getLsbD i = true ∧ (0x0001 : BitVec 16).getLsbD i = false)
    ∧ (let s := { st w0 with parts := ⟨[(3, { tdi := .run })]⟩, dev := { (st w0).dev with outside := true } }; answering s = true ∧ (getPart s 3).tdi = .run ∧ s.dev.outside = true) := by decide

theorem witness_HostAtomics : answering (st w0) = true ∧ 0x18008 % 8 = 0 ∧ 0x18008 < 384 * 2 ^ 30 ∧ gPois (st w0) (.dev 0x18008) = false ∧ NoWatch (st w0) (.g (.dev 0x18008)) 8 3 :=
  ⟨rfl, by decide, by decide, by decide, noWatch_of (by decide)⟩

/-- A route of device 3 into partition 0, with rights by bits of PERM. -/
def sRoute (perm : Byte) : State := { sQ q0 [] [] with routes := ⟨[(3, { valid := true, inpart := 0x80, inperm := perm, inpasid := 5 })]⟩ }
theorem witness_PeerRequests :
    (∀ x ∈ [.read 8, .write [1, 2, 3, 4], .atomic .add true 1 0],
      let s := sRoute 15; let r := s.routes.get {} 3
      answering s = true ∧ r.valid = true ∧ isNotify 0x38008 = false ∧ r.inpart.getLsbD 7 = true ∧ r.inperm.getLsbD (match x with | .read _ => 0 | .write _ => 1 | .atomic _ _ _ _ => 2) = true
      ∧ pageHolds (page 0x30000 0x10000) r.inpasid.toNat 0x38008 = true ∧ 0x38008 + peerBytes x ≤ 0x30000 + 65536 ∧ inMem s (r.inpart.toNat % 4) 0x18008 (peerBytes x) = true
      ∧ gPois s (.dev 0x18008) = false ∧ NoWatch s (.g (.dev 0x18008)) 8 1 ∧ NoWatch s (.g (.dev 0x18008)) 8 2 ∧ NoWatch s (.g (.dev 0x18008)) 8 3 ∧ NoWatch s (.g (.dev 0x18008)) 4 1)
    ∧ (((sRoute 8).routes.get {} 3).inperm.getLsbD 0 = false ∧ ((sRoute 0).routes.get {} 3).inperm.getLsbD 3 = false)
    ∧ (let va := (2 ^ 33 - 1) * 2 ^ 24 + 63 * 4096; let s := sRoute 8; let r := s.routes.get {} 3
       r.valid = true ∧ va / 2 ^ 12 % 64 = 63 ∧ isNotify va = true ∧ QueueHere s 0 63 q0 ∧ r.inpart.getLsbD 7 = true ∧ r.inperm.getLsbD 3 = true ∧ va % 4096 = 0 ∧ q0.state = 1 ∧ inError s 0 = false
       ∧ q0.wridx ≤ (16 : DWord).toNat ∧ (16 : DWord).toNat ≤ q0.rdidx + 2 ^ q0.rlog) := by
  refine ⟨?_, by decide, ⟨by decide, by decide, by decide, ⟨rfl, by decide, by decide, rfl⟩, by decide, by decide, by decide, rfl, rfl, by decide, by decide⟩⟩
  intro x hx
  simp only [List.mem_cons, List.not_mem_nil, or_false] at hx
  rcases hx with rfl | rfl | rfl <;>
    exact ⟨rfl, rfl, by decide, by decide, by decide, by decide, by decide, by decide, by decide, noWatch_of (by decide), noWatch_of (by decide), noWatch_of (by decide), noWatch_of (by decide)⟩

theorem witness_EncodeThenDecodeS : WellFormed (.slith 63 (-1)) = true ∧ encodeS (.slith 63 (-1)) = some (0x2BF00001#32, some 0xFFFFFFFF#32) := by decide
theorem witness_EncodeThenDecodeL :
    let f : LF := ⟨.v 383, .q 3, .q 2, .v 0, ⟨30, true⟩, 0, false, 0⟩; WellFormed (.fmul .f32 .ru true false f) = true ∧ (Instr.fmul .f32 .ru true false f).lf = some f := by decide
theorem witness_WordsHaveOneMeaning :
    decodeS 0x08927FFF#32 0 = .ok (.saddi 9 9 0x3FFF) ∧ decodeL 0x10100201700001C000000000#96 = .ok (.fadd .f32 .rz false false ⟨.v 4, .v 5, .q 0, .v 0, ⟨3, true⟩, 0, false, 0⟩) := by decide

theorem witness_StepsKeep : MemSound (st w0) ∧ FreshNumbers (st w0) ∧ step (st w0) = .next (nanoTick (st w0)) := ⟨⟨by decide, by decide, by decide⟩, fresh_of (by decide), rfl⟩

/-- salu ADD S2, S1, S1 at SPC, and fadd at the LPC of split 0. -/
def iAdd : Instr := .salu .add 2 1 1
def iFadd : Instr := .fadd .f32 .rn false false (lf (.v 8) (.v 4) (.v 6) (.v 0))
def sStep (m : Move) : State :=
  { st w0 with agenda := [m], mem := ⟨(memOf 0x10000 (encode iAdd)).cells ++ (memOf 0x10300 (encode iFadd)).cells⟩ }
theorem witness_StepRunsTheDecodedInstruction :
    (let s0 := { sStep (.sIssue 1 0) with agenda := [] }
     getBlock s0 1 = some (bk w0) ∧ getWarp s0 1 0 = some w0 ∧ SIssues s0 (bk w0) w0 ∧ fetchBytes s0 (bk w0) w0.spc 4 = .ok (encode iAdd) ∧ isPair (BitVec.ofNat 32 (ofLeBytes (encode iAdd))) = false
     ∧ decodeS (BitVec.ofNat 32 (ofLeBytes (encode iAdd))) 0 = .ok iAdd ∧ (∀ r ∈ sReads iAdd, sReady w0 (getCore s0 (coreNo (bk w0))).cyc r = true))
    ∧ (let s0 := { sStep (.lIssue 1 0 0) with agenda := [] }; let p : Split := { lpc := 0x30300, mask := BitVec.allOnes 64 }
       LIssues s0 (bk w0) w0 0 p ∧ fetchBytes s0 (bk w0) p.lpc 12 = .ok (encode iFadd) ∧ decodeSplit p (ofLeBytes (encode iFadd)) = .ok iFadd
       ∧ laneClocks w0 iFadd ≠ 0 ∧ (freeHalf (getCore s0 (coreNo (bk w0))) (quadOf w0)).isSome = true)
    ∧ decodeS 0xFC000000#32 0 = .refused .undefinedOp ∧ isPair 0xFC000000#32 = false
    ∧ (∃ r, decodeSplit { lpc := 0x30300, mask := 1 } 0 = .refused r) ∧ encode .powerAllowanceRefill = [] := by
  refine ⟨⟨rfl, rfl, ⟨by decide, by decide, ⟨rfl, rfl⟩, by decide, by decide, ⟨by decide +kernel, by decide +kernel⟩⟩, by decide +kernel, by decide, by decide, by decide⟩,
    ⟨⟨by decide, by decide, by decide, by decide, by decide, ⟨by decide +kernel, by decide +kernel⟩⟩, by decide +kernel, by decide, by decide, by decide⟩, by decide, by decide, ⟨.guardNotAllowed, by decide⟩, rfl⟩

theorem witness_ClocksLandResults :
    (let y : Flight := { id := 3, due := 1, block := 1, warp := 0, lpc := 0, tgt := .row 4, mask := 1 }; let s := { st w0 b0 { c0 with flight := [y] } with agenda := [.clock 0] }
     s.dev.tripped = false ∧ (getCore s 0).flight = [y] ∧ y.due ≤ (getCore s 0).cyc + 1)
    ∧ (let y : Flight := { id := 3, due := 2, block := 1, warp := 0, lpc := 0, tgt := .row 4, mask := 1 }; let s := { st w0 b0 { c0 with flight := [y] } with agenda := [.clock 0] }
       ∀ y ∈ (getCore s 0).flight, y.far = true ∨ (getCore s 0).cyc + 1 < y.due) := by decide

end Sys2Proof.Tests
end

section
/-! SUPPORT. Writes of registers (R4, R317, R319, R356, R408 to R410, R412, R416, R421, R422): what a write leaves of a field, what a write of a queue block, a trap
block, a route, a debug register, a share, an MSI-X table or a partition entry gives, and what a write to a frozen item stops. -/

namespace Sys2Proof.Machine

open Sys2Proof.Claims

/-! ### Fields -/

/-- The little-endian digits of a number give it back, as far as they go (R2). -/
theorem ofLeBytes_digits (z : Nat) : ∀ v, ofLeBytes ((List.range z).map fun i => BitVec.ofNat 8 (v / 256 ^ i)) = v % 256 ^ z := by
  induction z with
  | zero => intro v; simp [ofLeBytes, Nat.mod_one]
  | succ z ih =>
    intro v
    have tail : ((List.range z).map fun i => BitVec.ofNat 8 (v / 256 ^ (i + 1))) = (List.range z).map fun i => BitVec.ofNat 8 (v / 256 / 256 ^ i) := by
      refine List.map_congr_left fun i _ => ?_
      rw [Nat.div_div_eq_div_mul, Nat.pow_succ']
    rw [List.range_succ_eq_map, List.map_cons, List.map_map, ofLeBytes]
    simp only [Function.comp_def, Nat.succ_eq_add_one]
    rw [tail, ih, Nat.pow_succ', Nat.mod_mul]
    simp

/-- A write of a whole field leaves what it writes. -/
theorem putField_whole (old o z x : Nat) : putField old o z o z x = x % 256 ^ z := by
  rw [putField, ← ofLeBytes_digits]
  congr 1
  refine List.map_congr_left fun i hi => ?_
  have hi := List.mem_range.mp hi
  rw [if_pos (by omega), Nat.add_sub_cancel_left]

theorem putField_byte (old o x : Nat) : putField old o 1 o 1 x = x % 256 := putField_whole old o 1 x

/-- A write that reaches no byte of a field leaves it. -/
theorem putField_outside {o z off size : Nat} (h : off + size ≤ o ∨ o + z ≤ off) (old x : Nat) :
    putField old o z off size x = old % 256 ^ z := by
  rw [putField, ← ofLeBytes_digits]
  congr 1
  refine List.map_congr_left fun i hi => ?_
  have hi := List.mem_range.mp hi
  rw [if_neg (by omega)]

/-- The low `w` bits of the low `z` bytes, where the bytes reach that far. -/
theorem ofNat_mod_bytes {w z : Nat} (h : w ≤ 8 * z) (v : Nat) : BitVec.ofNat w (v % 256 ^ z) = BitVec.ofNat w v := by
  apply BitVec.eq_of_toNat_eq
  rw [BitVec.toNat_ofNat, BitVec.toNat_ofNat, show (256 : Nat) = 2 ^ 8 from rfl, ← Nat.pow_mul, Nat.mod_mod_of_dvd _ (Nat.pow_dvd_pow 2 h)]

/-- A register that a write covers holds what was written. -/
theorem ofNat_putField_whole {w z : Nat} (h : w ≤ 8 * z) (old o : Nat) (x : DWord) :
    BitVec.ofNat w (putField old o z o z x.toNat) = x.setWidth w := by
  rw [putField_whole, ofNat_mod_bytes h, BitVec.ofNat_toNat]

theorem ofNat_putField_dword (old o : Nat) (x : DWord) : BitVec.ofNat 64 (putField old o 8 o 8 x.toNat) = x := by
  rw [ofNat_putField_whole (by decide), BitVec.setWidth_eq]

/-- A register that a write does not reach keeps its value. -/
theorem ofNat_putField_outside {w o z off size : Nat} (hw : w ≤ 8 * z) (h : off + size ≤ o ∨ o + z ≤ off) (old : BitVec w) (x : Nat) :
    BitVec.ofNat w (putField old.toNat o z off size x) = old := by
  rw [putField_outside h, ofNat_mod_bytes hw, BitVec.ofNat_toNat, BitVec.setWidth_eq]

/-- A PASID register holds 20 bits. -/
theorem and_mask20 {v : DWord} (h : v.toNat < 2 ^ 20) : v &&& 0xFFFFF#64 = v := by
  apply BitVec.eq_of_toNat_eq
  rw [BitVec.toNat_and]
  exact (Nat.and_two_pow_sub_one_eq_mod v.toNat 20).trans (Nat.mod_eq_of_lt h)

/-- A field outside a write keeps its value where it fits its bytes. -/
theorem putField_keeps {o z off size old : Nat} (h : off + size ≤ o ∨ o + z ≤ off) (hb : old < 256 ^ z) (x : Nat) :
    putField old o z off size x = old := by rw [putField_outside h, Nat.mod_eq_of_lt hb]

/-- A register of one bit in two bytes, after a write that covers it. -/
theorem bit_putField_whole (old o : Nat) (x : DWord) : decide (putField old o 2 o 2 x.toNat % 2 = 1) = x.getLsbD 0 := by
  rw [putField_whole, Nat.mod_mod_of_dvd _ (by decide), BitVec.getLsbD, Nat.testBit_zero]
/-- A register of one bit, outside a write. -/
theorem bit_putField_outside {o z off size : Nat} (hz : 0 < z) (h : off + size ≤ o ∨ o + z ≤ off) (b : Bool) (x : Nat) :
    decide (putField b.toNat o z off size x % 2 = 1) = b := by
  have fits : b.toNat < 256 ^ z := Nat.lt_of_lt_of_le (Bool.toNat_lt b) (Nat.le_trans (by decide : 2 ≤ 256 ^ 1) (Nat.pow_le_pow_right (by decide) hz))
  rw [putField_keeps h fits]
  cases b <;> rfl

/-! ### Reads after writes of partitions and queues -/

theorem getQueue_setQueue (s : State) (k n : Nat) (q : Queue) (j m : Nat) :
    getQueue (setQueue s k n q) j m = if j = k ∧ m = n then q else getQueue s j m := getQueue_modQueue s k n (fun _ => q) j m

theorem getPart_congr {s t : State} (h : t.parts = s.parts) (k : Nat) : getPart t k = getPart s k := by rw [getPart, getPart, h]

/-! ### The meanings of the events -/

theorem exec_registerWrite (v : BarView) (o z : Nat) (x : DWord) (s : State) : exec (.registerWrite v o z x) s = execRegisterWrite v o z x s := rfl
theorem exec_partitionEntryWrite (k o z : Nat) (x : DWord) (s : State) : exec (.partitionEntryWrite k o z x) s = execPartitionEntryWrite k o z x s := rfl
theorem exec_frozenItemWrite (v : BarView) (o z : Nat) (s : State) : exec (.frozenItemWrite v o z) s = execFrozenItemWrite v o z s := rfl

/-! ### What the lock of an interface freezes (R421) -/

theorem isLocked_iff (s : State) (k : Nat) : isLocked s k = true ↔ (getPart s k).tdi ≠ .unlocked := by simp [isLocked]
theorem isLocked_of_unlocked {s : State} {k : Nat} (h : (getPart s k).tdi = .unlocked) : isLocked s k = false := by simp [isLocked, h]

/-- A write to a register that no lock freezes is performed. -/
theorem exec_mgmtWrite {s : State} {o z : Nat} {x : DWord} (ha : answering s = true) (hp : pfLet s = true) (hz : z ≤ 8)
    (hf : frozenAt s .mgmt o z = []) : exec (.registerWrite .mgmt o z x) s = .next (mgmtWrite s o z x.toNat) := by
  rw [exec_registerWrite, execRegisterWrite, if_neg (by simp [ha, viewLet, hp, hz]), hf]

theorem exec_debugWrite {s : State} {o z : Nat} {x : DWord} (ha : answering s = true) (hp : pfLet s = true) (hz : z ≤ 8) :
    exec (.registerWrite .debug o z x) s = .next (debugWrite s o z x.toNat) := by
  rw [exec_registerWrite, execRegisterWrite, if_neg (by simp [ha, viewLet, hp, hz])]
  rfl

/-! ### Queue blocks and trap blocks (R317, R319, R412) -/

/-- The fields of a queue block after a write that takes effect. -/
def queueAfter (q : Queue) (o size x : Nat) : Queue :=
  { q with
    rbase := BitVec.ofNat 64 (putField q.rbase.toNat 0 8 o size x), rlog := putField q.rlog 8 1 o size x
    supaddr := BitVec.ofNat 64 (putField q.supaddr.toNat 0x20 8 o size x)
    qpasid := BitVec.ofNat 64 (putField q.qpasid.toNat 0x38 8 o size x) &&& 0xFFFFF }
/-- The fields of a trap block after a write that takes effect. -/
def trapAfter (q : Queue) (o size x : Nat) : Queue :=
  { q with
    qtvec := BitVec.ofNat 64 (putField q.qtvec.toNat 0 8 o size x), qtfbase := BitVec.ofNat 64 (putField q.qtfbase.toNat 8 8 o size x)
    qtflog := putField q.qtflog 0x10 1 o size x, qerrqb := BitVec.ofNat 64 (putField q.qerrqb.toNat 0x18 8 o size x) }

/-- A queue's registers after a write that takes effect only while STATE is 0. -/
theorem getQueue_setWhileOff (s : State) (k n : Nat) (q : Queue) (j m : Nat) :
    getQueue (if (getQueue s k n).state = 0 then setQueue s k n q else s) j m =
      if j = k ∧ m = n then (if (getQueue s k n).state = 0 then q else getQueue s k n) else getQueue s j m := by
  split
  · exact getQueue_setQueue ..
  · split
    · next e => rw [e.1, e.2]
    · rfl

theorem queueWrite_eq (s : State) (k n o size x : Nat) :
    queueWrite s k n o size x = if (getQueue s k n).state = 0 then setQueue s k n (queueAfter (getQueue s k n) o size x) else s := ite_not ..
theorem trapWrite_eq (s : State) (k n o size x : Nat) :
    trapWrite s k n o size x = if (getQueue s k n).state = 0 then setQueue s k n (trapAfter (getQueue s k n) o size x) else s := ite_not ..

/-- The offsets of the management BAR at which the queue blocks lie (R412). -/
theorem mgmtWrite_queueBlock (s : State) {k n a : Nat} (hk : k < 4) (hn : n < 64) (ha : a < 64) (z x : Nat) :
    mgmtWrite s (0x100000 + 0x10000 * k + (64 * n + a)) z x = queueWrite s k n a z x := by
  rw [mgmtWrite, if_neg (by omega), if_neg (by omega), if_neg (by omega), if_pos (by omega), if_pos (by omega)]
  congr <;> omega
/-- The offsets of the management BAR at which the trap blocks lie (R319, R412). -/
theorem mgmtWrite_trapBlock (s : State) {k n a : Nat} (hk : k < 4) (hn : n < 64) (ha : a < 64) (z x : Nat) :
    mgmtWrite s (0x100000 + 0x10000 * k + (0x1000 + 64 * n + a)) z x = trapWrite s k n a z x := by
  rw [mgmtWrite, if_neg (by omega), if_neg (by omega), if_neg (by omega), if_pos (by omega), if_neg (by omega), if_pos (by omega)]
  congr <;> omega

/-- No lock freezes a block of a queue whose interface is unlocked. -/
theorem frozenAt_queue {s : State} {k : Nat} (hk : k < 4) (hu : (getPart s k).tdi = .unlocked) {r : Nat} (hr : r < 0x10000) (z : Nat) :
    frozenAt s .mgmt (0x100000 + 0x10000 * k + r) z = [] := by
  have hi : (0x100000 + 0x10000 * k + r - 0x100000) / 0x10000 = k := by omega
  simp only [frozenAt]
  rw [if_neg (by omega), if_neg (by omega), if_neg (by omega), if_neg (by omega), if_pos (by omega), hi, queueItem, isLocked_of_unlocked hu]
  rfl

/-- A write among the registers of a queue, through the management BAR, which leaves the registers `q'` while STATE is 0. -/
theorem exec_queueRegister {s : State} {k n : Nat} {q q' : Queue} (hq : QueueHere s k n q) (hp : pfLet s = true) (hu : (getPart s k).tdi = .unlocked)
    {o r z : Nat} {x : DWord} (ho : o = 0x100000 + 0x10000 * k + r) (hr : r < 0x10000) (hz : z ≤ 8)
    (hw : mgmtWrite s (0x100000 + 0x10000 * k + r) z x.toNat = if (getQueue s k n).state = 0 then setQueue s k n q' else s) :
    ∃ t, exec (.registerWrite .mgmt o z x) s = .next t ∧ getQueue t k n = (if q.state = 0 then q' else q) ∧ QueuesBut s t k n := by
  obtain ⟨hans, hk, -, rfl⟩ := hq
  subst ho
  refine ⟨_, (exec_mgmtWrite hans hp hz (frozenAt_queue hk hu hr z)).trans (congrArg _ hw), ?_, fun i j hij => ?_⟩
  · rw [getQueue_setWhileOff, if_pos ⟨rfl, rfl⟩]
  · rw [getQueue_setWhileOff, if_neg fun e => hij (by rw [e.1, e.2])]

/-- A write in a queue block. -/
theorem exec_queueBlock {s : State} {k n : Nat} {q : Queue} (hq : QueueHere s k n q) (hp : pfLet s = true) (hu : (getPart s k).tdi = .unlocked)
    {a z : Nat} (ha : a < 64) (hz : z ≤ 8) (x : DWord) :
    ∃ t, exec (.registerWrite .mgmt (0x100000 + 0x10000 * k + 64 * n + a) z x) s = .next t ∧
      getQueue t k n = (if q.state = 0 then queueAfter q a z x.toNat else q) ∧ QueuesBut s t k n := by
  obtain ⟨-, hk, hn, h⟩ := id hq
  exact exec_queueRegister (r := 64 * n + a) hq hp hu (by omega) (by omega) hz (by rw [mgmtWrite_queueBlock s hk hn ha, queueWrite_eq, h])

/-- A write in a trap block. -/
theorem exec_trapBlock {s : State} {k n : Nat} {q : Queue} (hq : QueueHere s k n q) (hp : pfLet s = true) (hu : (getPart s k).tdi = .unlocked)
    {a z : Nat} (ha : a < 64) (hz : z ≤ 8) (x : DWord) :
    ∃ t, exec (.registerWrite .mgmt (0x100000 + 0x10000 * k + 64 * n + (0x1000 + a)) z x) s = .next t ∧
      getQueue t k n = (if q.state = 0 then trapAfter q a z x.toNat else q) ∧ QueuesBut s t k n := by
  obtain ⟨-, hk, hn, h⟩ := id hq
  exact exec_queueRegister (r := 0x1000 + 64 * n + a) hq hp hu (by omega) (by omega) hz (by rw [mgmtWrite_trapBlock s hk hn ha, trapWrite_eq, h])

/-- The writable fields of the queue and trap blocks (R317, R319, R412). -/
theorem queueRegisters_written {s : State} {k n : Nat} {q : Queue} (x : DWord) (hq : QueueHere s k n q) (hp : pfLet s = true) (hu : (getPart s k).tdi = .unlocked)
    (hl : q.rlog < 256) (ht : q.qtflog < 256) (hm : q.qpasid.toNat < 2 ^ 20) {o : Nat} (ho : o = 0x100000 + 0x10000 * k + 64 * n) :
    let sets := fun (a z : Nat) (q' : Queue) => ∃ t, exec (.registerWrite .mgmt (o + a) z x) s = .next t ∧ getQueue t k n = (if q.state = 0 then q' else q) ∧ QueuesBut s t k n
    sets 0 8 { q with rbase := x } ∧ sets 8 1 { q with rlog := x.toNat % 256 } ∧ sets 0x20 8 { q with supaddr := x } ∧ sets 0x38 8 { q with qpasid := x &&& 0xFFFFF }
    ∧ sets 0x1000 8 { q with qtvec := x } ∧ sets 0x1008 8 { q with qtfbase := x } ∧ sets 0x1010 1 { q with qtflog := x.toNat % 256 } ∧ sets 0x1018 8 { q with qerrqb := x } := by
  subst ho
  have block : ∀ {a z : Nat} {q' : Queue}, a < 64 → z ≤ 8 → queueAfter q a z x.toNat = q' → _ := fun ha hz e => e ▸ exec_queueBlock hq hp hu ha hz x
  have trap : ∀ {a z : Nat} {q' : Queue}, a < 64 → z ≤ 8 → trapAfter q a z x.toNat = q' → _ := fun ha hz e => e ▸ exec_trapBlock hq hp hu ha hz x
  have lk : ∀ off size, (off + size ≤ 8 ∨ 8 + 1 ≤ off) → putField q.rlog 8 1 off size x.toNat = q.rlog := fun _ _ h => putField_keeps h hl _
  have tk : ∀ off size, (off + size ≤ 16 ∨ 16 + 1 ≤ off) → putField q.qtflog 16 1 off size x.toNat = q.qtflog := fun _ _ h => putField_keeps h ht _
  intro sets
  refine ⟨block (by decide) (by decide) ?_, block (by decide) (by decide) ?_, block (by decide) (by decide) ?_, block (by decide) (by decide) ?_,
    trap (a := 0) (by decide) (by decide) ?_, trap (a := 8) (by decide) (by decide) ?_, trap (a := 0x10) (by decide) (by decide) ?_, trap (a := 0x18) (by decide) (by decide) ?_⟩
  all_goals simp [queueAfter, trapAfter, ofNat_putField_dword, ofNat_putField_outside, putField_byte, and_mask20 hm, lk, tk]

/-! ### Peer routes (R416) -/

/-- A route after a write of its registers. -/
def routeAfter (r : Route) (o size x : Nat) : Route :=
  { valid := putField r.valid.toNat 0 2 o size x % 2 = 1, ports := BitVec.ofNat 16 (putField r.ports.toNat 2 2 o size x)
    remid := BitVec.ofNat 16 (putField r.remid.toNat 4 2 o size x), inpart := BitVec.ofNat 8 (putField r.inpart.toNat 8 1 o size x) &&& 0x83
    inperm := BitVec.ofNat 8 (putField r.inperm.toNat 9 1 o size x) &&& 0xF, inpasid := BitVec.ofNat 32 (putField r.inpasid.toNat 0xC 4 o size x) &&& 0xFFFFF }

theorem routeWrite_eq (s : State) (d o size x : Nat) :
    routeWrite s d o size x = { s with routes := s.routes.set {} d (routeAfter (s.routes.get {} d) o size x) } := rfl

/-- A write in a route that no locked partition receives from. -/
theorem exec_routeWrite {s : State} {d : Nat} {r : Route} (ha : answering s = true) (hp : pfLet s = true) (h0 : 0 < d) (h63 : d < 63)
    (hr : r = s.routes.get {} d) (hu : (getPart s (r.inpart.toNat % 4)).tdi = .unlocked) {a z : Nat} (h32 : a < 32) (hz : z ≤ 8) (x : DWord) :
    ∃ t, exec (.registerWrite .mgmt (0x50000 + 32 * d + a) z x) s = .next t ∧ t = { s with routes := t.routes }
      ∧ t.routes.get {} d = routeAfter r a z x.toNat ∧ ∀ e, e ≠ d → t.routes.get {} e = s.routes.get {} e := by
  subst hr
  have hd : (0x50000 + 32 * d + a - 0x50000) / 32 = d := by omega
  have hf : frozenAt s .mgmt (0x50000 + 32 * d + a) z = [] := by
    simp only [frozenAt]
    rw [if_neg (by omega), if_neg (by omega), if_neg (by omega), if_pos (by omega), hd, List.filter_cons_of_neg (by rw [isLocked_of_unlocked hu]; decide)]
    rfl
  have hw : mgmtWrite s (0x50000 + 32 * d + a) z x.toNat = routeWrite s d a z x.toNat := by
    rw [mgmtWrite, if_neg (by omega), if_pos (by omega), hd]
    congr; omega
  refine ⟨_, by rw [exec_mgmtWrite ha hp hz hf, hw, routeWrite_eq], rfl, SMap.get_set_self .., fun e he => SMap.get_set_ne _ _ _ he⟩

/-- The writable fields of a route (R416). -/
theorem routeRegisters_written {s : State} {d : Nat} (x : DWord) {r : Route} (ha : answering s = true) (hp : pfLet s = true) (h0 : 0 < d) (h63 : d < 63)
    (hr : r = s.routes.get {} d) (hu : (getPart s (r.inpart.toNat % 4)).tdi = .unlocked)
    (hi : r.inpart &&& 0x83 = r.inpart) (hm : r.inperm &&& 0xF = r.inperm) (hs : r.inpasid &&& 0xFFFFF = r.inpasid) :
    let sets := fun (a z : Nat) (r' : Route) => ∃ t, exec (.registerWrite .mgmt (0x50000 + 32 * d + a) z x) s = .next t ∧ t = { s with routes := t.routes } ∧ t.routes.get {} d = r'
      ∧ ∀ e, e ≠ d → t.routes.get {} e = s.routes.get {} e
    sets 0 2 { r with valid := x.getLsbD 0 } ∧ sets 2 2 { r with ports := x.setWidth 16 } ∧ sets 4 2 { r with remid := x.setWidth 16 } ∧ sets 8 1 { r with inpart := x.setWidth 8 &&& 0x83 }
    ∧ sets 9 1 { r with inperm := x.setWidth 8 &&& 0xF } ∧ sets 0xC 4 { r with inpasid := x.setWidth 32 &&& 0xFFFFF } := by
  have reg : ∀ {a z : Nat} {r' : Route}, a < 32 → z ≤ 8 → routeAfter r a z x.toNat = r' → _ := fun h32 hz e => e ▸ exec_routeWrite ha hp h0 h63 hr hu h32 hz x
  intro sets
  refine ⟨reg (by decide) (by decide) ?_, reg (by decide) (by decide) ?_, reg (by decide) (by decide) ?_, reg (by decide) (by decide) ?_,
    reg (by decide) (by decide) ?_, reg (by decide) (by decide) ?_⟩
  all_goals simp only [routeAfter, hi, hm, hs, ofNat_putField_whole, ofNat_putField_outside, bit_putField_whole, bit_putField_outside Nat.two_pos, Nat.reduceMul, Nat.reduceAdd, Nat.reduceLeDiff, or_true, or_false]

/-! ### The debug registers of a partition (R356) -/

/-- A debug register of a partition has 8 bytes, and a write of it covers them. -/
theorem exec_dqenWrite {s : State} {k : Nat} (x : DWord) (ha : answering s = true) (hp : pfLet s = true) (hk : k < 4) :
    exec (.registerWrite .debug (8 * k) 8 x) s = .next (modPart s k fun p => { p with dqen := x }) := by
  rw [exec_debugWrite ha hp (by decide), debugWrite, if_pos (by omega)]
  simp only [Nat.mul_mod_right, Nat.mul_div_cancel_left k (show 0 < 8 by decide), ofNat_putField_dword]

theorem exec_dhzmWrite {s : State} {k : Nat} (x : DWord) (ha : answering s = true) (hp : pfLet s = true) (hk : k < 4) :
    exec (.registerWrite .debug (0x20 + 8 * k) 8 x) s = .next (hazWrite s k x) := by
  have hm : (0x20 + 8 * k) % 8 = 0 := by omega
  have hd : (0x20 + 8 * k - 0x20) / 8 = k := by omega
  rw [exec_debugWrite ha hp (by decide), debugWrite, if_neg (by omega), if_pos (by omega)]
  simp only [hm, hd, ofNat_putField_dword]

/-- A block of a queue in debug hazard mode (R356). -/
def hazMarked (m : DWord) (b : Block) : Block := { b with hazMode := b.debug && m.getLsbD b.queue }
/-- The step of `hazWrite` over the blocks. -/
def hazStep (k : Nat) (m : DWord) (s : State) (b : Block) : State := if b.part = k then modBlock s b.uid (hazMarked m) else s

theorem hazWrite_eq (s : State) (k : Nat) (m : DWord) : hazWrite s k m =
    (allBlocks s).foldl (hazStep k m) { modPart s k (fun p => { p with dhzm := m }) with
      grids := s.grids.map fun g => if g.part = k then { g with hazMode := g.debug && m.getLsbD g.queue } else g } := rfl

theorem modBlock_rest (s : State) (u : Nat) (f : Block → Block) : modBlock s u f = { s with blocks := (modBlock s u f).blocks } := by
  unfold modBlock; split <;> rfl
theorem hazStep_rest (k : Nat) (m : DWord) (s : State) (b : Block) : hazStep k m s b = { s with blocks := (hazStep k m s b).blocks } := by
  unfold hazStep; split
  · exact modBlock_rest ..
  · rfl
theorem hazFold_rest (k : Nat) (m : DWord) (l : List Block) (s : State) :
    l.foldl (hazStep k m) s = { s with blocks := (l.foldl (hazStep k m) s).blocks } := by
  refine foldl_rel (fun a b : State => b = { a with blocks := b.blocks }) (fun _ => rfl) (fun a b c hab hbc => ?_) _ l (fun a b _ => hazStep_rest k m a b) s
  rw [hab] at hbc; exact hbc

/-- Where all listed blocks of a number are of one partition, the fold marks that block if the partition is the one written. -/
theorem getBlock_hazFold (k : Nat) (m : DWord) (u p : Nat) (l : List Block) (hl : ∀ x ∈ l, x.uid = u → x.part = p) : ∀ s : State,
    getBlock (l.foldl (hazStep k m) s) u = if p = k ∧ u ∈ l.map (·.uid) then (getBlock s u).map (hazMarked m) else getBlock s u := by
  induction l with
  | nil => intro s; simp
  | cons x t ih =>
    intro s
    have step : getBlock (hazStep k m s x) u = if p = k ∧ x.uid = u then (getBlock s u).map (hazMarked m) else getBlock s u := by
      by_cases hx : x.uid = u
      · have hp := hl x (by simp) hx
        rw [hazStep, hp, hx]
        by_cases hk : p = k
        · rw [if_pos hk, if_pos ⟨hk, rfl⟩, getBlock_modBlock, if_pos rfl]
          exact Option.map_congr fun b hb => by rw [hazMarked, getBlock_uid hb]
        · rw [if_neg hk, if_neg fun h => hk h.1]
      · rw [if_neg fun h => hx h.2, hazStep]
        split
        · rw [getBlock_modBlock, if_neg (Ne.symm hx)]
        · rfl
    have twice : ((getBlock s u).map (hazMarked m)).map (hazMarked m) = (getBlock s u).map (hazMarked m) := by rw [Option.map_map]; rfl
    rw [List.foldl_cons, ih (fun y hy => hl y (List.mem_cons_of_mem x hy)), step]
    by_cases hk : p = k
    · by_cases hx : x.uid = u
      · simp [hk, hx, twice]
      · simp [hk, hx, Ne.symm hx]
    · simp [hk]

/-- The listed value of a key that is listed once. -/
theorem lookupCells_of_mem {α : Type} (d : α) {k : Nat} {v : α} {l : List (Nat × α)} (hn : (l.map Prod.fst).Nodup) (h : (k, v) ∈ l) : lookupCells d k l = v := by
  induction l with
  | nil => cases h
  | cons e t ih =>
    obtain ⟨k', v'⟩ := e
    rw [List.map_cons, List.nodup_cons] at hn
    rw [lookupCells]
    rcases List.mem_cons.mp h with e | h
    · cases e; rw [if_pos rfl]
    · have : k ≠ k' := fun e => hn.1 (List.mem_map.mpr ⟨_, h, e⟩)
      rw [if_neg this, ih hn.2 h]
/-- A value that is not the default is listed. -/
theorem mem_of_lookupCells {α : Type} {d v : α} {k : Nat} {l : List (Nat × α)} (h : lookupCells d k l = v) (hd : v ≠ d) : (k, v) ∈ l := by
  induction l with
  | nil => exact absurd h.symm hd
  | cons e t ih =>
    obtain ⟨k', v'⟩ := e
    rw [lookupCells] at h
    split at h
    · next hk => simp [hk, h]
    · exact List.mem_cons_of_mem _ (ih h)

theorem getBlock_of_mem_allBlocks {s : State} (hn : (s.blocks.cells.map Prod.fst).Nodup) {b : Block} (h : b ∈ allBlocks s) : getBlock s b.uid = some b := by
  obtain ⟨⟨k, v⟩, hm, he⟩ := List.mem_filterMap.mp h
  obtain ⟨x, rfl, rfl⟩ := Option.map_eq_some_iff.mp he
  rw [getBlock, SMap.get, lookupCells_of_mem none hn hm]; rfl
theorem mem_allBlocks_of_getBlock {s : State} {u : Nat} {b : Block} (h : getBlock s u = some b) : b ∈ allBlocks s := by
  obtain ⟨x, hx, rfl⟩ := Option.map_eq_some_iff.mp h
  exact List.mem_filterMap.mpr ⟨(u, some x), mem_of_lookupCells hx (by simp), rfl⟩

/-- The blocks after a write of DHZM, where no number is listed twice. -/
theorem getBlock_hazWrite {s : State} (k : Nat) (m : DWord) (hn : (s.blocks.cells.map Prod.fst).Nodup) {u : Nat} {b : Block} (hb : getBlock s u = some b) :
    getBlock (hazWrite s k m) u = some (if b.part = k then hazMarked m b else b) := by
  have one : ∀ x ∈ allBlocks s, x.uid = u → x.part = b.part := fun x hx hu => by
    have hx := getBlock_of_mem_allBlocks hn hx
    rw [hu, hb] at hx; rw [Option.some.inj hx]
  have mem : u ∈ (allBlocks s).map (·.uid) := List.mem_map.mpr ⟨b, mem_allBlocks_of_getBlock hb, getBlock_uid hb⟩
  rw [hazWrite_eq, getBlock_hazFold k m u b.part _ one]
  simp only [mem, and_true]
  change (if b.part = k then (getBlock s u).map (hazMarked m) else getBlock s u) = _
  rw [hb]
  split <;> rfl

theorem hazWrite_rest (s : State) (k : Nat) (m : DWord) : hazWrite s k m =
    { modPart s k (fun p => { p with dhzm := m }) with
      grids := s.grids.map fun g => if g.part = k then { g with hazMode := g.debug && m.getLsbD g.queue } else g
      blocks := (hazWrite s k m).blocks } := by
  rw [hazWrite_eq]; exact hazFold_rest ..

/-- DQEN (R356). -/
theorem dqen_written {s : State} {k : Nat} (x : DWord) (ha : answering s = true) (hp : pfLet s = true) (hk : k < 4) :
    ∃ t, exec (.registerWrite .debug (8 * k) 8 x) s = .next t ∧ t = { s with parts := t.parts } ∧ getPart t k = { getPart s k with dqen := x }
      ∧ ∀ j, j ≠ k → getPart t j = getPart s j :=
  ⟨_, exec_dqenWrite x ha hp hk, rfl, by rw [getPart_modPart, if_pos rfl], fun j hj => by rw [getPart_modPart, if_neg hj]⟩

/-- DHZM covers the debug grids of its queues at once, and their blocks (R356). -/
theorem dhzm_written {s : State} {k : Nat} (x : DWord) (ha : answering s = true) (hp : pfLet s = true) (hk : k < 4) :
    ∃ t, exec (.registerWrite .debug (0x20 + 8 * k) 8 x) s = .next t ∧ t = { s with parts := t.parts, grids := t.grids, blocks := t.blocks } ∧ getPart t k = { getPart s k with dhzm := x }
      ∧ (∀ j, j ≠ k → getPart t j = getPart s j) ∧ t.grids = s.grids.map (fun g => if g.part = k then { g with hazMode := g.debug && x.getLsbD g.queue } else g)
      ∧ ((s.blocks.cells.map Prod.fst).Nodup → ∀ u b, getBlock s u = some b → getBlock t u = some (if b.part = k then { b with hazMode := b.debug && x.getLsbD b.queue } else b)) := by
  have hr := hazWrite_rest s k x
  have parts : ∀ j, getPart (hazWrite s k x) j = getPart (modPart s k fun p => { p with dhzm := x }) j := fun j => getPart_congr (by rw [hr]) j
  refine ⟨_, exec_dhzmWrite x ha hp hk, ?_, ?_, fun j hj => ?_, by rw [hr], fun hn u b hb => getBlock_hazWrite k x hn hb⟩
  · rw [hr]; rfl
  · rw [parts, getPart_modPart, if_pos rfl]
  · rw [parts, getPart_modPart, if_neg hj]

/-! ### The shares of the regulators (R409) -/

/-- SHARE of a regulator, while no interface is locked. -/
theorem share_written {s : State} {k : Nat} (x : DWord) (ha : answering s = true) (hp : pfLet s = true) (hk : k < 4)
    (hu : ∀ j, j < 4 → (getPart s j).tdi = .unlocked) :
    ∃ t, exec (.registerWrite .mgmt (0x20100 + 8 * k) 8 x) s = .next t ∧ t = { s with dev := { s.dev with share := t.dev.share } }
      ∧ ∀ r, t.dev.share.get 0 r = if r = k then x.toNat % 1024 else s.dev.share.get 0 r := by
  have hm : (0x20100 + 8 * k) % 8 = 0 := by omega
  have hd : (0x20100 + 8 * k - 0x20100) / 8 = k := by omega
  have hf : frozenAt s .mgmt (0x20100 + 8 * k) 8 = [] := by
    simp only [frozenAt]
    rw [if_neg (by omega), if_neg (by omega), if_pos (by omega), List.filter_eq_nil_iff]
    intro j hj
    rw [isLocked_of_unlocked (hu j (List.mem_range.mp hj))]
    exact Bool.false_ne_true
  have hw : mgmtWrite s (0x20100 + 8 * k) 8 x.toNat = modDev s fun d => { d with share := d.share.set 0 k (x.toNat % 1024) } := by
    rw [mgmtWrite, if_pos (by omega)]
    simp only [hm, hd, putField_whole]
    rw [Nat.mod_mod_of_dvd _ (by decide)]
  exact ⟨_, by rw [exec_mgmtWrite ha hp (by decide) hf, hw], rfl, fun r => SMap.get_set ..⟩

/-! ### What the effects of a register write leave alone -/

/-- Memory, PF0's MSI-X table and the partition entries are as before: of a partition only its queues, its dispatcher's translations and its pending vectors differ. -/
structure EntriesKept (s t : State) : Prop where
  mem : t.mem = s.mem
  hostMem : t.hostMem = s.hostMem
  peerMem : t.peerMem = s.peerMem
  pfMsix : t.dev.pfMsix = s.dev.pfMsix
  part : ∀ k, getPart t k = { getPart s k with queues := (getPart t k).queues, dtlb := (getPart t k).dtlb, msixPba := (getPart t k).msixPba }

theorem EntriesKept.refl (s : State) : EntriesKept s s := ⟨rfl, rfl, rfl, rfl, fun _ => rfl⟩
theorem EntriesKept.trans {s t u : State} (a : EntriesKept s t) (b : EntriesKept t u) : EntriesKept s u where
  mem := b.mem.trans a.mem
  hostMem := b.hostMem.trans a.hostMem
  peerMem := b.peerMem.trans a.peerMem
  pfMsix := b.pfMsix.trans a.pfMsix
  part k := by have h := b.part k; rw [a.part k] at h; exact h

theorem EntriesKept.sameMemory {s t : State} (h : EntriesKept s t) : SameMemory s t := gRead_congr h.mem h.hostMem h.peerMem

theorem entriesKept_foldl {β : Type} {g : State → β → State} {l : List β} (h : ∀ s b, EntriesKept s (g s b)) (s : State) : EntriesKept s (l.foldl g s) :=
  foldl_rel EntriesKept EntriesKept.refl (fun _ _ _ => EntriesKept.trans) g l (fun s b _ => h s b) s

theorem entriesKept_modPart {f : Part → Part} (hf : ∀ p, f p = { p with queues := (f p).queues, dtlb := (f p).dtlb, msixPba := (f p).msixPba })
    (s : State) (k : Nat) : EntriesKept s (modPart s k f) where
  mem := rfl
  hostMem := rfl
  peerMem := rfl
  pfMsix := rfl
  part j := by
    rw [getPart_modPart]; split
    · next h => rw [h]; exact hf _
    · rfl
theorem entriesKept_modDev {f : Dev → Dev} (hf : ∀ d, (f d).pfMsix = d.pfMsix) (s : State) : EntriesKept s (modDev s f) := ⟨rfl, rfl, rfl, hf _, fun _ => rfl⟩
theorem entriesKept_modBlock (s : State) (u : Nat) (f : Block → Block) : EntriesKept s (modBlock s u f) := by
  rw [modBlock_rest]; exact ⟨rfl, rfl, rfl, rfl, fun _ => rfl⟩

/-! ### MSI-X tables (R408) -/

theorem entriesKept_sendPending (s : State) : EntriesKept s (sendPending s) := by
  refine EntriesKept.trans (entriesKept_foldl (fun s k => entriesKept_foldl (fun s n => ?_) s) s) (entriesKept_foldl (fun s v => ?_) _)
  · dsimp only
    split
    · exact (entriesKept_modPart (f := fun p => { p with msixPba := p.msixPba &&& ~~~(1#64 <<< n) }) (fun _ => by rfl) s k).trans (entriesKept_modDev (fun _ => by rfl) _)
    · exact EntriesKept.refl _
  · split
    · exact entriesKept_modDev (fun _ => by rfl) _
    · exact EntriesKept.refl _

theorem msixFlip_msixFlip (o : Nat) (b : Byte) : msixFlip o (msixFlip o b) = b := by
  unfold msixFlip; split
  · rw [BitVec.xor_assoc, BitVec.xor_self, BitVec.xor_zero]
  · rfl

/-- A read of an MSI-X table after a write of several bytes. -/
theorem msixRead_msixWrite (bs : List Byte) : ∀ (m : Memory) (a i : Nat),
    msixRead (msixWrite m a bs) i = if a ≤ i ∧ i < a + bs.length then bs.getD (i - a) 0 else msixRead m i := by
  induction bs with
  | nil =>
    intro m a i
    rw [if_neg fun ⟨h, g⟩ => by change i < a + 0 at g; omega]
    rfl
  | cons b t ih =>
    intro m a i
    have head : msixRead (Memory.write m a (msixFlip a b)) i = if i = a then b else msixRead m i := by
      rw [msixRead, Memory.read_write]
      split
      · next h => rw [h, msixFlip_msixFlip]
      · rfl
    rw [msixWrite, ih, head, List.length_cons]
    by_cases h : i = a
    · subst h
      rw [if_neg (by omega), if_pos rfl, if_pos (by omega), Nat.sub_self, List.getD_cons_zero]
    · by_cases h2 : a + 1 ≤ i ∧ i < a + 1 + t.length
      · rw [if_pos h2, if_pos (by omega), show i - a = (i - (a + 1)) + 1 by omega, List.getD_cons_succ]
      · rw [if_neg h2, if_neg h, if_neg (by omega)]

/-- The table holds the bytes of the number written. -/
theorem msixRead_msixWrite_leBytes (m : Memory) (a z x i : Nat) :
    msixRead (msixWrite m a (leBytes z x)) i = if a ≤ i ∧ i < a + z then BitVec.ofNat 8 (x / 256 ^ (i - a)) else msixRead m i := by
  rw [msixRead_msixWrite, leBytes_length]
  split
  · next h =>
    have hi : i - a < z := by omega
    apply BitVec.eq_of_toNat_eq
    rw [List.getD_eq_getElem?_getD, List.getElem?_eq_getElem (by rw [leBytes_length]; exact hi), Option.getD_some, leBytes_get z x _ hi, BitVec.toNat_ofNat]
  · rfl

/-- PF0's MSI-X table, through the management BAR (R408, R409). -/
theorem pfMsix_written {s : State} (x : DWord) (ha : answering s = true) (hp : pfLet s = true) {a z : Nat} (hz : z ≤ 8) (h : a + z ≤ 0x1000) :
    ∃ t, exec (.registerWrite .mgmt (0x60000 + a) z x) s = .next t
      ∧ (∀ i, msixRead t.dev.pfMsix i = if a ≤ i ∧ i < a + z then BitVec.ofNat 8 (x.toNat / 256 ^ (i - a)) else msixRead s.dev.pfMsix i) ∧ SameMemory s t := by
  have hf : frozenAt s .mgmt (0x60000 + a) z = [] := by
    simp only [frozenAt]
    rw [if_neg (by omega), if_neg (by omega), if_neg (by omega), if_neg (by omega), if_neg (by omega)]
  refine ⟨_, exec_mgmtWrite ha hp hz hf, ?_⟩
  by_cases hin : a < 0x1000
  · have hw : mgmtWrite s (0x60000 + a) z x.toNat = sendPending (modDev s fun d => { d with pfMsix := msixWrite d.pfMsix a (leBytes z x.toNat) }) := by
      rw [mgmtWrite, if_neg (by omega), if_neg (by omega), if_pos (by omega), Nat.add_sub_cancel_left]
    have kept := entriesKept_sendPending (modDev s fun d => { d with pfMsix := msixWrite d.pfMsix a (leBytes z x.toNat) })
    rw [hw]
    exact ⟨fun i => by rw [kept.pfMsix]; exact msixRead_msixWrite_leBytes .., kept.sameMemory⟩
  · have hw : mgmtWrite s (0x60000 + a) z x.toNat = s := by
      rw [mgmtWrite, if_neg (by omega), if_neg (by omega), if_neg (by omega), if_neg (by omega)]
    rw [hw]
    exact ⟨fun i => by rw [if_neg (by omega)], fun _ => rfl⟩

/-- A VF's MSI-X table, through its BAR (R408, R412). -/
theorem vfMsix_written {s : State} {k : Nat} (x : DWord) (ha : answering s = true) {a z : Nat} (hz : z ≤ 8) (h : a + z ≤ 0x400) (hl : fnLet s k k = true) :
    ∃ t, exec (.registerWrite (.vf k) (0x2000 + a) z x) s = .next t
      ∧ (∀ i, msixRead (getPart t k).msixTable i = if a ≤ i ∧ i < a + z then BitVec.ofNat 8 (x.toNat / 256 ^ (i - a)) else msixRead (getPart s k).msixTable i) ∧ SameMemory s t := by
  have hv : viewLet s (.vf k) = true := by
    rw [fnLet, Bool.and_eq_true] at hl; exact hl.1
  have hf : frozenAt s (.vf k) (0x2000 + a) z = [] := by simp only [frozenAt]; rw [if_neg (by omega)]
  have he : exec (.registerWrite (.vf k) (0x2000 + a) z x) s = .next (if 0x2000 + a < 0x2400
      then sendPending (modPart s k fun p => { p with msixTable := msixWrite p.msixTable (0x2000 + a - 0x2000) (leBytes z x.toNat) }) else s) := by
    rw [exec_registerWrite, execRegisterWrite, if_neg (by simp [ha, hv, hz]), hf]
    simp only
    rw [if_neg (by simp [hl]), if_neg (by omega), if_neg (by omega)]
  refine ⟨_, he, ?_⟩
  by_cases hin : 0x2000 + a < 0x2400
  · have kept := entriesKept_sendPending (modPart s k fun p => { p with msixTable := msixWrite p.msixTable a (leBytes z x.toNat) })
    rw [if_pos hin, Nat.add_sub_cancel_left]
    refine ⟨fun i => ?_, kept.sameMemory⟩
    rw [kept.part k, getPart_modPart, if_pos rfl]
    exact msixRead_msixWrite_leBytes ..
  · rw [if_neg hin]
    exact ⟨fun i => by rw [if_neg (by omega)], fun _ => rfl⟩

/-! ### Partition entries (R410) -/

/-- The table after each of the keys below `n` has been changed by itself. -/
theorem get_foldl_set {α : Type} [DecidableEq α] (d : α) (f : Nat → α → α) (m : SMap α) (n : Nat) : ∀ j,
    ((List.range n).foldl (fun m i => m.set d i (f i (m.get d i))) m).get d j = if j < n then f j (m.get d j) else m.get d j := by
  induction n with
  | zero => intro j; rfl
  | succ n ih =>
    intro j
    rw [List.range_succ, List.foldl_append, List.foldl_cons, List.foldl_nil, SMap.get_set, ih n, ih j, if_neg (Nat.lt_irrefl n)]
    by_cases h : j = n
    · rw [if_pos h, if_pos (by omega), h]
    · simp only [if_neg h, show j < n + 1 ↔ j < n by omega]

theorem partAfter_memBase (p : Part) (o size x : Nat) {m : Nat} (hm : m < 8) :
    (partAfter p o size x).memBase.get 0 m = putField (p.memBase.get 0 m) (0x20 + 16 * m) 8 o size x :=
  (get_foldl_set 0 (fun i v => putField v (0x20 + 16 * i) 8 o size x) p.memBase 8 m).trans (if_pos hm)
theorem partAfter_memSize (p : Part) (o size x : Nat) {m : Nat} (hm : m < 8) :
    (partAfter p o size x).memSize.get 0 m = putField (p.memSize.get 0 m) (0x28 + 16 * m) 8 o size x :=
  (get_foldl_set 0 (fun i v => putField v (0x28 + 16 * i) 8 o size x) p.memSize 8 m).trans (if_pos hm)

/-- An address is in the ranges of a partition where one of its eight ranges holds it. -/
theorem inRanges_rangesOf (p : Part) (a : Nat) :
    inRanges (rangesOf p) a = true ↔ ∃ m, m < 8 ∧ p.memBase.get 0 m ≤ a ∧ a < p.memBase.get 0 m + p.memSize.get 0 m := by
  simp only [inRanges, rangesOf, List.any_eq_true, List.mem_filter, List.mem_map, List.mem_range, Bool.and_eq_true, decide_eq_true_eq, bne_iff_ne]
  constructor
  · rintro ⟨_, ⟨⟨m, hm, rfl⟩, -⟩, h1, h2⟩
    exact ⟨m, hm, h1, h2⟩
  · rintro ⟨m, hm, h1, h2⟩
    exact ⟨_, ⟨⟨m, hm, rfl⟩, by simp only; omega⟩, h1, h2⟩

theorem lookupCells_filter {α : Type} (d : α) (p : Nat → Bool) (j : Nat) (l : List (Nat × α)) :
    lookupCells d j (l.filter fun e => !p e.1) = if p j then d else lookupCells d j l := by
  induction l with
  | nil => simp [lookupCells]
  | cons e t ih =>
    obtain ⟨k, v⟩ := e
    by_cases hk : p k
    · rw [List.filter_cons_of_neg (by simp [hk]), ih, lookupCells]
      by_cases hj : j = k
      · rw [hj, if_pos hk, if_pos hk]
      · rw [if_neg hj]
    · rw [List.filter_cons_of_pos (by simp [hk]), lookupCells, lookupCells, ih]
      by_cases hj : j = k
      · rw [hj, if_pos rfl, if_neg hk, if_pos rfl]
      · rw [if_neg hj, if_neg hj]

theorem entriesKept_modCores (f : Core → Core) (l : List Nat) (s : State) : EntriesKept s (l.foldl (fun s c => modCore s c f) s) := by
  refine entriesKept_foldl (fun s c => ?_) s
  exact ⟨rfl, rfl, rfl, rfl, fun _ => rfl⟩
theorem entriesKept_modPiers (f : Pier → Pier) (l : List Nat) (s : State) : EntriesKept s (l.foldl (fun s p => modPier s p f) s) := by
  refine entriesKept_foldl (fun s p => ?_) s
  exact ⟨rfl, rfl, rfl, rfl, fun _ => rfl⟩

/-- A scrub clears the bytes that it picks, and leaves every partition (R95). -/
theorem entriesKept_scrub (s : State) (p : Nat → Bool) : EntriesKept { s with mem := ⟨s.mem.cells.filter fun e => !p e.1⟩ } (scrub s p) := by
  have folds := (entriesKept_modCores (fun x => { x with l1 := ⟨x.l1.cells.filter fun e => !p (128 * e.1)⟩ }) s.cores.keys s).trans
    (entriesKept_modPiers (fun x => { x with rdc := ⟨x.rdc.cells.filter fun e => !p (128 * e.1)⟩ }) (List.range 4) _)
  exact { folds with mem := by rw [← folds.mem]; rfl }

theorem entriesKept_forgetPages (s : State) (p : Nat → Bool) : EntriesKept s (forgetPages s p) :=
  (entriesKept_modCores (fun x => { x with tlb := x.tlb.filter fun q => !p q.pasid }) s.cores.keys s).trans
    (entriesKept_foldl (fun s k => entriesKept_modPart (f := fun x => { x with dtlb := x.dtlb.filter fun q => !p q.pasid }) (fun _ => rfl) s k) _)

/-- Whether an address joins a partition as its entry changes. -/
def joins (old new : Part) (a : Nat) : Bool := inRanges (rangesOf new) a && !inRanges (rangesOf old) a
/-- The state as an entry has changed: the memory that joins it reads zero (R95, R410). -/
def withEntry (s : State) (k : Nat) (new : Part) : State :=
  { setPart s k new with mem := ⟨s.mem.cells.filter fun e => !joins (getPart s k) new e.1⟩ }

/-- Whether a course of an entry as written belongs to another partition (R410). -/
def Overlaps (s : State) (k : Nat) (new : Part) : Prop := ∃ j, j < 4 ∧ j ≠ k ∧ (getPart s j).courses &&& new.courses ≠ 0

theorem any_overlaps (s : State) (k : Nat) (new : Part) :
    ((List.range 4).any fun j => j != k && ((getPart s j).courses &&& new.courses) != 0) = true ↔ Overlaps s k new := by
  simp only [List.any_eq_true, List.mem_range, Bool.and_eq_true, bne_iff_ne, Overlaps]

/-- An entry whose courses overlap another's is not written. -/
theorem partWrite_overlaps {s : State} {k o size x : Nat} (h : Overlaps s k (partAfter (getPart s k) o size x)) : partWrite s k o size x = s := by
  rw [partWrite]
  exact if_pos ((any_overlaps ..).mpr h)

/-- The scrub of a write of an entry. -/
theorem entriesKept_withEntry (s : State) (k : Nat) (new : Part) :
    EntriesKept (withEntry s k new) (if rangesOf new = rangesOf (getPart s k) then setPart s k new else scrub (setPart s k new) (joins (getPart s k) new)) := by
  split
  · next hr =>
    have stays : ∀ a, joins (getPart s k) new a = false := fun a => by rw [joins, hr, Bool.and_not_self]
    have hm : s.mem.cells.filter (fun e => !joins (getPart s k) new e.1) = s.mem.cells := List.filter_eq_self.mpr fun e _ => by rw [stays]; rfl
    exact ⟨congrArg SMap.mk hm.symm, rfl, rfl, rfl, fun _ => rfl⟩
  · exact entriesKept_scrub (setPart s k new) (joins (getPart s k) new)

/-- A write of an entry that is performed. -/
theorem entriesKept_partWrite {s : State} {k o size x : Nat} {new : Part} (hn : partAfter (getPart s k) o size x = new) (h : ¬ Overlaps s k new) :
    EntriesKept (withEntry s k new) (partWrite s k o size x) := by
  subst hn
  rw [partWrite]
  dsimp only
  rw [if_neg (mt (any_overlaps ..).mp h)]
  exact (entriesKept_withEntry s k _).trans (entriesKept_forgetPages _ _)

theorem Memory.read_filter (m : Memory) (p : Nat → Bool) (a : Nat) : Memory.read ⟨m.cells.filter fun e => !p e.1⟩ a = if p a then 0 else Memory.read m a :=
  lookupCells_filter memDefault p a m.cells

/-- Where no address joins the partition, memory stays as it is. -/
theorem sameMemory_withEntry {s : State} {k : Nat} {new : Part} (h : ∀ a, inRanges (rangesOf new) a = inRanges (rangesOf (getPart s k)) a) :
    SameMemory s (withEntry s k new) := by
  intro l
  cases l with
  | dev a =>
    refine (Memory.read_filter s.mem (joins (getPart s k) new) a).trans (if_neg ?_)
    rw [joins, h, Bool.and_not_self]
    exact Bool.false_ne_true
  | host a => rfl
  | peer d v => rfl

theorem getPart_withEntry (s : State) (k : Nat) (new : Part) : getPart (withEntry s k new) k = new := SMap.get_set_self ..

/-- A write of an unlocked entry of which nothing is resident. -/
theorem exec_entryWrite {s : State} {k o size : Nat} {x : DWord} (ha : answering s = true) (hp : pfLet s = true) (hk : k < 4) (hz : size ≤ 8)
    (hu : (getPart s k).tdi = .unlocked) (hb : partBusy s k = false) : exec (.partitionEntryWrite k o size x) s = .next (partWrite s k o size x.toNat) := by
  rw [exec_partitionEntryWrite, execPartitionEntryWrite, if_neg (by simp only [ha, hp, not_true_eq_false, false_or]; omega), if_neg (by simp [isLocked_of_unlocked hu]), if_neg (by simp [hb])]

theorem partAfter_courses (p : Part) (o size x : Nat) : (partAfter p o size x).courses = BitVec.ofNat 8 (putField p.courses.toNat 0 1 o size x) := rfl

/-- A write of the byte of the courses (R410). -/
theorem partAfter_courses_written {p : Part} (x : DWord) (hb : p.pbase < 2 ^ 32) (hc : p.pcnt < 2 ^ 32) :
    partAfter p 0 1 x.toNat = { p with courses := x.setWidth 8, memBase := (partAfter p 0 1 x.toNat).memBase, memSize := (partAfter p 0 1 x.toNat).memSize } := by
  have en : decide (putField p.en.toNat 1 1 0 1 x.toNat % 2 = 1) = p.en := bit_putField_outside (by decide) (by decide) _ _
  have hpb : putField p.pbase 4 4 0 1 x.toNat = p.pbase := putField_keeps (by decide) hb _
  have hpc : putField p.pcnt 8 4 0 1 x.toNat = p.pcnt := putField_keeps (by decide) hc _
  have hom : BitVec.ofNat 64 (putField p.outmask.toNat 0x10 8 0 1 x.toNat) = p.outmask := ofNat_putField_outside (by decide) (by decide) _ _
  have hco : BitVec.ofNat 8 (putField p.courses.toNat 0 1 0 1 x.toNat) = x.setWidth 8 := ofNat_putField_whole (by decide) _ _ _
  rw [partAfter]
  simp only [en, hpb, hpc, hom, hco]

/-- COURSES of an entry (R410): a course of another partition is refused. -/
theorem partCourses_written {s : State} {k : Nat} (x : DWord) (ha : answering s = true) (hp : pfLet s = true) (hk : k < 4) (hu : (getPart s k).tdi = .unlocked)
    (hb : partBusy s k = false) (hpb : (getPart s k).pbase < 2 ^ 32) (hpc : (getPart s k).pcnt < 2 ^ 32)
    (hm : ∀ m, m < 8 → (getPart s k).memBase.get 0 m < 2 ^ 64 ∧ (getPart s k).memSize.get 0 m < 2 ^ 64) :
    ((∀ j, j < 4 → j ≠ k → (getPart s j).courses &&& x.setWidth 8 = 0) → ∃ t, exec (.partitionEntryWrite k 0 1 x) s = .next t ∧ (getPart t k).courses = x.setWidth 8
      ∧ (getPart t k).en = (getPart s k).en ∧ (getPart t k).pbase = (getPart s k).pbase ∧ SameMemory s t)
    ∧ ((∃ j, j < 4 ∧ j ≠ k ∧ (getPart s j).courses &&& x.setWidth 8 ≠ 0) → exec (.partitionEntryWrite k 0 1 x) s = .next s) := by
  have he := exec_entryWrite (o := 0) (size := 1) (x := x) ha hp hk (by decide) hu hb
  have new := partAfter_courses_written x hpb hpc
  have courses : (partAfter (getPart s k) 0 1 x.toNat).courses = x.setWidth 8 := by rw [new]
  constructor
  · intro free
    have kept := entriesKept_partWrite (o := 0) (size := 1) (x := x.toNat) rfl (s := s) (k := k) fun ⟨j, hj, hjk, hc⟩ => hc (by rw [courses]; exact free j hj hjk)
    have ranges : ∀ a, inRanges (rangesOf (partAfter (getPart s k) 0 1 x.toNat)) a = inRanges (rangesOf (getPart s k)) a := by
      intro a
      rw [Bool.eq_iff_iff, inRanges_rangesOf, inRanges_rangesOf]
      refine exists_congr fun m => and_congr_right fun h8 => ?_
      rw [partAfter_memBase _ _ _ _ h8, partAfter_memSize _ _ _ _ h8, putField_keeps (by omega) (hm m h8).1, putField_keeps (by omega) (hm m h8).2]
    have part := kept.part k
    rw [getPart_withEntry, new] at part
    refine ⟨_, he, by rw [part], by rw [part], by rw [part], fun l => ?_⟩
    rw [kept.sameMemory l]
    exact sameMemory_withEntry ranges l
  · rintro ⟨j, hj, hjk, hc⟩
    rw [he, partWrite_overlaps ⟨j, hj, hjk, by rw [courses]; exact hc⟩]

/-- The size of a range, where the partition has no memory yet: what joins it reads zero (R95, R410). -/
theorem partMemSize_written {s : State} {k : Nat} (x : DWord) (ha : answering s = true) (hp : pfLet s = true) (hk : k < 4) (hu : (getPart s k).tdi = .unlocked)
    (hb : partBusy s k = false) (hm : ∀ m, m < 8 → (getPart s k).memBase.get 0 m < 2 ^ 64 ∧ (getPart s k).memSize.get 0 m < 2 ^ 64)
    {m : Nat} (hm8 : m < 8) (free : ∀ j, j < 4 → j ≠ k → (getPart s j).courses &&& (getPart s k).courses = 0)
    (others : ∀ j, j < 8 → j ≠ m → (getPart s k).memSize.get 0 j = 0) (h0 : (getPart s k).memSize.get 0 m = 0) :
    ∃ t, exec (.partitionEntryWrite k (0x28 + 16 * m) 8 x) s = .next t ∧ (getPart t k).memSize.get 0 m = x.toNat
      ∧ ∀ a, gRead t (.dev a) = if (getPart s k).memBase.get 0 m ≤ a ∧ a < (getPart s k).memBase.get 0 m + x.toNat then 0 else gRead s (.dev a) := by
  obtain ⟨new, hn⟩ : ∃ new, partAfter (getPart s k) (0x28 + 16 * m) 8 x.toNat = new := ⟨_, rfl⟩
  have empty : ∀ j, j < 8 → (getPart s k).memSize.get 0 j = 0 := fun j hj => if h : j = m then h ▸ h0 else others j hj h
  have courses : new.courses = (getPart s k).courses := by
    rw [← hn, partAfter_courses, ofNat_putField_outside (by decide) (by omega)]
  have size : ∀ j, j < 8 → new.memSize.get 0 j = if j = m then x.toNat else 0 := by
    intro j hj
    rw [← hn, partAfter_memSize _ _ _ _ hj]
    split
    · next h => rw [h, putField_whole, Nat.mod_eq_of_lt (show x.toNat < 256 ^ 8 from x.isLt)]
    · next h => rw [putField_outside (by omega), empty j hj, Nat.zero_mod]
  have base : ∀ j, j < 8 → new.memBase.get 0 j = (getPart s k).memBase.get 0 j := fun j hj => by
    rw [← hn, partAfter_memBase _ _ _ _ hj, putField_keeps (by omega) (hm j hj).1]
  have joined : ∀ a, joins (getPart s k) new a = true ↔ (getPart s k).memBase.get 0 m ≤ a ∧ a < (getPart s k).memBase.get 0 m + x.toNat := by
    intro a
    have old : inRanges (rangesOf (getPart s k)) a = false := by
      rw [← Bool.not_eq_true, inRanges_rangesOf]
      rintro ⟨j, hj, h1, h2⟩
      rw [empty j hj] at h2
      omega
    rw [joins, old, Bool.not_false, Bool.and_true, inRanges_rangesOf]
    constructor
    · rintro ⟨j, hj, h1, h2⟩
      rw [base j hj] at h1 h2
      rw [size j hj] at h2
      split at h2
      · next h => exact h ▸ ⟨h1, h2⟩
      · omega
    · rintro ⟨h1, h2⟩
      exact ⟨m, hm8, by rw [base m hm8]; exact h1, by rw [base m hm8, size m hm8, if_pos rfl]; exact h2⟩
  have kept := entriesKept_partWrite hn fun ⟨j, hj, hjk, hc⟩ => hc (by rw [courses]; exact free j hj hjk)
  have part := kept.part k
  rw [getPart_withEntry] at part
  refine ⟨_, exec_entryWrite ha hp hk (by decide) hu hb, by rw [part]; exact (size m hm8).trans (if_pos rfl), fun a => ?_⟩
  rw [kept.sameMemory]
  refine (Memory.read_filter s.mem (joins (getPart s k) new) a).trans ?_
  simp only [joined a]
  rfl

/-! ### Writes to frozen items (R346, R421, R422) -/

theorem entriesKept_signalQueue (s : State) (k n : Nat) : EntriesKept s (signalQueue s k n) := by
  unfold signalQueue
  split
  · dsimp only; split
    · exact EntriesKept.refl s
    · split
      · exact entriesKept_modPart (f := fun p => { p with msixPba := p.msixPba ||| (1#64 <<< n) }) (fun _ => rfl) s k
      · exact entriesKept_modDev (fun _ => by rfl) s
  · dsimp only; split
    · exact EntriesKept.refl s
    · split <;> exact entriesKept_modDev (fun _ => by rfl) s
theorem entriesKept_stopQueue (s : State) (k n e : Nat) : EntriesKept s (stopQueue s k n e) := by
  have stopped : EntriesKept s (modQueue s k n fun q => { q with state := 2, err := e }) :=
    entriesKept_modPart (f := fun p => { p with queues := p.queues.set {} n { getQueue s k n with state := 2, err := e } }) (fun _ => rfl) s k
  unfold stopQueue; dsimp only; split
  · exact stopped
  · exact stopped.trans (entriesKept_signalQueue _ k n)

/-- A block that has stopped (R346). -/
def halted (b : Block) : Block := { b with frozen := true }

/-- A fatal fault of a block that had none halts it, and ends with the stop of its queue. -/
theorem fatalFault_stops {s : State} {u : Nat} {b : Block} (hb : getBlock s u = some b) (hf : b.frozen = false) :
    ∃ t, fatalFault s u = stopQueue t b.part b.queue 0x0A ∧ t.blocks = (setBlock s (halted b)).blocks ∧ EntriesKept s t := by
  unfold fatalFault
  rw [hb]
  simp only [hf, Bool.false_eq_true, if_false]
  split <;> exact ⟨_, rfl, rfl, rfl, rfl, rfl, rfl, fun _ => rfl⟩
/-- A block that is frozen or is not there has no further fatal fault. -/
theorem fatalFault_frozen {s : State} {u : Nat} (h : ∀ b, getBlock s u = some b → b.frozen = true) : fatalFault s u = s := by
  unfold fatalFault
  split
  · rfl
  · next b hb => exact if_pos (h b hb)

theorem fatalFault_cases (s : State) (u : Nat) : (fatalFault s u = s ∧ ∀ b, getBlock s u = some b → b.frozen = true) ∨
    ∃ b t, getBlock s u = some b ∧ fatalFault s u = stopQueue t b.part b.queue 0x0A ∧ t.blocks = (setBlock s (halted b)).blocks ∧ EntriesKept s t := by
  by_cases h : ∀ b, getBlock s u = some b → b.frozen = true
  · exact .inl ⟨fatalFault_frozen h, h⟩
  · obtain ⟨b, h⟩ := Classical.not_forall.mp h
    obtain ⟨hb, hf⟩ := Classical.not_imp.mp h
    obtain ⟨t, ht⟩ := fatalFault_stops hb (Bool.eq_false_iff.mpr hf)
    exact .inr ⟨b, t, hb, ht⟩

theorem entriesKept_fatalFault (s : State) (u : Nat) : EntriesKept s (fatalFault s u) := by
  rcases fatalFault_cases s u with ⟨h, -⟩ | ⟨b, t, -, h, -, kept⟩
  · rw [h]; exact EntriesKept.refl s
  · rw [h]; exact kept.trans (entriesKept_stopQueue t _ _ _)

theorem getBlock_fatalFault (s : State) (v u : Nat) : getBlock (fatalFault s v) u = if u = v then (getBlock s u).map halted else getBlock s u := by
  rcases fatalFault_cases s v with ⟨h, frozen⟩ | ⟨b, t, hb, h, ht, -⟩
  · rw [h]
    split
    · next e =>
      subst e
      cases hx : getBlock s u with
      | none => rfl
      | some x => rw [Option.map_some, halted, ← frozen x hx]
    · rfl
  · have hv := getBlock_uid hb
    subst hv
    have hs : (fatalFault s b.uid).blocks = (setBlock s (halted b)).blocks := by rw [h, stopQueue_rest]; exact ht
    rw [getBlock_congr hs, getBlock_setBlock]
    change (if u = b.uid then _ else _) = _
    split
    · next e => rw [e, hb]; rfl
    · rfl

/-- A block whose buffered stores and requests are never sent (R422). -/
def quieted (b : Block) : Block := { b with warps := ⟨b.warps.cells.map fun e => (e.1, e.2.map fun w => { w with sb := [], reqs := [] })⟩ }

theorem sb_quieted {b : Block} {j : Nat} {w : Warp} (h : warpOf (quieted b) j = some w) : w.sb = [] := by
  obtain ⟨x, hx, rfl⟩ := Option.map_eq_some_iff.mp h
  obtain ⟨e, -, he⟩ := List.mem_map.mp (mem_of_lookupCells hx (by simp))
  obtain ⟨y, -, rfl⟩ := Option.map_eq_some_iff.mp (Prod.mk.inj he).2
  rfl

/-- Quieting a block touches its warps, its core's engine work, and what it has in flight. -/
theorem quietBlock_rest (s : State) (b : Block) :
    quietBlock s b = { modBlock s b.uid quieted with cores := (quietBlock s b).cores, transit := (quietBlock s b).transit, ops := (quietBlock s b).ops } := by
  unfold quietBlock; dsimp only; split <;> rfl

theorem getBlock_modBlock_map (f : Block → Block) (hf : ∀ x, (f x).uid = x.uid) (s : State) (v u : Nat) :
    getBlock (modBlock s v f) u = if u = v then (getBlock s u).map f else getBlock s u := by
  rw [getBlock_modBlock]
  split
  · next h =>
    rw [h]
    exact Option.map_congr fun x hx => by rw [← getBlock_uid hx, ← hf x]
  · rfl

theorem silence_eq (s : State) (b : Block) : silence s b = quietBlock (if b.exited then s else modBlock (fatalFault s b.uid) b.uid halted) b := rfl

theorem getBlock_silence (s : State) (b : Block) (u : Nat) : getBlock (silence s b) u =
    if u = b.uid then (getBlock s u).map (fun x => quieted (if b.exited then x else halted x)) else getBlock s u := by
  have quiet : ∀ t : State, getBlock (quietBlock t b) u = if u = b.uid then (getBlock t u).map quieted else getBlock t u := fun t => by
    have hb : (quietBlock t b).blocks = (modBlock t b.uid quieted).blocks := by rw [quietBlock_rest]
    rw [getBlock_congr hb, getBlock_modBlock_map quieted (fun _ => rfl)]
  rw [silence_eq, quiet]
  by_cases hu : u = b.uid
  · rw [if_pos hu, if_pos hu]
    cases b.exited with
    | true => rfl
    | false =>
      rw [if_neg Bool.false_ne_true, getBlock_modBlock_map halted (fun _ => rfl), if_pos hu, getBlock_fatalFault, if_pos hu, Option.map_map, Option.map_map]
      rfl
  · rw [if_neg hu, if_neg hu]
    split
    · rfl
    · rw [getBlock_modBlock_map halted (fun _ => rfl), if_neg hu, getBlock_fatalFault, if_neg hu]

theorem entriesKept_silence (s : State) (b : Block) : EntriesKept s (silence s b) := by
  have quiet : ∀ t : State, EntriesKept t (quietBlock t b) := fun t => by
    rw [quietBlock_rest]
    exact (entriesKept_modBlock t b.uid quieted).trans ⟨rfl, rfl, rfl, rfl, fun _ => rfl⟩
  rw [silence_eq]
  refine EntriesKept.trans ?_ (quiet _)
  split
  · exact EntriesKept.refl s
  · exact (entriesKept_fatalFault s b.uid).trans (entriesKept_modBlock _ _ _)

/-- A block that has stopped, with nothing left to send (R422). -/
def Silent (s : State) (u : Nat) : Prop := ∃ b, getBlock s u = some b ∧ b.frozen = true ∧ ∀ j w, warpOf b j = some w → w.sb = []

/-- The blocks that are silenced include one that has not exited: it falls silent, and stays so. -/
theorem silent_foldl {u : Nat} : ∀ (l : List Block) (s : State), (getBlock s u).isSome → (Silent s u ∨ ∃ b ∈ l, b.uid = u ∧ b.exited = false) →
    Silent (l.foldl silence s) u := by
  intro l
  induction l with
  | nil =>
    rintro s - (h | ⟨b, hb, -⟩)
    · exact h
    · cases hb
  | cons x t ih =>
    intro s hs h
    obtain ⟨y, hy⟩ := Option.isSome_iff_exists.mp hs
    have hx := getBlock_silence s x u
    rw [hy] at hx
    by_cases hu : u = x.uid
    · rw [if_pos hu, Option.map_some] at hx
      refine ih _ (by rw [hx]; rfl) ?_
      have silent : y.frozen = true ∨ x.exited = false → Silent (silence s x) u := fun hf =>
        ⟨_, hx, by rcases hf with hf | hf <;> simp [quieted, halted, hf, apply_ite Block.frozen], fun _ _ => sb_quieted⟩
      rcases h with ⟨b, hb, hf, -⟩ | ⟨b, hb, hbu, hbe⟩
      · exact .inl (silent (.inl (by rw [hy] at hb; rw [Option.some.inj hb]; exact hf)))
      · rcases List.mem_cons.mp hb with rfl | hb
        · exact .inl (silent (.inr hbe))
        · exact .inr ⟨b, hb, hbu, hbe⟩
    · rw [if_neg hu] at hx
      refine ih _ (by rw [hx]; rfl) ?_
      rcases h with ⟨b, hb, hs⟩ | ⟨b, hb, hbu, hbe⟩
      · exact .inl ⟨b, by rw [hx, ← hy, hb], hs⟩
      · rcases List.mem_cons.mp hb with rfl | hb
        · exact absurd hbu.symm hu
        · exact .inr ⟨b, hb, hbu, hbe⟩

theorem applyImage_rest (s : State) : applyImage s = { s with dev := (applyImage s).dev } := by
  unfold applyImage; split <;> rfl
theorem entriesKept_applyImage (s : State) : EntriesKept s (applyImage s) := by
  unfold applyImage; split
  · exact EntriesKept.refl s
  · exact entriesKept_modDev (fun _ => by rfl) s

/-- The entry of a TDI in ERROR is as it was. -/
theorem entriesKept_enterError (s : State) (k : Nat) : EntriesKept (modPart s k fun p => { p with tdi := .error }) (enterError s k) := by
  have silenced := entriesKept_foldl (l := (allBlocks s).filter fun b => b.part == k) entriesKept_silence (modPart s k fun p => { p with tdi := .error })
  have unsent := entriesKept_modDev (f := fun d => { d with sentMsix := s.dev.sentMsix }) (fun _ => rfl)
  exact silenced.trans ((unsent _).trans (entriesKept_applyImage _))

/-- The blocks of a TDI in ERROR have stopped (R422). -/
theorem silent_enterError {s : State} {k u : Nat} {b : Block} (hb : getBlock s u = some b) (hp : b.part = k) (he : b.exited = false) : Silent (enterError s k) u := by
  have member : b ∈ (allBlocks s).filter fun b => b.part == k := List.mem_filter.mpr ⟨mem_allBlocks_of_getBlock hb, beq_iff_eq.mpr hp⟩
  obtain ⟨c, hc, silent⟩ := silent_foldl ((allBlocks s).filter fun b => b.part == k) (modPart s k fun p => { p with tdi := .error })
    (show (getBlock s u).isSome by rw [hb]; rfl) (.inr ⟨b, member, getBlock_uid hb, he⟩)
  refine ⟨c, ?_, silent⟩
  rw [enterError, applyImage_rest]
  exact hc

/-- A write to an entry of a locked interface, as either event names it. -/
theorem exec_frozenEntry {s : State} {k : Nat} (ha : answering s = true) (hp : pfLet s = true) (hk : k < 4) (hu : (getPart s k).tdi ≠ .unlocked)
    {i : Instr} {o size : Nat} {x : DWord} (ho : o < 256) (hz : size ≤ 8)
    (hi : i = .partitionEntryWrite k o size x ∨ i = .frozenItemWrite .mgmt (0x10000 + 256 * k + o) size) : exec i s = .next (enterError s k) := by
  have locked := (isLocked_iff s k).mpr hu
  rcases hi with rfl | rfl
  · rw [exec_partitionEntryWrite, execPartitionEntryWrite, if_neg (by simp only [ha, hp, not_true_eq_false, false_or]; omega), if_pos locked]
  · have hf : frozenAt s .mgmt (0x10000 + 256 * k + o) size = [k] := by
      have hd : (0x10000 + 256 * k + o - 0x10000) / 256 = k := by omega
      simp only [frozenAt]
      rw [if_pos (by omega), hd, List.filter_cons_of_pos locked, List.filter_nil]
    rw [exec_frozenItemWrite, execFrozenItemWrite, if_pos ⟨ha, hp⟩, hf]
    rfl

/-- A write to a frozen entry is not performed: the interface goes to ERROR and its blocks stop (R421, R422). -/
theorem frozenEntry_written {s : State} {k : Nat} (hu : (getPart s k).tdi ≠ .unlocked) (ha : answering s = true) (hp : pfLet s = true) (hk : k < 4)
    {i : Instr} {o size : Nat} {x : DWord} (ho : o < 256) (hz : size ≤ 8)
    (hi : i = .partitionEntryWrite k o size x ∨ i = .frozenItemWrite .mgmt (0x10000 + 256 * k + o) size) :
    ∃ t, exec i s = .next t ∧ (getPart t k).tdi = .error ∧ (getPart t k).courses = (getPart s k).courses ∧ (getPart t k).memSize = (getPart s k).memSize ∧ SameMemory s t
      ∧ ∀ u b, getBlock s u = some b → b.part = k → b.exited = false → ∃ b', getBlock t u = some b' ∧ b'.frozen = true ∧ ∀ j w, warpOf b' j = some w → w.sb = [] := by
  have kept := entriesKept_enterError s k
  have part := kept.part k
  rw [getPart_modPart, if_pos rfl] at part
  exact ⟨_, exec_frozenEntry ha hp hk hu ho hz hi, by rw [part], by rw [part], by rw [part], kept.sameMemory, fun u b hb hpk he => silent_enterError hb hpk he⟩

/-- Settles O47: each kind of register by its own lemma, for writes that are performed, and the stop of an interface for those to frozen items. -/
theorem registersWritten : Obligations.RegistersWritten := by
  refine ⟨fun s k n x q hq hp hu hl ht hm o ho => queueRegisters_written x hq hp hu hl ht hm ho,
    fun s d x r ha hp h0 h63 hr hu hi hm hs => routeRegisters_written x ha hp h0 h63 hr hu hi hm hs,
    fun s k x ha hp hk => ⟨dqen_written x ha hp hk, dhzm_written x ha hp hk, share_written x ha hp hk,
      fun a z hz => ⟨pfMsix_written x ha hp hz, vfMsix_written x ha hz⟩⟩,
    fun s k x ha hp hk => ⟨fun hu hb hpb hpc hm => ?_, fun hu i o size ho hz hi => frozenEntry_written hu ha hp hk ho hz hi⟩⟩
  obtain ⟨written, refused⟩ := partCourses_written x ha hp hk hu hb hpb hpc hm
  exact ⟨written, refused, fun m h8 free others h0 => partMemSize_written x ha hp hk hu hb hm h8 free others h0⟩

end Sys2Proof.Machine
end
